-- ==== Sys2Proof/Word.lean ====
section
/-! DEFINITION. The word types of the W1: bytes, 16-, 32- and 64-bit words (00_scope.md R5, Table 0.1). -/

namespace Sys2Proof

/-- One byte. -/
abbrev Byte := BitVec 8
/-- A 16-bit word. -/
abbrev Half := BitVec 16
/-- A 32-bit word: one lane register of one thread, one mask register, one BAR 0 register. -/
abbrev Word := BitVec 32
/-- A 64-bit word: one uniform register, one address. -/
abbrev Dword := BitVec 64
/-- A register number as an operand field holds it (Table 11.4). -/
abbrev Reg := BitVec 8

end Sys2Proof
end

