-- ==== Sys2Proof/Syntax.lean ====
section
/-! DEFINITION. The syntax of every step of the W1: the 98 Verhitrix instructions of Table 11.7 with their operand forms, and
the 97 events of spec/opcode_table.json with what their agent or the environment supplies. -/

namespace Sys2Proof

/-! ## Operands and modifiers -/

/-- Type codes of Table 11.5. -/
inductive Ty | f64 | f32 | f16 | bf16 | e4m3 | e5m2 | q4o | i8 | i16 | i32 | i64 | n8 | n16 | n32 | n64 | b32 | b64
deriving DecidableEq, Repr

/-- Rounding modes of Table 3.3. -/
inductive RMode | rne | rna | rtz | rup | rdn
deriving DecidableEq, Repr

/-- Scopes of Table 6.1, narrowest first. -/
inductive Scope | grp | blk | clu | dev | sys
deriving DecidableEq, Repr

/-- Ordering modifiers of atomics and copies (R274, R279). -/
inductive Ord | none | acq | rel | ar
deriving DecidableEq, Repr

/-- Fence kinds of Table 6.2. -/
inductive FenceKind | acq | rel | ar | sc
deriving DecidableEq, Repr

/-- The execution mask of an instruction: MASK and MNEG (R216). -/
structure Pred where
  neg : Bool
  m : BitVec 4
deriving DecidableEq, Repr

/-- Operand b where Table 11.8 admits V, K or I: a lane register, a uniform register, IMM32 or IMM64. -/
inductive OpB
  | v (n : Reg)
  | k (n : Reg)
  | i32 (w : Word)
  | i64 (w : Dword)
deriving DecidableEq, Repr

/-- Operand b where Table 11.8 admits "K, or offset" (R221), or K or I in all three lengths. -/
inductive OffB
  | k (n : Reg)
  | i32 (w : Word)
  | i64 (w : Dword)
deriving DecidableEq, Repr

/-- Operand b where Table 11.8 admits K, or I in the 96-bit form. -/
inductive KI
  | k (n : Reg)
  | i (w : Word)
deriving DecidableEq, Repr

/-- A branch or call offset in one of the three lengths (R222). -/
inductive Target
  | off24 (o : BitVec 24)
  | off32 (o : Word)
  | off64 (o : Dword)
deriving DecidableEq, Repr

/-- The lengths of Table 11.1. -/
inductive Len | l64 | l96 | l128
deriving DecidableEq, Repr

/-- Extension of operand b in `add` (R228). -/
inductive Ext | none | sx | zx
deriving DecidableEq, Repr

/-- Conditions of `icmp` (Table 12.1). -/
inductive ICond | eq | ne | lt | le | gt | ge
deriving DecidableEq, Repr

/-- Conditions of `fcmp` (Table 13.4). -/
inductive FCond | eq | ne | lt | le | gt | ge | un | or
deriving DecidableEq, Repr

/-- Conditions of `brc` (R235). -/
inductive BrCond | nz | z | ltz | gez
deriving DecidableEq, Repr

/-- Operations of `cnt` (Table 12.1). -/
inductive CntOp | pop | lz | tz | rev
deriving DecidableEq, Repr

/-- Operations of `mop` (Table 12.3). -/
inductive MopOp | and | or | xor | andn | not
deriving DecidableEq, Repr

/-- Forms of `mmov` (Table 12.3). -/
inductive MmovOp | m | k | unit
deriving DecidableEq, Repr

/-- Selections of `xsel` (R263). -/
inductive XselOp | idx | xor | up | down
deriving DecidableEq, Repr

/-- Directions of `qswap` (R264). -/
inductive QDir | h | v | d
deriving DecidableEq, Repr

/-- Cache levels of `ipf` (R243). -/
inductive CacheLevel | l0 | l1 | l2
deriving DecidableEq, Repr

/-- Element counts of a load or store run (Table 14.1). -/
inductive Cnt | x1 | x2 | x4
deriving DecidableEq, Repr

/-- Atomic operations of Table 14.2. -/
inductive AtomOp | add | min | max | and | or | xor | xch | cas | ld
deriving DecidableEq, Repr

/-! ## What events carry -/

/-- The agents that own control semaphores (Table 1.3). -/
inductive Agent | port0 | port1 | mgmt
deriving DecidableEq, Repr

/-- The four semaphores of Table 1.2. -/
inductive Sem | power | fwUpdate | fuse | reset
deriving DecidableEq, Repr

/-- What the peer's pre-flight of the remote side of a `cppeer` answers (Table 21.1). -/
inductive RemoteCheck
  | pass
  | notPresent (addr : Dword)
  | denied (addr : Dword)
  /-- the remote side touches more pages than R113 allows -/
  | tooMany
deriving DecidableEq, Repr

/-- A management register access message (Table 1.7). -/
structure MgmtReq where
  cmd : Byte
  resv : BitVec 24
  offset : Word
  data : Word
  /-- some sensor reads 95 °C or more, for a write of PSTATE (R377) -/
  hot : Bool := false
deriving DecidableEq, Repr

/-- Who writes PSTATE, and whether some sensor reads 95 °C or more at the write (R377). -/
structure PsWriter where
  agent : Agent
  hot : Bool := false
deriving DecidableEq, Repr

/-- Where an uncorrectable error lies (R388, Table 21.3). -/
inductive ErrLoc
  | mainMem (addr : BitVec 52)
  /-- a poisoned TLP on a read of host memory through a port: PCI Express address bits [50:0] -/
  | hostMem (port : Bool) (addr : BitVec 51)
  | scratch (addr : BitVec 29)
  | blockState (block : Nat)
  /-- a block of instruction cache n of a level (0 is L0): its cell -/
  | icache (level : CacheLevel) (n cell : Nat)
  | cluster (k : BitVec 5)
  | firmware (j : BitVec 2)
  | deviceState (launches : List Nat)
deriving DecidableEq, Repr

/-- Which bits of a page attribute entry a write covers (R100: 64-bit and 32-bit accesses). -/
inductive PatPart | whole | lo | hi
deriving DecidableEq, Repr

/-- The engines of Table 7.7 that acknowledge a stop, with their instance: firmware-core lane (queue), turntable, issue port
(core and port), matrix unit (core), copy engine (core), infill unit (cluster), service group (cluster), wide unit (cluster), exact
stage (cluster). -/
inductive Engine
  | lane (queue : Nat)
  | turntable
  | port (core : Nat) (port : Nat)
  | matrix (core : Nat)
  | copyEngine (core : Nat)
  | infill (cluster : Nat)
  | service (cluster : Nat)
  | wide (cluster : Nat)
  | exact (cluster : Nat)
deriving DecidableEq, Repr

/-- A fill: the split entry of the unit whose block arrives, and how many of the blocks that follow it arrive with it (R115). -/
structure FillAt where
  entry : Nat
  ahead : Nat
deriving DecidableEq, Repr

/-- A reply to a load in flight: its number, and, for each 8-byte unit that it reads, how many of the newest writes it may not have seen; those
of lane i are numbers 2 i and 2 i + 1, and one not listed misses none (R119, R123, R139). -/
structure LoadRead where
  id : Nat
  back : List Nat
deriving DecidableEq, Repr

/-- A store in flight that is performed: its number, and whether at its home or, through forwarding, on its core (R122). -/
structure StoreAt where
  id : Nat
  home : Bool
deriving DecidableEq, Repr

/-- What has waited for a readiness bit: a copy, by its number, or the host copy of a queue (R20, R381). -/
inductive Waiter
  | copy (id : Nat)
  | piece (queue : Nat)
deriving DecidableEq, Repr

/-- What lands of a copy: the 8-byte units named, or all that are left; at their home or on the core; and what a get's peer sent for them,
nothing where it was poisoned (R119, R122, R283). -/
structure Landing where
  units : Option (List Nat)
  home : Bool
  peerData : List (Option Byte)
deriving DecidableEq, Repr

/-- The end of a peer's put: the bytes that its count names, and its last flit (R284). -/
structure PutEnd where
  bytes : Nat
  addr : Dword
  flit : List Byte
deriving DecidableEq, Repr

/-- A write of SCOPE 0b10 to a set's INVCMD: the set, and the CTX written (Table 5.6). -/
structure InvalAll where
  set : Bool
  ctx : BitVec 5
deriving DecidableEq, Repr

/-- A block-termination cause of Table 19.4. -/
inductive TermCause | poison | peerLink | trapInHandler | noHandler | blockState
deriving DecidableEq, Repr

/-- One step of the W1. -/
inductive Instr
  -- control (R225, R234 to R243)
  | nop (len : Len)
  | br (p : Pred) (t : Target)
  | brc (c : BrCond) (p : Pred) (k : Reg) (t : Target)
  | call (p : Pred) (t : Target)
  | calli (p : Pred) (a : Reg)
  | callm (p : Pred) (a b : Reg)
  | ret
  | join
  | exit (p : Pred)
  | yield (p : Pred)
  | ipf (p : Pred) (lvl : CacheLevel) (a : Reg) (b : OffB)
  -- integer (Table 12.1)
  | add (u : Bool) (p : Pred) (ty : Ty) (x : Ext) (sat : Bool) (d a : Reg) (b : OpB)
  | sub (u : Bool) (p : Pred) (ty : Ty) (sat : Bool) (d a : Reg) (b : OpB)
  | mul (u : Bool) (p : Pred) (ty : Ty) (hi sat : Bool) (d a : Reg) (b : OpB)
  | mad (u : Bool) (p : Pred) (ty : Ty) (sat : Bool) (d a : Reg) (b : OpB) (c : Reg)
  | shl (u : Bool) (p : Pred) (ty : Ty) (d a : Reg) (b : OpB)
  | shr (u : Bool) (p : Pred) (ty : Ty) (d a : Reg) (b : OpB)
  | and (u : Bool) (p : Pred) (ty : Ty) (d a : Reg) (b : OpB)
  | or (u : Bool) (p : Pred) (ty : Ty) (d a : Reg) (b : OpB)
  | xor (u : Bool) (p : Pred) (ty : Ty) (d a : Reg) (b : OpB)
  | not (u : Bool) (p : Pred) (ty : Ty) (d a : Reg)
  | min (u : Bool) (p : Pred) (ty : Ty) (d a : Reg) (b : OpB)
  | max (u : Bool) (p : Pred) (ty : Ty) (d a : Reg) (b : OpB)
  | icmp (u : Bool) (p : Pred) (ty : Ty) (c : ICond) (z : Bool) (d a : Reg) (b : OpB)
  | sel (u : Bool) (p : Pred) (ty : Ty) (d a : Reg) (b : OpB) (m : Reg)
  | mov (u : Bool) (p : Pred) (ty : Ty) (tid : Bool) (d : Reg) (b : OpB)
  | cnt (u : Bool) (p : Pred) (ty : Ty) (op : CntOp) (d a : Reg)
  -- floating point (Table 13.1)
  | fadd (p : Pred) (ty : Ty) (rm : RMode) (d a : Reg) (b : OpB)
  | fsub (p : Pred) (ty : Ty) (rm : RMode) (d a : Reg) (b : OpB)
  | fmul (p : Pred) (ty : Ty) (rm : RMode) (d a : Reg) (b : OpB)
  | ffma (p : Pred) (ty : Ty) (rm : RMode) (d a : Reg) (b : OpB) (c : Reg)
  | fdiv (p : Pred) (ty : Ty) (rm : RMode) (d a : Reg) (b : OpB)
  | fsqrt (p : Pred) (ty : Ty) (rm : RMode) (d a : Reg)
  | frsq (p : Pred) (ty : Ty) (rm : RMode) (d a : Reg)
  | fmin (p : Pred) (ty : Ty) (d a : Reg) (b : OpB)
  | fmax (p : Pred) (ty : Ty) (d a : Reg) (b : OpB)
  | fcmp (p : Pred) (ty : Ty) (c : FCond) (z : Bool) (d a : Reg) (b : OpB)
  | fdot4 (p : Pred) (ty : Ty) (rm : RMode) (nc : Bool) (d a b c : Reg)
  | fdot8 (p : Pred) (ty : Ty) (rm : RMode) (nc : Bool) (d a b c : Reg)
  | gsum (p : Pred) (ty : Ty) (rm : RMode) (d a : Reg)
  | fexp (p : Pred) (ty : Ty) (rm : RMode) (d a : Reg)
  | fexp2 (p : Pred) (ty : Ty) (rm : RMode) (d a : Reg)
  | fexpm1 (p : Pred) (ty : Ty) (rm : RMode) (d a : Reg)
  | flog (p : Pred) (ty : Ty) (rm : RMode) (d a : Reg)
  | flog2 (p : Pred) (ty : Ty) (rm : RMode) (d a : Reg)
  | flog1p (p : Pred) (ty : Ty) (rm : RMode) (d a : Reg)
  | fsin (p : Pred) (ty : Ty) (rm : RMode) (d a : Reg)
  | fcos (p : Pred) (ty : Ty) (rm : RMode) (d a : Reg)
  | fsinpi (p : Pred) (ty : Ty) (rm : RMode) (d a : Reg)
  | fcospi (p : Pred) (ty : Ty) (rm : RMode) (d a : Reg)
  | ftanh (p : Pred) (ty : Ty) (rm : RMode) (d a : Reg)
  | fsigm (p : Pred) (ty : Ty) (rm : RMode) (d a : Reg)
  -- conversion, generator, exchange (Table 13.1), masks (Table 12.3)
  | cvt (p : Pred) (dt st : Ty) (rm : RMode) (sat : Bool) (d a : Reg)
  | qblk (p : Pred) (dt st : Ty) (rm : RMode) (lim : BitVec 2) (d a : Reg)
  | rngk (p : Pred) (ty : Ty) (d a b : Reg)
  | xsel (p : Pred) (ty : Ty) (op : XselOp) (d a : Reg) (b : OpB)
  | qswap (p : Pred) (ty : Ty) (dir : QDir) (d a : Reg)
  | qbcast (p : Pred) (ty : Ty) (slot : BitVec 2) (d a : Reg)
  | qdiff (p : Pred) (ty : Ty) (rm : RMode) (y : Bool) (d a : Reg)
  | ballot (p : Pred) (d a : Reg)
  | mop (p : Pred) (op : MopOp) (d a b : Reg)
  | mmov (p : Pred) (op : MmovOp) (d a : Reg)
  -- memory (Tables 14.1, 14.2)
  | ldSh (p : Pred) (ty : Ty) (n : Cnt) (d a : Reg) (off : OffB)
  | stSh (p : Pred) (ty : Ty) (n : Cnt) (a : Reg) (off : OffB) (c : Reg)
  | ldSp (p : Pred) (ty : Ty) (n : Cnt) (d a : Reg) (off : OffB)
  | stSp (p : Pred) (ty : Ty) (n : Cnt) (a : Reg) (off : OffB) (c : Reg)
  | sld (p : Pred) (ty : Ty) (n : Cnt) (d a : Reg) (off : OffB)
  | sst (p : Pred) (ty : Ty) (n : Cnt) (a : Reg) (off : OffB) (c : Reg)
  | atom (p : Pred) (op : AtomOp) (ty : Ty) (o : Ord) (sc : Scope) (d a : Reg) (off : OffB) (c : Reg)
  | fence (p : Pred) (kind : FenceKind) (sc : Scope)
  -- copies (Table 14.3); the option word selects the 96-bit form
  | cpin (p : Pred) (scr : Bool) (o : Ord) (sc : Scope) (f a b c : Reg) (opt : Option Word)
  | cpout (p : Pred) (scr : Bool) (o : Ord) (sc : Scope) (f a b c : Reg) (opt : Option Word)
  | cpgat (p : Pred) (scr : Bool) (o : Ord) (sc : Scope) (f a b c : Reg) (opt : Option Word)
  | cpbp (p : Pred) (o : Ord) (sc : Scope) (f a b c : Reg) (opt : Option Word)
  | cppeer (p : Pred) (get : Bool) (o : Ord) (sc : Scope) (f a b c : Reg) (opt : Option Word)
  -- landing barriers (Table 14.6)
  | barv (p : Pred) (d : Reg) (b : KI)
  | barxExp (p : Pred) (b : KI) (c : Reg)
  | barxCfg (p : Pred) (b : KI) (c : Reg)
  | barxPh (p : Pred) (d : Reg) (b : KI)
  | barw (p : Pred) (a : Reg) (b : KI)
  -- work and tasks (R290 to R292)
  | fetchw (p : Pred) (d : Reg)
  | spawn (p : Pred) (a b : Reg)
  | tend
  -- matrix (Table 15.3)
  | msetf (p : Pred) (b : KI)
  | mma (p : Pred) (rm : RMode) (t : Reg) (a : Reg) (b : KI)
  | macq (p : Pred) (t : Reg)
  | mrel (p : Pred) (t : Reg)
  | mldIn (p : Pred) (scr : Bool) (ty : Ty) (acq : Bool) (sc : Scope) (t a : Reg) (b : KI)
  | mldOut (p : Pred) (scr : Bool) (ty : Ty) (rel : Bool) (sc : Scope) (t a : Reg) (b : KI)
  | mdrn (p : Pred) (ty : Ty) (sat : Bool) (d t : Reg) (b : KI)
  | mzero (p : Pred) (ty : Ty) (t : Reg)
  | bld (p : Pred) (ty : Ty) (n : Cnt) (a : Reg) (off : OffB) (c : Reg)
  -- system (R244 to R246, R347)
  | sread (p : Pred) (d : Reg) (num : Half)
  | swrite (p : Pred) (a : Reg) (num : Half)
  | trap (p : Pred) (b : KI)
  | eret (p : Pred)
  | bkpt (p : Pred)
  | pmc (p : Pred) (clear : Bool) (d : Reg) (b : KI)
  -- events of the issue ports and caches
  | instructionFetchFill (core : Nat) (slot : Nat) (entry : FillAt)
  | issueSelect (core : Nat) (port : Nat)
  | priorityPromotion (core : Nat) (slot : Nat)
  | tokenGrant
  -- events of memory, the siding and the matrix array
  | loadReply (id : LoadRead)
  | storePerform (id : StoreAt)
  | atomicAtHome (id : Nat)
  | sidingAccept (cluster : Nat)
  | wideUnitServe (cluster : Nat)
  | exactStageServe (cluster : Nat)
  | arrayCommandStart (core : Nat)
  | arrayCommandComplete (core : Nat)
  | bldPerform (id : Nat)
  -- events of the copy engines
  | copyPreflight (id : Nat) (remote : RemoteCheck)
  | preflightReadinessTimeout (id : Waiter)
  | copyBytesLanded (id : Nat) (peerData : Landing)
  | copyComplete (id : Nat)
  | peerCountArrival (ctx : BitVec 5) (queue : BitVec 6) (block : Byte) (bar : BitVec 6) (put : PutEnd)
  -- events of the turntable, coverage and claims
  | fetchwAnswer (launch : Nat) (pick : Nat)
  | tileComplete (launch : Nat) (tile : Nat)
  | updateInstant (launch : Nat)
  | infillWrite (launch : Nat) (point : Nat)
  | coverageDone (launch : Nat)
  | claimAcquireRequest (id : Nat) (set : Nat)
  | woundTakesEffect (core : Nat) (slot : Nat)
  | rollback (core : Nat) (slot : Nat)
  | taskAbandon (core : Nat) (slot : Nat)
  -- events of faults
  | trapEntry (core : Nat) (slot : Nat) (entry : Nat)
  | blockTerminate (block : Nat) (cause : TermCause)
  | svcRetry (core : Nat)
  | svcFail (core : Nat)
  | correctedError (mainMem : Bool)
  | uncorrectableError (loc : ErrLoc)
  | peerLinkDown (port : BitVec 4) (moved : List (Nat × List Byte))
  | peerRetrain (port : BitVec 4) (ok : Bool)
  | thermalTrip
  | thermalCooldown
  | thermalHalt
  -- events of the module
  | functionReady (bit : BitVec 7)
  | powerOn
  | deviceReset (a : Agent) (value : Word)
  | hostPortReset (port : Bool)
  | hostPortLinkDown (port : Bool)
  | mgmtBindingDown
  | semaphoreAcquire (sem : Sem) (agents : List Agent)
  | semaphoreRelease (sem : Sem) (a : Agent)
  | mgmtRegisterRead (req : MgmtReq)
  | mgmtRegisterWrite (req : MgmtReq)
  | pstateWrite (a : PsWriter) (value : Word)
  | powerStateChangeDone
  | fuseAdvance (a : Agent) (value : Word)
  | deverrClear (value : Word)
  | uesrcClear (value : Word)
  | stoperrClear (value : Word)
  | semerrClear (value : Word)
  | pageAttributeWrite (page : BitVec 13) (part : PatPart) (value : Dword)
  | invalidatePage (set : Bool) (ctx : BitVec 5)
  | invalidateContext (set : Bool) (ctx : BitVec 5)
  | invalidateAll (set : InvalAll)
  | invalidateDone (set : Bool)
  | queueEnable (q : BitVec 6) (value : Word)
  | queueNotify (q : BitVec 6) (value : Word)
  | watchLogEnable (value : Word)
  | registerWrite (offset : Word) (value : Word)
  -- events of the firmware cores and packets
  | seqwPoll (q : BitVec 6)
  | seqwRetryTimer (q : BitVec 6)
  | firmwareStep (core : BitVec 2)
  | noOp (q : BitVec 6)
  | tileLaunch (q : BitVec 6)
  | taskLaunch (q : BitVec 6)
  | writeThenSignal (q : BitVec 6)
  | waitSignal (q : BitVec 6)
  | waitSignalPoll (q : BitVec 6)
  | hostCopy (q : BitVec 6)
  | hostCopyPieceDone (q : BitVec 6)
  | moduleLoad (q : BitVec 6)
  | moduleUnload (q : BitVec 6)
  | moduleUnloadDone (q : BitVec 6)
  | manifestSnapshot (q : BitVec 6)
  | queueDestroy (q : BitVec 6)
  | queueDestroyDone (q : BitVec 6)
  -- events of placement, pre-emption and debug
  | launchPlace
  | launchComplete (launch : Nat)
  | timeSliceExpiry (ctx : BitVec 5)
  | preemptContext (ctx : BitVec 5)
  | stopAck (ctx : BitVec 5) (e : Engine)
  | stopTimeout (ctx : BitVec 5)
  | contextResume (ctx : BitVec 5)
  | debugHalt (ctx : BitVec 5)
  | debugHaltDrain (ctx : BitVec 5)
  | debugResume (ctx : BitVec 5)
  | debugHaltDone (ctx : BitVec 5)
  -- events of the update agent and of peers
  | requestFirmwareData (comp : BitVec 2) (offset : Nat) (data : List Byte)
  | activateFirmware
  | activateSemfwuTimeout
  | bootReadyTimeout
  | peerCopyRequest (ctx : BitVec 5) (get : Bool) (addr : Dword) (data : List (Option Byte))
deriving DecidableEq, Repr

end Sys2Proof
end

