-- ==== Sys2Proof/WellFormed.lean ====
section
/-! DEFINITION. Which terms of Instr are instructions: the limits that the encoding itself sets (R218, Tables 11.4, 12.1, 12.3,
13.1, 14.1 to 14.6, 15.3). The limits that depend on the group (its register allocation, its tiles) are checked at issue. -/

namespace Sys2Proof

/-- The types of 64 bits (R218: their lane operands are W). -/
def Ty.wide : Ty → Bool
  | .f64 | .i64 | .n64 | .b64 => true
  | _ => false

def Ty.isInt4 : Ty → Bool
  | .i32 | .n32 | .i64 | .n64 => true
  | _ => false

def Ty.isBits : Ty → Bool
  | .b32 | .b64 => true
  | _ => false

/-- f64 f32 f16 bf16, the types of the basic float instructions. -/
def Ty.isFloat4 : Ty → Bool
  | .f64 | .f32 | .f16 | .bf16 => true
  | _ => false

/-- The six floating-point formats of Table 3.1. -/
def Ty.isFloat : Ty → Bool
  | .f64 | .f32 | .f16 | .bf16 | .e4m3 | .e5m2 => true
  | _ => false

/-- A lane register (V), or with `w` an even pair (W). -/
def okV (w : Bool) (n : Reg) : Bool := !w || (n.toNat % 2 == 0)

/-- A uniform register k0 to k63. -/
def okK (n : Reg) : Bool := n.toNat < 64

/-- A mask register; `dst` excludes m0. -/
def okM (dst : Bool) (n : Reg) : Bool := n.toNat < 16 && (!dst || n.toNat != 0)

/-- A run of `len` lane registers, even when `w`. -/
def okRun (w : Bool) (n : Reg) (len : Nat) : Bool := okV w n && n.toNat + len ≤ 256

/-- An operand that is V or W with U = 0 and K with U = 1 (R217). -/
def okVU (u w : Bool) (n : Reg) : Bool := if u then okK n else okV w n

/-- Operand b of a lane or uniform instruction: V, K or I (R215, R217). -/
def okB (u w : Bool) : OpB → Bool
  | .v n => !u && okV w n
  | .k n => okK n
  | .i32 _ | .i64 _ => true

def OpB.is128 : OpB → Bool
  | .i64 _ => true
  | _ => false

def okOff : OffB → Bool
  | .k n => okK n
  | .i32 _ | .i64 _ => true

/-- K, or an immediate none of whose bits in `resv` is set. -/
def okKI (resv : Word) : KI → Bool
  | .k n => okK n
  | .i w => w &&& resv == 0

/-- Registers of a load or store run (R269). -/
def Cnt.num : Cnt → Nat
  | .x1 => 1 | .x2 => 2 | .x4 => 4

def runRegs (ty : Ty) (n : Cnt) : Nat := if ty = .b64 then 2 * n.num else n.num

/-- Type and count of Table 14.1. -/
def okLs (ty : Ty) (n : Cnt) : Bool :=
  match ty, n with
  | .i8, .x1 | .n8, .x1 | .i16, .x1 | .n16, .x1 => true
  | .b32, _ => true
  | .b64, .x1 | .b64, .x2 => true
  | _, _ => false

/-- Types of an atomic operation (Table 14.2). -/
def okAtomTy (op : AtomOp) (ty : Ty) : Bool :=
  match op with
  | .add => ty.isInt4 || ty = .f32 || ty = .f64
  | .min | .max => ty.isInt4
  | _ => ty.isBits

/-- Registers of the OC run of an atomic (Table 14.2). -/
def atomRegs (op : AtomOp) (ty : Ty) : Nat :=
  (if op = .cas then 2 else 1) * (if ty.wide then 2 else 1)

/-- MODE is a scope only beside an ordering modifier (R274, R279). -/
def okOrd (o : Ord) (sc : Scope) : Bool := o != .none || sc = .grp

/-- Elements of a source run of a dot product, in registers (Table 13.5). -/
def dotRegs (ty : Ty) (n : Nat) : Nat :=
  match ty with
  | .f64 => 2 * n
  | .f32 => n
  | .f16 | .bf16 => n / 2
  | _ => n / 4

def okCopy (o : Ord) (sc : Scope) (f a b c : Reg) (opt : Option Word) (resv : Word) : Bool :=
  okOrd o sc && f.toNat < 8 && okK a && okK b && okK c && (match opt with | some w => w &&& resv == 0 | none => true)

/-- Bytes of one element of a type. -/
def Ty.size : Ty → Nat
  | .f64 | .i64 | .n64 | .b64 => 8
  | .f32 | .i32 | .n32 | .b32 => 4
  | .f16 | .bf16 | .i16 | .n16 => 2
  | _ => 1

/-- Length of the destination run of `mdrn` for J elements of a type (R311). -/
def mdrnRegs (ty : Ty) (j : Nat) : Nat := (ty.size * j + 3) / 4

def okMdrn (ty : Ty) (d : Reg) : KI → Bool
  | .k n => okK n
  | .i w => w &&& 0xFFFFC000#32 == 0 && d.toNat + mdrnRegs ty ((w.extractLsb' 8 6).toNat + 1) ≤ 256

/-- An instruction that the encoding can express without breaking conditions 4 to 7 of R226; every event. -/
def Instr.wellFormed : Instr → Bool
  | .nop _ | .ret | .join | .exit _ | .yield _ | .tend | .eret _ | .bkpt _ | .fence .. => true
  | .br _ _ | .call _ _ => true
  | .brc _ _ k _ => okK k
  | .calli _ a => okV true a
  | .callm _ a b => okK a && okK b
  | .ipf _ _ a b => okK a && okOff b
  | .add u _ ty x _ d a b =>
    ty.isInt4 && okVU u ty.wide d && okVU u ty.wide a && okB u (ty.wide && x = .none) b &&
      (x = .none || (ty.wide && !b.is128))
  | .sub u _ ty _ d a b => ty.isInt4 && okVU u ty.wide d && okVU u ty.wide a && okB u ty.wide b
  | .mul u _ ty hi sat d a b => ty.isInt4 && okVU u ty.wide d && okVU u ty.wide a && okB u ty.wide b && !(hi && sat)
  | .mad u _ ty _ d a b c => ty.isInt4 && okVU u ty.wide d && okVU u ty.wide a && okB u ty.wide b && okVU u ty.wide c
  | .shl u _ ty d a b | .shr u _ ty d a b =>
    (ty.isInt4 || ty.isBits) && okVU u ty.wide d && okVU u ty.wide a && okB u ty.wide b
  | .and u _ ty d a b | .or u _ ty d a b | .xor u _ ty d a b =>
    ty.isBits && okVU u ty.wide d && okVU u ty.wide a && okB u ty.wide b
  | .not u _ ty d a | .cnt u _ ty _ d a => ty.isBits && okVU u ty.wide d && okVU u ty.wide a
  | .min u _ ty d a b | .max u _ ty d a b => ty.isInt4 && okVU u ty.wide d && okVU u ty.wide a && okB u ty.wide b
  | .icmp u _ ty _ _ d a b => ty.isInt4 && okM true d && okVU u ty.wide a && okB u ty.wide b
  | .sel u _ ty d a b m => ty.isBits && okVU u ty.wide d && okVU u ty.wide a && okB u ty.wide b && okM false m
  | .mov u _ ty tid d b =>
    ty.isBits && okVU u ty.wide d &&
      (if tid then ty = .b32 && (match b with
        | .v n => !u && n == 0
        | .k n => u && n == 0
        | .i32 w => w == 0
        | .i64 w => w == 0)
       else okB u ty.wide b)
  | .fadd _ ty _ d a b | .fsub _ ty _ d a b | .fmul _ ty _ d a b | .fdiv _ ty _ d a b | .fmin _ ty d a b | .fmax _ ty d a b =>
    ty.isFloat4 && okV ty.wide d && okV ty.wide a && okB false ty.wide b
  | .ffma _ ty _ d a b c => ty.isFloat4 && okV ty.wide d && okV ty.wide a && okB false ty.wide b && okV ty.wide c
  | .fcmp _ ty _ _ d a b => ty.isFloat4 && okM true d && okV ty.wide a && okB false ty.wide b
  | .fdot4 _ ty _ nc d a b c =>
    ty.isFloat4 && okV ty.wide d && okRun ty.wide a (dotRegs ty 4) && okRun ty.wide b (dotRegs ty 4) &&
      (if nc then c == 0 else okV ty.wide c)
  | .fdot8 _ ty _ nc _ a b c =>
    (ty.isFloat && ty != .f64) && okRun false a (dotRegs ty 8) && okRun false b (dotRegs ty 8) && (!nc || c == 0)
  | .fsqrt _ ty _ d a | .frsq _ ty _ d a | .gsum _ ty _ d a | .qdiff _ ty _ _ d a
  | .fexp _ ty _ d a | .fexp2 _ ty _ d a | .fexpm1 _ ty _ d a | .flog _ ty _ d a | .flog2 _ ty _ d a | .flog1p _ ty _ d a
  | .fsin _ ty _ d a | .fcos _ ty _ d a | .fsinpi _ ty _ d a | .fcospi _ ty _ d a | .ftanh _ ty _ d a | .fsigm _ ty _ d a =>
    ty.isFloat4 && okV ty.wide d && okV ty.wide a
  | .cvt _ dt st _ _ d a => dt != .q4o && st != .q4o && okV dt.wide d && okV st.wide a
  | .qblk _ dt st rm lim d a =>
    (st = .f32 || st = .f16 || st = .bf16) && okRun false a (if st = .f32 then 16 else 8) &&
      (if dt = .q4o then rm = .rne && okRun false d 3 else (dt = .e4m3 || dt = .e5m2) && lim == 0 && okRun false d 5)
  | .rngk _ ty _ a b => (ty = .b32 || ty = .f32) && okK a && okV true b
  | .xsel _ ty _ d a b => ty.isBits && okV ty.wide d && okV ty.wide a && okB false false b && !b.is128
  | .qswap _ ty _ d a | .qbcast _ ty _ d a => ty.isBits && okV ty.wide d && okV ty.wide a
  | .ballot _ d _ => okM true d
  | .mop _ op d a b => okM true d && okM false a && (if op = .not then b == 0 else okM false b)
  | .mmov _ op d a => match op with
    | .m => okM true d && okK a
    | .k => okK d && okM false a
    | .unit => okM true d && a == 0
  | .ldSh _ ty n d _ off | .ldSp _ ty n d _ off | .sld _ ty n d _ off => okLs ty n && okRun (ty = .b64) d (runRegs ty n) && okOff off
  | .stSh _ ty n _ off c | .stSp _ ty n _ off c | .sst _ ty n _ off c | .bld _ ty n _ off c =>
    okLs ty n && okRun (ty = .b64) c (runRegs ty n) && okOff off
  | .atom _ op ty o sc d _ off c =>
    okAtomTy op ty && okOrd o sc && okRun ty.wide d (if ty.wide then 2 else 1) && okOff off &&
      (if op = .ld then c == 0 else okRun ty.wide c (atomRegs op ty))
  | .cpin _ _ o sc f a b c opt | .cpout _ _ o sc f a b c opt | .cpgat _ _ o sc f a b c opt | .cpbp _ o sc f a b c opt =>
    okCopy o sc f a b c opt 0xFFFFFF80#32
  | .cppeer _ _ o sc f a b c opt => okCopy o sc f a b c opt 0xFFFF0000#32
  | .barv _ d b | .barxPh _ d b => okK d && okKI 0xFFFFFFC0#32 b
  | .barxExp _ b c | .barxCfg _ b c => okKI 0xFFFFFFC0#32 b && okK c
  | .barw _ a b => okK a && okKI 0xFFFFFFC0#32 b
  | .fetchw _ d => d.toNat ≤ 60
  | .spawn _ a b => okK a && okK b
  | .msetf _ b => okKI 0 b
  | .mma _ _ t a b => t.toNat < 32 && okRun false a 32 && okKI 0x000000E0#32 b
  | .macq _ t | .mrel _ t => t.toNat < 32
  | .mzero _ ty t => (ty = .f32 || ty = .i32) && t.toNat < 32
  | .mldIn _ _ ty x sc t a b | .mldOut _ _ ty x sc t a b =>
    (ty = .f32 || ty = .i32) && (x || sc = .grp) && t.toNat < 32 && okK a && okKI 0 b
  | .mdrn _ ty _ d t b =>
    (ty = .f32 || ty = .f16 || ty = .bf16 || ty = .e4m3 || ty = .e5m2 || ty = .i32 || ty = .i16 || ty = .i8) &&
      t.toNat < 32 && okMdrn ty d b
  | .sread _ d _ => okK d
  | .swrite _ a _ => okK a
  | .trap _ b => okKI 0xFFFF0000#32 b
  | .pmc _ _ d b => okK d && okKI 0xFFFFFE00#32 b
  | _ => true

/-- An instruction of Table 11.7, as against an event of the part. -/
def Instr.isEvent : Instr → Bool
  | .instructionFetchFill .. | .issueSelect .. | .priorityPromotion .. | .tokenGrant | .loadReply .. | .storePerform ..
  | .atomicAtHome .. | .sidingAccept .. | .wideUnitServe .. | .exactStageServe .. | .arrayCommandStart .. | .arrayCommandComplete ..
  | .bldPerform .. | .copyPreflight .. | .preflightReadinessTimeout .. | .copyBytesLanded .. | .copyComplete ..
  | .peerCountArrival .. | .fetchwAnswer .. | .tileComplete .. | .updateInstant .. | .infillWrite .. | .coverageDone ..
  | .claimAcquireRequest .. | .woundTakesEffect .. | .rollback .. | .taskAbandon .. | .trapEntry .. | .blockTerminate ..
  | .svcRetry .. | .svcFail .. | .correctedError .. | .uncorrectableError .. | .peerLinkDown .. | .peerRetrain .. | .thermalTrip
  | .thermalCooldown | .thermalHalt | .functionReady .. | .powerOn | .deviceReset .. | .hostPortReset .. | .hostPortLinkDown ..
  | .mgmtBindingDown | .semaphoreAcquire .. | .semaphoreRelease .. | .mgmtRegisterRead .. | .mgmtRegisterWrite .. | .pstateWrite ..
  | .powerStateChangeDone | .fuseAdvance .. | .deverrClear .. | .uesrcClear .. | .stoperrClear .. | .semerrClear ..
  | .pageAttributeWrite .. | .invalidatePage .. | .invalidateContext .. | .invalidateAll .. | .invalidateDone .. | .queueEnable ..
  | .queueNotify .. | .watchLogEnable .. | .registerWrite .. | .seqwPoll .. | .seqwRetryTimer .. | .firmwareStep .. | .noOp ..
  | .tileLaunch .. | .taskLaunch .. | .writeThenSignal .. | .waitSignal .. | .waitSignalPoll .. | .hostCopy .. | .hostCopyPieceDone ..
  | .moduleLoad .. | .moduleUnload .. | .moduleUnloadDone .. | .manifestSnapshot .. | .queueDestroy .. | .queueDestroyDone ..
  | .launchPlace | .launchComplete .. | .timeSliceExpiry .. | .preemptContext .. | .stopAck .. | .stopTimeout .. | .contextResume ..
  | .debugHalt .. | .debugHaltDrain .. | .debugResume .. | .debugHaltDone .. | .requestFirmwareData .. | .activateFirmware
  | .activateSemfwuTimeout | .bootReadyTimeout | .peerCopyRequest .. => true
  | _ => false

end Sys2Proof
end

