-- ==== Sys2Proof/Machine/Float.lean ====
section
/-! DEFINITION. Number formats and exact arithmetic (03_number_formats.md, 04_correct_rounding.md R75 to R79): values as exact dyadic
numbers, RoundToFormat, conversions, sums with their windows, Q4O and block quantisation. -/

namespace Sys2Proof.Machine

/-! ## Formats and values (R56, R58) -/

/-- Fields of a floating-point format (Table 3.1). -/
structure Fmt where
  ebits : Nat
  mbits : Nat
  bias : Nat
  /-- the format has infinities -/
  infs : Bool
deriving DecidableEq, Repr

/-- Table 3.1; f32 for a type that is no floating-point format. -/
def fmtOf : Ty → Fmt
  | .f64 => ⟨11, 52, 1023, true⟩
  | .f16 => ⟨5, 10, 15, true⟩
  | .bf16 => ⟨8, 7, 127, true⟩
  | .e4m3 => ⟨4, 3, 7, false⟩
  | .e5m2 => ⟨5, 2, 15, true⟩
  | _ => ⟨8, 23, 127, true⟩

/-- The bits of a format's magnitude. -/
def Fmt.width (f : Fmt) : Nat := f.ebits + f.mbits
/-- Magnitude code of the largest finite value. -/
def Fmt.maxMag (f : Fmt) : Nat :=
  if f.infs then (2 ^ f.ebits - 1) * 2 ^ f.mbits - 1 else 2 ^ f.width - 2
/-- Magnitude code of infinity. -/
def Fmt.infMag (f : Fmt) : Nat := (2 ^ f.ebits - 1) * 2 ^ f.mbits
/-- The canonical NaN (Table 3.2). -/
def Fmt.nan (f : Fmt) : Nat := if f.infs then (2 ^ f.ebits - 1) * 2 ^ f.mbits + 2 ^ (f.mbits - 1) else 2 ^ f.width - 1
/-- Exponent of the smallest subnormal. -/
def Fmt.qmin (f : Fmt) : Int := 1 - (f.bias : Int) - f.mbits

/-- A value: NaN, an infinity, a zero with its sign, or ±m · 2^e with m not 0. -/
inductive FVal
  | nan
  | inf (neg : Bool)
  | zero (neg : Bool)
  | fin (neg : Bool) (m : Nat) (e : Int)
deriving DecidableEq, Repr

/-- The sign of a value. -/
def FVal.neg : FVal → Bool
  | .nan => false
  | .inf n | .zero n | .fin n _ _ => n

/-- The value of bits (R56). -/
def decodeF (f : Fmt) (x : Nat) : FVal :=
  let s := decide (x / 2 ^ f.width % 2 = 1)
  let mag := x % 2 ^ f.width
  let e := mag / 2 ^ f.mbits
  let m := mag % 2 ^ f.mbits
  if f.maxMag < mag then (if f.infs && m = 0 then .inf s else .nan)
  else if mag = 0 then .zero s
  else if e = 0 then .fin s m f.qmin
  else .fin s (m + 2 ^ f.mbits) (f.qmin + e - 1)

/-- An exact number ±m · 2^e. -/
def ofInt (m : Int) (e : Int) : FVal := if m = 0 then .zero false else .fin (decide (m < 0)) m.natAbs e

/-- m · 2^e as a signed number over 2^lo, where lo ≤ e. -/
def FVal.scaled (lo : Int) : FVal → Int
  | .fin n m e => (if n then -1 else 1) * (m * 2 ^ (e - lo).toNat : Nat)
  | _ => 0

/-- The exponent of a value, if it is finite and not zero. -/
def FVal.expo : FVal → Option Int
  | .fin _ _ e => some e
  | _ => none

/-- ⌊log2 |x|⌋ of m · 2^e. -/
def ilog (m : Nat) (e : Int) : Int := (Nat.log2 m : Int) + e

/-! ## Rounding (R63, R64, R62) -/

/-- Whether a magnitude k + rest/2^h with 0 < rest is rounded up. -/
def roundsUp (mode : RMode) (neg odd : Bool) (rest half : Nat) : Bool :=
  if rest = 0 then false
  else
    match mode with
    | .rne => decide (half < rest) || (rest = half && odd)
    | .rna => decide (half ≤ rest)
    | .rtz => false
    | .rup => !neg
    | .rdn => neg

/-- m · 2^e rounded to a multiple of 2^q: the multiplier. -/
def roundAt (mode : RMode) (neg : Bool) (m : Nat) (e q : Int) : Nat :=
  if q ≤ e then m * 2 ^ (e - q).toNat
  else
    let d := (q - e).toNat
    let k := m / 2 ^ d
    if roundsUp mode neg (k % 2 = 1) (m % 2 ^ d) (2 ^ (d - 1)) then k + 1 else k

/-- RoundUnbounded as a magnitude code that goes on above the largest finite value. -/
def roundMag (f : Fmt) (mode : RMode) (neg : Bool) (m : Nat) (e : Int) : Nat :=
  let q := max (ilog m e - f.mbits) f.qmin
  (q - f.qmin).toNat * 2 ^ f.mbits + roundAt mode neg m e q

/-- The bits of a sign and a magnitude code. -/
def Fmt.bits (f : Fmt) (neg : Bool) (mag : Nat) : Nat := (if neg then 2 ^ f.width else 0) + mag

/-- An infinite result (R64). -/
def Fmt.infBits (f : Fmt) (sat neg : Bool) : Nat :=
  if sat then f.bits neg f.maxMag else if f.infs then f.bits neg f.infMag else f.nan

/-- RoundToFormat (R64). -/
def roundTo (f : Fmt) (mode : RMode) (sat : Bool) (x : FVal) : Nat :=
  match x with
  | .nan => f.nan
  | .inf n => f.infBits sat n
  | .zero n => f.bits n 0
  | .fin n m e =>
    let mag := roundMag f mode n m e
    if f.maxMag < mag then
      match mode with
      | .rne | .rna => f.infBits sat n
      | .rtz => f.bits n f.maxMag
      | .rup => if n then f.bits n f.maxMag else f.infBits sat n
      | .rdn => if n then f.infBits sat n else f.bits n f.maxMag
    else f.bits n mag

/-- A non-zero result is tiny (R62): rounded to the format's precision with unbounded exponent it is below the smallest normal. -/
def tinyIn (f : Fmt) (mode : RMode) (x : FVal) : Bool :=
  match x with
  | .fin n m e =>
    let q := ilog m e - f.mbits
    let k := roundAt mode n m e q
    decide (ilog k q < f.qmin + f.mbits)
  | _ => false

/-- A tiny f32 or f64 result, which is completed as an assist (R62). -/
def assistOf (ty : Ty) (mode : RMode) (x : FVal) : Bool := (ty = .f32 || ty = .f64) && tinyIn (fmtOf ty) mode x

/-- n/d · 2^e as a number that rounds as it does: with at least 80 bits of quotient and a sticky bit. -/
def ratio (neg : Bool) (n d : Nat) (e : Int) : FVal :=
  let k := 80 + Nat.log2 d
  let q := n * 2 ^ k / d
  .fin neg (2 * q + (if n * 2 ^ k % d = 0 then 0 else 1)) (e - k - 1)

/-- ⌊√n⌋ by bisection, one bit a step. -/
def isqrtFrom (n : Nat) : Nat → Nat → Nat
  | 0, r => r
  | b + 1, r => isqrtFrom n b (if (r + 2 ^ b) * (r + 2 ^ b) ≤ n then r + 2 ^ b else r)

def isqrt (n : Nat) : Nat := isqrtFrom n (Nat.log2 n / 2 + 1) 0

/-- √(m · 2^e), with at least 60 bits and a sticky bit. -/
def sqrtFin (m : Nat) (e : Int) : FVal :=
  let k : Nat := 130 + (if (e - 130) % 2 = 0 then 0 else 1)
  let s := isqrt (m * 2 ^ k)
  .fin false (2 * s + (if s * s = m * 2 ^ k then 0 else 1)) ((e - k) / 2 - 1)

/-! ## Exact results (Table 13.3, R60) -/

def FVal.negate : FVal → FVal
  | .nan => .nan
  | .inf n => .inf !n
  | .zero n => .zero !n
  | .fin n m e => .fin (!n) m e

def FVal.isNan : FVal → Bool
  | .nan => true
  | _ => false

def FVal.isInf : FVal → Option Bool
  | .inf n => some n
  | _ => none

def fMul (a b : FVal) : FVal :=
  match a, b with
  | .nan, _ | _, .nan | .inf _, .zero _ | .zero _, .inf _ => .nan
  | .inf n, y => .inf (n != y.neg)
  | x, .inf n => .inf (x.neg != n)
  | .zero n, y => .zero (n != y.neg)
  | x, .zero n => .zero (x.neg != n)
  | .fin n m e, .fin n' m' e' => .fin (n != n') (m * m') (e + e')

/-- The least exponent of some values. -/
def lowExp (l : List FVal) : Int := (l.filterMap FVal.expo).foldl min ((l.filterMap FVal.expo).headD 0)

/-- The exact sum of terms (R60, R256). -/
def fSum (mode : RMode) (l : List FVal) : FVal :=
  if l.any FVal.isNan || (l.contains (.inf false) && l.contains (.inf true)) then .nan
  else if l.contains (.inf false) then .inf false
  else if l.contains (.inf true) then .inf true
  else
    let lo := lowExp l
    let t := l.foldl (fun a x => a + x.scaled lo) (0 : Int)
    if t = 0 then
      (if l.all (· = .zero false) then .zero false
       else if l.all (· = .zero true) then .zero true
       else .zero (mode = .rdn))
    else ofInt t lo

def fDiv (a b : FVal) : FVal :=
  match a, b with
  | .nan, _ | _, .nan | .inf _, .inf _ | .zero _, .zero _ => .nan
  | .inf n, y => .inf (n != y.neg)
  | x, .inf n => .zero (x.neg != n)
  | .zero n, y => .zero (n != y.neg)
  | x, .zero n => .inf (x.neg != n)
  | .fin n m e, .fin n' m' e' => ratio (n != n') m m' (e - e')

def fSqrt : FVal → FVal
  | .nan => .nan
  | .inf n => if n then .nan else .inf false
  | .zero n => .zero n
  | .fin n m e => if n then .nan else sqrtFin m e

/-- The order of two values that are no NaN: −1, 0 or 1; zeros of either sign are equal. -/
def fCmp (a b : FVal) : Int :=
  let rank : FVal → Int := fun x => match x with
    | .inf n => if n then -1 else 1
    | _ => 0
  if rank a != 0 || rank b != 0 then (if rank a < rank b then -1 else if rank b < rank a then 1 else 0)
  else
    let lo := lowExp [a, b]
    let x := a.scaled lo
    let y := b.scaled lo
    if x < y then -1 else if y < x then 1 else 0

/-! ## Integers and conversions (R65, R66) -/

/-- Smallest and largest value of an integer type (R66). -/
def intMin (ty : Ty) : Int :=
  match ty with
  | .i8 => -2 ^ 7 | .i16 => -2 ^ 15 | .i32 => -2 ^ 31 | .i64 => -2 ^ 63 | _ => 0

def intMax (ty : Ty) : Int :=
  match ty with
  | .i8 => 2 ^ 7 - 1 | .i16 => 2 ^ 15 - 1 | .i32 => 2 ^ 31 - 1 | .i64 => 2 ^ 63 - 1
  | _ => 2 ^ (8 * ty.size) - 1

def clampInt (lo hi x : Int) : Int := max lo (min hi x)

/-- Rounding a value to an integer. -/
def roundInt (mode : RMode) (neg : Bool) (m : Nat) (e : Int) : Int :=
  (if neg then -1 else 1) * (roundAt mode neg m e 0 : Nat)

/-- Float to integer (R65). -/
def toIntSat (ty : Ty) (mode : RMode) (x : FVal) : Int :=
  match x with
  | .nan | .zero _ => 0
  | .inf n => if n then intMin ty else intMax ty
  | .fin n m e => clampInt (intMin ty) (intMax ty) (roundInt mode n m e)

/-- The low w bits of an integer. -/
def wrapNat (w : Nat) (x : Int) : Nat := (x % (2 ^ w : Int)).toNat

/-- The integer value of w bits of a type. -/
def intOf (ty : Ty) (x : Nat) : Int :=
  let w := 8 * ty.size
  if ty = .i8 || ty = .i16 || ty = .i32 || ty = .i64 then (if x / 2 ^ (w - 1) % 2 = 1 then (x % 2 ^ w : Nat) - (2 ^ w : Int) else (x % 2 ^ w : Nat))
  else (x % 2 ^ w : Nat)

/-- The conversion of `cvt` on the low bits of an operand: the destination's bits, and whether it is a tiny result that was rounded
(R259, R62). -/
def convert (dt st : Ty) (mode : RMode) (sat : Bool) (x : Nat) : Nat × Bool :=
  let v := x % 2 ^ (8 * st.size)
  if dt.isBits || st.isBits then (v % 2 ^ (8 * dt.size), false)
  else
    match st.isFloat, dt.isFloat with
    | true, true =>
      let a := decodeF (fmtOf st) v
      if dt = st then
        ((match a with
          | .nan => (fmtOf dt).nan
          | .inf n => (fmtOf dt).infBits sat n
          | _ => v), false)
      else (roundTo (fmtOf dt) mode sat a, assistOf dt mode a)
    | true, false => (wrapNat (8 * dt.size) (toIntSat dt mode (decodeF (fmtOf st) v)), false)
    | false, true => (roundTo (fmtOf dt) mode sat (ofInt (intOf st v) 0), false)
    | false, false => (wrapNat (8 * dt.size) (clampInt (intMin dt) (intMax dt) (intOf st v)), false)

/-- A narrow result in its register (R57): sign-extended for i8 and i16, else filled with zeros. -/
def narrowWord (ty : Ty) (x : Nat) : Dword :=
  match ty with
  | .i8 => ((BitVec.ofNat 8 x).signExtend 32).setWidth 64
  | .i16 => ((BitVec.ofNat 16 x).signExtend 32).setWidth 64
  | _ => BitVec.ofNat 64 (x % 2 ^ (8 * ty.size))

/-- An f32 immediate widened exactly to f64 (Table 11.9). -/
def widen32 (w : Word) : Dword := BitVec.ofNat 64 (convert .f64 .f32 .rne false w.toNat).1

/-! ## Windowed alignment (R78, R79) -/

/-- The terms' largest ⌊log2 |t|⌋. -/
def topExp (l : List FVal) : Option Int :=
  l.foldl (fun a x => match x with
    | .fin _ m e => some (match a with
        | some b => max b (ilog m e)
        | none => ilog m e)
    | _ => a) none

/-- The window of a sum: the window sum as a multiple of 2^fl, the floor's exponent, and the number of terms inexact there. -/
structure Window where
  sw : Int
  fl : Int
  k : Nat
deriving DecidableEq, Repr

/-- A term at the floor: truncated toward −∞, and whether it is inexact there. -/
def windowTerm (fl : Int) (x : FVal) : Int × Bool :=
  match x with
  | .fin n m e =>
    let s : Int := if n then -1 else 1
    if fl ≤ e then (s * (m * 2 ^ (e - fl).toNat : Nat), false)
    else (s * m / 2 ^ (fl - e).toNat, decide (m % 2 ^ (fl - e).toNat ≠ 0))
  | _ => (0, false)

/-- The window of the terms of an element (R78); none where an operand decides the element by rule or every term is zero. -/
def window (wide : Bool) (l : List FVal) : Option Window :=
  if l.any fun x => x.isNan || x.isInf.isSome then none
  else
    (topExp l).map fun e =>
      let fl := e + 11 - (if wide then 176 else 96)
      let parts := l.map (windowTerm fl)
      ⟨parts.foldl (fun a p => a + p.1) (0 : Int), fl, (parts.filter Prod.snd).length⟩

/-- A sum of products escalates to the wide unit (R79). -/
def windowEscalates (f : Fmt) (mode : RMode) (wide : Bool) (l : List FVal) : Bool :=
  match window wide l with
  | none => false
  | some w =>
    if w.k = 0 then false
    else if w.sw.natAbs < 2 ^ ((if wide then 55 else 26) - 1) then true
    else
      roundTo f mode false (ofInt (4 * w.sw + 1) (w.fl - 2)) != roundTo f mode false (ofInt (4 * (w.sw + w.k) - 1) (w.fl - 2))

/-- FASTV of an element that escalates: the window sum in the destination format (R81, log 27). -/
def windowFast (f : Fmt) (mode : RMode) (wide : Bool) (l : List FVal) : Nat :=
  match window wide l with
  | none => 0
  | some w => roundTo f mode false (ofInt w.sw w.fl)

/-! ## Float atomics (R276) -/

/-- The running values of the places of a combined float sum. -/
def atomSums (ty : Ty) (old : Nat) (vs : List Nat) : List Nat :=
  let f := fmtOf ty
  (List.range vs.length).map fun i =>
    roundTo f .rne false (fSum .rne (decodeF f old :: (vs.take (i + 1)).map (decodeF f)))

/-! ## UE8M0, Q4O and blocks (R67 to R70) -/

/-- x · 2^(sb − 127); NaN where sb is 0xFF. -/
def scaleUe (sb : Nat) (x : FVal) : FVal :=
  if sb = 255 then .nan
  else
    match x with
    | .fin n m e => .fin n m (e + sb - 127)
    | y => y

/-- Int4. -/
def int4 (c : Nat) : Int := if c % 16 < 8 then (c % 16 : Nat) else (c % 16 : Nat) - 16

/-- The pair k of a Q4O block as exact values before scaling (R69), and how many non-canonical codes it holds. -/
def q4Pair (a b : Nat) (z : Int) : FVal × FVal × Nat :=
  if a % 16 = 8 then
    (.fin (decide (b % 16 / 8 = 1)) (2 + b % 2) (b % 8 / 2 + 2 : Nat), .zero false, 0)
  else if b % 16 = 8 then (ofInt (int4 a - z) 0, .zero false, 1)
  else (ofInt (int4 a - z) 0, ofInt (int4 b - z) 0, 0)

/-- The 16 values of a Q4O block from its codes (64 bits), scale byte and zero point, with the count of non-canonical codes. -/
def q4Block (codes : Nat) (sb z : Nat) : List FVal × Nat :=
  let ps := (List.range 8).map fun k => q4Pair (codes / 2 ^ (8 * k) % 16) (codes / 2 ^ (8 * k + 4) % 16) (int4 z)
  if sb = 255 then (List.replicate 16 .nan, 0)
  else (ps.flatMap fun p => [scaleUe sb p.1, scaleUe sb p.2.1], ps.foldl (fun n p => n + p.2.2) 0)

/-! ## Quantisation (R71 to R73) -/

/-- fmax of a destination of `qblk`, as m · 2^e. -/
def quantMax : Ty → Nat × Int
  | .e4m3 => (7, 6) | .e5m2 => (7, 13) | _ => (3, 5)

/-- The least t with m · 2^e ≤ fmax · 2^t. -/
def scaleExp (dt : Ty) (m : Nat) (e : Int) : Int :=
  let q := quantMax dt
  let t := ilog m e - ilog q.1 q.2
  if fCmp (.fin false m e) (.fin false q.1 (q.2 + t)) ≤ 0 then t else t + 1

/-- The block scale byte (R71). -/
def blockScale (dt : Ty) (xs : List FVal) : Nat :=
  if xs.any fun x => x.isNan || x.isInf.isSome then 255
  else
    let big := xs.foldl (fun a x =>
      let y := if x.neg then x.negate else x
      if fCmp a y < 0 then y else a) (.zero false)
    match big with
    | .fin _ m e => (max (scaleExp dt m e) (-127) + 127).toNat
    | _ => 0

/-- Units of y in the quantiser: y · 2^300 is an integer for every f32 source and scale. -/
def quantUnit : Int := 2 ^ 300

/-- x / s over the unit. -/
def quantY (sb : Nat) (x : FVal) : Int :=
  match x with
  | .fin n m e => (if n then -1 else 1) * (m * 2 ^ (e - ((sb : Int) - 127) + 300).toNat : Nat)
  | _ => 0

/-- RoundHalfEven of y, clamped to −7 to 7. -/
def quantOrdinary (y : Int) : Int :=
  clampInt (-7) 7 (roundInt .rne (decide (y < 0)) y.natAbs (-300))

/-- The outlier of bits [2:0] b (exponent and mantissa), without sign. -/
def outlierMag (b : Nat) : Nat := (2 + b % 2) * 2 ^ (b / 2 + 2)

/-- The bits [2:0] of the outlier nearest to |y|; on a tie the one with mantissa bit 0. -/
def nearestOutlier (y : Int) : Nat :=
  (List.range 8).foldl (fun best b =>
    let d := ((y.natAbs : Int) - outlierMag b * quantUnit).natAbs
    let d0 := ((y.natAbs : Int) - outlierMag best * quantUnit).natAbs
    if d < d0 || (d = d0 && b % 2 = 0 && best % 2 = 1) then b else best) 0

/-- Pair k of a block, as the quantiser sees it: |y[2k]|, k, the outlier bits, and whether it is a candidate. -/
def quantPair (ys : List Int) (k : Nat) : Nat × Nat × Bool :=
  let y0 := ys.getD (2 * k) 0
  let y1 := ys.getD (2 * k + 1) 0
  let b := nearestOutlier y0
  let w : Int := (if y0 < 0 then -1 else 1) * outlierMag b * quantUnit
  let err := (y0 - w).natAbs + y1.natAbs
  let ord := (y0 - quantOrdinary y0 * quantUnit).natAbs + (y1 - quantOrdinary y1 * quantUnit).natAbs
  (y0.natAbs, b + (if y0 < 0 then 8 else 0), decide (err < ord))

/-- Candidates ordered by |y| descending, then k ascending. -/
def insertCand (c : Nat × Nat) : List (Nat × Nat) → List (Nat × Nat)
  | [] => [c]
  | d :: r => if d.1 < c.1 then c :: d :: r else d :: insertCand c r

/-- The code entry of a Q4O block with scale sb and outlier limit (R73). -/
def quantQ4 (sb limit : Nat) (xs : List FVal) : Nat :=
  let ys := xs.map (quantY sb)
  let ps := (List.range 8).map (quantPair ys)
  let cand := ((List.range 8).filter fun k => (ps.getD k (0, 0, false)).2.2).foldl
    (fun l k => insertCand ((ps.getD k (0, 0, false)).1, k) l) []
  let chosen := (cand.take limit).map Prod.snd
  (List.range 8).foldl (fun n k =>
    let lo := if chosen.contains k then 8 else wrapNat 4 (quantOrdinary (ys.getD (2 * k) 0))
    let hi := if chosen.contains k then (ps.getD k (0, 0, false)).2.1 else wrapNat 4 (quantOrdinary (ys.getD (2 * k + 1) 0))
    n + (lo + 16 * hi) * 2 ^ (8 * k)) 0

/-- The image of a block that `qblk` writes: code entry, then scale entry, as registers (Table 13.7). -/
def quantBlock (dt : Ty) (mode : RMode) (limit : Nat) (xs : List FVal) : List Word :=
  let sb := blockScale dt xs
  if dt = .q4o then
    let c := if sb = 255 then 0 else quantQ4 sb limit xs
    [BitVec.ofNat 32 c, BitVec.ofNat 32 (c / 2 ^ 32), BitVec.ofNat 32 sb]
  else
    let f := fmtOf dt
    let code : FVal → Nat := fun x => if sb = 255 then 0 else
      roundTo f mode false (match x with
        | .fin n m e => .fin n m (e - ((sb : Int) - 127))
        | y => y)
    let cs := xs.map code
    ((List.range 4).map fun j => BitVec.ofNat 32 ((List.range 4).foldl (fun n k => n + cs.getD (4 * j + k) 0 * 2 ^ (8 * k)) 0)) ++
      [BitVec.ofNat 32 sb]

end Sys2Proof.Machine
end

