-- ==== Sys2Proof/Config.lean ====
section
/-! DEFINITION. What an implementation fixes and the spec does not give: free values without a body. Nothing in Lean can prove a
value of one of these, so a statement that holds of the model holds for every such value. -/

namespace Sys2Proof.Config

/-- Whether a stage escalates a result whose exact value lies between E and 3E of a rounding boundary (R77 fixes neither); indexed
by the state's counter of free values. -/
opaque freeEscalates : Nat → Bool

/-- Which of the values that R76 allows an approximating stage delivered, as FASTV of Table 4.3 shows it. -/
opaque freeFastValue : Nat → BitVec 2

/-- The module-signing public key, a point of P-384, that a firmware-core image holds (R327; the key and its place are not given). -/
opaque moduleSigningKey : List Byte → Nat × Nat

/-- The device-held key of the translation cache's HMAC (R329; not given). -/
opaque deviceKey : List Byte

/-- The Placo translator: object and XLVER to the translation, none when it fails (R329 gives no algorithm). -/
opaque translate : List Byte → Word → Option (List Byte)

/-- Whether a firmware component's signature verifies (R28; the key is not given). -/
opaque firmwareSignatureValid : List Byte → Bool

/-- The security version that a firmware component's image carries (R28; its layout is not given). -/
opaque firmwareSecurityVersion : List Byte → Nat

/-- The version that a firmware component's image carries (Table 10.1; its layout is not given). -/
opaque firmwareVersion : List Byte → Word

/-- The size in bytes of a firmware bank (R403; not given). -/
opaque firmwareBankSize : Nat

/-- The fitted size in bytes of the module in a DDR-5 channel, 0 where none is fitted (R20, Table 5.4; not given). -/
opaque ddrBytes : Nat → Nat

/-- The peer port, taken modulo 12, through which this device reaches a peer (R18 gives no routing). -/
opaque peerPort : Nat → Nat

/-- Which block of a full instruction cache gives way to a fill, by the counter of free values (Table 5.7 gives the sizes and no order). -/
opaque freeVictim : Nat → Nat

/-- Clocks, taken modulo 8, that a lane instruction has waited for network slots: by the core or group that counts them, the clock from which it
counts, and the number of the access (R107 bounds them and does not give the places of the slots in a frame). -/
opaque freeSlotClocks : Nat → Nat → Nat → Nat

/-- What HBM4 and DDR-5 hold after a device reset, which leaves them undefined (R22): cells and bytes, by the counter of free values. -/
opaque resetMemory : Nat → List (Nat × Byte)

/-- A byte of the save area whose place or layout Tables 7.8 and 7.9 leave open, by the counter of free values and the address. -/
opaque freeSaved : Nat → Nat → Byte

end Sys2Proof.Config
end

