-- ==== Sys2Proof/Decode.lean ====
section
/-! DEFINITION. The decoder of Verhitrix words (11_instruction_encoding.md), total on any bits and rejecting by the number of the
condition of R226, and after it the encoder, written from the same tables. -/

namespace Sys2Proof

/-! ## Fields -/

/-- The assigned cells of Table 11.7. -/
inductive Op
  | nop | br | brc | call | calli | callm | ret | join | exit | yield | ipf | add | sub | mul | mad | shl | shr
  | and | or | xor | not | min | max | icmp | sel | mov | cnt | fadd | fsub | fmul | ffma | fdiv | fsqrt | frsq
  | fmin | fmax | fcmp | fdot4 | fdot8 | gsum | fexp | fexp2 | fexpm1 | flog | flog2 | flog1p | fsin | fcos | fsinpi
  | fcospi | ftanh | fsigm | cvt | qblk | rngk | xsel | qswap | qbcast | qdiff | ballot | mop | mmov | ldSh | stSh
  | ldSp | stSp | sld | sst | atom | fence | cpin | cpout | cpgat | cpbp | cppeer | barv | barx | barw | fetchw
  | spawn | tend | msetf | mma | macq | mrel | mld | mdrn | mzero | bld | sread | swrite | trap | eret | bkpt | pmc
deriving DecidableEq, Repr

/-- The opcode map (Table 11.7). -/
def Op.code : Op → BitVec 8
  | .nop => 0x00#8 | .br => 0x01#8 | .brc => 0x02#8 | .call => 0x03#8 | .calli => 0x04#8 | .callm => 0x05#8
  | .ret => 0x06#8 | .join => 0x07#8 | .exit => 0x08#8 | .yield => 0x09#8 | .ipf => 0x0A#8 | .add => 0x10#8
  | .sub => 0x11#8 | .mul => 0x12#8 | .mad => 0x13#8 | .shl => 0x14#8 | .shr => 0x15#8 | .and => 0x16#8
  | .or => 0x17#8 | .xor => 0x18#8 | .not => 0x19#8 | .min => 0x1A#8 | .max => 0x1B#8 | .icmp => 0x1C#8
  | .sel => 0x1D#8 | .mov => 0x1E#8 | .cnt => 0x1F#8 | .fadd => 0x20#8 | .fsub => 0x21#8 | .fmul => 0x22#8
  | .ffma => 0x23#8 | .fdiv => 0x24#8 | .fsqrt => 0x25#8 | .frsq => 0x26#8 | .fmin => 0x27#8 | .fmax => 0x28#8
  | .fcmp => 0x29#8 | .fdot4 => 0x2B#8 | .fdot8 => 0x2C#8 | .gsum => 0x2D#8 | .fexp => 0x30#8 | .fexp2 => 0x31#8
  | .fexpm1 => 0x32#8 | .flog => 0x33#8 | .flog2 => 0x34#8 | .flog1p => 0x35#8 | .fsin => 0x36#8 | .fcos => 0x37#8
  | .fsinpi => 0x38#8 | .fcospi => 0x39#8 | .ftanh => 0x3A#8 | .fsigm => 0x3B#8 | .cvt => 0x40#8 | .qblk => 0x41#8
  | .rngk => 0x42#8 | .xsel => 0x43#8 | .qswap => 0x44#8 | .qbcast => 0x45#8 | .qdiff => 0x46#8 | .ballot => 0x47#8
  | .mop => 0x48#8 | .mmov => 0x49#8 | .ldSh => 0x50#8 | .stSh => 0x51#8 | .ldSp => 0x52#8 | .stSp => 0x53#8
  | .sld => 0x54#8 | .sst => 0x55#8 | .atom => 0x56#8 | .fence => 0x57#8 | .cpin => 0x60#8 | .cpout => 0x61#8
  | .cpgat => 0x62#8 | .cpbp => 0x63#8 | .cppeer => 0x64#8 | .barv => 0x65#8 | .barx => 0x66#8 | .barw => 0x67#8
  | .fetchw => 0x70#8 | .spawn => 0x71#8 | .tend => 0x72#8 | .msetf => 0x80#8 | .mma => 0x81#8 | .macq => 0x82#8
  | .mrel => 0x83#8 | .mld => 0x84#8 | .mdrn => 0x85#8 | .mzero => 0x86#8 | .bld => 0x87#8 | .sread => 0xF0#8
  | .swrite => 0xF1#8 | .trap => 0xF2#8 | .eret => 0xF3#8 | .bkpt => 0xF4#8 | .pmc => 0xF5#8

/-- Reading the opcode map; a cell marked — is reserved (R223). -/
def Op.ofCode (c : BitVec 8) : Option Op :=
  match c.toNat with
  | 0x00 => some .nop | 0x01 => some .br | 0x02 => some .brc | 0x03 => some .call | 0x04 => some .calli
  | 0x05 => some .callm | 0x06 => some .ret | 0x07 => some .join | 0x08 => some .exit | 0x09 => some .yield
  | 0x0A => some .ipf | 0x10 => some .add | 0x11 => some .sub | 0x12 => some .mul | 0x13 => some .mad
  | 0x14 => some .shl | 0x15 => some .shr | 0x16 => some .and | 0x17 => some .or | 0x18 => some .xor
  | 0x19 => some .not | 0x1A => some .min | 0x1B => some .max | 0x1C => some .icmp | 0x1D => some .sel
  | 0x1E => some .mov | 0x1F => some .cnt | 0x20 => some .fadd | 0x21 => some .fsub | 0x22 => some .fmul
  | 0x23 => some .ffma | 0x24 => some .fdiv | 0x25 => some .fsqrt | 0x26 => some .frsq | 0x27 => some .fmin
  | 0x28 => some .fmax | 0x29 => some .fcmp | 0x2B => some .fdot4 | 0x2C => some .fdot8 | 0x2D => some .gsum
  | 0x30 => some .fexp | 0x31 => some .fexp2 | 0x32 => some .fexpm1 | 0x33 => some .flog | 0x34 => some .flog2
  | 0x35 => some .flog1p | 0x36 => some .fsin | 0x37 => some .fcos | 0x38 => some .fsinpi | 0x39 => some .fcospi
  | 0x3A => some .ftanh | 0x3B => some .fsigm | 0x40 => some .cvt | 0x41 => some .qblk | 0x42 => some .rngk
  | 0x43 => some .xsel | 0x44 => some .qswap | 0x45 => some .qbcast | 0x46 => some .qdiff | 0x47 => some .ballot
  | 0x48 => some .mop | 0x49 => some .mmov | 0x50 => some .ldSh | 0x51 => some .stSh | 0x52 => some .ldSp
  | 0x53 => some .stSp | 0x54 => some .sld | 0x55 => some .sst | 0x56 => some .atom | 0x57 => some .fence
  | 0x60 => some .cpin | 0x61 => some .cpout | 0x62 => some .cpgat | 0x63 => some .cpbp | 0x64 => some .cppeer
  | 0x65 => some .barv | 0x66 => some .barx | 0x67 => some .barw | 0x70 => some .fetchw | 0x71 => some .spawn
  | 0x72 => some .tend | 0x80 => some .msetf | 0x81 => some .mma | 0x82 => some .macq | 0x83 => some .mrel
  | 0x84 => some .mld | 0x85 => some .mdrn | 0x86 => some .mzero | 0x87 => some .bld | 0xF0 => some .sread
  | 0xF1 => some .swrite | 0xF2 => some .trap | 0xF3 => some .eret | 0xF4 => some .bkpt | 0xF5 => some .pmc
  | _ => none

/-- The fields of Table 11.3 with the immediate of the longer forms; imm is 0 in the 64-bit form and zero-extended in the 96-bit
form. -/
structure Fields where
  len : Len
  opc : BitVec 8
  mask : BitVec 4
  mneg : Bool
  u : Bool
  od : Reg
  oa : Reg
  ob : Reg
  oc : Reg
  mode : BitVec 3
  ty : BitVec 5
  mod : BitVec 2
  kb : Bool
  subop : BitVec 5
  imm : Dword
deriving DecidableEq, Repr

/-- Lengths in bytes (Table 11.1). -/
def Len.bytes : Len → Nat
  | .l64 => 8 | .l96 => 12 | .l128 => 16

def Len.code : Len → BitVec 2
  | .l64 => 0#2 | .l96 => 1#2 | .l128 => 2#2

/-- Bits [1:0] of an instruction; none for a clause header (Table 11.1). -/
def Len.ofCode (k : BitVec 2) : Option Len :=
  match k.toNat with
  | 0 => some .l64 | 1 => some .l96 | 2 => some .l128 | _ => none

/-- The fields of an instruction of a given length whose bits are the low bits of w (Table 11.3). -/
def fieldsOf (len : Len) (w : BitVec 128) : Fields :=
  { len := len
    opc := w.extractLsb' 2 8, mask := w.extractLsb' 10 4, mneg := w.getLsbD 14, u := w.getLsbD 15
    od := w.extractLsb' 16 8, oa := w.extractLsb' 24 8, ob := w.extractLsb' 32 8, oc := w.extractLsb' 40 8
    mode := w.extractLsb' 48 3, ty := w.extractLsb' 51 5, mod := w.extractLsb' 56 2, kb := w.getLsbD 58
    subop := w.extractLsb' 59 5
    imm := match len with
      | .l64 => 0
      | .l96 => (w.extractLsb' 64 32).setWidth 64
      | .l128 => w.extractLsb' 64 64 }

/-- The bits of an instruction with these fields. -/
def Fields.bits (f : Fields) : BitVec 128 :=
  f.imm ++ (f.subop ++ BitVec.ofBool f.kb ++ f.mod ++ f.ty ++ f.mode ++ f.oc ++ f.ob ++ f.oa ++ f.od ++ BitVec.ofBool f.u ++
    BitVec.ofBool f.mneg ++ f.mask ++ f.opc ++ f.len.code)

/-! ## Codes of modifiers -/

/-- Table 11.5. -/
def Ty.code : Ty → BitVec 5
  | .f64 => 0#5 | .f32 => 1#5 | .f16 => 2#5 | .bf16 => 3#5 | .e4m3 => 4#5 | .e5m2 => 5#5 | .q4o => 6#5
  | .i8 => 8#5 | .i16 => 9#5 | .i32 => 10#5 | .i64 => 11#5 | .n8 => 12#5 | .n16 => 13#5 | .n32 => 14#5 | .n64 => 15#5
  | .b32 => 16#5 | .b64 => 17#5

def Ty.ofCode (c : BitVec 5) : Option Ty :=
  match c.toNat with
  | 0 => some .f64 | 1 => some .f32 | 2 => some .f16 | 3 => some .bf16 | 4 => some .e4m3 | 5 => some .e5m2 | 6 => some .q4o
  | 8 => some .i8 | 9 => some .i16 | 10 => some .i32 | 11 => some .i64 | 12 => some .n8 | 13 => some .n16 | 14 => some .n32
  | 15 => some .n64 | 16 => some .b32 | 17 => some .b64 | _ => none

/-- Table 11.6, rounding modes. -/
def RMode.code : RMode → BitVec 3
  | .rne => 0#3 | .rna => 1#3 | .rtz => 2#3 | .rup => 3#3 | .rdn => 4#3

def RMode.ofCode (c : BitVec 3) : Option RMode :=
  match c.toNat with
  | 0 => some .rne | 1 => some .rna | 2 => some .rtz | 3 => some .rup | 4 => some .rdn | _ => none

/-- Table 11.6, scopes. -/
def Scope.code : Scope → BitVec 3
  | .grp => 0#3 | .blk => 1#3 | .clu => 2#3 | .dev => 3#3 | .sys => 4#3

def Scope.ofCode (c : BitVec 3) : Option Scope :=
  match c.toNat with
  | 0 => some .grp | 1 => some .blk | 2 => some .clu | 3 => some .dev | 4 => some .sys | _ => none

/-- MOD of atomics and copies (R274, R279). -/
def Ord.code : Ord → BitVec 2
  | .none => 0#2 | .acq => 1#2 | .rel => 2#2 | .ar => 3#2

def Ord.ofCode (c : BitVec 2) : Ord :=
  match c.toNat with
  | 0 => .none | 1 => .acq | 2 => .rel | _ => .ar

/-- SUBOP of fence (R278). -/
def FenceKind.code : FenceKind → BitVec 5
  | .acq => 0#5 | .rel => 1#5 | .ar => 2#5 | .sc => 3#5

def FenceKind.ofCode (c : BitVec 5) : Option FenceKind :=
  match c.toNat with
  | 0 => some .acq | 1 => some .rel | 2 => some .ar | 3 => some .sc | _ => none

/-- SUBOP of add (Table 12.1). -/
def Ext.code : Ext → BitVec 5
  | .none => 0#5 | .sx => 1#5 | .zx => 2#5

def Ext.ofCode (c : BitVec 5) : Option Ext :=
  match c.toNat with
  | 0 => some .none | 1 => some .sx | 2 => some .zx | _ => none

/-- SUBOP of icmp (Table 12.1). -/
def ICond.code : ICond → BitVec 5
  | .eq => 0#5 | .ne => 1#5 | .lt => 2#5 | .le => 3#5 | .gt => 4#5 | .ge => 5#5

def ICond.ofCode (c : BitVec 5) : Option ICond :=
  match c.toNat with
  | 0 => some .eq | 1 => some .ne | 2 => some .lt | 3 => some .le | 4 => some .gt | 5 => some .ge | _ => none

/-- SUBOP of fcmp (Table 13.1). -/
def FCond.code : FCond → BitVec 5
  | .eq => 0#5 | .ne => 1#5 | .lt => 2#5 | .le => 3#5 | .gt => 4#5 | .ge => 5#5 | .un => 6#5 | .or => 7#5

def FCond.ofCode (c : BitVec 5) : Option FCond :=
  match c.toNat with
  | 0 => some .eq | 1 => some .ne | 2 => some .lt | 3 => some .le | 4 => some .gt | 5 => some .ge | 6 => some .un
  | 7 => some .or | _ => none

/-- SUBOP of brc (R235). -/
def BrCond.code : BrCond → BitVec 5
  | .nz => 0#5 | .z => 1#5 | .ltz => 2#5 | .gez => 3#5

def BrCond.ofCode (c : BitVec 5) : Option BrCond :=
  match c.toNat with
  | 0 => some .nz | 1 => some .z | 2 => some .ltz | 3 => some .gez | _ => none

/-- SUBOP of cnt (Table 12.1). -/
def CntOp.code : CntOp → BitVec 5
  | .pop => 0#5 | .lz => 1#5 | .tz => 2#5 | .rev => 3#5

def CntOp.ofCode (c : BitVec 5) : Option CntOp :=
  match c.toNat with
  | 0 => some .pop | 1 => some .lz | 2 => some .tz | 3 => some .rev | _ => none

/-- SUBOP of mop (Table 12.3). -/
def MopOp.code : MopOp → BitVec 5
  | .and => 0#5 | .or => 1#5 | .xor => 2#5 | .andn => 3#5 | .not => 4#5

def MopOp.ofCode (c : BitVec 5) : Option MopOp :=
  match c.toNat with
  | 0 => some .and | 1 => some .or | 2 => some .xor | 3 => some .andn | 4 => some .not | _ => none

/-- SUBOP of mmov (Table 12.3). -/
def MmovOp.code : MmovOp → BitVec 5
  | .m => 0#5 | .k => 1#5 | .unit => 2#5

def MmovOp.ofCode (c : BitVec 5) : Option MmovOp :=
  match c.toNat with
  | 0 => some .m | 1 => some .k | 2 => some .unit | _ => none

/-- SUBOP of xsel (Table 13.1). -/
def XselOp.code : XselOp → BitVec 5
  | .idx => 0#5 | .xor => 1#5 | .up => 2#5 | .down => 3#5

def XselOp.ofCode (c : BitVec 5) : Option XselOp :=
  match c.toNat with
  | 0 => some .idx | 1 => some .xor | 2 => some .up | 3 => some .down | _ => none

/-- SUBOP of qswap (Table 13.1). -/
def QDir.code : QDir → BitVec 5
  | .h => 1#5 | .v => 2#5 | .d => 3#5

def QDir.ofCode (c : BitVec 5) : Option QDir :=
  match c.toNat with
  | 1 => some .h | 2 => some .v | 3 => some .d | _ => none

/-- SUBOP of ipf (R243). -/
def CacheLevel.code : CacheLevel → BitVec 5
  | .l0 => 0#5 | .l1 => 1#5 | .l2 => 2#5

def CacheLevel.ofCode (c : BitVec 5) : Option CacheLevel :=
  match c.toNat with
  | 0 => some .l0 | 1 => some .l1 | 2 => some .l2 | _ => none

/-- SUBOP of loads, stores and bld (Table 14.1). -/
def Cnt.code : Cnt → BitVec 5
  | .x1 => 0#5 | .x2 => 1#5 | .x4 => 2#5

def Cnt.ofCode (c : BitVec 5) : Option Cnt :=
  match c.toNat with
  | 0 => some .x1 | 1 => some .x2 | 2 => some .x4 | _ => none

/-- SUBOP of atom (Table 14.2). -/
def AtomOp.code : AtomOp → BitVec 5
  | .add => 0#5 | .min => 1#5 | .max => 2#5 | .and => 3#5 | .or => 4#5 | .xor => 5#5 | .xch => 6#5 | .cas => 7#5 | .ld => 8#5

def AtomOp.ofCode (c : BitVec 5) : Option AtomOp :=
  match c.toNat with
  | 0 => some .add | 1 => some .min | 2 => some .max | 3 => some .and | 4 => some .or | 5 => some .xor | 6 => some .xch
  | 7 => some .cas | 8 => some .ld | _ => none

/-- A two-valued SUBOP (mul's .hi, mov's .tid, .sh and .scr, .put and .get, qdiff's axis, pmc's clear). -/
def bit5 (b : Bool) : BitVec 5 := if b then 1#5 else 0#5

def bit5Of (c : BitVec 5) : Option Bool :=
  match c.toNat with
  | 0 => some false | 1 => some true | _ => none

/-- A two-valued MOD (.sat, .z, .nc, .acq of mld.in). -/
def bit2 (b : Bool) : BitVec 2 := if b then 1#2 else 0#2

def bit2Of (c : BitVec 2) : Option Bool :=
  match c.toNat with
  | 0 => some false | 1 => some true | _ => none

/-- SUBOP of fetch slot qbcast (0 to 3). -/
def slotOf (c : BitVec 5) : Option (BitVec 2) := if c.toNat < 4 then some (c.setWidth 2) else none

/-! ## Rows -/

/-- Which values of U an opcode admits (Table 11.8). -/
inductive UForm | zero | one | both | any
deriving DecidableEq, Repr

def UForm.ok : UForm → Bool → Bool
  | .zero, u => !u
  | .one, u => u
  | .both, _ | .any, _ => true

/-- The U value and the lengths of each opcode (Table 11.8). -/
def Op.form : Op → UForm × List Len
  | .nop => (.any, [.l64, .l96, .l128])
  | .br | .brc | .call => (.zero, [.l64, .l96, .l128])
  | .calli | .callm | .ret | .join | .exit | .yield => (.zero, [.l64])
  | .ipf => (.one, [.l64, .l96, .l128])
  | .add | .sub | .mul | .mad | .shl | .shr | .and | .or | .xor | .min | .max | .icmp | .sel | .mov => (.both, [.l64, .l96, .l128])
  | .not | .cnt => (.both, [.l64])
  | .fadd | .fsub | .fmul | .ffma | .fdiv | .fmin | .fmax | .fcmp => (.zero, [.l64, .l96, .l128])
  | .fsqrt | .frsq | .gsum | .fexp | .fexp2 | .fexpm1 | .flog | .flog2 | .flog1p | .fsin | .fcos | .fsinpi | .fcospi | .ftanh
  | .fsigm | .cvt | .qblk | .rngk | .qswap | .qbcast | .qdiff | .ballot | .fdot4 | .fdot8 => (.zero, [.l64])
  | .xsel => (.zero, [.l64, .l96])
  | .mop | .mmov => (.one, [.l64])
  | .ldSh | .stSh | .ldSp | .stSp | .sld | .sst | .atom | .bld => (.zero, [.l64, .l96, .l128])
  | .fence | .tend | .eret | .bkpt | .fetchw | .spawn | .macq | .mrel | .mzero => (.one, [.l64])
  | .cpin | .cpout | .cpgat | .cpbp | .cppeer | .barv | .barw | .barx | .msetf | .trap | .mld | .pmc => (.one, [.l64, .l96])
  | .mma | .mdrn => (.zero, [.l64, .l96])
  | .sread | .swrite => (.one, [.l96])

/-- The opcodes whose operand b is "V or K or I" (Table 11.8): the ones that admit KB = 1 (R215). -/
def Op.admitsKB : Op → Bool
  | .add | .sub | .mul | .mad | .shl | .shr | .and | .or | .xor | .min | .max | .icmp | .sel | .mov
  | .fadd | .fsub | .fmul | .ffma | .fdiv | .fmin | .fmax | .fcmp | .xsel => true
  | _ => false

/-- What an operand field holds: nothing (a field shown as —, condition 7), no operand (an I operand, whose OB must be 0, condition
6), an ignored field, or an operand of Table 11.4. -/
inductive Kind
  | none | imm | ign
  | v (w : Bool) | run (w : Bool) (n : Nat)
  | k | kRun | m (dst : Bool) | f | t
deriving DecidableEq, Repr

/-- The limit of a kind, as far as the encoding alone decides it (Table 11.4, condition 6). -/
def Kind.ok : Kind → Reg → Bool
  | .none, _ | .ign, _ => true
  | .imm, n => n == 0
  | .v w, n => okV w n
  | .run w len, n => okRun w n len
  | .k, n => okK n
  | .kRun, n => n.toNat ≤ 60
  | .m dst, n => okM dst n
  | .f, n => n.toNat < 8
  | .t, n => n.toNat < 32

/-- A field shown as — holds 0 (condition 7). -/
def Kind.zero : Kind → Reg → Bool
  | .none, n => n == 0
  | _, _ => true

/-- What one encoding row says once conditions 1 to 5 are passed: the kinds of the four operand fields, whether the bits that must
be zero are zero, and the instruction. -/
structure Row where
  od : Kind := .none
  oa : Kind := .none
  ob : Kind := .none
  oc : Kind := .none
  zero : Bool := true
  build : Instr
deriving DecidableEq, Repr

/-- A row under condition 5. -/
def rowIf (c : Bool) (r : Row) : Option Row := if c then some r else none

/-- A V operand of Table 11.8 under R217 and R218. -/
def kindV (u w : Bool) : Kind := if u then .k else .v w

/-- Operand b, "V or K or I" (R215, R217, R221). -/
def opB (f : Fields) : OpB :=
  match f.len with
  | .l64 => if f.u || f.kb then .k f.ob else .v f.ob
  | .l96 => .i32 (f.imm.setWidth 32)
  | .l128 => .i64 f.imm

def kindB (f : Fields) (w : Bool) : Kind :=
  match f.len with
  | .l64 => if f.u || f.kb then .k else .v w
  | _ => .imm

/-- Operand b, "K, or offset" (R221, R224). -/
def offB (f : Fields) : OffB :=
  match f.len with
  | .l64 => .k f.ob
  | .l96 => .i32 (f.imm.setWidth 32)
  | .l128 => .i64 f.imm

def kindOff (f : Fields) : Kind := if f.len = .l64 then .k else .imm

/-- Operand b, "K or I" in the 64- and 96-bit forms, with the immediate bits that the instruction reserves cleared. -/
def opKI (f : Fields) (resv : Word) : KI :=
  if f.len = .l64 then .k f.ob else .i (f.imm.setWidth 32 &&& ~~~resv)

/-- The reserved immediate bits are zero (condition 7). -/
def immZero (f : Fields) (resv : Word) : Bool := f.imm.setWidth 32 &&& resv == 0

/-- A branch offset (R222). -/
def targetB (f : Fields) : Target :=
  match f.len with
  | .l64 => .off24 (f.oc ++ f.ob ++ f.oa)
  | .l96 => .off32 (f.imm.setWidth 32)
  | .l128 => .off64 f.imm

/-- An OFF24 field: part of the offset in the 64-bit form, reserved in the longer forms (R222). -/
def kindOff24 (f : Fields) : Kind := if f.len = .l64 then .ign else .none

def Fields.pred (f : Fields) : Pred := ⟨f.mneg, f.mask⟩

/-- MASK and MNEG are zero. -/
def Fields.noMask (f : Fields) : Bool := f.mask == 0 && !f.mneg

/-- TYPE, MODE, MOD and SUBOP reserved. -/
def Fields.plain (f : Fields) : Bool := f.ty == 0 && f.mode == 0 && f.mod == 0 && f.subop == 0

/-- An integer instruction with two sources (Table 12.1) whose SUBOP is 0. -/
def rowInt2 (f : Fields) (types : Ty → Bool) (maxMod : Nat) (mk : Ty → Instr) : Option Row :=
  (Ty.ofCode f.ty).bind fun ty =>
    rowIf (types ty && f.mode == 0 && f.mod.toNat ≤ maxMod && f.subop == 0)
      { od := kindV f.u ty.wide, oa := kindV f.u ty.wide, ob := kindB f ty.wide, build := mk ty }

/-- A floating-point instruction with two sources that rounds (Table 13.1). -/
def rowF2 (f : Fields) (oc : Ty → Kind) (mk : Ty → RMode → Instr) : Option Row :=
  (Ty.ofCode f.ty).bind fun ty => (RMode.ofCode f.mode).bind fun rm =>
    rowIf (ty.isFloat4 && f.mod == 0 && f.subop == 0)
      { od := .v ty.wide, oa := .v ty.wide, ob := kindB f ty.wide, oc := oc ty, build := mk ty rm }

/-- A floating-point instruction with one source that rounds. -/
def rowF1 (f : Fields) (mk : Ty → RMode → Instr) : Option Row :=
  (Ty.ofCode f.ty).bind fun ty => (RMode.ofCode f.mode).bind fun rm =>
    rowIf (ty.isFloat4 && f.mod == 0 && f.subop == 0) { od := .v ty.wide, oa := .v ty.wide, build := mk ty rm }

/-- A load (Table 14.1). -/
def rowLd (f : Fields) (mk : Ty → Cnt → Instr) : Option Row :=
  (Ty.ofCode f.ty).bind fun ty => (Cnt.ofCode f.subop).bind fun n =>
    rowIf (okLs ty n && f.mod == 0 && f.mode == 0)
      { od := .run (ty = .b64) (runRegs ty n), oa := .v false, ob := kindOff f, build := mk ty n }

/-- A store (Table 14.1). -/
def rowSt (f : Fields) (mk : Ty → Cnt → Instr) : Option Row :=
  (Ty.ofCode f.ty).bind fun ty => (Cnt.ofCode f.subop).bind fun n =>
    rowIf (okLs ty n && f.mod == 0 && f.mode == 0)
      { oa := .v false, ob := kindOff f, oc := .run (ty = .b64) (runRegs ty n), build := mk ty n }

/-- A copy (Table 14.3), with the IMM32 bits it reserves. -/
def rowCopy (f : Fields) (resv : Word) (mk : Bool → Ord → Scope → Option Word → Instr) (subs : Nat) : Option Row :=
  (bit5Of f.subop).bind fun b => (Scope.ofCode f.mode).bind fun sc =>
    rowIf (f.subop.toNat < subs && f.ty == 0 && okOrd (Ord.ofCode f.mod) sc)
      { od := .f, oa := .k, ob := .k, oc := .k, zero := immZero f resv
        build := mk b (Ord.ofCode f.mod) sc (if f.len = .l64 then none else some (f.imm.setWidth 32 &&& ~~~resv)) }

/-- mld in one of its four sub-operations (Table 15.3). -/
def rowMld (f : Fields) : Option Row :=
  (Ty.ofCode f.ty).bind fun ty => (Scope.ofCode f.mode).bind fun sc =>
    let out := f.subop.getLsbD 1
    let flag := f.mod != 0
    rowIf (f.subop.toNat < 4 && (ty = .f32 || ty = .i32) && (flag || sc = .grp) && (f.mod == 0 || f.mod == (if out then 2 else 1)))
      { od := .t, oa := .k, ob := kindOff f
        build := if out then .mldOut f.pred (f.subop.getLsbD 0) ty flag sc f.od f.oa (opKI f 0)
                 else .mldIn f.pred (f.subop.getLsbD 0) ty flag sc f.od f.oa (opKI f 0) }

/-- The row of an opcode: its accepted SUBOP, MOD, KB, TYPE and MODE values (none: condition 5), its operand kinds and the
instruction it stands for. For mov.tid the spec asks OB = 0 (R228) and says nothing of an immediate in the longer forms, nor of KB: the model
refuses an immediate that is not zero, as one that no row uses, and accepts and ignores KB = 1 (DESIGN CHOICE, log 26). -/
def Op.row (op : Op) (f : Fields) : Option Row :=
  match op with
  | .nop => some { od := .ign, oa := .ign, ob := .ign, oc := .ign, build := .nop f.len }
  | .br => rowIf f.plain { oa := kindOff24 f, ob := kindOff24 f, oc := kindOff24 f, build := .br f.pred (targetB f) }
  | .call => rowIf f.plain { oa := kindOff24 f, ob := kindOff24 f, oc := kindOff24 f, build := .call f.pred (targetB f) }
  | .brc => (BrCond.ofCode f.subop).bind fun c =>
    rowIf (f.ty == 0 && f.mode == 0 && f.mod == 0)
      { od := .k, oa := kindOff24 f, ob := kindOff24 f, oc := kindOff24 f, build := .brc c f.pred f.od (targetB f) }
  | .calli => rowIf f.plain { oa := .v true, build := .calli f.pred f.oa }
  | .callm => rowIf f.plain { oa := .k, ob := .k, build := .callm f.pred f.oa f.ob }
  | .ret => rowIf f.plain { zero := f.noMask, build := .ret }
  | .join => rowIf f.plain { zero := f.noMask, build := .join }
  | .exit => rowIf f.plain { build := .exit f.pred }
  | .yield => rowIf f.plain { build := .yield f.pred }
  | .ipf => (CacheLevel.ofCode f.subop).bind fun l =>
    rowIf (f.ty == 0 && f.mode == 0 && f.mod == 0)
      { oa := .k, ob := if f.len = .l64 then .k else .none, build := .ipf f.pred l f.oa (offB f) }
  | .add => (Ty.ofCode f.ty).bind fun ty => (Ext.ofCode f.subop).bind fun x => (bit2Of f.mod).bind fun sat =>
    rowIf (ty.isInt4 && f.mode == 0 && (x = .none || (ty.wide && f.len != .l128)))
      { od := kindV f.u ty.wide, oa := kindV f.u ty.wide, ob := kindB f (ty.wide && x = .none)
        build := .add f.u f.pred ty x sat f.od f.oa (opB f) }
  | .sub => rowInt2 f Ty.isInt4 1 fun ty => .sub f.u f.pred ty (f.mod != 0) f.od f.oa (opB f)
  | .mul => (Ty.ofCode f.ty).bind fun ty => (bit5Of f.subop).bind fun hi => (bit2Of f.mod).bind fun sat =>
    rowIf (ty.isInt4 && f.mode == 0 && !(hi && sat))
      { od := kindV f.u ty.wide, oa := kindV f.u ty.wide, ob := kindB f ty.wide
        build := .mul f.u f.pred ty hi sat f.od f.oa (opB f) }
  | .mad => (Ty.ofCode f.ty).bind fun ty => (bit2Of f.mod).bind fun sat =>
    rowIf (ty.isInt4 && f.mode == 0 && f.subop == 0)
      { od := kindV f.u ty.wide, oa := kindV f.u ty.wide, ob := kindB f ty.wide, oc := kindV f.u ty.wide
        build := .mad f.u f.pred ty sat f.od f.oa (opB f) f.oc }
  | .shl => rowInt2 f (fun ty => ty.isInt4 || ty.isBits) 0 fun ty => .shl f.u f.pred ty f.od f.oa (opB f)
  | .shr => rowInt2 f (fun ty => ty.isInt4 || ty.isBits) 0 fun ty => .shr f.u f.pred ty f.od f.oa (opB f)
  | .and => rowInt2 f Ty.isBits 0 fun ty => .and f.u f.pred ty f.od f.oa (opB f)
  | .or => rowInt2 f Ty.isBits 0 fun ty => .or f.u f.pred ty f.od f.oa (opB f)
  | .xor => rowInt2 f Ty.isBits 0 fun ty => .xor f.u f.pred ty f.od f.oa (opB f)
  | .min => rowInt2 f Ty.isInt4 0 fun ty => .min f.u f.pred ty f.od f.oa (opB f)
  | .max => rowInt2 f Ty.isInt4 0 fun ty => .max f.u f.pred ty f.od f.oa (opB f)
  | .not => (Ty.ofCode f.ty).bind fun ty =>
    rowIf (ty.isBits && f.mode == 0 && f.mod == 0 && f.subop == 0)
      { od := kindV f.u ty.wide, oa := kindV f.u ty.wide, build := .not f.u f.pred ty f.od f.oa }
  | .cnt => (Ty.ofCode f.ty).bind fun ty => (CntOp.ofCode f.subop).bind fun c =>
    rowIf (ty.isBits && f.mode == 0 && f.mod == 0)
      { od := kindV f.u ty.wide, oa := kindV f.u ty.wide, build := .cnt f.u f.pred ty c f.od f.oa }
  | .icmp => (Ty.ofCode f.ty).bind fun ty => (ICond.ofCode f.subop).bind fun c => (bit2Of f.mod).bind fun z =>
    rowIf (ty.isInt4 && f.mode == 0)
      { od := .m true, oa := kindV f.u ty.wide, ob := kindB f ty.wide
        build := .icmp f.u f.pred ty c z f.od f.oa (opB f) }
  | .sel => (Ty.ofCode f.ty).bind fun ty =>
    rowIf (ty.isBits && f.mode == 0 && f.mod == 0 && f.subop == 0)
      { od := kindV f.u ty.wide, oa := kindV f.u ty.wide, ob := kindB f ty.wide, oc := .m false
        build := .sel f.u f.pred ty f.od f.oa (opB f) f.oc }
  | .mov => (Ty.ofCode f.ty).bind fun ty => (bit5Of f.subop).bind fun tid =>
    rowIf (ty.isBits && f.mode == 0 && f.mod == 0 && (!tid || ty = .b32))
      (if tid then
        { od := kindV f.u ty.wide, ob := if f.len = .l64 then .none else .imm, zero := f.imm == 0
          build := .mov f.u f.pred ty tid f.od (opB { f with kb := false, ob := 0, imm := 0 }) }
       else { od := kindV f.u ty.wide, ob := kindB f ty.wide, build := .mov f.u f.pred ty tid f.od (opB f) })
  | .fadd => rowF2 f (fun _ => .none) fun ty rm => .fadd f.pred ty rm f.od f.oa (opB f)
  | .fsub => rowF2 f (fun _ => .none) fun ty rm => .fsub f.pred ty rm f.od f.oa (opB f)
  | .fmul => rowF2 f (fun _ => .none) fun ty rm => .fmul f.pred ty rm f.od f.oa (opB f)
  | .fdiv => rowF2 f (fun _ => .none) fun ty rm => .fdiv f.pred ty rm f.od f.oa (opB f)
  | .ffma => rowF2 f (fun ty => .v ty.wide) fun ty rm => .ffma f.pred ty rm f.od f.oa (opB f) f.oc
  | .fsqrt => rowF1 f fun ty rm => .fsqrt f.pred ty rm f.od f.oa
  | .frsq => rowF1 f fun ty rm => .frsq f.pred ty rm f.od f.oa
  | .fmin => (Ty.ofCode f.ty).bind fun ty =>
    rowIf (ty.isFloat4 && f.mode == 0 && f.mod == 0 && f.subop == 0)
      { od := .v ty.wide, oa := .v ty.wide, ob := kindB f ty.wide, build := .fmin f.pred ty f.od f.oa (opB f) }
  | .fmax => (Ty.ofCode f.ty).bind fun ty =>
    rowIf (ty.isFloat4 && f.mode == 0 && f.mod == 0 && f.subop == 0)
      { od := .v ty.wide, oa := .v ty.wide, ob := kindB f ty.wide, build := .fmax f.pred ty f.od f.oa (opB f) }
  | .fcmp => (Ty.ofCode f.ty).bind fun ty => (FCond.ofCode f.subop).bind fun c => (bit2Of f.mod).bind fun z =>
    rowIf (ty.isFloat4 && f.mode == 0)
      { od := .m true, oa := .v ty.wide, ob := kindB f ty.wide, build := .fcmp f.pred ty c z f.od f.oa (opB f) }
  | .fdot4 => (Ty.ofCode f.ty).bind fun ty => (RMode.ofCode f.mode).bind fun rm => (bit2Of f.mod).bind fun nc =>
    rowIf (ty.isFloat4 && f.subop == 0)
      { od := .v ty.wide, oa := .run ty.wide (dotRegs ty 4), ob := .run ty.wide (dotRegs ty 4)
        oc := if nc then .none else .v ty.wide
        build := .fdot4 f.pred ty rm nc f.od f.oa f.ob (if nc then 0 else f.oc) }
  | .fdot8 => (Ty.ofCode f.ty).bind fun ty => (RMode.ofCode f.mode).bind fun rm => (bit2Of f.mod).bind fun nc =>
    rowIf (ty.isFloat && ty != .f64 && f.subop == 0)
      { od := .v false, oa := .run false (dotRegs ty 8), ob := .run false (dotRegs ty 8)
        oc := if nc then .none else .v false
        build := .fdot8 f.pred ty rm nc f.od f.oa f.ob (if nc then 0 else f.oc) }
  | .gsum => rowF1 f fun ty rm => .gsum f.pred ty rm f.od f.oa
  | .fexp => rowF1 f fun ty rm => .fexp f.pred ty rm f.od f.oa
  | .fexp2 => rowF1 f fun ty rm => .fexp2 f.pred ty rm f.od f.oa
  | .fexpm1 => rowF1 f fun ty rm => .fexpm1 f.pred ty rm f.od f.oa
  | .flog => rowF1 f fun ty rm => .flog f.pred ty rm f.od f.oa
  | .flog2 => rowF1 f fun ty rm => .flog2 f.pred ty rm f.od f.oa
  | .flog1p => rowF1 f fun ty rm => .flog1p f.pred ty rm f.od f.oa
  | .fsin => rowF1 f fun ty rm => .fsin f.pred ty rm f.od f.oa
  | .fcos => rowF1 f fun ty rm => .fcos f.pred ty rm f.od f.oa
  | .fsinpi => rowF1 f fun ty rm => .fsinpi f.pred ty rm f.od f.oa
  | .fcospi => rowF1 f fun ty rm => .fcospi f.pred ty rm f.od f.oa
  | .ftanh => rowF1 f fun ty rm => .ftanh f.pred ty rm f.od f.oa
  | .fsigm => rowF1 f fun ty rm => .fsigm f.pred ty rm f.od f.oa
  | .cvt => (Ty.ofCode f.ty).bind fun dt => (Ty.ofCode f.subop).bind fun st => (RMode.ofCode f.mode).bind fun rm =>
    (bit2Of f.mod).bind fun sat =>
    rowIf (dt != .q4o && st != .q4o)
      { od := .v dt.wide, oa := .v st.wide, build := .cvt f.pred dt st rm sat f.od f.oa }
  | .qblk => (Ty.ofCode f.ty).bind fun dt => (Ty.ofCode f.subop).bind fun st => (RMode.ofCode f.mode).bind fun rm =>
    rowIf ((st = .f32 || st = .f16 || st = .bf16) &&
        (if dt = .q4o then rm = .rne else (dt = .e4m3 || dt = .e5m2) && f.mod == 0))
      { od := .run false (if dt = .q4o then 3 else 5), oa := .run false (if st = .f32 then 16 else 8)
        build := .qblk f.pred dt st rm f.mod f.od f.oa }
  | .rngk => (Ty.ofCode f.ty).bind fun ty =>
    rowIf ((ty = .b32 || ty = .f32) && f.mode == 0 && f.mod == 0 && f.subop == 0)
      { od := .v false, oa := .k, ob := .v true, build := .rngk f.pred ty f.od f.oa f.ob }
  | .xsel => (Ty.ofCode f.ty).bind fun ty => (XselOp.ofCode f.subop).bind fun o =>
    rowIf (ty.isBits && f.mode == 0 && f.mod == 0)
      { od := .v ty.wide, oa := .v ty.wide, ob := kindB f false, build := .xsel f.pred ty o f.od f.oa (opB f) }
  | .qswap => (Ty.ofCode f.ty).bind fun ty => (QDir.ofCode f.subop).bind fun o =>
    rowIf (ty.isBits && f.mode == 0 && f.mod == 0) { od := .v ty.wide, oa := .v ty.wide, build := .qswap f.pred ty o f.od f.oa }
  | .qbcast => (Ty.ofCode f.ty).bind fun ty => (slotOf f.subop).bind fun o =>
    rowIf (ty.isBits && f.mode == 0 && f.mod == 0) { od := .v ty.wide, oa := .v ty.wide, build := .qbcast f.pred ty o f.od f.oa }
  | .qdiff => (Ty.ofCode f.ty).bind fun ty => (RMode.ofCode f.mode).bind fun rm => (bit5Of f.subop).bind fun y =>
    rowIf (ty.isFloat4 && f.mod == 0) { od := .v ty.wide, oa := .v ty.wide, build := .qdiff f.pred ty rm y f.od f.oa }
  | .ballot => rowIf (f.ty == Ty.b32.code && f.mode == 0 && f.mod == 0 && f.subop == 0)
      { od := .m true, oa := .v false, build := .ballot f.pred f.od f.oa }
  | .mop => (MopOp.ofCode f.subop).bind fun o =>
    rowIf (f.ty == 0 && f.mode == 0 && f.mod == 0)
      { od := .m true, oa := .m false, ob := if o = .not then .none else .m false
        build := .mop f.pred o f.od f.oa (if o = .not then 0 else f.ob) }
  | .mmov => (MmovOp.ofCode f.subop).bind fun o =>
    rowIf (f.ty == 0 && f.mode == 0 && f.mod == 0)
      { od := if o = .k then .k else .m true, oa := match o with
          | .m => .k
          | .k => .m false
          | .unit => .none
        build := .mmov f.pred o f.od (if o = .unit then 0 else f.oa) }
  | .ldSh => rowLd f fun ty n => .ldSh f.pred ty n f.od f.oa (offB f)
  | .stSh => rowSt f fun ty n => .stSh f.pred ty n f.oa (offB f) f.oc
  | .ldSp => rowLd f fun ty n => .ldSp f.pred ty n f.od f.oa (offB f)
  | .stSp => rowSt f fun ty n => .stSp f.pred ty n f.oa (offB f) f.oc
  | .sld => rowLd f fun ty n => .sld f.pred ty n f.od f.oa (offB f)
  | .sst => rowSt f fun ty n => .sst f.pred ty n f.oa (offB f) f.oc
  | .bld => rowSt f fun ty n => .bld f.pred ty n f.oa (offB f) f.oc
  | .atom => (Ty.ofCode f.ty).bind fun ty => (AtomOp.ofCode f.subop).bind fun o => (Scope.ofCode f.mode).bind fun sc =>
    rowIf (okAtomTy o ty && okOrd (Ord.ofCode f.mod) sc)
      { od := .run ty.wide (if ty.wide then 2 else 1), oa := .v false, ob := kindOff f
        oc := if o = .ld then .none else .run ty.wide (atomRegs o ty)
        build := .atom f.pred o ty (Ord.ofCode f.mod) sc f.od f.oa (offB f) (if o = .ld then 0 else f.oc) }
  | .fence => (FenceKind.ofCode f.subop).bind fun k => (Scope.ofCode f.mode).bind fun sc =>
    rowIf (f.ty == 0 && f.mod == 0) { build := .fence f.pred k sc }
  | .cpin => rowCopy f 0xFFFFFF80#32 (fun b o sc opt => .cpin f.pred b o sc f.od f.oa f.ob f.oc opt) 2
  | .cpout => rowCopy f 0xFFFFFF80#32 (fun b o sc opt => .cpout f.pred b o sc f.od f.oa f.ob f.oc opt) 2
  | .cpgat => rowCopy f 0xFFFFFF80#32 (fun b o sc opt => .cpgat f.pred b o sc f.od f.oa f.ob f.oc opt) 2
  | .cpbp => rowCopy f 0xFFFFFF80#32 (fun _ o sc opt => .cpbp f.pred o sc f.od f.oa f.ob f.oc opt) 1
  | .cppeer => rowCopy f 0xFFFF0000#32 (fun b o sc opt => .cppeer f.pred b o sc f.od f.oa f.ob f.oc opt) 2
  | .barv => rowIf f.plain
      { od := .k, ob := kindOff f, zero := immZero f 0xFFFFFFC0#32, build := .barv f.pred f.od (opKI f 0xFFFFFFC0#32) }
  | .barx =>
    if f.ty == 0 && f.mode == 0 && f.mod == 0 then
      match f.subop.toNat with
      | 0 => some { ob := kindOff f, oc := .k, zero := immZero f 0xFFFFFFC0#32, build := .barxExp f.pred (opKI f 0xFFFFFFC0#32) f.oc }
      | 1 => some { ob := kindOff f, oc := .k, zero := immZero f 0xFFFFFFC0#32, build := .barxCfg f.pred (opKI f 0xFFFFFFC0#32) f.oc }
      | 2 => some { od := .k, ob := kindOff f, zero := immZero f 0xFFFFFFC0#32, build := .barxPh f.pred f.od (opKI f 0xFFFFFFC0#32) }
      | _ => none
    else none
  | .barw => rowIf f.plain
      { oa := .k, ob := kindOff f, zero := immZero f 0xFFFFFFC0#32, build := .barw f.pred f.oa (opKI f 0xFFFFFFC0#32) }
  | .fetchw => rowIf f.plain { od := .kRun, build := .fetchw f.pred f.od }
  | .spawn => rowIf f.plain { oa := .k, ob := .k, build := .spawn f.pred f.oa f.ob }
  | .tend => rowIf f.plain { zero := f.noMask, build := .tend }
  | .msetf => rowIf f.plain { ob := kindOff f, build := .msetf f.pred (opKI f 0) }
  | .mma => (RMode.ofCode f.mode).bind fun rm =>
    rowIf (f.ty == 0 && f.mod == 0 && f.subop == 0)
      { od := .t, oa := .run false 32, ob := kindOff f, zero := immZero f 0x000000E0#32
        build := .mma f.pred rm f.od f.oa (opKI f 0x000000E0#32) }
  | .macq => rowIf f.plain { od := .t, build := .macq f.pred f.od }
  | .mrel => rowIf f.plain { od := .t, build := .mrel f.pred f.od }
  | .mld => rowMld f
  | .mdrn => (Ty.ofCode f.ty).bind fun ty => (bit2Of f.mod).bind fun sat =>
    rowIf (f.mode == 0 && f.subop == 0 && (ty = .f32 || ty = .f16 || ty = .bf16 || ty = .e4m3 || ty = .e5m2 || ty = .i32 ||
        ty = .i16 || ty = .i8))
      { od := if f.len = .l64 then .v false else .run false (mdrnRegs ty ((f.imm.extractLsb' 8 6).toNat + 1)), oa := .t
        ob := kindOff f, zero := immZero f 0xFFFFC000#32, build := .mdrn f.pred ty sat f.od f.oa (opKI f 0xFFFFC000#32) }
  | .mzero => (Ty.ofCode f.ty).bind fun ty =>
    rowIf ((ty = .f32 || ty = .i32) && f.mode == 0 && f.mod == 0 && f.subop == 0) { od := .t, build := .mzero f.pred ty f.od }
  | .sread => rowIf f.plain
      { od := .k, ob := .imm, zero := immZero f 0xFFFF0000#32, build := .sread f.pred f.od (f.imm.setWidth 16) }
  | .swrite => rowIf f.plain
      { oa := .k, ob := .imm, zero := immZero f 0xFFFF0000#32, build := .swrite f.pred f.oa (f.imm.setWidth 16) }
  | .trap => rowIf f.plain { ob := kindOff f, zero := immZero f 0xFFFF0000#32, build := .trap f.pred (opKI f 0xFFFF0000#32) }
  | .eret => rowIf f.plain { build := .eret f.pred }
  | .bkpt => rowIf f.plain { build := .bkpt f.pred }
  | .pmc => (bit5Of f.subop).bind fun c =>
    rowIf (f.ty == 0 && f.mode == 0 && f.mod == 0)
      { od := .k, ob := kindOff f, zero := immZero f 0xFFFFFE00#32, build := .pmc f.pred c f.od (opKI f 0xFFFFFE00#32) }

/-! ## Decoding -/

/-- What a word is: an instruction; an instruction with a reserved bit set (condition 7, which gives way to the conditions 6 that
the group decides, R226); or no instruction, by the number of the condition of R226. -/
inductive Decoded
  | ok (i : Instr)
  | resv (i : Instr)
  | bad (n : Nat)
deriving DecidableEq, Repr

/-- Conditions 1 and 4 to 7 of R226 in their order. -/
def decodeFields (f : Fields) : Decoded :=
  match Op.ofCode f.opc with
  | none => .bad 1
  | some op =>
    if !(op.form.1.ok f.u && op.form.2.contains f.len) then .bad 4
    else if f.kb && op != .nop && !(op.admitsKB && !f.u && f.len = .l64) then .bad 5
    else
      match op.row f with
      | none => .bad 5
      | some r =>
        if !(r.od.ok f.od && r.oa.ok f.oa && r.ob.ok f.ob && r.oc.ok f.oc) then .bad 6
        else if !(r.zero && r.od.zero f.od && r.oa.zero f.oa && r.ob.zero f.ob && r.oc.zero f.oc) then .resv r.build
        else .ok r.build

/-- The instruction in the low bits of w; a clause header (0b11) is no instruction (condition 2). -/
def decodeBits (w : BitVec 128) : Decoded :=
  match Len.ofCode (w.extractLsb' 0 2) with
  | none => .bad 2
  | some len => decodeFields (fieldsOf len w)

/-- A clause header (Table 11.2): the wait mask and the counted flags. PFH, PWR and YLD are hints (R213) and are not kept. -/
structure Header where
  wait : BitVec 12
  seta : Option (BitVec 4)
  setb : Option (BitVec 4)
deriving DecidableEq, Repr

def headerOf (w : BitVec 64) : Header :=
  { wait := w.extractLsb' 2 12
    seta := if w.getLsbD 18 then some (w.extractLsb' 14 4) else none
    setb := if w.getLsbD 23 then some (w.extractLsb' 19 4) else none }

/-- VA or VB with a value other than 8 or 9 (condition 8 of R226). -/
def Header.bad (h : Header) : Bool :=
  let off : Option (BitVec 4) → Bool := fun s => match s with
    | none => false
    | some n => n != 8#4 && n != 9#4
  off h.seta || off h.setb

/-- What stands at an offset of a fetch block (R206): the tail, a clause header, an instruction and its length, an instruction with a
reserved bit, or nothing, by the condition of R226. -/
inductive Slot
  | tail
  | header (h : Header)
  | instr (i : Instr) (size : Nat)
  | resv (i : Instr) (size : Nat)
  | bad (n : Nat)
deriving DecidableEq, Repr

/-- Decoding of a fetch block at offset p, a multiple of 4 below 32 (R206). -/
def decodeAt (block : BitVec 256) (p : Nat) : Slot :=
  if 32 - p < 8 then .tail
  else
    let w : BitVec 128 := (block >>> (8 * p)).setWidth 128
    match Len.ofCode (w.extractLsb' 0 2) with
    | none => if p = 0 then
        let h := headerOf (w.setWidth 64)
        if h.bad then .bad 8 else .header h
      else .bad 2
    | some len =>
      if p + len.bytes > 32 then (if (Op.ofCode (w.extractLsb' 2 8)).isNone then .bad 1 else .bad 3)
      else
        match decodeFields (fieldsOf len w) with
        | .ok i => .instr i len.bytes
        | .resv i => .resv i len.bytes
        | .bad n => .bad n

/-- The instruction that the decoder reads from a row of the opcode table. -/
def decodeTableWord (_nbits w : Nat) : Option Instr :=
  match decodeBits (BitVec.ofNat 128 w) with
  | .ok i => some i
  | _ => none

/-! ## Encoding -/

/-- Fields all zero. -/
def Fields.blank : Fields :=
  { len := .l64, opc := 0, mask := 0, mneg := false, u := false, od := 0, oa := 0, ob := 0, oc := 0, mode := 0, ty := 0, mod := 0
    kb := false, subop := 0, imm := 0 }

/-- Fields of an opcode with its mask. -/
def Fields.start (op : Op) (p : Pred) : Fields := { Fields.blank with opc := op.code, mask := p.m, mneg := p.neg }

/-- Setting operand b (R215, R217, R221). -/
def Fields.setB (f : Fields) (b : OpB) : Fields :=
  match b with
  | .v n => { f with ob := n }
  | .k n => { f with ob := n, kb := !f.u }
  | .i32 w => { f with len := .l96, imm := w.setWidth 64 }
  | .i64 w => { f with len := .l128, imm := w }

def Fields.setOff (f : Fields) (b : OffB) : Fields :=
  match b with
  | .k n => { f with ob := n }
  | .i32 w => { f with len := .l96, imm := w.setWidth 64 }
  | .i64 w => { f with len := .l128, imm := w }

def Fields.setKI (f : Fields) (b : KI) : Fields :=
  match b with
  | .k n => { f with ob := n }
  | .i w => { f with len := .l96, imm := w.setWidth 64 }

def Fields.setTarget (f : Fields) (t : Target) : Fields :=
  match t with
  | .off24 o => { f with oa := o.extractLsb' 0 8, ob := o.extractLsb' 8 8, oc := o.extractLsb' 16 8 }
  | .off32 w => { f with len := .l96, imm := w.setWidth 64 }
  | .off64 w => { f with len := .l128, imm := w }

def Fields.setOpt (f : Fields) (o : Option Word) : Fields :=
  match o with
  | none => f
  | some w => { f with len := .l96, imm := w.setWidth 64 }

/-- An integer instruction. -/
def encInt (op : Op) (u : Bool) (p : Pred) (ty : Ty) (subop : BitVec 5) (mod : BitVec 2) (d a : Reg) (b : OpB) (c : Reg) : Fields :=
  Fields.setB { Fields.start op p with u := u, ty := ty.code, subop := subop, mod := mod, od := d, oa := a, oc := c } b

/-- A floating-point instruction with operand b. -/
def encF2 (op : Op) (p : Pred) (ty : Ty) (mode : BitVec 3) (subop : BitVec 5) (mod : BitVec 2) (d a : Reg) (b : OpB) (c : Reg) :
    Fields :=
  Fields.setB { Fields.start op p with ty := ty.code, mode := mode, subop := subop, mod := mod, od := d, oa := a, oc := c } b

/-- An instruction with register fields only. -/
def encR (op : Op) (p : Pred) (u : Bool) (ty : BitVec 5) (mode : BitVec 3) (subop : BitVec 5) (mod : BitVec 2) (d a b c : Reg) :
    Fields :=
  { Fields.start op p with u := u, ty := ty, mode := mode, subop := subop, mod := mod, od := d, oa := a, ob := b, oc := c }

/-- A function or other one-source rounding instruction. -/
def encF1 (op : Op) (p : Pred) (ty : Ty) (rm : RMode) (d a : Reg) : Fields := encR op p false ty.code rm.code 0 0 d a 0 0

/-- A load or store. -/
def encLs (op : Op) (p : Pred) (ty : Ty) (n : Cnt) (d a : Reg) (off : OffB) (c : Reg) : Fields :=
  Fields.setOff (encR op p false ty.code 0 n.code 0 d a 0 c) off

/-- The fields of an instruction; none for an event, which has no words. -/
def Instr.fields : Instr → Option Fields
  | .nop len => some { Fields.blank with len := len }
  | .br p t => some ((Fields.start .br p).setTarget t)
  | .brc c p k t => some ({ Fields.start .brc p with subop := c.code, od := k }.setTarget t)
  | .call p t => some ((Fields.start .call p).setTarget t)
  | .calli p a => some (encR .calli p false 0 0 0 0 0 a 0 0)
  | .callm p a b => some (encR .callm p false 0 0 0 0 0 a b 0)
  | .ret => some (Fields.start .ret ⟨false, 0⟩)
  | .join => some (Fields.start .join ⟨false, 0⟩)
  | .exit p => some (Fields.start .exit p)
  | .yield p => some (Fields.start .yield p)
  | .ipf p l a b => some ({ Fields.start .ipf p with u := true, subop := l.code, oa := a }.setOff b)
  | .add u p ty x sat d a b => some (encInt .add u p ty x.code (bit2 sat) d a b 0)
  | .sub u p ty sat d a b => some (encInt .sub u p ty 0 (bit2 sat) d a b 0)
  | .mul u p ty hi sat d a b => some (encInt .mul u p ty (bit5 hi) (bit2 sat) d a b 0)
  | .mad u p ty sat d a b c => some (encInt .mad u p ty 0 (bit2 sat) d a b c)
  | .shl u p ty d a b => some (encInt .shl u p ty 0 0 d a b 0)
  | .shr u p ty d a b => some (encInt .shr u p ty 0 0 d a b 0)
  | .and u p ty d a b => some (encInt .and u p ty 0 0 d a b 0)
  | .or u p ty d a b => some (encInt .or u p ty 0 0 d a b 0)
  | .xor u p ty d a b => some (encInt .xor u p ty 0 0 d a b 0)
  | .not u p ty d a => some (encR .not p u ty.code 0 0 0 d a 0 0)
  | .min u p ty d a b => some (encInt .min u p ty 0 0 d a b 0)
  | .max u p ty d a b => some (encInt .max u p ty 0 0 d a b 0)
  | .icmp u p ty c z d a b => some (encInt .icmp u p ty c.code (bit2 z) d a b 0)
  | .sel u p ty d a b m => some (encInt .sel u p ty 0 0 d a b m)
  | .mov u p ty tid d b =>
    some (if tid then
      (match b with
        | .v _ | .k _ => encR .mov p u ty.code 0 1 0 d 0 0 0
        | .i32 _ => { encR .mov p u ty.code 0 1 0 d 0 0 0 with len := .l96 }
        | .i64 _ => { encR .mov p u ty.code 0 1 0 d 0 0 0 with len := .l128 })
     else encInt .mov u p ty 0 0 d 0 b 0)
  | .cnt u p ty o d a => some (encR .cnt p u ty.code 0 o.code 0 d a 0 0)
  | .fadd p ty rm d a b => some (encF2 .fadd p ty rm.code 0 0 d a b 0)
  | .fsub p ty rm d a b => some (encF2 .fsub p ty rm.code 0 0 d a b 0)
  | .fmul p ty rm d a b => some (encF2 .fmul p ty rm.code 0 0 d a b 0)
  | .ffma p ty rm d a b c => some (encF2 .ffma p ty rm.code 0 0 d a b c)
  | .fdiv p ty rm d a b => some (encF2 .fdiv p ty rm.code 0 0 d a b 0)
  | .fsqrt p ty rm d a => some (encF1 .fsqrt p ty rm d a)
  | .frsq p ty rm d a => some (encF1 .frsq p ty rm d a)
  | .fmin p ty d a b => some (encF2 .fmin p ty 0 0 0 d a b 0)
  | .fmax p ty d a b => some (encF2 .fmax p ty 0 0 0 d a b 0)
  | .fcmp p ty c z d a b => some (encF2 .fcmp p ty 0 c.code (bit2 z) d a b 0)
  | .fdot4 p ty rm nc d a b c => some (encR .fdot4 p false ty.code rm.code 0 (bit2 nc) d a b c)
  | .fdot8 p ty rm nc d a b c => some (encR .fdot8 p false ty.code rm.code 0 (bit2 nc) d a b c)
  | .gsum p ty rm d a => some (encF1 .gsum p ty rm d a)
  | .fexp p ty rm d a => some (encF1 .fexp p ty rm d a)
  | .fexp2 p ty rm d a => some (encF1 .fexp2 p ty rm d a)
  | .fexpm1 p ty rm d a => some (encF1 .fexpm1 p ty rm d a)
  | .flog p ty rm d a => some (encF1 .flog p ty rm d a)
  | .flog2 p ty rm d a => some (encF1 .flog2 p ty rm d a)
  | .flog1p p ty rm d a => some (encF1 .flog1p p ty rm d a)
  | .fsin p ty rm d a => some (encF1 .fsin p ty rm d a)
  | .fcos p ty rm d a => some (encF1 .fcos p ty rm d a)
  | .fsinpi p ty rm d a => some (encF1 .fsinpi p ty rm d a)
  | .fcospi p ty rm d a => some (encF1 .fcospi p ty rm d a)
  | .ftanh p ty rm d a => some (encF1 .ftanh p ty rm d a)
  | .fsigm p ty rm d a => some (encF1 .fsigm p ty rm d a)
  | .cvt p dt st rm sat d a => some (encR .cvt p false dt.code rm.code st.code (bit2 sat) d a 0 0)
  | .qblk p dt st rm lim d a => some (encR .qblk p false dt.code rm.code st.code lim d a 0 0)
  | .rngk p ty d a b => some (encR .rngk p false ty.code 0 0 0 d a b 0)
  | .xsel p ty o d a b => some (encF2 .xsel p ty 0 o.code 0 d a b 0)
  | .qswap p ty o d a => some (encR .qswap p false ty.code 0 o.code 0 d a 0 0)
  | .qbcast p ty o d a => some (encR .qbcast p false ty.code 0 (o.setWidth 5) 0 d a 0 0)
  | .qdiff p ty rm y d a => some (encR .qdiff p false ty.code rm.code (bit5 y) 0 d a 0 0)
  | .ballot p d a => some (encR .ballot p false Ty.b32.code 0 0 0 d a 0 0)
  | .mop p o d a b => some (encR .mop p true 0 0 o.code 0 d a b 0)
  | .mmov p o d a => some (encR .mmov p true 0 0 o.code 0 d a 0 0)
  | .ldSh p ty n d a off => some (encLs .ldSh p ty n d a off 0)
  | .stSh p ty n a off c => some (encLs .stSh p ty n 0 a off c)
  | .ldSp p ty n d a off => some (encLs .ldSp p ty n d a off 0)
  | .stSp p ty n a off c => some (encLs .stSp p ty n 0 a off c)
  | .sld p ty n d a off => some (encLs .sld p ty n d a off 0)
  | .sst p ty n a off c => some (encLs .sst p ty n 0 a off c)
  | .bld p ty n a off c => some (encLs .bld p ty n 0 a off c)
  | .atom p o ty x sc d a off c => some ((encR .atom p false ty.code sc.code o.code x.code d a 0 c).setOff off)
  | .fence p k sc => some (encR .fence p true 0 sc.code k.code 0 0 0 0 0)
  | .cpin p s o sc f a b c opt => some ((encR .cpin p true 0 sc.code (bit5 s) o.code f a b c).setOpt opt)
  | .cpout p s o sc f a b c opt => some ((encR .cpout p true 0 sc.code (bit5 s) o.code f a b c).setOpt opt)
  | .cpgat p s o sc f a b c opt => some ((encR .cpgat p true 0 sc.code (bit5 s) o.code f a b c).setOpt opt)
  | .cpbp p o sc f a b c opt => some ((encR .cpbp p true 0 sc.code 0 o.code f a b c).setOpt opt)
  | .cppeer p s o sc f a b c opt => some ((encR .cppeer p true 0 sc.code (bit5 s) o.code f a b c).setOpt opt)
  | .barv p d b => some ((encR .barv p true 0 0 0 0 d 0 0 0).setKI b)
  | .barxExp p b c => some ((encR .barx p true 0 0 0 0 0 0 0 c).setKI b)
  | .barxCfg p b c => some ((encR .barx p true 0 0 1 0 0 0 0 c).setKI b)
  | .barxPh p d b => some ((encR .barx p true 0 0 2 0 d 0 0 0).setKI b)
  | .barw p a b => some ((encR .barw p true 0 0 0 0 0 a 0 0).setKI b)
  | .fetchw p d => some (encR .fetchw p true 0 0 0 0 d 0 0 0)
  | .spawn p a b => some (encR .spawn p true 0 0 0 0 0 a b 0)
  | .tend => some (encR .tend ⟨false, 0⟩ true 0 0 0 0 0 0 0 0)
  | .msetf p b => some ((encR .msetf p true 0 0 0 0 0 0 0 0).setKI b)
  | .mma p rm t a b => some ((encR .mma p false 0 rm.code 0 0 t a 0 0).setKI b)
  | .macq p t => some (encR .macq p true 0 0 0 0 t 0 0 0)
  | .mrel p t => some (encR .mrel p true 0 0 0 0 t 0 0 0)
  | .mldIn p s ty x sc t a b =>
    some ((encR .mld p true ty.code sc.code (if s then 1 else 0) (if x then 1 else 0) t a 0 0).setKI b)
  | .mldOut p s ty x sc t a b =>
    some ((encR .mld p true ty.code sc.code (if s then 3 else 2) (if x then 2 else 0) t a 0 0).setKI b)
  | .mdrn p ty sat d t b => some ((encR .mdrn p false ty.code 0 0 (bit2 sat) d t 0 0).setKI b)
  | .mzero p ty t => some (encR .mzero p true ty.code 0 0 0 t 0 0 0)
  | .sread p d n => some { encR .sread p true 0 0 0 0 d 0 0 0 with len := .l96, imm := n.setWidth 64 }
  | .swrite p a n => some { encR .swrite p true 0 0 0 0 0 a 0 0 with len := .l96, imm := n.setWidth 64 }
  | .trap p b => some ((encR .trap p true 0 0 0 0 0 0 0 0).setKI b)
  | .eret p => some (encR .eret p true 0 0 0 0 0 0 0 0)
  | .bkpt p => some (encR .bkpt p true 0 0 0 0 0 0 0 0)
  | .pmc p c d b => some ((encR .pmc p true 0 0 (bit5 c) 0 d 0 0 0).setKI b)
  | _ => none

/-- The bits of an instruction, in the low 64, 96 or 128 bits; 0 for an event. -/
def Instr.bits (i : Instr) : BitVec 128 :=
  match i.fields with
  | some f => f.bits
  | none => 0

/-- The length in bytes of an instruction; 0 for an event. -/
def Instr.size (i : Instr) : Nat :=
  match i.fields with
  | some f => f.len.bytes
  | none => 0

/-- The words of an instruction: its 32-bit words, the first at the lowest address (R205). -/
def encode (i : Instr) : List Word :=
  (List.range (i.size / 4)).map fun k => i.bits.extractLsb' (32 * k) 32

/-- The bits that words hold, the first word lowest. -/
def bitsOfWords : List Word → BitVec 128
  | [] => 0
  | w :: ws => (bitsOfWords ws <<< 32) ||| w.setWidth 128

/-- The decoder on words. -/
def decodeWords (ws : List Word) : Decoded := decodeBits (bitsOfWords ws)

end Sys2Proof
end

