-- ==== Sys2Proof/Machine/State.lean ====
section
/-! DEFINITION. The state of the W1: every register, memory and engine the spec gives the machine, as plain data, and State.reset, the
state right after device reset (01_device.md R21, R22). -/

namespace Sys2Proof.Machine

/-- Why the machine stops. -/
inductive Fault
  /-- Raised where the W1 itself must write or read a structure (fault ring, watch log, save area, halt report) at a physical address
  that Table 5.4 does not back. Safe: the spec says that nothing is there. -/
  | unbackedAddress (addr : Nat)
deriving DecidableEq, Repr

/-- Why a step has no meaning. -/
inductive Refusal
  /-- Raised by an arm of exec that has no meaning yet. Safe: nothing is claimed of it. -/
  | notModelled (mnemonic : String)
deriving DecidableEq, Repr

/-! ## Tables -/

/-- A sparse table of words by number, ascending and without zeros; a number not listed reads 0. -/
abbrev SMap (w : Nat) := List (Nat × BitVec w)

/-- Byte memory: a sparse table of bytes by cell number (Ops.lean maps each address space into cells). -/
abbrev Memory := List Host.Cell

/-- A table of entries by number, ascending. -/
abbrev AMap (α : Type) := List (Nat × α)

/-! ## Schedulable units -/

/-- The counted flags of the clause a unit executes (VA and SETA, VB and SETB; R211). -/
structure Clause where
  seta : Option (BitVec 4) := none
  setb : Option (BitVec 4) := none
deriving DecidableEq, Repr

/-- A trap that a unit has raised and not yet entered (R345, R358). -/
structure TrapRec where
  cause : Byte
  sub : Byte := 0
  code : Half := 0
  /-- address of the failing instruction or target -/
  pc : Dword
  /-- threads in which the condition arose -/
  thr : Word := 0
  addr : Dword := 0
  /-- barrier, tile or token number -/
  info : Byte := 0
  ovf : Dword := 0
  /-- taken after retirement, at the unit's first instruction not issued (R345, R407) -/
  late : Bool := false
deriving DecidableEq, Repr

/-- What a split entry is doing (R47 to R51). -/
inductive EStat
  /-- a unit that may issue -/
  | run
  /-- retained under R48 -/
  | parent
  | atJoin
  /-- waits at a ret, or at RETPC after a calli in which its threads were inactive (R238, R239) -/
  | atRet
  /-- a calli target not yet reached: the call's threads, and the threads of the target before it (R238) -/
  | held (call after : Word)
  | atBarrier (bar : Nat) (ticket : Dword)
  /-- waits for accesses (R278): near, until they are visible on the core; cum, a load that completes leaves in its place what it may have
  observed; acq, the scope at which it has still to acquire: at its end, or, early, once its loads and atomics are performed (R125) -/
  | atFence (ids : List Nat) (near cum : Bool) (acq : Option Scope) (early : Bool)
  /-- waits for a tile, and for the commands on it issued before a number (R307) -/
  | atMacq (tile before : Nat)
  /-- waits until an access or spawn holds the sets it touches (R188) -/
  | atClaim (id : Nat)
  /-- waits at an issued tend for the steps of R292 -/
  | atTend
deriving DecidableEq, Repr

/-- A split entry (R47), with the unit's clause, module and handler state. -/
structure Entry where
  pc : Dword
  mask : Word
  parent : Option Nat := none
  st : EStat := .run
  /-- the current module (R237) -/
  mod : Half
  clause : Clause := {}
  /-- flags of entered wait masks before whose first instruction the unit stands (R210) -/
  wait : BitVec 12 := 0
  /-- control was transferred to pc, which must hold a clause header (condition 9 of R226) -/
  target : Bool := false
  /-- resumed by `eret`, with nothing passed since: a header at pc replaces the saved clause state (R347) -/
  resumed : Bool := false
  inHandler : Bool := false
  /-- traps raised and waiting for entry, in order (R346, R407) -/
  trap : List TrapRec := []
deriving DecidableEq, Repr

/-- A return-address stack entry (Table 12.4). -/
structure RasEntry where
  modid : Half
  kind : Byte
  entry : Byte
  mask : Word
  retpc : Dword
deriving DecidableEq, Repr

/-- The trap state registers of Table 19.3. -/
structure TrapState where
  tcause : Dword := 0
  tpc : Dword := 0
  tresume : Dword := 0
  tmask : Dword := 0
  taddr : Dword := 0
  tinfo : Dword := 0
  tpend : BitVec 256 := 0
  tpendt : Dword := 0
  tovf : Dword := 0
deriving DecidableEq, Repr

/-- The work unit that a group holds (R35). -/
inductive Work
  | none
  | tile (n : Nat)
  /-- a continuation record as it was handed out (Table 2.4) -/
  | task (rec : BitVec 256)
deriving DecidableEq, Repr

/-- A group (R29, R47, R96); its number is 512 · core + 64 · port + slot. -/
structure Group where
  launch : Nat
  block : Nat
  ctx : Nat
  /-- index in the block -/
  g : Nat
  /-- lane registers per thread -/
  nregs : Nat
  /-- the first of its registers in the port's register file (R31, R163) -/
  vBase : Nat := 0
  /-- lane register n of thread t at 256 t + n -/
  v : SMap 32 := []
  k : SMap 64 := []
  m : SMap 32 := []
  flags : BitVec 12 := 0x3FF#12
  /-- counts of f0 to f9 (R211, R281) -/
  cnts : AMap Nat := []
  entries : AMap Entry := []
  /-- the entries on chip, newest first -/
  ras : List RasEntry := []
  /-- how many older entries are spilled -/
  spilled : Nat := 0
  spBase : Nat
  spSize : Nat
  live : Word
  helper : Word := 0
  /-- threads that have ended (R241) -/
  ended : Word := 0
  mfmt : Dword := 0x63#64
  trap : TrapState := {}
  work : Work := .none
  /-- the task handed out has not executed tend -/
  taskOpen : Bool := false
  /-- its claim area was refused (R373) -/
  claimBad : Bool := false
  /-- a fetchw not yet answered: its active threads and destination register -/
  fetch : Option (Word × Reg) := none
  /-- a fetchw withdrawn at a stop, past which its unit had gone on: it issues again at resumption (R161) -/
  refetch : Option (Word × Reg) := none
  /-- address, module and return-stack depth of the last fetchw (R190) -/
  fetchPc : Dword := 0
  fetchMod : Half := 0
  fetchDepth : Nat := 0
  /-- the return-address stack at the last fetchw, newest first -/
  fetchRas : List RasEntry := []
  fetchClause : Clause := {}
  wounded : Bool := false
  rolling : Bool := false
  /-- words for which undo entries are allotted and not yet written (R370) -/
  allotted : List Nat := []
  pmc : SMap 64 := []
  lastIssue : Nat := 0
  /-- the clock of its first issue, from which its counters count (R246) -/
  first : Option Nat := none
  /-- clocks that are not counted for it (R53), and how many there were at its last issue -/
  lost : Nat := 0
  lostAt : Nat := 0
  promoted : Bool := false
  /-- the split entry that issued last (R52) -/
  lastEntry : Nat := 0
  /-- stopped by its own bkpt (Table 22.4) -/
  bkpt : Bool := false
deriving DecidableEq, Repr

/-! ## Blocks, tiles, barriers -/

/-- A landing barrier (Table 14.5). -/
structure Barrier where
  phase : Dword := 0
  scope : BitVec 3 := 1
  na : BitVec 12
  arr : Half := 0
  expb : Dword := 0
  landb : Dword := 0
  ovf : Dword := 0
deriving DecidableEq, Repr

/-- What a block that terminates still owes: the KIND 1 report to be written at its end (R349). -/
structure Dying where
  report : Option (List Byte)
deriving DecidableEq, Repr

/-- A resident block (R32, R98, R103, R104): where its shared memory, B-plane window and tiles lie on each core of its span. -/
structure Block where
  launch : Nat
  num : Nat
  core : Nat
  span : Nat
  shBase : List Nat
  bpBase : List Nat
  tiles : List (List Nat)
  bars : List Barrier
  /-- which of the 64 landing barriers of its first core they are (R286) -/
  barNums : List Nat := []
  /-- it is being terminated: its groups have stopped, and what it has begun in the engines finishes (R349) -/
  dying : Option Dying := none
deriving DecidableEq, Repr

/-- An accumulator tile (R306, R307); its number is 32 · core + physical tile. -/
structure Tile where
  isInt : Bool := false
  /-- element (row, column) at 256 row + column -/
  el : SMap 32 := []
  holder : Option Nat := none
  /-- groups waiting at macq, in order of issue -/
  waiters : List Nat := []
deriving DecidableEq, Repr

/-! ## Accesses, copies, array commands, the siding -/

/-- One thread's part of an access: its thread, its cell of memory, its scratchpad address (0 elsewhere), its data, and whether its page
is performed at its home alone, as SC and claim-tracked pages are (R108, R129). -/
structure LaneAccess where
  thr : Nat
  cell : Nat
  addr : Nat
  data : BitVec 128 := 0
  home : Bool := false
deriving DecidableEq, Repr

inductive AccessKind
  | load
  | store
  | atom (op : AtomOp)
  | bld
  /-- the read of a spawn's record image (R291) and its push -/
  | spawn (queue : Nat)
deriving DecidableEq, Repr

/-- A store or a bld: not a load, an atomic or a spawn's read. -/
def AccessKind.isStore : AccessKind → Bool
  | .store | .bld => true
  | _ => false

/-- A load, store, atomic or bld issued and not yet performed (R122, R271, R277, R312). -/
structure Access where
  kind : AccessKind
  grp : Nat
  /-- threads of the issuing unit -/
  unit : Word
  core : Nat
  pc : Dword
  n : Nat
  ty : Ty
  dst : Reg := 0
  lanes : List LaneAccess
  /-- helper threads, which receive 0 from an atomic (R38) -/
  zero : Word := 0
  scratch : Bool := false
  /-- it touches an SC page (R129) -/
  sc : Bool := false
  /-- an atomic that carries acquire (R126) -/
  acq : Bool := false
  /-- the scope of its order -/
  scope : Scope := .dev
  /-- a release whose scope lies on its core: what it waits for need only be visible there -/
  near : Bool := false
  /-- a release: a load that it waits for leaves in its place what it may have observed (R126) -/
  cum : Bool := false
  /-- accesses that must be complete before it is performed (R126, R129) -/
  after : List Nat := []
  /-- counted on f8 (R211) -/
  counted : Bool := false
  /-- claim sets still to be acquired, as range · 2^28 + set (R186) -/
  need : List Nat := []
  /-- it writes claim-tracked words of the task's sets (R189) -/
  logs : Bool := false
deriving DecidableEq, Repr

inductive CopyKind
  | cpin (scr : Bool) | cpout (scr : Bool) | cpgat (scr : Bool) | cpbp | peerPut | peerGet
deriving DecidableEq, Repr

/-- The stages of R281. -/
inductive CopyStage
  | preflight
  /-- stands at a serviceable fault raised by it (R348) or held behind another (R381) -/
  | held
  /-- every page passed; claim sets are outstanding (R188) -/
  | claims
  | begun
  | landed
deriving DecidableEq, Repr

/-- One byte that a copy moves: its cells and its addresses on both sides. -/
structure Move where
  src : Nat
  dst : Nat
  saddr : Nat
  daddr : Nat
deriving DecidableEq, Repr

/-- A copy issued and not finished (R281). -/
structure Copy where
  /-- its own number -/
  num : Nat
  kind : CopyKind
  grp : Nat
  ctx : Nat
  block : Nat
  core : Nat
  unit : Word
  act : Word
  pc : Dword
  dst : Dword
  src : Dword
  word : Dword
  ord : Ord
  scope : Scope
  token : Nat
  bar : Option Nat := none
  /-- the accesses of its group in flight at its issue: those that meet it come first (R121, R130) -/
  after : List Nat := []
  /-- the stores in flight that it has observed or left in flight itself: its release waits for them (R130) -/
  seen : List Nat := []
  /-- RBLK of a put counted on the peer (R283) -/
  rem : Option Byte := none
  /-- every active thread is a helper (R285) -/
  helper : Bool := false
  stage : CopyStage := .preflight
  /-- its pre-flight was held and has resumed: it goes on in the order of issue (R381) -/
  resumed : Bool := false
  /-- the bytes still to move, in order, once pre-flight has passed -/
  moves : List Move := []
  /-- an illegal use found at issue, at which pre-flight fails (R293, R373): its lowest byte -/
  illegal : Option Nat := none
  /-- words for which undo entries were allotted (R370) -/
  words : List Nat := []
  need : List Nat := []
  /-- it touches claim sets of the task -/
  logs : Bool := false
  /-- the age stamp of the task that issued it -/
  age : Dword := 0
deriving DecidableEq, Repr

/-- Commands of the matrix array (R297). -/
inductive ArrayOp
  | mma (mode : RMode) (mfmt : Dword) (shape : Word)
  | mzero (isInt : Bool)
  /-- was: the tile's kind before the command, which a failed pre-flight leaves (R310) -/
  | mldIn (scr : Bool) (isInt was : Bool) (addr : Dword) (shape : Word)
  | mldOut (scr : Bool) (addr : Dword) (shape : Word)
deriving DecidableEq, Repr

/-- An operand record (Table 4.5); the lists hold its bytes in use, the rest being zero. -/
structure OperandRec where
  nterms : Nat
  afmt : BitVec 5
  bfmt : BitVec 5
  scl : BitVec 2 := 0
  cval : Dword := 0
  aops : List Byte
  bops : List Byte
  asc : List Byte := []
  bsc : List Byte := []
deriving DecidableEq, Repr

/-- An element that an array command will leave: its number, its bits, whether it escalates to the wide unit (R79), whether it is tiny
(R62), and the operand record of an escalation. -/
structure ElemOut where
  el : Nat
  bits : Word
  escalates : Bool := false
  /-- FASTV -/
  fast : Word := 0
  tiny : Bool := false
  oprec : Option OperandRec := none
deriving DecidableEq, Repr

/-- A command in an array queue with the operands read at issue. -/
structure ArrayCmd where
  id : Nat
  op : ArrayOp
  grp : Nat
  block : Nat
  unit : Word
  act : Word
  pc : Dword
  /-- physical tile -/
  tile : Nat
  /-- tile name, for reports -/
  name : Byte
  /-- the A run, register i of thread t at 256 t + i -/
  a : SMap 32 := []
  /-- B-plane base of the group's window -/
  bpBase : Nat := 0
  ord : Bool := false
  scope : Scope := .grp
  /-- accesses that must be complete before it runs (R130) -/
  after : List Nat := []
  /-- counted on f9 -/
  counted : Bool := false
  /-- .out in a unit of helpers only (R310) -/
  helper : Bool := false
  started : Bool := false
  /-- the elements it will leave at completion -/
  out : List ElemOut := []
deriving DecidableEq, Repr

/-- Where a parked result lands (Table 4.4 DEST). -/
inductive ParkDest
  | reg (grp : Nat) (thr : Nat) (n : Reg) (wide : Bool)
  | elem (tile : Nat) (el : Nat)
deriving DecidableEq, Repr

/-- A result that escalated and has not landed: an escalation-buffer entry or a siding entry (R81 to R85). -/
structure Parked where
  core : Nat
  /-- the group that issued the instruction -/
  grp : Nat
  block : Nat
  ctx : Nat := 0
  dest : ParkDest
  /-- the landing bits (R1) -/
  value : Dword
  opc : BitVec 8
  /-- encoding bits [63:56] -/
  sub : BitVec 8
  ty : BitVec 5
  mode : BitVec 3
  opa : Dword := 0
  opb : Dword := 0
  opcv : Dword := 0
  /-- FASTV -/
  fast : Dword := 0
  oprec : Option OperandRec := none
  assist : Bool := false
  /-- the result is a tiny f32 or f64 result (R62) -/
  tiny : Bool := false
  /-- whether the wide unit's test fails, where R77 fixes it -/
  wideFails : Option Bool := some false
  /-- the values that the wide unit may leave in FASTV where its test fails -/
  widev : List Dword := []
  /-- still in the core's escalation buffer (R83) -/
  buffered : Bool := true
  /-- its place among the cluster's siding entries, and its record's in the operand pool (R80) -/
  slot : Nat := 0
  ext : Option Nat := none
  /-- STAGE 0b10: at the exact stage (R84, R85) -/
  exact : Bool := false
  seq : Dword := 0
  /-- its block has terminated: it is decided as usual and discarded on landing (R361) -/
  dead : Bool := false
deriving DecidableEq, Repr

/-! ## Launches, queues, packets -/

/-- A launch on its way (R155, R156). -/
inductive LaunchStage
  | accepted
  /-- begun, in the placement order -/
  | ordered
  | placed
deriving DecidableEq, Repr

/-- A launch: the structures read at acceptance, its place in the turntable and its coverage state. -/
structure Launch where
  queue : Nat
  ctx : Nat
  /-- index of its packet in the queue -/
  pkt : Nat
  desc : BitVec 2048
  cov : BitVec 512 := 0
  claim : BitVec 2048 := 0
  devhash : BitVec 256 := 0
  stage : LaunchStage := .accepted
  /-- time of acceptance -/
  stamp : Nat
  span : Nat := 1
  nblk : Nat := 0
  /-- bits [6:0] of STATUS (Table 22.1) -/
  status : BitVec 7 := 0
  /-- modules from which its groups fetched, with their hashes: by ascending number, those of one number as they came (R199) -/
  mods : List (Nat × BitVec 256) := []
  /-- tiles handed out, and tiles complete, ascending -/
  handed : List Nat := []
  complete : List Nat := []
  /-- the records of the computed points of its complete tiles, by point, as they stood at the completion (R179) -/
  recs : AMap (List Byte) := []
  /-- work units handed out, and task work units ended -/
  work : Nat := 0
  ended : Nat := 0
  /-- groups whose fetchw waits, in order of arrival -/
  waits : List Nat := []
  /-- groups whose tile is finished and whose release is not yet performed: group, tile, accesses outstanding (R173) -/
  releases : List (Nat × Nat × List Nat) := []
  /-- every value of q, newest first (R177) -/
  qs : List Nat := []
  /-- the next update instant -/
  instant : Nat := 1
  infilled : List Nat := []
  f10 : Bool := false
  /-- a block has terminated and no group is left that can fetch: every tile is complete (R350) -/
  dead : Bool := false
  /-- producer launches of its task queue that have completed -/
  producers : Nat := 0
  /-- number of its first block; its blocks are numbered from there -/
  firstBlock : Nat := 0
  /-- CODE with which it completes without having placed a block (R378, R393) -/
  code : Byte := 0
deriving DecidableEq, Repr

/-- A hardware task queue (R40 to R45). -/
structure TaskQueue where
  launch : Nat
  ctx : Nat
  cap : Nat
  free : Nat
  base : Dword
  recs : List (BitVec 256) := []
  running : Nat := 0
  /-- launches that began naming the queue in PRODQ -/
  prods : List Nat := []
deriving DecidableEq, Repr

/-- How far a packet is (R148, R150). -/
inductive PacketStage
  | accepted
  /-- begun; a launch, wait, copy, load, unload or destroy that awaits its event -/
  | begun
  /-- an overlapped launch whose successor may begin (R150) -/
  | over
deriving DecidableEq, Repr

/-- An accepted packet with its own copy of the bytes (R145). -/
structure Packet where
  queue : Nat
  idx : Nat
  bytes : BitVec 512
  malformed : Bool := false
  code : Byte := 0
  stage : PacketStage := .accepted
  /-- steps a lane has waited (R148) -/
  waited : Nat := 0
  launch : Option Nat := none
  /-- bytes of a host copy already moved (R153) -/
  moved : Nat := 0
  /-- what it awaited has come: it waits for its finish stage (R148) -/
  met : Bool := false
deriving DecidableEq, Repr

/-- A loaded code module (R328, R330). -/
structure Module where
  ctx : Nat
  id : Half
  seg : Dword
  len : Nat
  hash : BitVec 256
  secver : Nat
  unloading : Bool := false
deriving DecidableEq, Repr

/-- A page of a context: its first virtual address, its size, its physical address and the bits of its leaf (Table 5.5). -/
structure PageMap where
  va : Nat
  size : Nat
  phys : Nat
  hp : Bool
  r : Bool
  w : Bool
  x : Bool
  isReg : Bool
deriving DecidableEq, Repr

/-- A cached translation (R111). -/
structure TlbEntry where
  ctx : Nat
  page : PageMap
deriving DecidableEq, Repr

/-- A translation of Placo held in the translation cache (R329). -/
structure TransEntry where
  key : BitVec 256
  xlver : Word
  secver : Nat
  /-- where a translation was written: context, virtual address, length -/
  ctx : Nat
  addr : Dword
  len : Nat
  hmac : BitVec 256
deriving DecidableEq, Repr

/-- What a context's stop is for (R160, R402). -/
inductive StopKind
  | preempt | drain
deriving DecidableEq, Repr

/-- A saved context (R162). -/
structure Saved where
  groups : AMap Group
  blocks : AMap Block
  tiles : AMap Tile
  /-- what of its shared memory and spill stacks is poisoned, by cell -/
  poison : List Nat := []
  /-- counts of peers that arrived since for its blocks: block, barrier, bytes (R284) -/
  counts : List (Nat × Nat × Nat) := []
deriving DecidableEq, Repr

/-- A context's state beside its registers (R140, R159 to R163, R400 to R402). -/
structure Context where
  expired : Bool := false
  expiredAt : Nat := 0
  /-- engines that have not acknowledged the stop -/
  acks : List Engine := []
  stop : Option StopKind := none
  saved : Option Saved := none
  stoppedAt : Nat := 0
  /-- a debug command held (R402) -/
  heldCmd : Option (BitVec 2) := none
  /-- a halt is to be followed by a drain (R402) -/
  toDrain : Bool := false
  /-- the engine whose silence ended the context (R399) -/
  silent : Option Engine := none
deriving DecidableEq, Repr

/-- A put's count held for a launch not yet placed (R284). -/
structure PeerCount where
  ctx : Nat
  queue : Nat
  block : Nat
  bar : Nat
  bytes : Nat
  /-- the last flit of a put that waits for an entry: its address and its bytes, not yet written -/
  addr : Dword := 0
  flit : List Byte := []
deriving DecidableEq, Repr

/-- What a write of scratchpad or shared memory replaced, and who wrote it: threads of other groups may go on reading the older bytes until
an order of 06 forbids it (R123, R139). -/
structure PastWrite where
  cell : Nat
  len : Nat
  /-- empty where no agent may go on reading them -/
  old : List Byte
  core : Nat
  grp : Nat := 0
  block : Nat := 0
  /-- it was visible on its core before (R122) -/
  near : Bool := false
deriving DecidableEq, Repr

/-- What a thread knows of past writes: how many are behind an acquire at `.dev`, and, of the writes of its cluster and of its block, at
`.clu` and `.blk`; and, of single locations, cell, length and how many writes were made when it was last read (R120, R124). -/
structure Known where
  dev : Nat := 0
  clu : Nat := 0
  blk : Nat := 0
  read : List (Nat × Nat × Nat) := []
deriving DecidableEq, Repr

/-- One line's blocks counted in a watch epoch (R202). -/
structure WatchLine where
  line : Nat
  launch : Nat
  epoch : Nat
  blocks : List Nat
deriving DecidableEq, Repr

/-- One bank of a firmware component (R27, R28). -/
structure FwBank where
  secver : Nat := 0
  version : Word := 0
  digest : BitVec 256 := 0
  verified : Bool := true
  bytes : List Byte := []
deriving DecidableEq, Repr

/-- A firmware component: which bank runs, which is marked for the next reset, and both banks. -/
structure FwComp where
  active : Bool := false
  marked : Option Bool := none
  /-- the inactive bank has been received and verified since the last activation -/
  ready : Bool := false
  bank0 : FwBank := {}
  bank1 : FwBank := {}
deriving DecidableEq, Repr

/-- A report of the update agent (R403). -/
inductive FwReport
  | received | transferFailed | verified | verifyFailed | activationPending | invalidState
deriving DecidableEq, Repr

/-- A message that the device sends to a peer: a put, or the answer to a get (R283). -/
structure PeerMsg where
  /-- the peer of a put; none for the answer to a get -/
  peer : Option Nat
  ctx : Nat
  addr : Dword
  /-- none for a poisoned byte (R382) -/
  data : List (Option Byte)
  /-- host queue, block and barrier of a put counted there -/
  count : Option (Nat × Nat × Nat)
deriving DecidableEq, Repr

/-- The recorded winner of each semaphore's last contended acquire (R15). -/
structure SemWinners where
  power : Option Agent := none
  fwUpdate : Option Agent := none
  fuse : Option Agent := none
  reset : Option Agent := none
deriving DecidableEq, Repr

/-- The unit selected to issue: its group, its split entry, the address of the instruction and of the one after it (R52). -/
structure Sel where
  grp : Nat
  entry : Nat
  pc : Dword
  npc : Dword
deriving DecidableEq, Repr

/-- Why a port holds the instruction that it has selected: the escalation buffer has fewer than 32 free entries (R83), its core has 256 copies
that have not finished (R281), or the array queue is full (R297). -/
inductive HoldKind
  | buffer | copies | array
deriving DecidableEq, Repr

/-! ## The machine -/

structure State where
  /-- CLKCNT (R244) -/
  clk : Dword
  mem : Memory
  /-- cells of poisoned units: the first cell of a 64-byte unit or 8-byte word (R388) -/
  poison : List Nat
  /-- BAR 0 registers by offset, but for the page attribute table -/
  bar0 : SMap 32
  /-- the page attribute table by page number (R100) -/
  pat : SMap 64
  semWin : SemWinners
  /-- MSI-X vectors raised, newest first: host port, vector -/
  msix : List (Bool × Byte)
  /-- the last answer of the management path (Table 1.7) -/
  mgmtAnswer : Dword
  /-- the change of power state in progress: target, and whether it is a thermal trip (R25, R375) -/
  psChange : Option (BitVec 3 × Bool)
  psHeld : Option (BitVec 3)
  /-- a thermal trip made during a change waits for its end (R375) -/
  psTrip : Bool
  /-- readiness bits that stay clear until device reset (R389, R399) -/
  deadBits : List Nat
  /-- copies that an invalidation waits for, by register set (R112) -/
  invWait : AMap (List Nat)
  /-- some sensor reads 95 °C or more (R377) -/
  hot : Bool
  /-- thermal halt (R378) -/
  halted : Bool
  /-- requests for power tokens in order: group, split entry (R158) -/
  tokenReqs : List (Nat × Nat)
  /-- tokens granted to units that have not issued -/
  tokens : List (Nat × Nat)
  firmware : FwComp
  microcode : FwComp
  translator : FwComp
  /-- the transfer of the update agent: component and bytes received -/
  transfer : Option (BitVec 2 × List Byte)
  /-- the reports of the update agent, newest first -/
  fwReport : List FwReport
  /-- ActivateFirmware waits for SEMFWU (R403) -/
  activating : Bool
  modules : List Module
  transCache : List TransEntry
  tlb : List TlbEntry
  /-- instruction caches: block of cell a in cache i at i · 2^60 + a (R114) -/
  l0 : AMap (BitVec 256)
  l1 : AMap (BitVec 256)
  l2 : AMap (BitVec 256)
  /-- the next age stamp (R41, R184) -/
  age : Dword
  /-- per core with PEND set: kind, context, and the copy or the unit (group, entry) that raised it (R348, R352) -/
  svc : AMap (Bool × Nat × Nat × Nat)
  groups : AMap Group
  blocks : AMap Block
  tiles : AMap Tile
  launches : AMap Launch
  taskQueues : AMap TaskQueue
  packets : List Packet
  /-- polls of SEQW that found the packet not current (R394), by queue -/
  polls : AMap Nat
  /-- how often RIDX of a queue has passed 2^32 since it was enabled (R142, R145) -/
  laps : AMap Nat
  /-- the queue that each firmware lane, 16 j + i, served last (R147) -/
  laneLast : AMap Nat
  contexts : AMap Context
  accesses : AMap Access
  /-- stores in flight that are visible on their core, in that order (R122) -/
  forwarded : List Nat
  /-- what writes replaced, newest first -/
  past : List PastWrite
  /-- what each thread knows of past writes, thread t of group k at 32 k + t -/
  known : AMap Known
  copies : AMap Copy
  arrays : AMap (List ArrayCmd)
  parked : AMap Parked
  /-- SEQ counter of each cluster (R81) -/
  seqs : SMap 64
  /-- core from which the siding of each cluster accepted last (R83) -/
  sideLast : AMap Nat
  peerCounts : List PeerCount
  /-- puts of peers that wait for a count entry (R284): context, queue, block, barrier, bytes -/
  peerHeld : List PeerCount
  watch : List WatchLine
  outbox : List PeerMsg
  /-- group that issued last on each port (R52) -/
  lastGroup : AMap Nat
  /-- the unit, group and split entry, whose selected instruction a port holds, and why -/
  portHeld : AMap (Nat × Nat × HoldKind)
  /-- performance counters of the cores, counter c of core k at 32 k + c -/
  corePmc : SMap 64
  /-- the issue slot -/
  sel : Option Sel
  /-- MODEL'S OWN: units, by group and split entry, that left the slot since their instruction waits, until something else comes to
  pass -/
  declined : List (Nat × Nat)
  /-- MODEL'S OWN: events still to come to pass, in order -/
  agenda : List Instr
  /-- MODEL'S OWN: the counter that names free values -/
  free : Nat
  /-- MODEL'S OWN: the next identifier -/
  nextId : Nat
  /-- MODEL'S OWN: an address that the W1 itself wrote to and that is not backed; step stops there -/
  badWrite : Option Nat
deriving DecidableEq, Repr

/-- DEVHASH of three digests that are all zero (R197, log 3 and 15): the SHA-256 of 96 zero bytes, one register per offset. -/
def resetDevHash : SMap 32 :=
  [(0x32080, 0x91ABA92E#32), (0x32084, 0x8063D198#32), (0x32088, 0xD20C4007#32), (0x3208C, 0xCCF1BEC3#32),
   (0x32090, 0x4B865B74#32), (0x32094, 0x0E1A0176#32), (0x32098, 0x8021C51B#32), (0x3209C, 0xD45264AC#32)]

/-- The BAR 0 registers after device reset: zero but for MANVER, which is 1 (R21, R197; DEVHASH under log 3). -/
def resetBar0 : SMap 32 := [(0x32000, 1#32)] ++ resetDevHash

/-- The machine right after device reset (R21, R22), in the slot of no unit and with no event to come. -/
def State.reset : State :=
  { clk := 0, mem := [], poison := [], bar0 := resetBar0, pat := [], semWin := {}, msix := [], mgmtAnswer := 0, psChange := none
    psHeld := none, psTrip := false, deadBits := [], invWait := [], hot := false, halted := false, tokenReqs := [], tokens := []
    firmware := {}, microcode := {}, translator := {}, transfer := none, fwReport := [], activating := false, modules := []
    transCache := [], tlb := [], l0 := [], l1 := [], l2 := [], age := 1, svc := [], groups := [], blocks := [], tiles := []
    launches := [], taskQueues := [], packets := [], polls := [], laps := [], laneLast := [], contexts := [], accesses := []
    forwarded := [], past := [], known := [], copies := [], arrays := [], parked := [], seqs := [], sideLast := [], peerCounts := []
    peerHeld := [], watch := [], outbox := [], lastGroup := [], portHeld := [], corePmc := [], sel := none, declined := [], agenda := [], free := 0
    nextId := 0
    badWrite := none }

end Sys2Proof.Machine
end

