-- ==== Sys2Proof/Machine/Maps.lean ====
section
/-! DEFINITION. The sparse tables of State: reading, writing, and their canonical form; bytes and little-endian numbers (R5). -/

namespace Sys2Proof.Machine

/-! ## Sparse words -/

/-- The word at number k; one not listed reads 0. -/
def SMap.get {w : Nat} : SMap w → Nat → BitVec w
  | [], _ => 0
  | (j, x) :: r, k => if j = k then x else SMap.get r k

/-- Putting a word that is not 0 in its place. -/
def SMap.put {w : Nat} : SMap w → Nat → BitVec w → SMap w
  | [], k, x => [(k, x)]
  | (j, y) :: r, k, x => if k < j then (k, x) :: (j, y) :: r else if k = j then (k, x) :: r else (j, y) :: SMap.put r k x

/-- Writing a word: writing 0 removes the entry, so that equal tables are equal lists. -/
def SMap.set {w : Nat} (m : SMap w) (k : Nat) (x : BitVec w) : SMap w :=
  if x = 0 then m.filter (fun p => p.1 != k) else SMap.put m k x

/-- Numbers strictly rising from a bound. -/
def SMap.rising {w : Nat} : Nat → SMap w → Bool
  | _, [] => true
  | lo, (k, x) :: r => decide (lo ≤ k) && x != 0 && SMap.rising (k + 1) r

/-- The canonical form: numbers strictly rising, no entry 0. -/
def SMap.wf {w : Nat} (m : SMap w) : Bool := SMap.rising 0 m

/-- The canonical form of memory. -/
abbrev Memory.wf (m : Memory) : Bool := SMap.wf m

/-! ## Entries by number -/

def AMap.get? {α : Type} : AMap α → Nat → Option α
  | [], _ => none
  | (j, x) :: r, k => if j = k then some x else AMap.get? r k

def AMap.set {α : Type} : AMap α → Nat → α → AMap α
  | [], k, x => [(k, x)]
  | (j, y) :: r, k, x => if k < j then (k, x) :: (j, y) :: r else if k = j then (k, x) :: r else (j, y) :: AMap.set r k x

def AMap.del {α : Type} (m : AMap α) (k : Nat) : AMap α := m.filter (fun p => p.1 != k)

/-- Applying a function to an entry, where it exists. -/
def AMap.upd {α : Type} (m : AMap α) (k : Nat) (f : α → α) : AMap α :=
  match AMap.get? m k with
  | some x => AMap.set m k (f x)
  | none => m

/-- Applying a function to every entry. -/
def AMap.mapV {α : Type} (m : AMap α) (f : Nat → α → α) : AMap α := m.map fun p => (p.1, f p.1 p.2)

def AMap.filterV {α : Type} (m : AMap α) (f : Nat → α → Bool) : AMap α := m.filter fun p => f p.1 p.2

/-- A list of numbers with one more, ascending and without repeats. -/
def insertNat (n : Nat) : List Nat → List Nat
  | [] => [n]
  | x :: r => if n < x then n :: x :: r else if n = x then x :: r else x :: insertNat n r

/-! ## Bytes -/

/-- The number that bytes hold, little-endian (R5). -/
def leNat : List Byte → Nat
  | [] => 0
  | b :: r => b.toNat + 256 * leNat r

/-- The n bytes of a number, little-endian. -/
def leBytes : Nat → Nat → List Byte
  | 0, _ => []
  | n + 1, x => BitVec.ofNat 8 x :: leBytes n (x / 256)

/-- Reading n bytes of memory from a cell. -/
def Memory.read (m : Memory) (a n : Nat) : List Byte := (List.range n).map fun i => SMap.get m (a + i)

/-- Writing bytes from a cell on. -/
def Memory.write (m : Memory) : Nat → List Byte → Memory
  | _, [] => m
  | a, b :: r => Memory.write (SMap.set m a b) (a + 1) r

/-- Reading a little-endian number. -/
def Memory.readNat (m : Memory) (a n : Nat) : Nat := leNat (Memory.read m a n)

def Memory.read32 (m : Memory) (a : Nat) : Word := BitVec.ofNat 32 (Memory.readNat m a 4)
def Memory.read64 (m : Memory) (a : Nat) : Dword := BitVec.ofNat 64 (Memory.readNat m a 8)
def Memory.write32 (m : Memory) (a : Nat) (x : Word) : Memory := Memory.write m a (leBytes 4 x.toNat)
def Memory.write64 (m : Memory) (a : Nat) (x : Dword) : Memory := Memory.write m a (leBytes 8 x.toNat)

/-- Zeroing a run of cells. -/
def Memory.clear (m : Memory) (a n : Nat) : Memory := m.filter fun p => p.1 < a || a + n ≤ p.1

/-- The bytes of a bit string, lowest first. -/
def bytesOf {w : Nat} (n : Nat) (x : BitVec w) : List Byte := (List.range n).map fun i => x.extractLsb' (8 * i) 8

/-- A field of a structure read as bits: n bytes at byte b. -/
def fieldNat {w : Nat} (x : BitVec w) (b n : Nat) : Nat := (x.toNat / 2 ^ (8 * b)) % 2 ^ (8 * n)

/-- The threads of a mask, ascending. -/
def threads (m : Word) : List Nat := (List.range 32).filter fun t => m.getLsbD t

/-- The mask of one thread. -/
def bit32 (t : Nat) : Word := BitVec.ofNat 32 (2 ^ t)

end Sys2Proof.Machine
end

