-- ==== Sys2Proof/Machine/Desc.lean ====
section
/-! DEFINITION. What a launch's structures say: the launch descriptor (07/Table 7.6), tiles and their points (02/R36, R37), the
coverage descriptor with ranks, samples and stencils (08/R164 to R171), the claim table (09/R180, R181). -/

namespace Sys2Proof.Machine

/-! ## Launch descriptor -/

def Launch.mode (l : Launch) : Nat := fieldNat l.desc 0 1
def Launch.isTask (l : Launch) : Bool := l.desc.getLsbD 0
def Launch.isDet (l : Launch) : Bool := l.desc.getLsbD 1
def Launch.isCov (l : Launch) : Bool := l.desc.getLsbD 2
/-- Priority class, 0 to 3. -/
def Launch.cls (l : Launch) : Nat := fieldNat l.desc 1 1 % 4
/-- Groups per block. -/
def Launch.gcount (l : Launch) : Nat := fieldNat l.desc 2 1
/-- Lane registers per thread. -/
def Launch.regs (l : Launch) : Nat := 8 * (fieldNat l.desc 3 1 + 1)
/-- Spill-stack size in bytes. -/
def Launch.spill (l : Launch) : Nat := 1024 * (fieldNat l.desc 4 1 + 1)
/-- Accumulator tiles per core. -/
def Launch.acc (l : Launch) : Nat := fieldNat l.desc 5 1
def Launch.bars (l : Launch) : Nat := fieldNat l.desc 6 1
/-- B-plane depth D in bytes. -/
def Launch.bpd (l : Launch) : Nat := 512 * fieldNat l.desc 7 1
/-- Shared memory per core in bytes. -/
def Launch.shmem (l : Launch) : Nat := 1024 * fieldNat l.desc 8 2
def Launch.modid (l : Launch) : Half := l.desc.extractLsb' 80 16
def Launch.codeOff (l : Launch) : Nat := fieldNat l.desc 12 4
def Launch.trapOff (l : Launch) : Nat := fieldNat l.desc 16 4
def Launch.xExt (l : Launch) : Nat := fieldNat l.desc 24 4 + 1
def Launch.yExt (l : Launch) : Nat := fieldNat l.desc 28 4 + 1
def Launch.zExt (l : Launch) : Nat := fieldNat l.desc 32 4 + 1
def Launch.shape (l : Launch) : Nat := fieldNat l.desc 36 1
def Launch.prodq (l : Launch) : BitVec 64 := l.desc.extractLsb' 320 64
def Launch.covAddr (l : Launch) : Dword := l.desc.extractLsb' 384 64
def Launch.claimAddr (l : Launch) : Dword := l.desc.extractLsb' 448 64
def Launch.tqBase (l : Launch) : Dword := l.desc.extractLsb' 512 64
def Launch.tq (l : Launch) : Nat := fieldNat l.desc 72 1
def Launch.cap (l : Launch) : Nat := 2 ^ fieldNat l.desc 73 1
def Launch.ninit (l : Launch) : Nat := fieldNat l.desc 76 4
def Launch.nprod (l : Launch) : Nat := fieldNat l.desc 80 4
def Launch.cmask (l : Launch) : BitVec 256 :=
  let m : BitVec 256 := l.desc.extractLsb' 1024 256
  if m = 0 then BitVec.allOnes 256 else m
def Launch.kinit (l : Launch) (i : Nat) : Dword := l.desc.extractLsb' (1536 + 64 * i) 64
def Launch.hasClaims (l : Launch) : Bool := l.isTask && l.claimAddr != 0

/-! ## Tiles -/

def Launch.tx (l : Launch) : Nat := 2 ^ (l.shape % 8)
def Launch.ty (l : Launch) : Nat := 2 ^ (l.shape / 8 % 8)
def Launch.tz (l : Launch) : Nat := 32 / (l.tx * l.ty)
def Launch.ix (l : Launch) : Nat := (l.xExt + l.tx - 1) / l.tx
def Launch.iy (l : Launch) : Nat := (l.yExt + l.ty - 1) / l.ty
def Launch.iz (l : Launch) : Nat := (l.zExt + l.tz - 1) / l.tz
/-- The tile count T. -/
def Launch.tiles (l : Launch) : Nat := l.ix * l.iy * l.iz

/-- A point of the extent. -/
structure Point where
  x : Nat
  y : Nat
  z : Nat
deriving DecidableEq, Repr

/-- Origin of tile n (R36). -/
def Launch.origin (l : Launch) (n : Nat) : Point :=
  ⟨n % l.ix * l.tx, n / l.ix % l.iy * l.ty, n / (l.ix * l.iy) * l.tz⟩

/-- The point of thread t from the tile origin (Table 2.3). -/
def Launch.threadPoint (l : Launch) (t : Nat) : Point :=
  if l.ty = 1 && l.tz = 1 then ⟨t, 0, 0⟩
  else
    let a := l.tx / 2
    let b := l.ty / 2
    let lane := t / 4
    let slot := t % 4
    ⟨2 * (lane % a) + slot % 2, 2 * (lane / a % b) + slot / 2, lane / (a * b)⟩

def Launch.pointOf (l : Launch) (n t : Nat) : Point :=
  let o := l.origin n
  let p := l.threadPoint t
  ⟨o.x + p.x, o.y + p.y, o.z + p.z⟩

def Launch.inExtent (l : Launch) (p : Point) : Bool := p.x < l.xExt && p.y < l.yExt && p.z < l.zExt

/-- Point index p = x + X (y + Y z). -/
def Launch.pindex (l : Launch) (p : Point) : Nat := p.x + l.xExt * (p.y + l.yExt * p.z)

def Launch.ofIndex (l : Launch) (i : Nat) : Point := ⟨i % l.xExt, i / l.xExt % l.yExt, i / (l.xExt * l.yExt)⟩

/-- The tile that holds a point. -/
def Launch.tileOf (l : Launch) (p : Point) : Nat := p.x / l.tx + l.ix * (p.y / l.ty + l.iy * (p.z / l.tz))

/-! ## Coverage descriptor (Table 8.1) -/

def Launch.covPat (l : Launch) : Nat := fieldNat l.cov 0 1 % 4
def Launch.covAxis (l : Launch) : Nat := fieldNat l.cov 0 1 / 4 % 4
def Launch.covKern (l : Launch) : Nat := fieldNat l.cov 1 1 % 4
def Launch.covType (l : Launch) : Nat := fieldNat l.cov 1 1 / 4 % 8
def Launch.recSize (l : Launch) : Nat := 2 ^ fieldNat l.cov 2 1
def Launch.qInit (l : Launch) : Nat := fieldNat l.cov 3 1 + 1
def Launch.qMin (l : Launch) : Nat := fieldNat l.cov 4 1 + 1
def Launch.qMax (l : Launch) : Nat := fieldNat l.cov 5 1 + 1
def Launch.qUp (l : Launch) : Nat := fieldNat l.cov 6 1
def Launch.qDn (l : Launch) : Nat := fieldNat l.cov 7 1
def Launch.slog (l : Launch) : Nat := fieldNat l.cov 8 1
def Launch.errIdx (l : Launch) : Nat := fieldNat l.cov 9 1
def Launch.tolExp (l : Launch) : Int := (l.cov.extractLsb' 80 8).toInt
def Launch.stride (l : Launch) : Nat := 2 ^ fieldNat l.cov 11 1
def Launch.hiThr (l : Launch) : Nat := fieldNat l.cov 12 1
def Launch.loThr (l : Launch) : Nat := fieldNat l.cov 13 1
def Launch.seed (l : Launch) : Nat := fieldNat l.cov 14 2
def Launch.ut (l : Launch) : Nat := if l.isCov then fieldNat l.cov 16 4 else 0
def Launch.grid (l : Launch) : Nat := fieldNat l.cov 20 4
def Launch.nmod (l : Launch) : Nat := fieldNat l.cov 24 4
def Launch.gen (l : Launch) (i : Nat) : Nat := fieldNat l.cov (28 + 4 * i) 4
def Launch.qHist (l : Launch) : Nat := fieldNat l.cov 40 4
def Launch.histLen (l : Launch) : Nat := fieldNat l.cov 44 4

/-- The coordinate of a point on an axis. -/
def Point.coord (p : Point) : Nat → Nat
  | 0 => p.x | 1 => p.y | _ => p.z

def Point.withCoord (p : Point) (a c : Nat) : Point :=
  match a with
  | 0 => { p with x := c }
  | 1 => { p with y := c }
  | _ => { p with z := c }

/-- The base share HB of a pattern (R165). -/
def Launch.baseShare (l : Launch) : Nat :=
  match l.covPat with
  | 1 => 256 / l.stride | 2 => 128 | _ => 0

/-- The rank of a point (R165). -/
def Launch.rank (l : Launch) (p : Point) : Nat :=
  match l.covPat with
  | 0 => 0
  | 1 => if p.coord l.covAxis % l.stride = 0 then 0
         else l.baseShare + (37 * p.x + 101 * p.y + 13 * p.z) % (256 - l.baseShare)
  | 2 => if (p.x + p.y + p.z) % 2 = 0 then 0 else 128 + (37 * p.x + 101 * p.y + 13 * p.z) % 128
  | _ => 256 * ((l.gen 0 * p.x + l.gen 1 * p.y + l.gen 2 * p.z) % l.nmod) / l.nmod

/-- The coverage fraction in force for tile n (R167). -/
def Launch.qFor (l : Launch) (n : Nat) : Nat :=
  if l.ut = 0 then l.qInit
  else (l.qs.reverse[n / l.ut]?).getD (l.qs.headD l.qInit)

/-- The neighbours of a point of the quincunx, in the order of Table 8.3, inside the extent: along x; along y; along z. -/
def Launch.neighbours (l : Launch) (p : Point) (axes : Nat) : List Point :=
  let pair : Nat → List Point := fun a =>
    (if p.coord a = 0 then [] else [p.withCoord a (p.coord a - 1)]) ++ [p.withCoord a (p.coord a + 1)]
  (((List.range axes).map pair).flatten).filter l.inExtent

/-- The stencil of a point under the axis stride and the quincunx, with weights as numerators over a common denominator (Table 8.3). -/
def Launch.fixedStencil (l : Launch) (p : Point) : List (Point × Nat) × Nat :=
  match l.covPat, l.covKern with
  | 1, kern =>
    let k := l.stride
    let c := p.coord l.covAxis
    let d := c % k
    let lo := p.withCoord l.covAxis (c - d)
    let hi := p.withCoord l.covAxis (c - d + k)
    if kern = 1 then (if l.inExtent hi then ([(lo, k - d), (hi, d)], k) else ([(lo, 1)], 1))
    else if 2 * d ≤ k || !l.inExtent hi then ([(lo, 1)], 1) else ([(hi, 1)], 1)
  | _, 1 => let ns := l.neighbours p 1; (ns.map fun q => (q, 1), ns.length)
  | _, 2 => let ns := l.neighbours p 2; (ns.map fun q => (q, 1), ns.length)
  | _, _ => let ns := (l.neighbours p 3).take 1; (ns.map fun q => (q, 1), ns.length)

/-- A point that is not kept and whose stencil, if it is fixed, holds a point of the extent (R166). -/
def Launch.skipped (l : Launch) (p : Point) : Bool :=
  l.isCov && decide (l.qFor (l.tileOf p) ≤ l.rank p) && (l.covPat = 3 || !(l.fixedStencil p).1.isEmpty)

/-- A sample point (R166). -/
def Launch.sample (l : Launch) (p : Point) : Bool :=
  l.skipped p && l.slog != 0 && (53 * p.x + 29 * p.y + 71 * p.z + l.seed) % 2 ^ l.slog = 0

/-- A computed point: kept or a sample (R166). -/
def Launch.computed (l : Launch) (p : Point) : Bool := !l.skipped p || l.sample p

/-- The computed point of largest index below an index (rank-1, nearest). -/
def Launch.computedBelow (l : Launch) : Nat → Option Point
  | 0 => none
  | i + 1 => if l.computed (l.ofIndex i) then some (l.ofIndex i) else l.computedBelow i

/-- The stencil of a skipped point (R171). -/
def Launch.stencil (l : Launch) (p : Point) : List (Point × Nat) × Nat :=
  if l.covPat = 3 then
    match l.computedBelow (l.pindex p) with
    | some q => ([(q, 1)], 1)
    | none => ([], 1)
  else l.fixedStencil p

/-- The tiles of a point's stencil (R171). -/
def Launch.stencilTiles (l : Launch) (p : Point) : List Nat :=
  if l.covPat = 3 then
    match l.computedBelow (l.pindex p) with
    | some q => (List.range (l.pindex p - l.pindex q + 1)).map fun i => l.tileOf (l.ofIndex (l.pindex q + i))
    | none => []
  else (l.fixedStencil p).1.map fun q => l.tileOf q.1

/-- A thread's point counts as inside the extent for the masks (R37, R168). -/
def Launch.inside (l : Launch) (n t : Nat) : Bool :=
  let p := l.pointOf n t
  l.inExtent p && l.computed p

/-- The live mask of tile n (R37): the threads of every quad that holds a point inside. -/
def Launch.liveMask (l : Launch) (n : Nat) : Word :=
  (List.range 32).foldl (fun m t =>
    if (List.range 4).any fun s => l.inside n (t / 4 * 4 + s) then m ||| bit32 t else m) 0

/-- The helper mask of tile n: live threads whose own point is not inside. -/
def Launch.helperMask (l : Launch) (n : Nat) : Word :=
  (List.range 32).foldl (fun m t => if (l.liveMask n).getLsbD t && !l.inside n t then m ||| bit32 t else m) 0

/-- A tile with some computed point is handed out (R167). -/
def Launch.handsOut (l : Launch) (n : Nat) : Bool := (List.range 32).any fun t => l.inside n t

/-- The first number from n on, within a bound of steps, that has a property. -/
def firstFrom (p : Nat → Bool) : Nat → Nat → Option Nat
  | 0, _ => none
  | f + 1, n => if p n then some n else firstFrom p f (n + 1)

/-- Tiles of index below this may be handed out: no update instant holds them back (R176). -/
def Launch.openTiles (l : Launch) : Nat := if l.ut = 0 || l.tiles ≤ l.instant * l.ut then l.tiles else l.instant * l.ut

/-- The lowest tile that may be handed out now (R39, R167, R176). -/
def Launch.nextTile (l : Launch) : Option Nat := firstFrom (fun n => !l.handed.contains n && l.handsOut n) l.openTiles 0

/-- A tile is complete: its release is performed, or it is not handed out (R167, R173, R350). -/
def Launch.tileDone (l : Launch) (n : Nat) : Bool := (l.dead && !l.handed.contains n) || l.complete.contains n || (decide (n < l.openTiles) && !l.handsOut n)

/-- The address of a point's record (R169). -/
def Launch.recAddr (l : Launch) (p : Point) : Nat := l.grid + l.recSize * l.pindex p

/-- The computed points of a tile (R166). -/
def Launch.computedPoints (l : Launch) (n : Nat) : List Point :=
  ((List.range 32).map fun t => l.pointOf n t).filter fun p => l.inExtent p && l.computed p

/-- The points of a tile that the infill unit writes. -/
def Launch.infillPoints (l : Launch) (n : Nat) : List Point :=
  ((List.range 32).map fun t => l.pointOf n t).filter fun p => l.inExtent p && !l.computed p

/-! ## Claim table (Table 9.1) -/

/-- A range entry. -/
structure ClaimRange where
  owner : Nat
  size : Nat
  base : Nat
  log2ss : Nat
deriving DecidableEq, Repr

def Launch.range (l : Launch) (r : Nat) : ClaimRange :=
  { owner := fieldNat l.claim (16 * r + 12) 4, size := fieldNat l.claim (16 * r + 8) 4
    base := fieldNat l.claim (16 * r + 4) 4, log2ss := fieldNat l.claim (16 * r + 3) 1 }

/-- The claim set of an address, as range · 2^28 + number (R181). -/
def Launch.setOf (l : Launch) (addr : Nat) : Option Nat :=
  (List.range 16).findSome? fun r =>
    let e := l.range r
    if e.base ≤ addr && addr < e.base + e.size then some (r * 2 ^ 28 + (addr - e.base) / 2 ^ e.log2ss) else none

/-- The scratchpad address of a set's owner entry (R183). -/
def Launch.ownerAddr (l : Launch) (set : Nat) : Nat := (l.range (set / 2 ^ 28)).owner + 16 * (set % 2 ^ 28)

/-- An address lies in an owner array of the launch. -/
def Launch.inOwners (l : Launch) (addr : Nat) : Bool :=
  (List.range 16).any fun r =>
    let e := l.range r
    e.size != 0 && e.owner ≤ addr && addr < e.owner + 16 * (e.size / 2 ^ e.log2ss)

/-- The claim table names a page. -/
def Launch.claimsPage (l : Launch) (page : Nat) : Bool :=
  (List.range 16).any fun r =>
    let e := l.range r
    e.size != 0 && e.base / 2 ^ 16 ≤ page && page < (e.base + e.size + 2 ^ 16 - 1) / 2 ^ 16

/-! ## Continuation records (Table 2.4) -/

def recAge (r : BitVec 256) : Dword := r.extractLsb' 0 64
def recFrame (r : BitVec 256) : Nat := (r.extractLsb' 160 32).toNat
def recJoin (r : BitVec 256) : Nat := (r.extractLsb' 192 32).toNat
def recNoJoin (r : BitVec 256) : Bool := r.getLsbD 240

/-- A record with a new age stamp and FLAGS reduced to NJ and the two given bits (R41, R354). -/
def recStamp (r : BitVec 256) (age : Dword) (rst cnt : Bool) : BitVec 256 :=
  (0#13 ++ BitVec.ofBool cnt ++ BitVec.ofBool rst ++ BitVec.ofBool (recNoJoin r)) ++ (r.extractLsb' 64 176 ++ age)

end Sys2Proof.Machine
end

