-- ==== Sys2Proof/Machine/Space.lean ====
section
/-! DEFINITION. The address spaces (05_memory_hierarchy.md): cells of memory, the physical map, the page attribute table, the context
page tables, poison (21/R388), and the BAR 0 registers by name. -/

namespace Sys2Proof.Machine

/-! ## Cells -/

/-- A byte of HBM4 or DDR-5 by physical address. -/
def cellMain (a : Nat) : Nat := a
/-- A byte of host memory: PCI Express address bits [50:0] through a host port (R109). -/
def cellHost (port : Bool) (a : Nat) : Nat := 2 ^ 56 + (if port then 2 ^ 55 else 0) + a % 2 ^ 51
/-- A byte of a scratchpad slice: 256 frames of 64 KiB in each cluster (R100). -/
def cellScr (home frame off : Nat) : Nat := 2 * 2 ^ 56 + home * 2 ^ 24 + frame * 2 ^ 16 + off
/-- A byte of a core's shared memory (R98). -/
def cellShared (core off : Nat) : Nat := 3 * 2 ^ 56 + core * 2 ^ 20 + off
/-- A byte of a core's spill-stack SRAM (R97). -/
def cellSpill (core off : Nat) : Nat := 4 * 2 ^ 56 + core * 2 ^ 20 + off
/-- A byte of a core's B-plane (R103). -/
def cellBplane (core slice off : Nat) : Nat := 5 * 2 ^ 56 + core * 2 ^ 23 + slice * 2 ^ 15 + off

/-- HBM4 ends here (Table 5.4). -/
def hbmEnd : Nat := 0x6000000000
/-- DDR-5 begins here. -/
def ddrBase : Nat := 0x40000000000

/-- The readiness bit of the stack or channel that backs a physical address of main memory (Tables 1.4, 5.4). -/
def memReadyBit (a : Nat) : Option Nat :=
  if a < hbmEnd then some (32 + a / (48 * 2 ^ 30))
  else if ddrBase ≤ a && a < ddrBase + 12 * 2 ^ 38 then some (40 + (a - ddrBase) / 2 ^ 38)
  else none

/-- Table 5.4 backs an address of main memory. -/
def mainBacked (a : Nat) : Bool :=
  a < hbmEnd ||
    (ddrBase ≤ a && a < ddrBase + 12 * 2 ^ 38 &&
      (a - ddrBase) % 2 ^ 38 < Config.ddrBytes ((a - ddrBase) / 2 ^ 38))

/-- The cell of a 52-bit physical address, through host port hp where it lies in host memory; none where nothing is there. -/
def cellPhys (hp : Bool) (a : Nat) : Option Nat :=
  if 2 ^ 51 ≤ a && a < 2 ^ 52 then some (cellHost hp (a - 2 ^ 51))
  else if mainBacked a then some (cellMain a)
  else none

/-! ## Poison (R388) -/

/-- The first cell of the unit that holds a cell: 64 bytes of main or host memory, an 8-byte word of SRAM. -/
def poisonUnit (cell : Nat) : Nat := if cell < 2 * 2 ^ 56 then cell / 64 * 64 else cell / 8 * 8

def poisonSize (cell : Nat) : Nat := if cell < 2 * 2 ^ 56 then 64 else 8

/-- Some byte of a run is poisoned. -/
def State.poisoned (s : State) (cell n : Nat) : Bool :=
  s.poison.any fun u => decide (u < cell + n && cell < u + poisonSize u)

/-- Writing a run of cells; a unit wholly covered is no longer poisoned. -/
def State.writeCells (s : State) (cell : Nat) (bs : List Byte) : State :=
  { s with
    mem := Memory.write s.mem cell bs
    poison := s.poison.filter fun u => !(decide (cell ≤ u && u + poisonSize u ≤ cell + bs.length)) }

/-- Marking the unit of a cell as poisoned. -/
def State.addPoison (s : State) (cell : Nat) : State := { s with poison := insertNat (poisonUnit cell) s.poison }

/-! ## The page attribute table (R100, Table 5.2) -/

def patValid (e : BitVec 64) : Bool := e.getLsbD 31
def patRO (e : BitVec 64) : Bool := e.getLsbD 30
def patSC (e : BitVec 64) : Bool := e.getLsbD 29
def patClaim (e : BitVec 64) : Bool := e.getLsbD 28
def patWatch (e : BitVec 64) : Bool := e.getLsbD 27
def patAllCtx (e : BitVec 64) : Bool := e.getLsbD 26
def patCtx (e : BitVec 64) : Nat := (e.extractLsb' 21 5).toNat
def patHome (e : BitVec 64) : Nat := (e.extractLsb' 8 5).toNat
def patFrame (e : BitVec 64) : Nat := (e.extractLsb' 0 8).toNat

/-- The entry of the page that holds a scratchpad address. -/
def State.attr (s : State) (addr : Nat) : BitVec 64 := SMap.get s.pat (addr / 2 ^ 16 % 2 ^ 13)

/-- A context may access a page (R101). -/
def patPermits (e : BitVec 64) (ctx : Nat) : Bool := patAllCtx e || patCtx e = ctx

/-- The cell of a scratchpad address, by the page attribute table as it stands. -/
def State.scrCell (s : State) (addr : Nat) : Nat :=
  let e := s.attr addr
  cellScr (patHome e) (patFrame e) (addr % 2 ^ 16)

/-- The last scratchpad address that programs may use (R180, R270). -/
def scrLast : Nat := 0x1DFFFFFF

def State.scrRead (s : State) (addr n : Nat) : List Byte := (List.range n).map fun i => SMap.get s.mem (s.scrCell (addr + i))
def State.scrNat (s : State) (addr n : Nat) : Nat := leNat (s.scrRead addr n)
/-- Writing scratchpad bytes that lie in one page. -/
def State.scrWrite (s : State) (addr : Nat) (bs : List Byte) : State := s.writeCells (s.scrCell addr) bs

/-! ## BAR 0 registers -/

def State.reg (s : State) (off : Nat) : Word := SMap.get s.bar0 off
def State.setReg (s : State) (off : Nat) (x : Word) : State := { s with bar0 := SMap.set s.bar0 off x }

def semReg : Sem → Nat
  | .power => 0x0 | .fwUpdate => 0x4 | .fuse => 0x8 | .reset => 0xC
def regReadyLo : Nat := 0x10
def regReadyMid : Nat := 0x14
def regReadyHi : Nat := 0x18
def regPstate : Nat := 0x20
def regPeerId : Nat := 0x24
def regRstCtl : Nat := 0x28
def regInv (set : Bool) (off : Nat) : Nat := 0x20000 + (if set then 16 else 0) + off
def regQ (q off : Nat) : Nat := 0x30000 + 32 * q + off
def regCtx (c off : Nat) : Nat := 0x31000 + 32 * c + off
def regMan (off : Nat) : Nat := 0x32000 + off
def regFr (c off : Nat) : Nat := 0x33000 + 32 * c + off
def regSvc (core off : Nat) : Nat := 0x33400 + 8 * core + off
def regDevErr : Nat := 0x33C00
def regDevErrVec : Nat := 0x33C04
def regCeCnt : Nat := 0x33C08
def regMemCeCnt : Nat := 0x33C0C
def regUeAddrLo : Nat := 0x33C10
def regUeAddrHi : Nat := 0x33C14
def regUeSrc : Nat := 0x33C18
def regQErrLo : Nat := 0x33E00
def regQErrHi : Nat := 0x33E04
def regQErrVec : Nat := 0x33E08
def regStopErr : Nat := 0x33E0C
def regSemErr : Nat := 0x33E10
def regFuseCnt : Nat := 0x33E14
def regFwStat : Nat := 0x33E18
def regQErrIdx (q : Nat) : Nat := 0x33F00 + 4 * q
def regDbg (c off : Nat) : Nat := 0x34000 + 32 * c + off

/-- Readiness bit n (Table 1.4). -/
def State.ready (s : State) (n : Nat) : Bool := (s.reg (regReadyLo + 4 * (n / 32))).getLsbD (n % 32)

def State.setReady (s : State) (n : Nat) (b : Bool) : State :=
  let r := regReadyLo + 4 * (n / 32)
  s.setReg r (if b then s.reg r ||| bit32 (n % 32) else s.reg r &&& ~~~bit32 (n % 32))

/-- The current power state, 0 to 5 (Table 1.6). -/
def State.pcur (s : State) : Nat := ((s.reg regPstate).extractLsb' 8 3).toNat

/-- Token pool of a power state (Table 1.5). -/
def tokenPool : Nat → Nat
  | 0 => 512 | 1 => 448 | 2 => 384 | 3 => 256 | 4 => 128 | _ => 32

/-- Context state of CTXSTAT (Table 7.1). -/
def State.ctxStat (s : State) (c : Nat) : Nat := ((s.reg (regCtx c 0x14)).extractLsb' 0 3).toNat
def State.setCtxStat (s : State) (c n : Nat) : State := s.setReg (regCtx c 0x14) (BitVec.ofNat 32 n)
def State.ctxValid (s : State) (c : Nat) : Bool := (s.reg (regCtx c 0x10)).getLsbD 31
def State.ctxRoot (s : State) (c : Nat) : Nat :=
  ((s.reg (regCtx c 4)).extractLsb' 0 20).toNat * 2 ^ 32 + (s.reg (regCtx c 0)).toNat / 2 ^ 12 * 2 ^ 12

/-- Queue state of QSTAT (Table 7.2). -/
def State.qStat (s : State) (q : Nat) : Nat := ((s.reg (regQ q 0x14)).extractLsb' 0 3).toNat
def State.setQStat (s : State) (q n : Nat) : State := s.setReg (regQ q 0x14) (BitVec.ofNat 32 n)
def State.qCtx (s : State) (q : Nat) : Nat := ((s.reg (regQ q 8)).extractLsb' 24 5).toNat

/-- The context of number c beside its registers. -/
def State.context (s : State) (c : Nat) : Context := (AMap.get? s.contexts c).getD {}
def State.setContext (s : State) (c : Nat) (x : Context) : State :=
  { s with contexts := if x = {} then AMap.del s.contexts c else AMap.set s.contexts c x }

/-! ## Translation (R110, R111) -/

/-- What a walk of a context's tables finds. -/
inductive WalkResult
  | nonCanonical
  | absent
  | poisoned
  | page (p : PageMap)
deriving DecidableEq, Repr

/-- Bits [63:57] equal bit 56 (R110). -/
def canonical (va : Dword) : Bool :=
  let top := va.extractLsb' 56 8
  top == 0#8 || top == 0xFF#8

/-- The entry of a table at a physical address; none where main memory does not back it. -/
def State.tableEntry (s : State) (a : Nat) : Option Dword := if mainBacked a then some (Memory.read64 s.mem (cellMain a)) else none

/-- A leaf of a level whose pages have 2^bits bytes (Table 5.5); a page that memory does not back to its end is not present (log 52). -/
def leafPage (va : Nat) (e : Dword) (bits : Nat) : WalkResult :=
  let phys := ((e.extractLsb' 12 40).toNat * 2 ^ 12) / 2 ^ bits * 2 ^ bits
  let hp := e.getLsbD 52
  if (cellPhys hp phys).isNone || (cellPhys hp (phys + 2 ^ bits - 1)).isNone then .absent
  else .page { va := va / 2 ^ bits * 2 ^ bits, size := 2 ^ bits, phys := phys, hp := hp, r := e.getLsbD 1, w := e.getLsbD 54
               x := e.getLsbD 55, isReg := e.getLsbD 53 }

/-- Walking the levels below a table: each level gives its lowest index bit, its index width and whether it may map a page. -/
def State.walkLevels (s : State) (va : Nat) : List (Nat × Nat × Option Nat) → Nat → WalkResult
  | [], _ => .absent
  | (lo, width, leafBits) :: rest, table =>
    let a := table + 8 * (va / 2 ^ lo % 2 ^ width)
    match s.tableEntry a with
    | none => .absent
    | some e =>
      if s.poisoned (cellMain a) 8 then .poisoned
      else if !e.getLsbD 0 then .absent
      else
        match leafBits, rest with
        | some b, [] => leafPage va e b
        | some b, _ => if e.getLsbD 2 then leafPage va e b else s.walkLevels va rest ((e.extractLsb' 12 40).toNat * 2 ^ 12)
        | none, _ => s.walkLevels va rest ((e.extractLsb' 12 40).toNat * 2 ^ 12)

/-- The four levels of R110. -/
def tableLevels : List (Nat × Nat × Option Nat) := [(39, 18, none), (30, 9, some 30), (21, 9, some 21), (16, 5, some 16)]

/-- Walking the tables of a context. -/
def State.walk (s : State) (ctx : Nat) (va : Dword) : WalkResult :=
  if !canonical va then .nonCanonical else s.walkLevels va.toNat tableLevels (s.ctxRoot ctx)

/-- A translation: a cached one, else the walk's (R111, log 11). -/
def State.translate (s : State) (ctx : Nat) (va : Dword) : WalkResult :=
  if !canonical va then .nonCanonical
  else
    match s.tlb.find? fun e => e.ctx = ctx && e.page.va ≤ va.toNat && va.toNat < e.page.va + e.page.size with
    | some e => .page e.page
    | none => s.walk ctx va

/-- Caching a translation. -/
def State.cacheTlb (s : State) (ctx : Nat) (p : PageMap) : State :=
  if s.tlb.any fun e => e.ctx = ctx && e.page = p then s else { s with tlb := ⟨ctx, p⟩ :: s.tlb }

/-- The cell of a virtual address on a page; every byte of a page that is present is backed. -/
def PageMap.cell (p : PageMap) (va : Nat) : Nat := (cellPhys p.hp (p.phys + (va - p.va))).getD 0

/-- The cell behind a virtual address, where its page is present and has the right asked for. -/
def State.vaCell (s : State) (ctx : Nat) (va : Dword) (needW : Bool) : Option Nat :=
  match s.translate ctx va with
  | .page p => if (if needW then p.w else p.r) then some (p.cell va.toNat) else none
  | _ => none

/-- Reading n bytes at a virtual address of a context; none where some byte may not be read. -/
def State.vaRead (s : State) (ctx : Nat) (va : Dword) : Nat → Option (List Byte)
  | 0 => some []
  | n + 1 => (s.vaCell ctx va false).bind fun c => (s.vaRead ctx (va + 1) n).map fun r => SMap.get s.mem c :: r

/-- Bytes for cells as runs of consecutive cells. -/
def mergeRuns : List (Nat × Byte) → List (Nat × List Byte)
  | [] => []
  | (a, b) :: r =>
    match mergeRuns r with
    | (c, bs) :: t => if a + 1 = c then (a, b :: bs) :: t else (a, [b]) :: (c, bs) :: t
    | [] => [(a, [b])]

/-- Writing bytes to cells, run by run. -/
def State.writeBytes (s : State) (l : List (Nat × Byte)) : State := (mergeRuns l).foldl (fun s q => s.writeCells q.1 q.2) s

/-- Writing bytes at a virtual address of a context whose pages are present and writable; other bytes are left out. -/
def State.vaWrite (s : State) (ctx : Nat) (va : Dword) (bs : List Byte) : State :=
  s.writeBytes (((List.range bs.length).zip bs).filterMap fun q =>
    (s.vaCell ctx (va + BitVec.ofNat 64 q.1) true).map fun c => (c, q.2))

/-- A run of virtual addresses is readable (or writable) throughout: one check per 64 KiB page it touches. -/
def State.vaOk (s : State) (ctx : Nat) (va : Dword) (n : Nat) (needW : Bool) : Bool :=
  (List.range ((va.toNat % 2 ^ 16 + n + 2 ^ 16 - 1) / 2 ^ 16)).all fun i =>
    (s.vaCell ctx (if i = 0 then va else BitVec.ofNat 64 ((va.toNat / 2 ^ 16 + i) * 2 ^ 16)) needW).isSome

/-- A write of the W1 itself to a physical address (fault ring, watch log, save area, halt report). -/
def State.physWrite (s : State) (hp : Bool) (a : Nat) (bs : List Byte) : State :=
  match cellPhys hp a with
  | some c => s.writeCells c bs
  | none => { s with badWrite := some a }

/-! ## Vectors -/

/-- Raising an MSI-X vector on a host port. -/
def State.raise (s : State) (port : Bool) (vec : Byte) : State := { s with msix := (port, vec) :: s.msix }

/-- Raising a vector register's vectors on both ports while its EN is 1 (R353, R397). -/
def State.raiseBoth (s : State) (r : Nat) : State :=
  let v := s.reg r
  if v.getLsbD 31 then (s.raise false (v.extractLsb' 0 8)).raise true (v.extractLsb' 8 8) else s

/-- Setting a bit of DEVERR (R353). -/
def State.devErr (s : State) (bit : Nat) : State := (s.setReg regDevErr (s.reg regDevErr ||| bit32 bit)).raiseBoth regDevErrVec

end Sys2Proof.Machine
end

