-- ==== Sys2Proof/Machine/Units.lean ====
section
/-! DEFINITION. Groups and their schedulable units: registers, the selected unit, split entries and their fusing (02/R47 to R50,
12/R238 to R241), the return-address stack (12/R236). -/

namespace Sys2Proof.Machine

/-! ## Registers (R96, Table 0.2) -/

/-- Lane register n of thread t. -/
def Group.vget (g : Group) (t n : Nat) : Word := SMap.get g.v (256 * t + n)
def Group.vset (g : Group) (t n : Nat) (x : Word) : Group := { g with v := SMap.set g.v (256 * t + n) x }
/-- The pair vn, vn+1 of thread t. -/
def Group.v64get (g : Group) (t n : Nat) : Dword := g.vget t (n + 1) ++ g.vget t n
def Group.v64set (g : Group) (t n : Nat) (x : Dword) : Group :=
  (g.vset t n (x.extractLsb' 0 32)).vset t (n + 1) (x.extractLsb' 32 32)
/-- A lane operand of a width: the register, or the pair, zero-extended. -/
def Group.vread (g : Group) (w : Bool) (t n : Nat) : Dword := if w then g.v64get t n else (g.vget t n).setWidth 64
def Group.vwrite (g : Group) (w : Bool) (t n : Nat) (x : Dword) : Group :=
  if w then g.v64set t n x else g.vset t n (x.setWidth 32)
def Group.kget (g : Group) (n : Nat) : Dword := SMap.get g.k n
def Group.kset (g : Group) (n : Nat) (x : Dword) : Group := { g with k := SMap.set g.k n x }
/-- A mask register; m0 reads all ones. -/
def Group.mget (g : Group) (n : Nat) : Word := if n = 0 then 0xFFFFFFFF#32 else SMap.get g.m n
/-- Writing a mask register; m0 is no destination. -/
def Group.mset (g : Group) (n : Nat) (x : Word) : Group := if n = 0 then g else { g with m := SMap.set g.m n x }
def Group.flag (g : Group) (i : Nat) : Bool := g.flags.getLsbD i
def Group.setFlag (g : Group) (i : Nat) (b : Bool) : Group :=
  { g with flags := if b then g.flags ||| BitVec.ofNat 12 (2 ^ i) else g.flags &&& ~~~BitVec.ofNat 12 (2 ^ i) }
def Group.cnt (g : Group) (i : Nat) : Nat := (AMap.get? g.cnts i).getD 0
/-- One more operation counted on a flag: the count rises and the flag clears (R211). -/
def Group.countUp (g : Group) (i : Nat) : Group := { g.setFlag i false with cnts := AMap.set g.cnts i (g.cnt i + 1) }
/-- One operation less: the flag is set when the count reaches zero. -/
def Group.countDown (g : Group) (i : Nat) : Group :=
  let c := g.cnt i - 1
  if c = 0 then { g.setFlag i true with cnts := AMap.del g.cnts i } else { g with cnts := AMap.set g.cnts i c }

/-- One more event of a performance counter of a group (R246). -/
def Group.count (g : Group) (c : Nat) (n : Nat := 1) : Group := { g with pmc := SMap.set g.pmc c (SMap.get g.pmc c + BitVec.ofNat 64 n) }

/-! ## Groups in the state -/

def State.group (s : State) (k : Nat) : Option Group := AMap.get? s.groups k
def State.setGroup (s : State) (k : Nat) (g : Group) : State := { s with groups := AMap.set s.groups k g }
def State.updGroup (s : State) (k : Nat) (f : Group → Group) : State := { s with groups := AMap.upd s.groups k f }
def State.launch (s : State) (i : Nat) : Option Launch := AMap.get? s.launches i
def State.updLaunch (s : State) (i : Nat) (f : Launch → Launch) : State := { s with launches := AMap.upd s.launches i f }
def State.blockOf (s : State) (g : Group) : Option Block := AMap.get? s.blocks g.block

/-- The core of a group's number. -/
def coreOf (grp : Nat) : Nat := grp / 512
def clusterOf (grp : Nat) : Nat := grp / 4096
/-- GSLOT of Table 12.5. -/
def slotOfGroup (grp : Nat) : Nat := grp % 512
def portOf (grp : Nat) : Nat := grp % 512 / 64

/-- n more events of a performance counter of a group and of its core. -/
def State.countN (s : State) (grp c n : Nat) : State :=
  let i := 32 * coreOf grp + c
  { s.updGroup grp (·.count c n) with corePmc := SMap.set s.corePmc i (SMap.get s.corePmc i + BitVec.ofNat 64 n) }

/-- One more event of a performance counter of a group and of its core. -/
def State.count (s : State) (grp c : Nat) : State := s.countN grp c 1

/-- Beside the counters of Table 12.6 stands the number of accesses that went to the network, in a place that no selector reads, and how many
there were when counter 8 was last cleared. -/
def netCount : Nat := 19
def netBase : Nat := 20

/-- The selected unit with its group and its split entry. -/
structure Cur where
  u : Sel
  g : Group
  e : Entry
deriving DecidableEq, Repr

def State.cur (s : State) : Option Cur :=
  s.sel.bind fun u => (s.group u.grp).bind fun g => (AMap.get? g.entries u.entry).map fun e => ⟨u, g, e⟩

/-- Active(t) for the threads of a unit (R216). -/
def Cur.act (c : Cur) (p : Pred) : Word :=
  c.e.mask &&& (if p.neg then ~~~c.g.mget p.m.toNat else c.g.mget p.m.toNat)

/-- The threads that belong to some unit of the group. -/
def Group.aliveMask (g : Group) : Word := g.entries.foldl (fun m p => if p.2.st = .parent then m else m ||| p.2.mask) 0

/-- The live threads that have not exited. -/
def Group.unexited (g : Group) : Word := g.aliveMask

/-- Some unit of a group is in a handler. -/
def Group.inHandler (g : Group) : Bool := g.entries.any fun q => q.2.inHandler && q.2.st != .parent

/-- A group's block is not being terminated (R349). -/
def State.blockRuns (s : State) (g : Group) : Bool := (s.blockOf g).elim true fun b => b.dying.isNone

/-! ## Split entries -/

def Group.entry (g : Group) (i : Nat) : Option Entry := AMap.get? g.entries i
def Group.setEntry (g : Group) (i : Nat) (e : Entry) : Group := { g with entries := AMap.set g.entries i e }
def Group.updEntry (g : Group) (i : Nat) (f : Entry → Entry) : Group := { g with entries := AMap.upd g.entries i f }

/-- The lowest n split-entry numbers not in use. -/
def Group.freeEntries (g : Group) (n : Nat) : List Nat :=
  ((List.range 64).filter fun i => (AMap.get? g.entries i).isNone).take n

/-- Splitting entry p into parts, which the caller lists in ascending order of their program counters (R48, R234). -/
def Group.split (g : Group) (p : Nat) (parts : List Entry) : Group :=
  let g' := g.updEntry p fun e => { e with st := .parent }
  ((g'.freeEntries parts.length).zip parts).foldl (fun a q => a.setEntry q.1 { q.2 with parent := some p }) g'

/-- Children of an entry. -/
def Group.children (g : Group) (p : Nat) : List (Nat × Entry) := g.entries.filter fun q => q.2.parent = some p

/-- The entries descended from an entry. -/
def Group.descendants (g : Group) : Nat → List Nat → List Nat
  | 0, ps => ps
  | n + 1, ps => g.descendants n (ps ++ ((g.entries.filter fun q =>
      (match q.2.parent with
        | some i => ps.contains i
        | none => false) && !ps.contains q.1).map Prod.fst))

/-! ## The return-address stack (R236, Table 12.4) -/

def RasEntry.bytes (r : RasEntry) : List Byte :=
  leBytes 8 r.retpc.toNat ++ leBytes 4 r.mask.toNat ++ [r.entry, r.kind] ++ leBytes 2 r.modid.toNat

def rasOf (bs : List Byte) : RasEntry :=
  { retpc := BitVec.ofNat 64 (leNat (bs.take 8)), mask := BitVec.ofNat 32 (leNat ((bs.drop 8).take 4))
    entry := bs.getD 12 0, kind := bs.getD 13 0, modid := BitVec.ofNat 16 (leNat (bs.drop 14)) }

/-- The cell of spilled entry j, the oldest being 0. -/
def spillCell (grp : Nat) (g : Group) (j : Nat) : Nat := cellSpill (coreOf grp) (g.spBase + g.spSize - 16 * (j + 1))

/-- The whole stack, newest first: the entries on chip and the spilled ones as their bytes stand (R273). -/
def State.ras (s : State) (grp : Nat) (g : Group) : List RasEntry :=
  g.ras ++ ((List.range g.spilled).reverse.map fun j => rasOf (Memory.read s.mem (spillCell grp g j) 16))

/-- Laying out a stack: the newest 16 entries on chip, the others spilled in order. -/
def State.setRas (s : State) (grp : Nat) (l : List RasEntry) : State :=
  match s.group grp with
  | none => s
  | some g =>
    let old := (l.drop 16).reverse
    let s' := ((List.range old.length).zip old).foldl (fun a q => a.writeCells (spillCell grp g q.1) q.2.bytes) s
    s'.setGroup grp { g with ras := l.take 16, spilled := old.length }

/-- Pushing an entry, the oldest on chip being written to the spill stack when 16 are on chip. -/
def State.pushRas (s : State) (grp : Nat) (r : RasEntry) : State :=
  match s.group grp with
  | none => s
  | some g =>
    let s' := if g.ras.length ≥ 16 then s.count grp 18 else s
    s'.setRas grp (r :: s.ras grp g)

/-- A push would write below spill address 0 (Table 12.7). -/
def Group.rasFull (g : Group) : Bool := decide (16 ≤ g.ras.length) && decide (g.spSize < 16 * (g.spilled + 1))

/-- All of `a` lies in `b`. -/
def subMask (a b : Word) : Bool := a &&& ~~~b == 0

/-- The entry that a `ret` of these threads matches (R239): the most recent whose MASK holds all of them. -/
def matchRas (l : List RasEntry) (m : Word) : Option (Nat × RasEntry) :=
  ((List.range l.length).zip l).find? fun q => subMask m q.2.mask

/-! ## Waiting units: return, held targets, fusing -/

/-- The threads that wait at a ret matched to stack entry number i. -/
def Group.waitingFor (g : Group) (l : List RasEntry) (i : Nat) : Word :=
  g.entries.foldl (fun m q =>
    if q.2.st = .atRet && (match matchRas l q.2.mask with
        | some (j, _) => j = i
        | none => false)
    then m ||| q.2.mask else m) 0

/-- The first stack entry all of whose unexited threads wait for it. -/
def Group.returning (g : Group) (l : List RasEntry) : Option (Nat × RasEntry) :=
  ((List.range l.length).zip l).find? fun q =>
    let want := q.2.mask &&& g.aliveMask
    want != 0 && g.waitingFor l q.1 == want

/-- A return (R239): the entry is removed, every entry descended from E.ENTRY is freed, and E.ENTRY resumes at RETPC with the threads. -/
def State.doReturn (s : State) (grp : Nat) (g : Group) (l : List RasEntry) (i : Nat) (r : RasEntry) : State :=
  let thr := r.mask &&& g.aliveMask
  let e := r.entry.toNat
  let gone := (g.descendants 64 [e]).filter (· != e)
  let keep := match g.entry e with
    | some x => x
    | none => ((g.entries.filter fun (q : Nat × Entry) => q.2.st = EStat.atRet && subMask q.2.mask r.mask).map Prod.snd).headD { pc := r.retpc, mask := 0, mod := r.modid }
  let g1 := { g with entries := g.entries.filter fun (q : Nat × Entry) => !gone.contains q.1 && !(q.2.st = EStat.atRet && subMask q.2.mask r.mask && q.1 != e) }
  let traps := (g.entries.filter fun (q : Nat × Entry) => q.2.st = EStat.atRet && subMask q.2.mask r.mask).flatMap fun q => q.2.trap
  let g2 := g1.setEntry e { keep with pc := r.retpc, mask := thr, st := .run, mod := r.modid, target := true, wait := 0, trap := traps }
  (s.setGroup grp g2).setRas grp (l.eraseIdx i)

/-- The call targets that become ready because the target before them has returned or exited (R238). -/
def Group.unhold (g : Group) (l : List RasEntry) : Group :=
  { g with entries := AMap.mapV g.entries fun _ e =>
      match e.st with
      | .held call after =>
        let atRet := g.entries.foldl (fun m q =>
          if q.2.st = .atRet && (match matchRas l q.2.mask with
              | some (_, r) => r.mask == call
              | none => false)
          then m ||| q.2.mask else m) 0
        if subMask (after &&& g.aliveMask) atRet then { e with st := .run } else e
      | _ => e }

/-- Entries whose threads have all exited, and parents all of whose children have ceased, are freed (R47, R49). -/
def Group.reap : Nat → Group → Group
  | 0, g => g
  | n + 1, g =>
    let g' := { g with entries := g.entries.filter fun q =>
      if q.2.st = .parent then !(g.children q.1).isEmpty else q.2.mask != 0 }
    if g'.entries.length = g.entries.length then g else Group.reap n g'

/-- A unit waits for its siblings. -/
def EStat.waits : EStat → Bool
  | .atJoin | .atRet => true
  | _ => false

/-- Fusing units that wait at one program counter into one: the first of them takes the threads of all, and their traps (R409). -/
def fuseEntries (l : List (Nat × Entry)) : Option Entry :=
  match l with
  | [] => none
  | q :: _ => some { q.2 with mask := l.foldl (fun m p => m ||| p.2.mask) 0, trap := l.flatMap fun p => p.2.trap }

/-- Resuming after a join, or waiting on at a ret. -/
def Entry.afterJoin (e : Entry) : Entry :=
  if e.st = .atJoin then { e with pc := e.pc + 8, st := .run } else e

/-- The siblings under a parent all wait: they fuse into the parent when they wait at one program counter, else those at each program
counter fuse into one unit (R49). None where nothing changes. -/
def Group.fuseUnder (g : Group) (p : Nat) : Option Group :=
  let cs := g.children p
  if cs.isEmpty || !(cs.all fun q => q.2.st.waits) then none
  else
    let pcs := (cs.map fun q => q.2.pc).eraseDups
    match pcs with
    | [_] =>
      (fuseEntries cs).bind fun f => (g.entry p).map fun pe =>
        let g1 := { g with entries := g.entries.filter fun q => q.2.parent != some p }
        g1.setEntry p { f.afterJoin with parent := pe.parent }
    | _ =>
      let joining := cs.filter fun q => q.2.st = .atJoin
      if joining.isEmpty && pcs.length = cs.length then none
      else
        some (pcs.foldl (fun a pc =>
          let at_ := cs.filter fun q => q.2.pc = pc
          match at_, fuseEntries at_ with
          | q :: _, some f =>
            let a1 := { a with entries := a.entries.filter fun r => !((at_.map Prod.fst).contains r.1) }
            a1.setEntry q.1 f.afterJoin
          | _, _ => a) g)

/-- One round of the rules of R239, R241 and R49 over a group; none where nothing changes. Returns are made first. -/
def State.settleOnce (s : State) (grp : Nat) : Option State :=
  (s.group grp).bind fun g =>
    let l := s.ras grp g
    let dead := l.filter fun r => r.mask &&& g.aliveMask == 0
    if !dead.isEmpty then
      some (s.setRas grp (l.filter fun r => r.mask &&& g.aliveMask != 0))
    else
      let g1 := Group.reap 64 g
      if g1 != g then some (s.setGroup grp g1)
      else
        match g.returning l with
        | some (i, r) => some (s.doReturn grp g l i r)
        | none =>
          let g2 := g.unhold l
          if g2 != g then some (s.setGroup grp g2)
          else
            ((g.entries.filter fun q => q.2.st = .parent).findSome? fun q => g.fuseUnder q.1).map fun g3 => s.setGroup grp g3

/-- The rules applied until nothing changes. -/
def State.settleN : Nat → State → Nat → State
  | 0, s, _ => s
  | n + 1, s, grp =>
    match s.settleOnce grp with
    | some s' => State.settleN n s' grp
    | none => s

/-- Every unit that may return, fuse or cease does so. -/
def State.settle (s : State) (grp : Nat) : State := State.settleN 200 s grp

end Sys2Proof.Machine
end

