-- ==== Sys2Proof/Machine/Ops.lean ====
section
/-! DEFINITION. The shared operations: performing accesses (06), claims and undo logs (09), fault reports, block termination (19/R349)
and taking a trap and returning from it (19/R345 to R347). -/

namespace Sys2Proof.Machine

/-! ## Queries -/

/-- The age stamp of the task that a group runs (0 where it runs none). -/
def Group.age (g : Group) : Dword :=
  match g.work with
  | .task r => recAge r
  | _ => 0

/-- Tile index or AGE of the work unit held (Table 19.4 WORK). -/
def Group.workWord (g : Group) : Dword :=
  match g.work with
  | .none => 0
  | .tile n => BitVec.ofNat 64 n
  | .task r => recAge r

/-- The frame of the task that a group runs, where its launch has a claim table and its claim area passed (R185, R373). -/
def State.claimFrame (s : State) (g : Group) : Option (Launch × Nat) :=
  match s.launch g.launch, g.work with
  | some l, .task r => if l.hasClaims && g.taskOpen && !g.claimBad then some (l, recFrame r) else none
  | _, _ => none

def State.nlog (s : State) (f : Nat) : Nat := s.scrNat f 2
def State.nset (s : State) (f : Nat) : Nat := s.scrNat (f + 2) 1
def State.sealed (s : State) (f : Nat) : Bool := s.scrNat (f + 3) 1 % 2 == 1

/-- The sets that a task holds (Table 9.3). -/
def State.heldSets (s : State) (f : Nat) : List Nat := (List.range (s.nset f)).map fun i => s.scrNat (f + 64 + 4 * i) 4

/-- The undo entries of a task: word address and old value (Table 9.4). -/
def State.undoLog (s : State) (f : Nat) : List (Nat × Word) :=
  (List.range (s.nlog f)).map fun j =>
    (s.scrNat (f + 128 + 8 * j) 4, BitVec.ofNat 32 (s.scrNat (f + 132 + 8 * j) 4))

/-! ## Performing accesses -/

/-- Two runs of cells have a cell in common. -/
def overlap (a n b m : Nat) : Bool := decide (a < b + m && b < a + n)

/-- The epoch of a block for the watch: completed phases of its barrier 0 (R202). -/
def Block.epoch (b : Block) : Nat := (b.bars[0]?).elim 0 fun x => x.phase.toNat

/-- A write to a line of a WATCH page is counted, and logged when it adds a second or later block (R202, R203); an entry in host
memory goes through port 0 (log 66). -/
def State.watchWrite (s : State) (block : Nat) (addr : Nat) : State :=
  if !patWatch (s.attr addr) then s
  else
    match AMap.get? s.blocks block with
    | none => s
    | some b =>
      let line := addr / 64 * 64
      let old := s.watch.find? fun w => w.line = line && w.launch = b.launch && w.epoch = b.epoch
      let seen := (old.map (·.blocks)).getD []
      if seen.contains b.num then s
      else
        let w : WatchLine := { line := line, launch := b.launch, epoch := b.epoch, blocks := seen ++ [b.num] }
        let s1 := { s with watch := w :: s.watch.filter fun x => some x != old }
        match seen with
        | [] => s1
        | first :: _ =>
          let cfg := s.reg (regMan 0x108)
          if !cfg.getLsbD 31 then s1
          else
            let n := 2 ^ (cfg.toNat % 32)
            let widx := s.reg (regMan 0x10C)
            if (widx - s.reg (regMan 0x110)).toNat = n then
              let d := s.reg (regMan 0x114)
              s1.setReg (regMan 0x114) (if d = 0xFFFFFFFF#32 then d else d + 1)
            else
              let l := s.launch b.launch
              let base := (s.reg (regMan 0x104)).toNat % 2 ^ 20 * 2 ^ 32 + (s.reg (regMan 0x100)).toNat / 32 * 32
              let entry := leBytes 8 line ++ [BitVec.ofNat 8 ((l.map (·.ctx)).getD 0), BitVec.ofNat 8 ((l.map (·.queue)).getD 0)] ++
                leBytes 6 0 ++ leBytes 2 first ++ leBytes 2 b.num ++ leBytes 4 b.epoch ++ leBytes 4 (seen.length + 1) ++ leBytes 4 0
              (s1.physWrite false (base + 32 * (widx.toNat % n)) entry).setReg (regMan 0x10C) (widx + 1)

/-- Writing an undo entry for a word that the task has not logged (R189); the entry fills its allotment (R370). -/
def State.logWord (s : State) (grp f addr : Nat) : State :=
  let w := addr / 4 * 4
  if (s.undoLog f).any fun u => u.1 == w then s
  else
    let n := s.nlog f
    let s1 := s.scrWrite (f + 128 + 8 * n) (leBytes 4 (w % 2 ^ 29) ++ leBytes 4 (s.scrNat w 4))
    (s1.scrWrite f (leBytes 2 (n + 1))).updGroup grp fun g => { g with allotted := g.allotted.filter (· != w) }

/-- Logging the words that a write of n bytes covers, where the write is logged. -/
def State.logWrite (s : State) (grp addr n : Nat) : State :=
  match s.group grp with
  | none => s
  | some g =>
    match s.claimFrame g with
    | none => s
    | some (l, f) =>
      (List.range ((addr % 4 + n + 3) / 4)).foldl (fun a i =>
        let w := addr / 4 * 4 + 4 * i
        if (l.setOf w).isSome then a.logWord grp f w else a) s

/-! ### What reads may still miss (R120, R123, R124) -/

/-- What a thread of a group knows of past writes. -/
def State.knownAt (s : State) (grp thr : Nat) : Known := (AMap.get? s.known (32 * grp + thr)).getD {}

/-- What the threads of a group know. -/
def State.groupKnown (s : State) (grp : Nat) : List Known := (List.range 32).map fun t => s.knownAt grp t

/-- What some threads know together. -/
def Known.join (l : List Known) : Known :=
  { dev := l.foldl (fun m k => max m k.dev) 0, clu := l.foldl (fun m k => max m k.clu) 0, blk := l.foldl (fun m k => max m k.blk) 0
    read := l.flatMap (·.read) }

/-- Cells whose older bytes agents may go on reading: scratchpad and shared memory. -/
def pastCell (cell : Nat) : Bool := decide (2 * 2 ^ 56 ≤ cell ∧ cell < 4 * 2 ^ 56)

/-- The 8-byte units of n bytes at a cell (R119): each is read and written by itself. -/
def unitsAt (cell n : Nat) : List (Nat × Nat) := if n = 16 then [(cell, 8), (cell + 8, 8)] else [(cell, n)]

/-- The write of n bytes at a cell by a group is noted with what it replaces; near, where its core has seen it before. -/
def State.notePast (s : State) (grp : Nat) (near : Bool) (cell n : Nat) : State :=
  if pastCell cell then
    { s with past := { cell := cell, len := n, old := Memory.read s.mem cell n, core := coreOf grp, grp := grp, near := near
                       block := ((s.group grp).map (·.block)).getD 0 } :: s.past }
  else s

/-- A write that no agent misses once it is made: that of a copy or of the W1 itself. -/
def State.noteFixed (s : State) (core cell n : Nat) : State :=
  if pastCell cell && !s.past.isEmpty then { s with past := { cell := cell, len := n, old := [], core := core } :: s.past } else s

/-- A thread has read n bytes at a cell as they stood after so many writes: it reads no older bytes there (R120). -/
def State.noteRead (s : State) (grp thr cell n count : Nat) : State :=
  let k := s.knownAt grp thr
  let k' : Known := { k with read := (cell, n, count) :: k.read }
  if count ≤ k.dev then s else { s with known := AMap.set s.known (32 * grp + thr) k' }

/-- What an acquire at a scope brings a thread of a group (R124): at `.dev` every write made so far; at `.clu` and `.blk`, those of its
cluster, or block, and what the threads there know; at `.grp`, what its group's threads know. -/
def State.acquired (s : State) (grp : Nat) : Scope → Known
  | .grp => .join (s.groupKnown grp)
  | .blk => { Known.join ((s.groups.filter fun q => some q.2.block = (s.group grp).map (·.block)).flatMap fun q => s.groupKnown q.1) with
      blk := s.past.length }
  | .clu => { Known.join ((s.groups.filter fun q => clusterOf q.1 = clusterOf grp).flatMap fun q => s.groupKnown q.1) with
      clu := s.past.length, blk := s.past.length }
  | .dev | .sys => { dev := s.past.length, clu := s.past.length, blk := s.past.length }

/-- An acquire by some threads of a group at a scope. -/
def State.acquireAt (s : State) (grp : Nat) (m : Word) (sc : Scope) : State :=
  if s.past.isEmpty then s
  else { s with known := (threads m).foldl (fun a t => AMap.set a (32 * grp + t) (s.acquired grp sc)) s.known }

/-- One of the past writes, the n-th made, may still be unknown to a thread: another group wrote it, its core has not seen it before, it
is behind no acquire, and nothing as new has been read there. -/
def State.misses (s : State) (grp thr n : Nat) (w : PastWrite) : Bool :=
  let k := s.knownAt grp thr
  w.old.length = w.len && w.grp != grp && !(w.near && w.core = coreOf grp) && decide (k.dev < n) &&
    (w.core / 8 != clusterOf grp || decide (k.clu < n)) &&
    (some w.block != (s.group grp).map (·.block) || decide (k.blk < n)) &&
    k.read.all fun r => !overlap w.cell w.len r.1 r.2.1 || decide (r.2.2 < n)

/-- Bytes laid over a run of cells. -/
def layOver (cell : Nat) (bs : List Byte) (at_ : Nat) (new : List Byte) : List Byte :=
  (List.range bs.length).map fun i => if at_ ≤ cell + i && cell + i < at_ + new.length then new.getD (cell + i - at_) 0 else bs.getD i 0

/-- The bytes of a run of cells as they stood before the newest writes, so many of them; none where the thread knows one of those that touch
the run. -/
def State.readPast (s : State) (grp thr back cell n : Nat) : Option (List Byte) :=
  let undone := ((List.range back).zip s.past).filter fun q => overlap q.2.cell q.2.len cell n
  if undone.all fun q => s.misses grp thr (s.past.length - q.1) q.2 then
    some (undone.foldl (fun bs q => layOver cell bs q.2.cell q.2.old) (Memory.read s.mem cell n))
  else none

/-- One thread's write of an access: logged, performed in its 8-byte units and watched; near, where its core has seen it before. -/
def State.storeLane (s : State) (a : Access) (near : Bool) (l : LaneAccess) (x : BitVec 128) : State :=
  let s0 := if a.logs then s.logWrite a.grp l.addr a.n else s
  let s1 := if l.home then s0 else (unitsAt l.cell a.n).foldl (fun s u => s.notePast a.grp near u.1 u.2) s0
  let s2 := s1.writeCells l.cell (bytesOf a.n x)
  if a.scratch then s2.watchWrite (((s.group a.grp).map (·.block)).getD 0) l.addr else s2

/-- The registers that a load of n bytes writes (R271): narrow values extended to 32 bits. -/
def loadWords (ty : Ty) (n x : Nat) : List Word :=
  match ty with
  | .i8 => [(BitVec.ofNat 8 x).signExtend 32]
  | .i16 => [(BitVec.ofNat 16 x).signExtend 32]
  | .n8 | .n16 => [BitVec.ofNat 32 x]
  | _ => (List.range (n / 4)).map fun i => BitVec.ofNat 32 (x / 2 ^ (32 * i))

/-- Writing a run of registers of a thread. -/
def Group.vsetRun (g : Group) (t n : Nat) : List Word → Group
  | [] => g
  | x :: r => (g.vset t n x).vsetRun t (n + 1) r

/-- Some lane of one access overlaps some lane of another. -/
def Access.meets (x y : Access) : Bool := x.lanes.any fun a => y.lanes.any fun b => overlap a.cell x.n b.cell y.n

/-- The same among lanes that are not performed at their home alone, which forwarding may show on their core (R122). -/
def Access.meetsOrdinary (x y : Access) : Bool :=
  x.lanes.any fun a => !a.home && y.lanes.any fun b => !b.home && overlap a.cell x.n b.cell y.n

/-- An access that writes memory. -/
def Access.writes (a : Access) : Bool :=
  match a.kind with
  | .store | .bld => true
  | .atom op => op != .ld
  | _ => false

/-- No lane is performed at its home alone. -/
def Access.ordinary (a : Access) : Bool := a.lanes.all fun l => !l.home

/-- An access is over for those that wait for it: complete, or, where what waits is near, a store visible on its core. -/
def State.over (s : State) (near : Bool) (id : Nat) : Bool :=
  match AMap.get? s.accesses id with
  | none => true
  | some a => near && s.forwarded.contains id && a.ordinary

/-- The stores in flight that the agents of a core see, in the order in which they came to see them (R122). -/
def State.coreStores (s : State) (core : Nat) : List Nat :=
  s.forwarded.filter fun i => (AMap.get? s.accesses i).elim false fun a => a.core = core

/-- A load, or a spawn's read, of a store of its group that is visible to the group at once (R122). -/
def Access.sees (a q : Access) : Bool :=
  (match a.kind with
    | .load | .spawn _ => true
    | _ => false) && q.kind = .store && q.ordinary && a.ordinary

/-- The earlier accesses that an access waits for: those it is ordered after; those of its group that overlap it, but for stores that it
sees (R121); and, for a write or an atomic, the stores that its core saw before it and that overlap it (R120, R128). -/
def State.blocked (s : State) (id : Nat) (a : Access) : Bool :=
  (a.after.any fun i => !s.over a.near i) ||
    (s.accesses.any fun q => decide (q.1 < id) && q.2.grp = a.grp && q.2.meets a && !a.sees q.2) ||
    (match a.kind with
      | .load | .spawn _ => false
      | _ => ((s.coreStores a.core).takeWhile (· != id)).any fun i =>
          (AMap.get? s.accesses i).elim false fun q => q.meetsOrdinary a)

/-- The stores in flight that an agent of a group on a core sees: those visible on the core, in order, then its group's own before a number
(R122). -/
def State.seenStores (s : State) (id grp core : Nat) : List Access :=
  (s.coreStores core).filterMap (AMap.get? s.accesses) ++
    ((s.accesses.filter fun q => q.2.grp = grp && decide (q.1 < id) && q.2.kind = .store && !s.forwarded.contains q.1).map Prod.snd)

/-- Stores laid over bytes read. -/
def overlay (cell : Nat) (l : List Access) (bs : List Byte) : List Byte :=
  l.foldl (fun bs q => q.lanes.foldl (fun bs w => if w.home then bs else layOver cell bs w.cell (bytesOf q.n w.data)) bs) bs

/-- The 8-byte units of the lanes of an access, each with its number, its thread, and its cells (R119). -/
def Access.units (a : Access) : List (Nat × LaneAccess × Nat × Nat) :=
  ((List.range a.lanes.length).zip a.lanes).flatMap fun q =>
    ((List.range 2).zip (unitsAt q.2.cell a.n)).map fun u => (2 * q.1 + u.1, q.2, u.2)

/-- The bytes that a unit of a load reads: memory, as it stood some writes ago where that may be, with the stores that its group sees laid
over it. -/
def State.unitBytes (s : State) (back id : Nat) (a : Access) (l : LaneAccess) (cell n : Nat) : List Byte :=
  if l.home then Memory.read s.mem cell n
  else overlay cell (s.seenStores id a.grp a.core) ((s.readPast a.grp l.thr back cell n).getD (Memory.read s.mem cell n))

/-- The bytes that lane number i of a load reads, unit by unit; back gives, for each unit, how many of the newest writes it misses. -/
def State.loadBytes (s : State) (back : List Nat) (id : Nat) (a : Access) (i : Nat) (l : LaneAccess) : List Byte :=
  ((List.range 2).zip (unitsAt l.cell a.n)).flatMap fun u => s.unitBytes (back.getD (2 * i + u.1) 0) id a l u.2.1 u.2.2

/-- A load may read its units as they stood before the newest writes, so many of them for each. -/
def State.mayMiss (s : State) (back : List Nat) (a : Access) : Bool :=
  a.units.all fun u => u.2.1.home || (s.readPast a.grp u.2.1.thr (back.getD u.1 0) u.2.2.1 u.2.2.2).isSome

/-- The reading of an access is noted for its threads (R120). -/
def State.noteLoad (s : State) (back : List Nat) (a : Access) : State :=
  if s.past.isEmpty then s
  else (a.units.filter fun u => !u.2.1.home && pastCell u.2.2.1).foldl (fun s u =>
    s.noteRead a.grp u.2.1.thr u.2.2.1 u.2.2.2 (s.past.length - back.getD u.1 0)) s

/-- Binding a load's values in the threads that have not ended (R271, R241). -/
def State.performLoad (s : State) (back : List Nat) (id : Nat) (a : Access) : State :=
  (s.updGroup a.grp fun g => (((List.range a.lanes.length).zip a.lanes).filter fun q => !g.ended.getLsbD q.2.thr).foldl (fun g q =>
    g.vsetRun q.2.thr a.dst.toNat (loadWords a.ty a.n (leNat (s.loadBytes back id a q.1 q.2)))) g).noteLoad back a

/-- The stores in flight of a group, which its threads see at once (R122). -/
def State.ownStores (s : State) (grp : Nat) : List Nat := (s.accesses.filter fun q => q.2.grp = grp && q.2.kind = .store).map Prod.fst

/-- The stores in flight that a thread of a group may have observed (R122, R126). -/
def State.observable (s : State) (grp : Nat) : List Nat := s.ownStores grp ++ s.coreStores (coreOf grp)

/-- What waits for a load's completion as a release waits also for what the load may have observed: the stores visible on its core, and
those of its group (R126). -/
def State.passOn (s : State) (id : Nat) (a : Access) : State :=
  match s.observable a.grp with
  | [] => s
  | obs =>
    let more := fun (l : List Nat) => if l.contains id then l ++ obs else l
    { s with
      accesses := AMap.mapV s.accesses fun _ x => if x.cum then { x with after := more x.after } else x
      groups := AMap.upd s.groups a.grp fun g => { g with entries := AMap.mapV g.entries fun _ e => match e.st with
        | .atFence ids near true acq early => { e with st := .atFence (more ids) near true acq early }
        | _ => e }
      launches := AMap.mapV s.launches fun _ l => { l with releases := l.releases.map fun r => (r.1, r.2.1, more r.2.2) } }

/-- Performing the writes of a store or bld, in ascending thread order (R121). -/
def State.performStore (s : State) (id : Nat) (a : Access) : State :=
  a.lanes.foldl (fun s l => s.storeLane a (s.forwarded.contains id) l l.data) s

/-- A fence that acquires as soon as its loads and atomics are performed does so (R125): its later loads are not ordered after the stores
for which it still waits. -/
def State.acquireEarly (s : State) (grp : Nat) : State :=
  match s.group grp with
  | none => s
  | some g => g.entries.foldl (fun a q =>
      match q.2.st with
      | .atFence ids near cum (some sc) true =>
        if ids.any fun i => (AMap.get? s.accesses i).elim false fun x => !x.kind.isStore then a
        else (a.acquireAt grp q.2.mask sc).updGroup grp fun g => g.updEntry q.1 fun e => { e with st := .atFence ids near cum none true }
      | _ => a) s

/-- A spawn's image, as its group sees it (R291). -/
def State.spawnImage (s : State) (id : Nat) (a : Access) : BitVec 256 :=
  BitVec.ofNat 256 ((a.lanes.map fun l => leNat (s.loadBytes [] id a 0 l)).headD 0)

/-- The new value of an integer or bit atomic (Table 14.2); x holds the operand, or cmp below new. -/
def atomNew (op : AtomOp) (ty : Ty) (o x : Nat) : Nat :=
  let w := 8 * ty.size
  let m := 2 ^ w
  let v := x % m
  let signed := ty == .i32 || ty == .i64
  let less := if signed then decide ((BitVec.ofNat w v).toInt < (BitVec.ofNat w o).toInt) else decide (v < o)
  match op with
  | .add => (o + v) % m
  | .min => if less then v else o
  | .max => if less then o else v
  | .and => o &&& v
  | .or => o ||| v
  | .xor => o ^^^ v
  | .xch => v
  | .cas => if o = v then x / m % m else o
  | .ld => o

/-- The places of one combined request (R276): what each thread receives, and the value left. -/
def atomPlaces (op : AtomOp) (ty : Ty) (o : Nat) (xs : List Nat) : List Nat × Nat :=
  if op = .add && (ty = .f32 || ty = .f64) then
    let sums := atomSums ty o xs
    ((o :: sums).take xs.length, sums.getLastD o)
  else
    xs.foldl (fun (acc : List Nat × Nat) x => (acc.1 ++ [acc.2], atomNew op ty acc.2 x)) ([], o)

/-- Performing an atomic at its home (R276): each location in turn, its threads in ascending order. -/
def State.performAtom (s : State) (a : Access) (op : AtomOp) : State :=
  let w := a.ty.wide
  let cells := (a.lanes.map (·.cell)).eraseDups
  let s1 := cells.foldl (fun s c =>
    let ls := a.lanes.filter fun l => l.cell = c
    match ls with
    | [] => s
    | l0 :: _ =>
      let o := Memory.readNat s.mem c a.n
      let r := atomPlaces op a.ty o (ls.map fun l => l.data.toNat)
      let s' := if op = .ld then s else s.storeLane a false l0 (BitVec.ofNat 128 r.2)
      s'.updGroup a.grp fun g => ((ls.zip r.1).filter fun q => !g.ended.getLsbD q.1.thr).foldl (fun g q =>
        g.vwrite w q.1.thr a.dst.toNat (BitVec.ofNat 64 q.2)) g) s
  let s2 := s1.noteLoad [] a
  let s3 := if a.acq then s2.acquireAt a.grp a.unit a.scope else s2
  s3.updGroup a.grp fun g => (threads (a.zero &&& ~~~g.ended)).foldl (fun g t => g.vwrite w t a.dst.toNat 0) g

/-- An access is complete: its count falls, it leaves the accesses in flight and the fences and releases that wait for it. -/
def State.endAccess (s : State) (id : Nat) (a : Access) : State :=
  let s1 := { s with accesses := AMap.del s.accesses id, forwarded := s.forwarded.filter (· != id) }
  let s2 := if a.counted then s1.updGroup a.grp (·.countDown 8) else s1
  { s2 with launches := AMap.mapV s2.launches fun _ l =>
      { l with releases := l.releases.map fun r => (r.1, r.2.1, r.2.2.filter (· != id)) } }

/-- Accesses of a group, oldest first. -/
def State.groupAccesses (s : State) (grp : Nat) : AMap Access := s.accesses.filter fun q => q.2.grp = grp

/-! ## Claims (R187, R190) -/

/-- Writing an owner entry (Table 9.2). -/
def State.writeOwner (s : State) (l : Launch) (set grp : Nat) (age : Dword) (stat : Nat) : State :=
  s.scrWrite (l.ownerAddr set)
    (leBytes 8 age.toNat ++ [BitVec.ofNat 8 stat, BitVec.ofNat 8 (coreOf grp)] ++ leBytes 2 (slotOfGroup grp) ++ leBytes 4 0)

/-- Freeing an owner entry. -/
def State.freeOwner (s : State) (l : Launch) (set : Nat) : State := s.scrWrite (l.ownerAddr set) (leBytes 16 0)

/-- Granting a set to a group's task (R187): the owner entry is written, the set joins HELD, and its requests are met. -/
def State.grantSet (s : State) (grp set : Nat) : State :=
  match s.group grp with
  | none => s
  | some g =>
    match s.claimFrame g with
    | none => s
    | some (l, f) =>
      let s1 := s.writeOwner l set grp g.age 0
      let n := s1.nset f
      let s2 := (s1.scrWrite (f + 64 + 4 * n) (leBytes 4 set)).scrWrite (f + 2) [BitVec.ofNat 8 (n + 1)]
      { s2.acquireAt grp 0xFFFFFFFF#32 .dev with
        accesses := AMap.mapV s2.accesses fun _ a => if a.grp = grp then { a with need := a.need.filter (· != set) } else a
        copies := AMap.mapV s2.copies fun _ c => if c.grp = grp then { c with need := c.need.filter (· != set) } else c }

/-- A copy asks for sets: it has come to its claims, and the task that issued it has not ended (R188, R192). -/
def State.copyAsks (s : State) (c : Copy) : Bool :=
  c.stage = .claims && (s.group c.grp).elim false fun g => g.taskOpen && g.age = c.age

/-- The groups of a launch whose open task has a request outstanding for a set. -/
def State.claimWaiters (s : State) (launch set : Nat) : List (Nat × Group) :=
  let gs := (s.accesses.filter fun q => q.2.need.contains set).map (fun q => q.2.grp) ++
    (s.copies.filter fun q => s.copyAsks q.2 && q.2.need.contains set).map (fun q => q.2.grp)
  (gs.eraseDups.filterMap fun k => (s.group k).map fun g => (k, g)).filter fun q => q.2.launch = launch && (s.claimFrame q.2).isSome

/-- The waiter with the smallest AGE. -/
def oldest : List (Nat × Group) → Option (Nat × Group)
  | [] => none
  | q :: r =>
    match oldest r with
    | none => some q
    | some p => if p.2.age < q.2.age then some p else some q

/-- Releasing a set (R187): granted to the waiting request with the smallest AGE, or freed. -/
def State.releaseSet (s : State) (launch : Nat) (l : Launch) (set : Nat) : State :=
  match oldest (s.claimWaiters launch set) with
  | some (k, _) => s.grantSet k set
  | none => s.freeOwner l set

/-- Releasing every set of a task (R187). -/
def State.releaseAll (s : State) (g : Group) : State :=
  match s.claimFrame g with
  | none => s
  | some (l, f) => (s.heldSets f).foldl (fun a set => a.releaseSet g.launch l set) s

/-- FLAGS, NSET and NLOG of a task become 0. -/
def State.clearHeader (s : State) (g : Group) : State :=
  match s.claimFrame g with
  | none => s
  | some (_, f) => s.scrWrite f (leBytes 4 0)

/-- Step 5 of R190: every held set is released, and the header is cleared. -/
def State.releaseClear (s : State) (g : Group) : State := (s.releaseAll g).clearHeader g

/-- A group's task holds claim sets. -/
def State.holdsClaims (s : State) (g : Group) : Bool := (s.claimFrame g).elim false fun q => s.nset q.2 != 0

/-- The undo entries are written back, the newest first (R190 step 4). A poisoned entry leaves its word poisoned (Table 21.2). -/
def State.undoReplay (s : State) (g : Group) : State :=
  match s.claimFrame g with
  | none => s
  | some (_, f) =>
    ((List.range (s.nlog f)).zip (s.undoLog f)).reverse.foldl (fun a q =>
      let a1 := a.scrWrite q.2.1 (leBytes 4 q.2.2.toNat)
      if s.poisoned (s.scrCell (f + 128 + 8 * q.1)) 8 then a1.addPoison (s.scrCell q.2.1) else a1) s

/-- A copy that has not begun. -/
def CopyStage.unbegun : CopyStage → Bool
  | .preflight | .held | .claims => true
  | _ => false

/-- A record with its stamp joins a task queue (R41); a queue that has ceased takes nothing. -/
def State.pushTask (s : State) (q : Nat) (r : BitVec 256) (cnt : Bool) : State :=
  { s with
    taskQueues := AMap.upd s.taskQueues q fun t => { t with recs := t.recs ++ [recStamp r s.age false cnt] }
    age := s.age + 1 }

/-- A slot returns to a task queue (R44). -/
def State.returnSlot (s : State) (q : Nat) : State :=
  { s with taskQueues := AMap.upd s.taskQueues q fun t => { t with free := t.free + 1 } }

/-- The slot of a spawn that is withdrawn. -/
def State.returnSpawn (s : State) (a : Access) : State :=
  match a.kind with
  | .spawn q => s.returnSlot q
  | _ => s

/-- Withdrawing what a group waits for: accesses that wait for a set, and its copies that have not begun, whose tokens are set as their
counts fall (R190 steps 1 and 2). -/
def State.withdraw (s : State) (grp : Nat) : State :=
  let cancelled := s.copies.filter fun q => q.2.grp = grp && q.2.stage.unbegun
  let dropped := s.accesses.filter fun q => q.2.grp = grp && !q.2.need.isEmpty
  let s1 := { s with copies := s.copies.filter fun (q : Nat × Copy) => !(q.2.grp = grp && q.2.stage.unbegun) }
  let s2 := dropped.foldl (fun a q => (a.returnSpawn q.2).endAccess q.1 q.2) s1
  s2.updGroup grp fun g => cancelled.foldl (fun g q => g.countDown q.2.token) g

/-- A reader of a run of cells meets a poisoned unit: one that none of the stores that it sees covers whole (R388, R122). -/
def State.poisonedFor (s : State) (seen : List Access) (cell n : Nat) : Bool :=
  s.poison.any fun u => decide (u < cell + n && cell < u + poisonSize u) &&
    !seen.any fun q => q.lanes.any fun w => !w.home && decide (w.cell ≤ u ∧ u + poisonSize u ≤ w.cell + q.n)

/-- An access meets poison: a load or spawn in what it reads, another in its cells (R388). -/
def State.accessPoisoned (s : State) (id : Nat) (a : Access) : Bool :=
  match a.kind with
  | .load | .spawn _ => a.lanes.any fun l => s.poisonedFor (if l.home then [] else s.seenStores id a.grp a.core) l.cell a.n
  | _ => a.lanes.any fun l => s.poisoned l.cell a.n

/-- Performing at once what a group has issued and what writes memory or pushes; its loads bind nothing any more, and an atomic or a spawn that
meets poison has no effect. -/
def State.flushGroup (s : State) (grp : Nat) : State :=
  (s.groupAccesses grp).foldl (fun a q =>
    if !q.2.need.isEmpty || (!q.2.kind.isStore && a.accessPoisoned q.1 q.2) then (a.returnSpawn q.2).endAccess q.1 q.2
    else
      match q.2.kind with
      | .load => a.endAccess q.1 q.2
      | .spawn k => (a.pushTask k (a.spawnImage q.1 q.2) false).endAccess q.1 q.2
      | .store | .bld => (a.performStore q.1 q.2).endAccess q.1 q.2
      | .atom op => (a.performAtom q.2 op).endAccess q.1 q.2) s

/-- Abandoning a task (R372): its claimed writes are undone, its sets released, its slot returned. -/
def State.abandonTask (s : State) (grp : Nat) : State :=
  match s.group grp with
  | none => s
  | some g =>
    if !g.taskOpen then s
    else
      let s1 := (s.withdraw grp).flushGroup grp
      let s2 := (s1.undoReplay g).releaseClear g
      let s3 := s2.updLaunch g.launch fun l => { l with status := l.status ||| 2#7 }
      let q := ((s.launch g.launch).map (·.tq)).getD 0
      let s4 := { s3 with taskQueues := AMap.upd s3.taskQueues q fun t => { t with free := t.free + 1, running := t.running - 1 } }
      s4.updGroup grp fun g => { g with taskOpen := false, work := .none, wounded := false, rolling := false, allotted := [] }

/-! ## Tiles of a launch -/

/-- A tile is complete (R173). -/
def Launch.completeTile (l : Launch) (n : Nat) : Launch := { l with complete := insertNat n l.complete }

/-- A tile of a launch is complete now: the infill unit and the controller take the records of its computed points as they stand (R173,
R179). -/
def State.completed (s : State) (l : Launch) (n : Nat) : Launch :=
  let l1 := l.completeTile n
  if !l.isCov then l1
  else { l1 with recs := (l.computedPoints n).foldl (fun m p =>
      if (AMap.get? m (l.pindex p)).isSome then m else AMap.set m (l.pindex p) (s.scrRead (l.recAddr p) l.recSize)) l.recs }

/-- The tiles handed to a group are complete at once, without their releases (R350): the one that it works on, and those it has finished
whose releases are outstanding. -/
def State.dropTile (s : State) (grp : Nat) (g : Group) : State :=
  s.updLaunch g.launch fun l =>
    let own := (l.releases.filter fun r => r.1 = grp).map fun r => r.2.1
    let l1 := own.foldl s.completed { l with releases := l.releases.filter fun r => r.1 != grp }
    match g.work with
    | .tile n => s.completed l1 n
    | _ => l1

/-- A group has finished its tile: it is complete once the writes of the group's threads are visible (R173). -/
def State.finishTile (s : State) (grp : Nat) : State :=
  match s.group grp with
  | none => s
  | some g =>
    match g.work with
    | .tile n =>
      let ids := (s.groupAccesses grp).map Prod.fst ++ s.coreStores (coreOf grp)
      s.updLaunch g.launch fun l =>
        if ids.isEmpty then s.completed l n else { l with releases := l.releases ++ [(grp, n, ids)] }
    | _ => s

/-! ## Fault reports (Table 19.4) -/

/-- Appending a report to the fault ring of a context (R351). -/
def State.pushReport (s : State) (ctx : Nat) (bs : List Byte) : State :=
  let cfg := s.reg (regFr ctx 8)
  let drop := fun (s : State) =>
    let d := s.reg (regFr ctx 0x14)
    s.setReg (regFr ctx 0x14) (if d = 0xFFFFFFFF#32 then d else d + 1)
  if !cfg.getLsbD 31 then drop s
  else
    let n := 2 ^ (cfg.toNat % 32)
    let widx := s.reg (regFr ctx 0xC)
    if (widx - s.reg (regFr ctx 0x10)).toNat = n then drop s
    else
      let base := (s.reg (regFr ctx 4)).toNat % 2 ^ 20 * 2 ^ 32 + (s.reg (regFr ctx 0)).toNat / 64 * 64
      let s1 := (s.physWrite (cfg.getLsbD 30) (base + 64 * (widx.toNat % n)) bs).setReg (regFr ctx 0xC) (widx + 1)
      s1.raise (cfg.getLsbD 30) (cfg.extractLsb' 8 8)

/-- The bytes of a report about a group, as things stand at the detection. -/
def State.reportBytes (s : State) (kind cause sub : Nat) (grp : Nat) (g : Group) (pc addr : Dword) : List Byte :=
  let q := ((s.launch g.launch).map (·.queue)).getD 0
  let b := ((s.blockOf g).map (·.num)).getD 0
  [BitVec.ofNat 8 kind, 0, 0, 0, BitVec.ofNat 8 cause, BitVec.ofNat 8 sub, BitVec.ofNat 8 g.ctx, BitVec.ofNat 8 q] ++
    [0, 0] ++ leBytes 2 (slotOfGroup grp) ++ [0, BitVec.ofNat 8 (coreOf grp)] ++ leBytes 2 b ++
    leBytes 8 g.workWord.toNat ++ leBytes 8 s.clk.toNat ++ leBytes 8 pc.toNat ++ leBytes 8 addr.toNat ++ leBytes 16 0

/-- A report about a group. -/
def State.report (s : State) (kind cause sub : Nat) (grp : Nat) (pc addr : Dword) : State :=
  match s.group grp with
  | none => s
  | some g => s.pushReport g.ctx (s.reportBytes kind cause sub grp g pc addr)

/-! ## Block termination (R349) -/

def termCode : TermCause → Nat
  | .poison => 0x10 | .peerLink => 0x11 | .trapInHandler => 0x12 | .noHandler => 0x13 | .blockState => 0x14

/-- Removing what a group has in the engines; its tiles become unit-held. Where its block terminates, the tiles handed to it are complete
(R350); at a block's end, those that it has finished wait for their releases (R173). -/
def State.dropGroup (s : State) (dying : Bool) (grp : Nat) : State :=
  match s.group grp with
  | none => s
  | some g =>
    let s1 := if dying then (s.abandonTask grp).dropTile grp g else s.abandonTask grp
    let s2 := (s1.withdraw grp).flushGroup grp
    let s3 := s2.updLaunch g.launch fun l =>
      { l with waits := l.waits.filter (· != grp) }
    { s3 with
      groups := AMap.del s3.groups grp
      tokenReqs := s3.tokenReqs.filter fun r => r.1 != grp
      tokens := s3.tokens.filter fun r => r.1 != grp
      sel := match s3.sel with
        | some u => if u.grp = grp then none else some u
        | none => none }

/-- PEND of a core clears (R352), and the pre-flights held on it resume (R381). -/
def State.clearSvc (s : State) (core : Nat) : State :=
  { s.setReg (regSvc core 0) 0 with
    svc := AMap.del s.svc core
    copies := AMap.mapV s.copies fun _ c =>
      if c.core = core && c.stage = .held then { c with stage := .preflight, resumed := true } else c }

/-- The cores whose pending fault a block raised. -/
def State.svcOf (s : State) (b : Nat) : List Nat :=
  (s.svc.filter fun q =>
    let e := q.2
    match e with
    | (false, _, id, _) => (AMap.get? s.copies id).elim false fun c => c.block = b
    | (true, _, k, _) => (s.group k).elim false fun g => g.block = b).map Prod.fst

/-- The groups of a block. -/
def State.blockGroups (s : State) (b : Nat) : List Nat := (s.groups.filter fun q => q.2.block = b).map Prod.fst

/-- Releasing a block's resources: its groups, tiles and array commands go, and its parked results are discarded when they land (R361). -/
def State.removeBlock (s : State) (b : Nat) : State :=
  match AMap.get? s.blocks b with
  | none => s
  | some blk =>
    let s1 := (s.blockGroups b).foldl (fun a k => a.dropGroup blk.dying.isSome k) s
    let gone : List Nat := ((List.range blk.span).zip blk.tiles).flatMap fun q => q.2.map fun p => 32 * (blk.core + q.1) + p
    let s2 := { s1 with
      blocks := AMap.del s1.blocks b
      tiles := s1.tiles.filter fun q => !gone.contains q.1
      copies := s1.copies.filter fun q => !(q.2.block = b && q.2.stage.unbegun)
      arrays := AMap.mapV s1.arrays fun _ l => l.filter fun c => c.block != b
      parked := AMap.mapV s1.parked fun _ x => if x.block = b then { x with dead := true } else x }
    (s.svcOf b).foldl (fun a core => a.clearSvc core) s2

/-- Where a block of a launch has terminated and no group is left that can execute `fetchw`, every tile not yet handed out is complete
(R350). -/
def State.markDead (s : State) (i : Nat) : State :=
  s.updLaunch i fun l =>
    let left := fun (q : Nat × Group) => q.2.launch = i && !q.2.entries.isEmpty
    let away := s.contexts.any fun c => c.2.saved.elim false fun v => v.groups.any left
    if l.status.getLsbD 0 && !s.groups.any left && !away then { l with dead := true } else l

/-- A block has an access, a copy or an array command in the engines. -/
def State.engineBusy (s : State) (b : Nat) : Bool :=
  (s.accesses.any fun q => (s.group q.2.grp).elim false fun g => g.block = b) || (s.copies.any fun q => q.2.block = b) ||
    s.arrays.any fun q => q.2.any fun c => c.block = b

/-- All groups of a block have exited, and nothing of it is left in the engines. -/
def State.blockQuiet (s : State) (b : Nat) : Bool :=
  ((s.blockGroups b).all fun k => ((s.group k).map fun g => g.entries.isEmpty && !g.taskOpen).getD true) &&
    !s.engineBusy b && !(s.parked.any fun q => q.2.block = b && !q.2.dead)

/-- Steps 1 and 2 of R349: the groups of a block stop, and what they have not begun is cancelled. -/
def State.stopBlock (s : State) (b : Nat) (d : Dying) : State :=
  let gs := s.blockGroups b
  let s1 := gs.foldl (fun a k => a.withdraw k) s
  let s2 := { s1 with
    blocks := AMap.upd s1.blocks b fun x => { x with dying := some d }
    copies := s1.copies.filter fun q => !(q.2.block = b && q.2.stage.unbegun)
    arrays := AMap.mapV s1.arrays fun _ l => l.filter fun c => c.block != b || c.started
    launches := AMap.mapV s1.launches fun _ l => { l with waits := l.waits.filter fun k => !gs.contains k }
    tokenReqs := s1.tokenReqs.filter fun r => !gs.contains r.1
    tokens := s1.tokens.filter fun r => !gs.contains r.1
    sel := match s1.sel with
      | some u => if gs.contains u.grp then none else some u
      | none => none }
  (s.svcOf b).foldl (fun a core => a.clearSvc core) s2

/-- Step 4 of R349: the report is written, and the block's resources are released. When no group of a tile launch remains, every tile not
yet handed out becomes complete (R350). -/
def State.finishTermination (s : State) (b : Nat) (blk : Block) (d : Dying) : State :=
  let s1 := match d.report, s.launch blk.launch with
    | some bs, some l => s.pushReport l.ctx bs
    | _, _ => s
  ((s1.removeBlock b).updLaunch blk.launch fun l => { l with status := l.status ||| 1#7 }).markDead blk.launch

/-- A block ends when all its groups have exited, with nothing in the engines (R46, R241); one that terminates, when what it had begun is
done (R349). -/
def State.endBlock (s : State) (b : Nat) : State :=
  match AMap.get? s.blocks b with
  | none => s
  | some blk =>
    match blk.dying with
    | some d => if s.engineBusy b then s else s.finishTermination b blk d
    | none => if s.blockQuiet b then s.removeBlock b else s

/-- What a termination of a block owes: its KIND 1 report, where one is due, as things stand at the detection. -/
def State.dyingOf (s : State) (cause : TermCause) (sub : Nat) (rep : Option (Nat × Dword × Dword)) : Dying :=
  { report := rep.bind fun r => (s.group r.1).map fun g => s.reportBytes 1 (termCode cause) sub r.1 g r.2.1 r.2.2 }

/-- Terminating a block, with a KIND 1 report where one is due (R349). -/
def State.terminateBlock (s : State) (b : Nat) (cause : TermCause) (sub : Nat) (rep : Option (Nat × Dword × Dword)) : State :=
  match AMap.get? s.blocks b with
  | none => s
  | some blk => (if blk.dying.isSome then s else s.stopBlock b (s.dyingOf cause sub rep)).endBlock b

/-- Terminating a block whose engines will not finish: what it has begun is discarded (R389, R399). -/
def State.killBlock (s : State) (b : Nat) (cause : TermCause) (rep : Option (Nat × Dword × Dword)) : State :=
  match AMap.get? s.blocks b with
  | none => s
  | some blk =>
    let d := blk.dying.getD (s.dyingOf cause 0 rep)
    let s1 := s.stopBlock b d
    ({ s1 with copies := s1.copies.filter fun q => q.2.block != b }).finishTermination b blk d

/-- Terminating the block of a group for a cause found at an address. -/
def State.terminateAt (s : State) (grp : Nat) (cause : TermCause) (sub : Nat) (pc addr : Dword) : State :=
  match s.group grp with
  | none => s
  | some g => s.terminateBlock g.block cause sub (some (grp, pc, addr))

/-! ## Pending registers (R87, R272, R277, R290) -/

/-- Lane register n of the group is pending for some thread. -/
def State.pendV (s : State) (grp n : Nat) : Bool :=
  (s.accesses.any fun q =>
    q.2.grp = grp && (match q.2.kind with
      | .load => q.2.dst.toNat ≤ n && n < q.2.dst.toNat + (if q.2.n < 4 then 1 else q.2.n / 4)
      | .atom _ => q.2.dst.toNat ≤ n && n < q.2.dst.toNat + (if q.2.ty.wide then 2 else 1)
      | _ => false)) ||
  (s.parked.any fun q => !q.2.dead && match q.2.dest with
    | .reg g _ d w => g = grp && (d.toNat = n || (w && d.toNat + 1 = n))
    | .elem _ _ => false)

/-- Uniform register n is pending: the run of an unanswered fetchw. -/
def Group.pendK (g : Group) (n : Nat) : Bool :=
  match g.fetch with
  | some (_, d) => d.toNat ≤ n && n < d.toNat + 4
  | none => false

/-- A physical tile has an element that has not landed. -/
def State.pendTile (s : State) (tile : Nat) : Bool :=
  s.parked.any fun q => !q.2.dead && match q.2.dest with
    | .elem t _ => t = tile
    | .reg .. => false

/-- TPEND0 to TPEND3 at handler entry. -/
def State.tpend (s : State) (grp : Nat) : BitVec 256 :=
  (List.range 256).foldl (fun m n => if s.pendV grp n then m ||| BitVec.ofNat 256 (2 ^ n) else m) 0

/-- The physical tile of a name, on the core of a group. -/
def State.tileOfName (s : State) (grp : Nat) (name : Nat) : Option Nat :=
  (s.group grp).bind fun g => (s.blockOf g).bind fun b =>
    (b.tiles[coreOf grp - b.core]?).bind fun l => (l[name]?).map fun p => 32 * coreOf grp + p

/-- TPENDT at handler entry. -/
def State.tpendt (s : State) (grp : Nat) : Dword :=
  (List.range 32).foldl (fun m n => match s.tileOfName grp n with
    | some t => if s.pendTile t then m ||| BitVec.ofNat 64 (2 ^ n) else m
    | none => m) 0

/-! ## Modules -/

/-- A module of a context by its id. -/
def State.module (s : State) (ctx : Nat) (id : Half) : Option Module := s.modules.find? fun m => m.ctx = ctx && m.id = id

/-- The code segment of a module: base and length; none where no such module is loaded. -/
def State.segment (s : State) (ctx : Nat) (id : Half) : Option (Dword × Nat) := (s.module ctx id).map fun m => (m.seg, m.len)

/-- An address lies in the segment of a module. -/
def State.inSegment (s : State) (ctx : Nat) (id : Half) (a : Dword) : Bool :=
  match s.segment ctx id with
  | some (b, n) => b.toNat ≤ a.toNat && a.toNat < b.toNat + n
  | none => false

/-! ## Taking a trap (R345, R346) and returning from it (R347) -/

/-- Another unit of the group is in a handler. -/
def Group.otherHandler (g : Group) (i : Nat) : Bool :=
  match g.entry i with
  | some e => !e.inHandler && g.entries.any fun q => q.2.inHandler && q.2.st != .parent
  | none => false

/-- TINFO (Table 19.3). -/
def tinfoOf (e : Entry) (flags : BitVec 12) (info : Byte) : Dword :=
  let f : Option (BitVec 4) → BitVec 5 := fun o => match o with
    | some n => n ++ 1#1
    | none => 0
  (0#18 ++ (e.wait &&& ~~~flags)) ++ ((f e.clause.setb) ++ (f e.clause.seta)) ++ (e.mod ++ info)

/-- Entering the handler (R346): the trap state is written, k63 takes TCAUSE, and the unit goes on at the handler of the launch. -/
def State.enterTrap (s : State) (grp i : Nat) (r : TrapRec) : State :=
  match s.group grp with
  | none => s
  | some g =>
    match g.entry i, s.launch g.launch with
    | some e, some l =>
      let tcause : Dword := r.code.setWidth 64 <<< 16 ||| r.sub.setWidth 64 <<< 8 ||| r.cause.setWidth 64
      let ts : TrapState :=
        { tcause := tcause, tpc := r.pc, tresume := e.pc
          tmask := e.mask ++ (r.thr &&& g.unexited)
          taddr := r.addr, tinfo := tinfoOf e g.flags r.info, tpend := s.tpend grp, tpendt := s.tpendt grp, tovf := r.ovf }
      let seg := ((s.segment g.ctx l.modid).map Prod.fst).getD 0
      let e' := { e with pc := seg + BitVec.ofNat 64 l.trapOff, mod := l.modid, st := .run, clause := {}, wait := 0, target := true
                         resumed := false, inHandler := true, trap := e.trap.erase r }
      { s.setGroup grp ({ g with trap := ts }.kset 63 tcause |>.setEntry i e') with
        tokens := s.tokens.filter (· != (grp, i))
        tokenReqs := s.tokenReqs.filter (· != (grp, i)) }
    | _, _ => s

/-- TAKING A TRAP. The unit is ended with its block where it is in a handler (cause 0x12) or its launch has none (cause 0x13); it waits
while another unit of its group is in a handler, keeping no power token (R315, R158); otherwise it enters the handler. The unit's program
counter is the resumption address. -/
def State.takeTrap (s : State) (grp i : Nat) (r : TrapRec) : State :=
  match s.group grp with
  | none => s
  | some g =>
    match g.entry i, s.launch g.launch with
    | some e, some l =>
      if e.inHandler then s.terminateAt grp .trapInHandler r.cause.toNat r.pc r.addr
      else if l.trapOff = 0xFFFFFFFF then s.terminateAt grp .noHandler r.cause.toNat r.pc r.addr
      else if g.otherHandler i then
        { s.setGroup grp (g.setEntry i { e with trap := r :: e.trap.erase r }) with
          tokens := s.tokens.filter (· != (grp, i)), tokenReqs := s.tokenReqs.filter (· != (grp, i)) }
      else s.enterTrap grp i r
    | _, _ => s

/-- A failure that becomes known after retirement (R345, R409): the unit that holds the lowest thread of the issuing unit that has not
exited is to take it; where all have exited, a KIND 3 report is written. -/
def State.lateTrap (s : State) (grp : Nat) (unit : Word) (r : TrapRec) : State :=
  match s.group grp with
  | none => s
  | some g =>
    match threads (unit &&& g.unexited) with
    | [] => s.report 3 r.cause.toNat r.sub.toNat grp r.pc r.addr
    | t :: _ =>
      s.setGroup grp { g with entries := AMap.mapV g.entries fun _ e =>
        if e.st != .parent && e.mask.getLsbD t then { e with trap := e.trap ++ [{ r with late := true }] } else e }

/-- The trap of the selected unit, at its instruction: the instruction has no effect. -/
def Cur.trap (c : Cur) (s : State) (r : TrapRec) : State := { s.takeTrap c.u.grp c.u.entry r with sel := none }

/-- A record with the unit's active threads and the instruction's address. -/
def Cur.trapRec (c : Cur) (p : Pred) (cause sub : Nat) : TrapRec :=
  { cause := BitVec.ofNat 8 cause, sub := BitVec.ofNat 8 sub, pc := c.u.pc, thr := c.act p }

/-- The illegal-encoding trap (condition n of R226). -/
def Cur.illegalEncoding (c : Cur) (s : State) (p : Pred) (n : Nat) : State := c.trap s (c.trapRec p 0x01 n)

/-- The illegal-use trap. -/
def Cur.illegalUse (c : Cur) (s : State) (p : Pred) (info : Nat := 0) : State :=
  c.trap s { c.trapRec p 0x02 0 with info := BitVec.ofNat 8 info }

/-- RETURNING FROM A TRAP (R347): the unit resumes at TRESUME, in the module of TINFO, with the saved clause state. -/
def State.returnTrap (s : State) (grp i : Nat) : State :=
  match s.group grp with
  | none => s
  | some g =>
    match g.entry i with
    | none => s
    | some e =>
      let t := g.trap.tinfo
      let flag : Nat → Nat → Option (BitVec 4) := fun v b => if t.getLsbD v then some (t.extractLsb' b 4) else none
      let e' := { e with pc := g.trap.tresume, mod := t.extractLsb' 8 16, st := .run, target := false, resumed := true, inHandler := false
                         clause := { seta := flag 24 25, setb := flag 29 30 }, wait := t.extractLsb' 34 12 }
      s.setGroup grp (g.setEntry i e')

/-! ## Retiring -/

/-- The selected unit's instruction waits for what readiness asks (conditions 3, 5 and 6 of R51, R83, R133, R292): it leaves the slot
without issuing. -/
def State.decline (s : State) (c : Cur) : State := { s with sel := none, declined := (c.u.grp, c.u.entry) :: s.declined }

/-- A group's counters count from its first issue (R246). -/
def Group.startCounting (g : Group) (clk : Nat) : Group :=
  { g with first := some (g.first.getD clk), lost := if g.first.isNone then 0 else g.lost }

/-- A group has issued from one of its entries. -/
def Group.noteIssue (g : Group) (clk i : Nat) : Group :=
  { g with lastIssue := clk, lostAt := g.lost, promoted := false, lastEntry := i }

/-- Clocks counted for a group since it last issued (R53). -/
def Group.waited (g : Group) (clk : Nat) : Nat := clk - g.lastIssue - (g.lost - g.lostAt)

/-- Entries waiting in a core's escalation buffer. -/
def State.buffered (s : State) (core : Nat) : Nat := (s.parked.filter fun q => q.2.core = core && q.2.buffered).length

/-- At least 32 entries of a core's escalation buffer are free (R83). -/
def State.bufferRoom (s : State) (core : Nat) : Bool := decide (s.buffered core + 32 ≤ 256)

/-- Copies of a core that have not finished (R281). -/
def State.copiesOn (s : State) (core : Nat) : Nat := (s.copies.filter fun q => q.2.core = core).length

/-- The array queue of a core. -/
def State.arrayQueue (s : State) (core : Nat) : List ArrayCmd := (AMap.get? s.arrays core).getD []

/-- What makes a port of a core hold its instruction stands now. -/
def State.holdStands (s : State) (core : Nat) : HoldKind → Bool
  | .buffer => !s.bufferRoom core
  | .copies => decide (256 ≤ s.copiesOn core)
  | .array => decide (8 ≤ (s.arrayQueue core).length)

/-- A counter of a core rises. -/
def State.countCore (s : State) (core c n : Nat) : State :=
  { s with corePmc := SMap.set s.corePmc (32 * core + c) (SMap.get s.corePmc (32 * core + c) + BitVec.ofNat 64 n) }

/-- The port holds the selected unit's instruction: the unit leaves the slot without issuing, and nothing issues from the port before it. The
clock is not counted for the port's groups, and under R83 counter 7 counts it; where the port held the instruction already, the clock has
been taken into account (R53, R246). -/
def State.hold (s : State) (c : Cur) (h : HoldKind) : State :=
  let port := c.u.grp / 64
  let s1 := if (AMap.get? s.portHeld port).isSome then s
    else
      let s0 := { s with groups := AMap.mapV s.groups fun k g => if k / 64 = port then { g with lost := g.lost + 1 } else g }
      if h = .buffer then s0.countCore (coreOf c.u.grp) 7 1 else s0
  { s1.decline c with portHeld := AMap.set s.portHeld port (c.u.grp, c.u.entry, h) }

/-- What the threads know of past writes after an issue: a group's first comes after what its launch was ordered after (R137); a unit whose
clause waited on flags acquires what they report (R131). -/
def Cur.knows (c : Cur) (s : State) : AMap Known :=
  if c.g.first.isNone then (s.acquireAt c.u.grp 0xFFFFFFFF#32 .sys).known
  else if c.e.wait = 0 then s.known
  else (s.acquireAt c.u.grp c.e.mask .dev).known

/-- The selected unit's instruction has issued: it is counted, and the slot is free. -/
def State.issued (s : State) (c : Cur) : State :=
  let s1 := (s.count c.u.grp 1).updGroup c.u.grp fun g => g.startCounting s.clk.toNat |>.noteIssue s.clk.toNat c.u.entry
  { s1 with
    sel := none, declined := [], lastGroup := AMap.set s1.lastGroup (c.u.grp / 64) c.u.grp, known := c.knows s
    portHeld := AMap.del s1.portHeld (c.u.grp / 64) }

/-- It has issued, and its unit stands at the next address with no wait mask. -/
def State.retire (s : State) (c : Cur) : State :=
  (s.issued c).updGroup c.u.grp fun g => g.updEntry c.u.entry fun e => { e with pc := c.u.npc, wait := 0, resumed := false }

/-- A next state in which the selected unit's group has changed as its instruction says, and the unit has gone on. -/
def State.finish (s : State) (c : Cur) (g : Group) : State := (s.setGroup c.u.grp g).retire c

/-- An instruction with a selected unit; with none, nothing issues. -/
def State.issue (s : State) (f : Cur → State) : Host.Outcome State Fault Refusal :=
  match s.cur with
  | some c => .next (f c)
  | none => .next s

/-! ## Landing barriers (R286 to R288) -/

/-- The completion test of R288. -/
def Barrier.test (b : Barrier) : Barrier :=
  if b.na.toNat ≤ b.arr.toNat && b.expb ≤ b.landb then
    { b with ovf := b.landb - b.expb, phase := b.phase + 1, arr := 0, expb := 0, landb := 0 }
  else b

/-- The scope at which a unit acquires where a barrier's phase is shown to it: the barrier's (R133, R286). -/
def Barrier.acquires (b : Barrier) : Scope :=
  match b.scope.toNat with
  | 1 => .blk
  | 2 => .clu
  | _ => .dev

def Block.bar (b : Block) (n : Nat) : Option Barrier := b.bars[n]?
def Block.setBar (b : Block) (n : Nat) (x : Barrier) : Block := { b with bars := b.bars.set n x }

/-- Bytes counted on a barrier in one update (R363). -/
def State.landBytes (s : State) (block bar n : Nat) : State :=
  { s with blocks := AMap.upd s.blocks block fun b => match b.bar bar with
      | some x => b.setBar bar { x with landb := x.landb + BitVec.ofNat 64 n }.test
      | none => b }

/-! ## Tile ownership (R306, R307) -/

/-- A tile leaves its holder: it goes to the first waiter, else it is unit-held. -/
def Tile.release (t : Tile) : Tile := { t with holder := t.waiters.head?, waiters := t.waiters.tail }

/-- A group gives up its tiles and its places among their waiters. -/
def State.dropTiles (s : State) (grp : Nat) : State :=
  { s with tiles := AMap.mapV s.tiles fun _ t =>
      let t1 := { t with waiters := t.waiters.filter (· != grp) }
      if t1.holder = some grp then t1.release else t1 }

/-! ## The end of groups and blocks -/

/-- A group all of whose threads have ended, and whose task, if it had one, is abandoned (R46, R306, R372, R173). -/
def State.groupExit (s : State) (grp : Nat) : State :=
  match s.group grp with
  | none => s
  | some g =>
    if !g.entries.isEmpty || g.taskOpen then s
    else
      let s1 := s.finishTile grp
      let s2 := s1.updLaunch g.launch fun l => { l with waits := l.waits.filter (· != grp) }
      let s3 := s2.updGroup grp fun g => { g with work := .none, fetch := none }
      let s4 := { s3.dropTiles grp with
        tokenReqs := s3.tokenReqs.filter fun r => r.1 != grp, tokens := s3.tokens.filter fun r => r.1 != grp }
      (s4.markDead g.launch).endBlock g.block

/-- An access to the spill stacks. -/
def Access.onSpill (a : Access) : Bool := a.lanes.any fun l => decide (4 * 2 ^ 56 ≤ l.cell ∧ l.cell < 5 * 2 ^ 56)

/-- The group's accesses to its spill stack are performed, so that its return-address entries are read and written after them (R121,
R273). -/
def State.flushSpill (s : State) (grp : Nat) : State :=
  ((s.groupAccesses grp).filter fun q => q.2.onSpill).foldl (fun a q =>
    (if q.2.kind = .store then a.performStore q.1 q.2 else a.performLoad [] q.1 q.2).endAccess q.1 q.2) s

/-- The rules of fusing and ending after threads have moved or ended. -/
def State.afterMove (s : State) (grp : Nat) : State := ((s.flushSpill grp).settle grp).groupExit grp

end Sys2Proof.Machine
end

