-- ==== Sys2Proof/Machine/Operands.lean ====
section
/-! DEFINITION. Operand forms: the registers that an instruction names (Table 11.8), operand b and immediates (11/R221), addresses
(14/R270), and the checks that the group decides (condition 6 of R226). -/

namespace Sys2Proof.Machine

/-! ## Registers named -/

/-- One lane operand of a width. -/
def vOp (w : Bool) (n : Reg) : Reg × Nat := (n, if w then 2 else 1)

/-- A V, K or I operand b as lane registers. -/
def bRun (w : Bool) : OpB → List (Reg × Nat)
  | .v n => [vOp w n]
  | _ => []

/-- V operands of a form with U = 0; with U = 1 they name uniform registers. -/
def vOps (u w : Bool) (l : List Reg) : List (Reg × Nat) := if u then [] else l.map (vOp w)

/-- The lane registers that an instruction names, as runs: first register and length. -/
def laneRuns (mfmt : Dword) : Instr → List (Reg × Nat)
  | .calli _ a => [vOp true a]
  | .add u _ ty x _ d a b => vOps u ty.wide [d, a] ++ bRun (ty.wide && x = .none) b
  | .sub u _ ty _ d a b | .mul u _ ty _ _ d a b | .shl u _ ty d a b | .shr u _ ty d a b | .and u _ ty d a b
  | .or u _ ty d a b | .xor u _ ty d a b | .min u _ ty d a b | .max u _ ty d a b => vOps u ty.wide [d, a] ++ bRun ty.wide b
  | .mad u _ ty _ d a b c => vOps u ty.wide [d, a, c] ++ bRun ty.wide b
  | .not u _ ty d a | .cnt u _ ty _ d a => vOps u ty.wide [d, a]
  | .icmp u _ ty _ _ _ a b => vOps u ty.wide [a] ++ bRun ty.wide b
  | .sel u _ ty d a b _ => vOps u ty.wide [d, a] ++ bRun ty.wide b
  | .mov u _ ty tid d b => vOps u ty.wide [d] ++ (if tid then [] else bRun ty.wide b)
  | .fadd _ ty _ d a b | .fsub _ ty _ d a b | .fmul _ ty _ d a b | .fdiv _ ty _ d a b | .fmin _ ty d a b | .fmax _ ty d a b =>
    vOp ty.wide d :: vOp ty.wide a :: bRun ty.wide b
  | .ffma _ ty _ d a b c => vOp ty.wide d :: vOp ty.wide a :: vOp ty.wide c :: bRun ty.wide b
  | .fcmp _ ty _ _ _ a b => vOp ty.wide a :: bRun ty.wide b
  | .fsqrt _ ty _ d a | .frsq _ ty _ d a | .gsum _ ty _ d a | .qdiff _ ty _ _ d a | .fexp _ ty _ d a | .fexp2 _ ty _ d a
  | .fexpm1 _ ty _ d a | .flog _ ty _ d a | .flog2 _ ty _ d a | .flog1p _ ty _ d a | .fsin _ ty _ d a | .fcos _ ty _ d a
  | .fsinpi _ ty _ d a | .fcospi _ ty _ d a | .ftanh _ ty _ d a | .fsigm _ ty _ d a => [vOp ty.wide d, vOp ty.wide a]
  | .fdot4 _ ty _ nc d a b c =>
    [vOp ty.wide d, (a, dotRegs ty 4), (b, dotRegs ty 4)] ++ (if nc then [] else [vOp ty.wide c])
  | .fdot8 _ ty _ nc d a b c => [vOp false d, (a, dotRegs ty 8), (b, dotRegs ty 8)] ++ (if nc then [] else [vOp false c])
  | .cvt _ dt st _ _ d a => [vOp dt.wide d, vOp st.wide a]
  | .qblk _ dt st _ _ d a => [(d, if dt = .q4o then 3 else 5), (a, if st = .f32 then 16 else 8)]
  | .rngk _ _ d _ b => [vOp false d, vOp true b]
  | .xsel _ ty _ d a b => vOp ty.wide d :: vOp ty.wide a :: bRun false b
  | .qswap _ ty _ d a | .qbcast _ ty _ d a => [vOp ty.wide d, vOp ty.wide a]
  | .ballot _ _ a => [vOp false a]
  | .ldSh _ ty n d a _ | .ldSp _ ty n d a _ | .sld _ ty n d a _ => [(d, runRegs ty n), vOp false a]
  | .stSh _ ty n a _ c | .stSp _ ty n a _ c | .sst _ ty n a _ c | .bld _ ty n a _ c => [vOp false a, (c, runRegs ty n)]
  | .atom _ op ty _ _ d a _ c => [vOp ty.wide d, vOp false a] ++ (if op = .ld then [] else [(c, atomRegs op ty)])
  | .mma _ _ _ a _ => [(a, if mfmt.getLsbD 12 then 34 else 32)]
  | .mdrn _ ty _ d _ b =>
    [(d, match b with
      | .k _ => 1
      | .i w => mdrnRegs ty ((w.extractLsb' 8 6).toNat + 1))]
  | _ => []

/-- The uniform registers of a V, K or I operand b. -/
def bK (b : OpB) : List Reg :=
  match b with
  | .k n => [n]
  | _ => []

def offK (b : OffB) : List Reg :=
  match b with
  | .k n => [n]
  | _ => []

def kiK (b : KI) : List Reg :=
  match b with
  | .k n => [n]
  | .i _ => []

/-- The uniform registers that an instruction reads or writes (condition 2 of R51). -/
def uniformRegs : Instr → List Reg
  | .brc _ _ k _ => [k]
  | .callm _ a b | .spawn _ a b => [a, b]
  | .ipf _ _ a b => a :: offK b
  | .add u _ _ _ _ d a b | .sub u _ _ _ d a b | .mul u _ _ _ _ d a b | .shl u _ _ d a b | .shr u _ _ d a b | .and u _ _ d a b
  | .or u _ _ d a b | .xor u _ _ d a b | .min u _ _ d a b | .max u _ _ d a b | .sel u _ _ d a b _ =>
    (if u then [d, a] else []) ++ bK b
  | .mad u _ _ _ d a b c => (if u then [d, a, c] else []) ++ bK b
  | .not u _ _ d a | .cnt u _ _ _ d a => if u then [d, a] else []
  | .icmp u _ _ _ _ _ a b => (if u then [a] else []) ++ bK b
  | .mov u _ _ tid d b => (if u then [d] else []) ++ (if tid then [] else bK b)
  | .fadd _ _ _ _ _ b | .fsub _ _ _ _ _ b | .fmul _ _ _ _ _ b | .fdiv _ _ _ _ _ b | .ffma _ _ _ _ _ b _ | .fmin _ _ _ _ b
  | .fmax _ _ _ _ b | .fcmp _ _ _ _ _ _ b | .xsel _ _ _ _ _ b => bK b
  | .rngk _ _ _ a _ => [a]
  | .mmov _ op d a => match op with
    | .m => [a]
    | .k => [d]
    | .unit => []
  | .ldSh _ _ _ _ _ o | .ldSp _ _ _ _ _ o | .sld _ _ _ _ _ o | .stSh _ _ _ _ o _ | .stSp _ _ _ _ o _ | .sst _ _ _ _ o _
  | .bld _ _ _ _ o _ | .atom _ _ _ _ _ _ _ o _ => offK o
  | .cpin _ _ _ _ _ a b c _ | .cpout _ _ _ _ _ a b c _ | .cpgat _ _ _ _ _ a b c _ | .cpbp _ _ _ _ a b c _
  | .cppeer _ _ _ _ _ a b c _ => [a, b, c]
  | .barv _ d b | .barxPh _ d b => d :: kiK b
  | .barxExp _ b c | .barxCfg _ b c => c :: kiK b
  | .barw _ a b => a :: kiK b
  | .fetchw _ d => [d, d + 1, d + 2, d + 3]
  | .msetf _ b | .trap _ b | .mma _ _ _ _ b | .mdrn _ _ _ _ _ b => kiK b
  | .mldIn _ _ _ _ _ _ a b | .mldOut _ _ _ _ _ _ a b => a :: kiK b
  | .sread _ d _ => [d]
  | .swrite _ a _ => [a]
  | .pmc _ _ d b => d :: kiK b
  | _ => []

/-- The tile that an instruction names. -/
def tileName : Instr → Option Reg
  | .mma _ _ t _ _ | .macq _ t | .mrel _ t | .mldIn _ _ _ _ _ t _ _ | .mldOut _ _ _ _ _ t _ _ | .mdrn _ _ _ _ t _ | .mzero _ _ t => some t
  | _ => none

/-- Condition 6 of R226 as far as the group decides it: its allocation of lane registers (R31) and its launch's A (R104). -/
def State.rowOk (s : State) (g : Group) (i : Instr) : Bool :=
  ((laneRuns g.mfmt i).all fun q => decide (q.1.toNat + q.2 ≤ g.nregs)) &&
    (match tileName i with
      | some t => decide (t.toNat < ((s.launch g.launch).map (·.acc)).getD 0)
      | none => true)

/-- The same of the selected unit's instruction. -/
def Cur.encodingOk (c : Cur) (s : State) (i : Instr) : Bool := s.rowOk c.g i

/-- An instruction of the selected unit: checked under condition 6, then carried out. -/
def State.issueI (s : State) (i : Instr) (p : Pred) (f : Cur → State) : Host.Outcome State Fault Refusal :=
  s.issue fun c => if c.encodingOk s i then f c else c.illegalEncoding s p 6

/-! ## Operand values -/

/-- The bits of an immediate operand b of a type (Table 11.9). -/
def immBits (ty : Ty) : OpB → Dword
  | .i32 w => match ty with
    | .i64 | .b64 => w.signExtend 64
    | .f64 => widen32 w
    | _ => w.setWidth 64
  | .i64 d => d
  | _ => 0

/-- The low bits of a value, by the width of a type. -/
def lowBits (ty : Ty) (x : Dword) : Dword :=
  match ty.size with
  | 8 => x
  | 4 => (x.extractLsb' 0 32).setWidth 64
  | 2 => (x.extractLsb' 0 16).setWidth 64
  | _ => (x.extractLsb' 0 8).setWidth 64

/-- Operand a or c of thread t; a uniform register where U = 1 (R217). -/
def Cur.srcA (c : Cur) (u : Bool) (ty : Ty) (t : Nat) (n : Reg) : Dword :=
  lowBits ty (if u then c.g.kget n.toNat else c.g.vread ty.wide t n.toNat)

/-- Operand b of thread t (R215, R217, R221). -/
def Cur.srcB (c : Cur) (ty : Ty) (t : Nat) (b : OpB) : Dword :=
  match b with
  | .v n => lowBits ty (c.g.vread ty.wide t n.toNat)
  | .k n => lowBits ty (c.g.kget n.toNat)
  | _ => lowBits ty (immBits ty b)

/-- A "K or I" operand. -/
def Cur.srcKI (c : Cur) (b : KI) : Dword :=
  match b with
  | .k n => c.g.kget n.toNat
  | .i w => w.setWidth 64

/-- An address offset in bytes, signed (R270). -/
def Cur.offset (c : Cur) (b : OffB) : Int :=
  match b with
  | .k n => (c.g.kget n.toNat).toInt
  | .i32 w => w.toInt
  | .i64 d => d.toInt

/-- The address of thread t (R270), computed exactly. -/
def Cur.addr (c : Cur) (t : Nat) (a : Reg) (off : OffB) : Int := (c.g.vget t a.toNat).toNat + c.offset off

/-- The target of a branch, call or prefetch at an address (R222). -/
def targetAddr (pc : Dword) : Target → Dword
  | .off24 o => (pc &&& ~~~31#64) + (o.signExtend 64 <<< 5)
  | .off32 w => (pc &&& ~~~31#64) + (w.signExtend 64 <<< 5)
  | .off64 d => (pc &&& ~~~31#64) + (d <<< 5)

/-- Some thread is active: a uniform instruction takes effect (R216). -/
def Cur.any (c : Cur) (p : Pred) : Bool := c.act p != 0

/-- Every active thread is a helper (R38, R285). -/
def Cur.helpersOnly (c : Cur) (p : Pred) : Bool := subMask (c.act p) c.g.helper

/-- Registers written for each active thread at once: sources are read from the group before (R248). -/
def Cur.mapThreads (c : Cur) (p : Pred) (f : Nat → Group → Group) : Group :=
  (threads (c.act p)).foldl (fun g t => f t g) c.g

/-- A lane or uniform result: in the lane form each active thread writes its value to OD; in the uniform form thread-free value once. -/
def Cur.writeResult (c : Cur) (u : Bool) (p : Pred) (ty : Ty) (d : Reg) (f : Nat → Dword) : Group :=
  if u then
    (if c.any p then c.g.kset d.toNat (match ty with
      | .i32 => ((f 0).extractLsb' 0 32).signExtend 64
      | _ => lowBits ty (f 0)) else c.g)
  else c.mapThreads p fun t g => g.vwrite ty.wide t d.toNat (f t)

end Sys2Proof.Machine
end

