-- ==== Sys2Proof/Machine/Flags.lean ====
section
/-! DEFINITION. Flag computations: condition bits in mask registers (12/R230, 13/R255, R266), the conditions of `icmp`, and the
counting of completion flags (11/R211). -/

namespace Sys2Proof.Machine

/-- Condition bits of active threads written to a mask register: the other bits keep their values, or become 0 with .z (R230, R255). -/
def condMask (old act cond : Word) (z : Bool) : Word := if z then act &&& cond else (old &&& ~~~act) ||| (act &&& cond)

/-- The mask of the threads for which a condition holds. -/
def maskOf (f : Nat → Bool) : Word := (List.range 32).foldl (fun m t => if f t then m ||| bit32 t else m) 0

/-- The integer value of bits of a type (R228): signed for i types, unsigned for n and b types. -/
def intVal (ty : Ty) (x : Dword) : Int :=
  match ty with
  | .i8 => (x.extractLsb' 0 8).toInt
  | .i16 => (x.extractLsb' 0 16).toInt
  | .i32 => (x.extractLsb' 0 32).toInt
  | .i64 => x.toInt
  | .n8 => (x.extractLsb' 0 8).toNat
  | .n16 => (x.extractLsb' 0 16).toNat
  | .n32 | .b32 => (x.extractLsb' 0 32).toNat
  | _ => x.toNat

/-- The conditions of `icmp` (Table 12.1). -/
def icmpHolds (cnd : ICond) (a b : Int) : Bool :=
  match cnd with
  | .eq => a == b
  | .ne => a != b
  | .lt => decide (a < b)
  | .le => decide (a ≤ b)
  | .gt => decide (b < a)
  | .ge => decide (b ≤ a)

/-- The clause that a unit executes names flag n (R211). -/
def Clause.names (k : Clause) (n : Nat) : Bool :=
  let is : Option (BitVec 4) → Bool := fun o => match o with
    | some x => x.toNat = n
    | none => false
  is k.seta || is k.setb

/-- An operation counted on flag n where the clause names it: the count rises and the flag clears. -/
def Cur.countOn (c : Cur) (g : Group) (n : Nat) : Group := if c.e.clause.names n then g.countUp n else g

end Sys2Proof.Machine
end

