-- ==== Sys2Proof/Machine/Issue.lean ====
section
/-! DEFINITION. Fetch and issue: the fetch of a block (11/R206, 21/R390), entering a clause (11/R210), readiness (02/R51), selection
(02/R52), power tokens (07/R158). -/

namespace Sys2Proof.Machine

/-! ## Fetch -/

/-- The fetch block of an address (R206). -/
def blockBase (a : Dword) : Dword := a &&& ~~~31#64

/-- Where a unit's fetch block lies, or why it cannot be fetched (R390). -/
inductive FetchResult
  | fault (sub : Nat)
  | absent
  | poisoned
  | cell (page : PageMap) (n : Nat)
deriving DecidableEq, Repr

/-- The physical place of the fetch block of an address in a module of a context (R114, R390). -/
def State.fetchWhere (s : State) (ctx : Nat) (mod : Half) (pc : Dword) : FetchResult :=
  if !s.inSegment ctx mod pc then .fault 1
  else
    match s.translate ctx (blockBase pc) with
    | .nonCanonical => .fault 1
    | .absent => .absent
    | .poisoned => .poisoned
    | .page p => if !p.x || p.isReg then .fault 2 else .cell p (p.cell (blockBase pc).toNat)

/-- The place of a block in an instruction cache. -/
def cacheKey (i cell : Nat) : Nat := i * 2 ^ 60 + cell

/-- The 32 bytes of a fetch block in memory. -/
def State.blockAt (s : State) (cell : Nat) : BitVec 256 := BitVec.ofNat 256 (Memory.readNat s.mem cell 32)

/-- The fetch block of a unit, where L0 of its core holds it (condition 7 of R51). -/
def State.l0Block (s : State) (grp : Nat) (g : Group) (e : Entry) : Option (BitVec 256) :=
  match s.fetchWhere g.ctx e.mod e.pc with
  | .cell _ n => AMap.get? s.l0 (cacheKey (coreOf grp) n)
  | _ => none

/-- What stands at a unit's program counter. -/
def State.slotAt (s : State) (grp : Nat) (g : Group) (e : Entry) : Option Slot :=
  (s.l0Block grp g e).map fun b => decodeAt b (e.pc.toNat % 32)

/-- Blocks of 32 bytes that a cache of each level holds (Table 5.7): 64 KiB, 1 MiB, 16 MiB. -/
def cacheBlocks : CacheLevel → Nat
  | .l0 => 2048 | .l1 => 32768 | .l2 => 524288

/-- A block enters cache i of a level, which holds so many; in a full one some block gives way (log 12). -/
def cachePut (room free i cell : Nat) (b : BitVec 256) (m : AMap (BitVec 256)) : AMap (BitVec 256) :=
  let mine := m.filter fun q => q.1 / 2 ^ 60 = i
  let m1 :=
    if (AMap.get? m (cacheKey i cell)).isSome || mine.length < room then m
    else AMap.del m ((mine[Config.freeVictim free % mine.length]?).elim 0 Prod.fst)
  AMap.set m1 (cacheKey i cell) b

/-- A block enters L0 of a core. -/
def State.putL0 (s : State) (core cell : Nat) (b : BitVec 256) : State :=
  { s with l0 := cachePut (cacheBlocks .l0) s.free core cell b s.l0, free := s.free + 1 }

/-- A block enters L1 of a core's cluster. -/
def State.putL1 (s : State) (core cell : Nat) (b : BitVec 256) : State :=
  { s with l1 := cachePut (cacheBlocks .l1) s.free (core / 8) cell b s.l1, free := s.free + 1 }

/-- A block enters L2 of a core's die. -/
def State.putL2 (s : State) (core cell : Nat) (b : BitVec 256) : State :=
  { s with l2 := cachePut (cacheBlocks .l2) s.free (core / 64) cell b s.l2, free := s.free + 1 }

/-- Filling a block into L0 of a core, L1 of its cluster and L2 of its die (R115). -/
def State.fillBlock (s : State) (core cell : Nat) : State :=
  let b := s.blockAt cell
  ((s.putL2 core cell b).putL1 core cell b).putL0 core cell b

/-- A block that stands in an outer level comes from there, as it stood when that level was filled (R116). -/
def State.fillFrom (s : State) (core cell : Nat) : State :=
  match AMap.get? s.l1 (cacheKey (core / 8) cell), AMap.get? s.l2 (cacheKey (core / 64) cell) with
  | some b, _ => s.putL0 core cell b
  | none, some b => (s.putL1 core cell b).putL0 core cell b
  | none, none => s.fillBlock core cell

/-- A block leaves a cache, and the caches outside it from which it would come, to be fetched again from main memory (Table 21.3). -/
def State.dropBlock (s : State) (level : CacheLevel) (i cell : Nat) : State :=
  match level with
  | .l0 => { s with
      l0 := AMap.del s.l0 (cacheKey i cell), l1 := AMap.del s.l1 (cacheKey (i / 8) cell), l2 := AMap.del s.l2 (cacheKey (i / 64) cell) }
  | .l1 => { s with l1 := AMap.del s.l1 (cacheKey i cell), l2 := AMap.del s.l2 (cacheKey (i / 8) cell) }
  | .l2 => { s with l2 := AMap.del s.l2 (cacheKey i cell) }

/-- An event that may come before a group's first issue: its core counts it in any case, the group from that issue on (R246). -/
def State.countFrom (s : State) (grp c : Nat) : State :=
  if (s.group grp).elim false fun g => g.first.isSome then s.count grp c else s.countCore (coreOf grp) c 1

/-- The misses that a fill of a block counts (Table 12.6). -/
def State.countMisses (s : State) (grp cell : Nat) : State :=
  let core := coreOf grp
  let s1 := s.countFrom grp 14
  let m1 := (AMap.get? s.l1 (cacheKey (core / 8) cell)).isNone
  let m2 := (AMap.get? s.l2 (cacheKey (core / 64) cell)).isNone
  let s2 := if m1 then s1.countFrom grp 15 else s1
  if m1 && m2 then s2.countFrom grp 16 else s2

/-- A serviceable fault of a core (R348): its report, SVCSTAT, and the stall. KIND 0 is a copy's pre-flight, KIND 1 a fetch. -/
def State.raiseSvc (s : State) (core : Nat) (fetch : Bool) (a b grp : Nat) (pc addr : Dword) : State :=
  let ctx := ((s.group grp).map (·.ctx)).getD 0
  let s1 := s.report 2 (if fetch then 0x21 else 0x20) 0 grp pc addr
  let s2 := s1.setReg (regSvc core 0) (BitVec.ofNat 32 (2 ^ 31 + (if fetch then 2 ^ 29 else 0) + ctx))
  { s2 with svc := AMap.set s2.svc core (fetch, ctx, a, b) }

/-- A module's number and hash in their place: by ascending number, after those of the same number; nothing where they stand there. -/
def insertMod (x : Nat × BitVec 256) : List (Nat × BitVec 256) → List (Nat × BitVec 256)
  | [] => [x]
  | y :: r => if x = y then y :: r else if x.1 < y.1 then x :: y :: r else y :: insertMod x r

/-- The module of a fetch enters the launch's MODSET (R199). -/
def State.noteModule (s : State) (g : Group) (mod : Half) : State :=
  match s.module g.ctx mod with
  | some m => s.updLaunch g.launch fun l => { l with mods := insertMod (mod.toNat, m.hash) l.mods }
  | none => s

/-- Filling the blocks after one, so many of them, where nothing stands against one (R115, R390). -/
def State.prefetch (s : State) (core ctx : Nat) (mod : Half) (pc : Dword) : Nat → State
  | 0 => s
  | n + 1 =>
    let a := blockBase pc + 32
    (match s.fetchWhere ctx mod a with
      | .cell _ n => if s.poisoned n 32 then s else s.fillFrom core n
      | _ => s).prefetch core ctx mod a n

/-! ## Readiness (R51) -/

/-- Issue of a core's groups is not held back (R25, R348, R378). -/
def State.coreRuns (s : State) (core : Nat) : Bool := !s.halted && s.psChange.isNone && (AMap.get? s.svc core).isNone

/-- A context's units may issue: it is active and no debugger holds it (R51, R160, R401). -/
def State.ctxRuns (s : State) (c : Nat) : Bool := s.ctxStat c = 1 && ((s.reg (regDbg c 4)).extractLsb' 0 3).toNat = 0

/-- A launch has not been stopped by a queue destroy (R398). -/
def State.launchRuns (s : State) (i : Nat) : Bool := !(((s.launch i).map fun l => l.status.getLsbD 3).getD false)

/-- A unit waits at a `tend` that it has issued; it goes on with its steps whenever it is selected (R292). -/
def Entry.atTend (e : Entry) : Bool := e.st = .atTend

/-- Every command on a tile that issued before a number is over (R307). -/
def State.tileIdle (s : State) (tile before : Nat) : Bool :=
  !(s.arrayQueue (tile / 32)).any fun c => c.tile = tile && decide (c.id < before)

/-- What a unit waits for has come to pass (conditions 4 and 5 of R51). -/
def State.waitOver (s : State) (grp : Nat) (g : Group) (e : Entry) : Bool :=
  match e.st with
  | .run => true
  | .atBarrier b ticket => ((s.blockOf g).bind (·.bar b)).elim false fun x => decide (ticket < x.phase)
  | .atFence ids near _ _ _ => ids.all (s.over near)
  | .atMacq t before => !((AMap.get? s.tiles t).elim false fun x => x.waiters.contains grp) && s.tileIdle t before && !s.pendTile t
  | .atClaim id => (AMap.get? s.accesses id).elim true fun a => a.need.isEmpty
  | _ => false

/-- The run of an `mdrn` whose shape word stands in a uniform register (R311, R88). -/
def Group.mdrnRun (g : Group) : Instr → List (Reg × Nat)
  | .mdrn _ ty _ d _ (.k b) => [(d, mdrnRegs ty (((g.kget b.toNat).extractLsb' 8 6).toNat + 1))]
  | _ => []

/-- No register or tile that an instruction names is pending (condition 2 of R51). -/
def State.regsReady (s : State) (grp : Nat) (g : Group) (i : Instr) : Bool :=
  (((laneRuns g.mfmt i) ++ g.mdrnRun i).all fun q => (List.range q.2).all fun j => !s.pendV grp (q.1.toNat + j)) &&
    ((uniformRegs i).all fun n => !g.pendK n.toNat) &&
    (match tileName i with
      | some t => (match i with
        | .macq .. | .mrel .. => true
        | _ => (s.tileOfName grp t.toNat).elim true fun p => !s.pendTile p)
      | none => true)

/-- A unit meets the conditions of R51 as far as its instruction alone does not wait for something when it is selected: a power token, a set,
a queue slot (conditions 3, 5 and 6). Whether a header that traps under condition 8 of R226 first waits for the flags of its own WAIT the spec
does not say: in the model it waits only for masks of headers entered before it (DESIGN CHOICE, log 26). -/
def State.meets (s : State) (grp i : Nat) : Bool :=
  match s.group grp with
  | none => false
  | some g =>
    match g.entry i with
    | none => false
    | some e =>
      s.ctxRuns g.ctx && s.launchRuns g.launch && s.blockRuns g &&
        (e.atTend || (e.trap.isEmpty && s.waitOver grp g e)) && !g.bkpt && !g.rolling && (!g.wounded || g.inHandler) &&
        (match s.slotAt grp g e with
          | none => false
          | some .tail | some (.header _) => true
          | some (.instr (.nop _) _) => true
          | some (.instr i _) => e.wait &&& ~~~g.flags == 0 && (e.target || !s.rowOk g i || s.regsReady grp g i)
          | some (.resv ..) | some (.bad _) => e.wait &&& ~~~g.flags == 0)

/-- A unit is ready, its core issues, and it has not left the slot since its instruction waits. -/
def State.unitReady (s : State) (grp i : Nat) : Bool := s.coreRuns (coreOf grp) && !s.declined.contains (grp, i) && s.meets grp i

/-- The unit whose instruction a port holds, while that unit meets what it did. -/
def State.heldUnit (s : State) (port : Nat) : Option (Nat × Nat × HoldKind) :=
  (AMap.get? s.portHeld port).filter fun q => s.meets q.1 q.2.1

/-- A unit's block is not in L0, and nothing else stands against its fetch. -/
def State.fetchStalled (s : State) (grp i : Nat) : Bool :=
  match s.group grp with
  | none => false
  | some g =>
    match g.entry i with
    | none => false
    | some e =>
      s.coreRuns (coreOf grp) && s.ctxRuns g.ctx && s.launchRuns g.launch && s.blockRuns g && (e.trap.all fun r => r.late) &&
        s.waitOver grp g e && (s.l0Block grp g e).isNone

/-- INSTRUCTION_FETCH_FILL: the block of a unit that misses L0 arrives, with the blocks that follow it, so many of them; or the fetch fault,
the serviceable fault or the poison it meets (R115, R348, R388, R390). -/
def execInstructionFetchFill (core slot : Nat) (fill : FillAt) (s : State) : Host.Outcome State Fault Refusal :=
  let grp := 512 * core + slot
  match s.group grp with
  | none => .next s
  | some g =>
    match g.entry fill.entry with
    | none => .next s
    | some e =>
      if !s.fetchStalled grp fill.entry then .next s
      else
        let faultRec : Nat → TrapRec := fun sub =>
          { cause := 0x04, sub := BitVec.ofNat 8 sub, pc := e.pc, thr := e.mask, addr := e.pc }
        match s.fetchWhere g.ctx e.mod e.pc with
        | .fault n => .next (if e.trap.isEmpty then s.takeTrap grp fill.entry (faultRec n) else s)
        | .absent => .next (if e.trap.isEmpty then s.raiseSvc core true grp fill.entry grp e.pc (blockBase e.pc) else s)
        | .poisoned => .next (s.terminateAt grp .poison 0 e.pc e.pc)
        | .cell p n =>
          if s.poisoned n 32 then .next (s.terminateAt grp .poison 0 e.pc e.pc)
          else
            .next (((((s.cacheTlb g.ctx p).countMisses grp n).fillFrom core n).noteModule g e.mod).prefetch core g.ctx e.mod e.pc fill.ahead)

/-! ## Selection (R52) -/

/-- The ready units of a group. -/
def State.readyUnits (s : State) (grp : Nat) : List Nat :=
  match s.group grp with
  | none => []
  | some g => (g.entries.map Prod.fst).filter fun i => s.unitReady grp i

/-- The class in which a group is selected (R52). -/
def State.classOf (s : State) (g : Group) : Nat := if g.promoted then 0 else ((s.launch g.launch).map (·.cls)).getD 3

/-- The least element of a list by a measure, the first where several are least. -/
def leastBy (f : Nat → Nat) : List Nat → Option Nat
  | [] => none
  | x :: r =>
    match leastBy f r with
    | none => some x
    | some y => if f x ≤ f y then some x else some y

/-- The group that a port selects: that of the unit whose instruction it holds; else the first, in round-robin order, of the highest class that
has a ready unit. DESIGN CHOICE (log 74): the round robin has one position for each port, not one for each class, and begins with slot 0. -/
def State.pickGroup (s : State) (core port : Nat) : Option Nat :=
  match s.heldUnit (8 * core + port) with
  | some (k, i, _) => if s.unitReady k i then some k else none
  | none =>
    let last := ((AMap.get? s.lastGroup (8 * core + port)).getD 63) % 64
    let ks := (s.groups.map Prod.fst).filter fun k => k / 64 = 8 * core + port && !(s.readyUnits k).isEmpty
    leastBy (fun k => 64 * (((s.group k).map fun g => s.classOf g).getD 3) + (k % 64 + 63 - last) % 64) ks

/-- The unit within the group: the one whose instruction the port holds, else the next in round-robin order of split entry number. -/
def State.pickUnit (s : State) (grp : Nat) : Option Nat :=
  match s.heldUnit (grp / 64) with
  | some (_, i, _) => some i
  | none =>
    let last := ((s.group grp).map (·.lastEntry)).getD 0
    leastBy (fun i => (i + 63 - last) % 64) (s.readyUnits grp)

/-- A unit misses only condition 7 of R51. -/
def State.missesBlock (s : State) (grp : Nat) (g : Group) (q : Nat × Entry) : Bool :=
  s.ctxRuns g.ctx && s.launchRuns g.launch && s.blockRuns g && q.2.trap.isEmpty && s.waitOver grp g q.2 && q.2.wait &&& ~~~g.flags == 0 &&
    (s.l0Block grp g q.2).isNone

/-- No unit of a group that has not exited is ready in this clock: none stands in the issue slot, and each waits for something, be it only
when its instruction is selected; a unit whose instruction its port holds is ready. -/
def State.stalled (s : State) (grp : Nat) (g : Group) : Bool :=
  !g.entries.isEmpty && !(s.sel.elim false fun u => u.grp = grp) && !((s.heldUnit (grp / 64)).elim false fun h => h.1 = grp) &&
    g.entries.all fun q => !s.meets grp q.1 || s.declined.contains (grp, q.1)

/-- How much a clock adds to a counter of a group (Table 12.6): stalls, and what its units wait for. -/
def State.clockAdds (s : State) (grp : Nat) (g : Group) (n : Nat) : Nat :=
  match n with
  | 2 => if s.stalled grp g && g.entries.any (s.missesBlock grp g) then 1 else 0
  | 3 => if s.stalled grp g && !g.entries.any (s.missesBlock grp g) then 1 else 0
  | 9 => (s.tokenReqs.filter fun r => r.1 = grp).length
  | 10 => (g.entries.filter fun q => match q.2.st with
      | .atClaim id => (AMap.get? s.accesses id).elim false fun a => !a.need.isEmpty
      | _ => false).length
  | _ => 0

/-- The counters that rise by clocks. -/
def clockCounters : List Nat := [2, 3, 9, 10]

/-- A unit whose wait is over acquires what it waited for: a fence what it has still to acquire, a barrier's phase at the barrier's scope, any
other wait at `.dev` (R126, R133, R135). -/
def State.acquireOver (s : State) (grp : Nat) (m : Word) (st : EStat) : State :=
  match st with
  | .run | .atFence _ _ _ none _ => s
  | .atFence _ _ _ (some sc) _ => s.acquireAt grp m sc
  | .atBarrier b _ => s.acquireAt grp m ((((s.group grp).bind s.blockOf).bind (·.bar b)).elim .dev Barrier.acquires)
  | _ => s.acquireAt grp m .dev

/-- ISSUE_SELECT: a free port selects the ready unit that R52 names; its wait is over, it fetches its instruction from L0, and it stands in
the issue slot. -/
def execIssueSelect (core port : Nat) (s : State) : Host.Outcome State Fault Refusal :=
  if s.sel.isSome then .next s
  else
    match s.pickGroup core port with
    | none => .next s
    | some k =>
      match s.pickUnit k, s.group k with
      | some i, some g =>
        match g.entry i with
        | some e => .next { ((s.acquireOver k e.mask e.st).noteModule g e.mod).setGroup k (g.setEntry i { e with st := .run }) with
            sel := some { grp := k, entry := i, pc := e.pc, npc := e.pc } }
        | none => .next s
      | _, _ => .next s

/-- PRIORITY_PROMOTION: a group with a ready unit that has issued nothing for 4,096 counted clocks moves to class 0. -/
def execPriorityPromotion (core slot : Nat) (s : State) : Host.Outcome State Fault Refusal :=
  let k := 512 * core + slot
  match s.group k with
  | none => .next s
  | some g =>
    if !(s.readyUnits k).isEmpty && 4096 ≤ g.waited s.clk.toNat then .next (s.setGroup k { g with promoted := true }) else .next s

/-! ## Power tokens (R158) -/

/-- Tokens held: by granted units and by array commands. -/
def State.tokensHeld (s : State) : Nat := s.tokens.length + s.arrays.foldl (fun n q => n + q.2.length) 0

/-- TOKEN_GRANT: the first request is granted while fewer tokens are held than the pool has. -/
def execTokenGrant (s : State) : Host.Outcome State Fault Refusal :=
  match s.tokenReqs with
  | [] => .next s
  | r :: rest =>
    if s.tokensHeld < tokenPool s.pcur then
      .next { s with tokenReqs := rest, tokens := s.tokens ++ [r] }
    else .next s

/-- A unit whose next instruction is a matrix instruction requests a token and leaves the slot. -/
def State.requestToken (s : State) (c : Cur) : State :=
  { s.decline c with
    tokenReqs := if s.tokenReqs.contains (c.u.grp, c.u.entry) then s.tokenReqs else s.tokenReqs ++ [(c.u.grp, c.u.entry)] }

/-! ## Entering a clause (R210) -/

/-- The selected unit enters the clause of a header: the counted flags are the header's, its wait mask joins those entered before, and the
unit leaves the slot. -/
def State.enterClause (s : State) (c : Cur) (h : Header) : State :=
  let w := if c.e.resumed then 0 else c.e.wait
  let e' := { c.e with clause := ⟨h.seta, h.setb⟩, wait := w ||| h.wait, target := false, resumed := false, pc := c.u.pc + 8 }
  { s.setGroup c.u.grp (c.g.setEntry c.u.entry e') with sel := none }

/-- The selected unit goes on at the next fetch block (R206): the tail is never executed. -/
def State.skipTail (s : State) (c : Cur) : State :=
  { s.setGroup c.u.grp (c.g.setEntry c.u.entry { c.e with pc := blockBase c.u.pc + 32, resumed := false }) with sel := none }

/-- MASK and MNEG of the word at an address of a block, for the report of a word that is no instruction. -/
def predAt (b : BitVec 256) (p : Nat) : Pred :=
  let w := b >>> (8 * p)
  if w.extractLsb' 0 2 = 3#2 then ⟨false, 0⟩ else ⟨w.getLsbD 14, w.extractLsb' 10 4⟩

/-- The selected unit's word is no instruction, by condition n of R226. -/
def State.badWord (s : State) (c : Cur) (b : BitVec 256) (n : Nat) : State := c.illegalEncoding s (predAt b (c.u.pc.toNat % 32)) n

/-- Control was transferred to an address that holds no clause header (condition 9). -/
def State.badTarget (s : State) (c : Cur) : State :=
  c.trap s { c.trapRec ⟨false, 0⟩ 0x01 9 with addr := c.u.pc }

end Sys2Proof.Machine
end

