-- ==== Sys2Proof/Machine/Place.lean ====
section
/-! DEFINITION. Placing one instruction where the next step runs it (log 13, log 14): a launch of one block of one group is made resident
on core 0, its unit stands in the issue slot at the first instruction of a clause, and L0 holds the fetch block with the word. -/

namespace Sys2Proof.Machine

/-- Descriptor of a tile launch of one group with every resource: 256 lane registers, 1 KiB of spill stack, 32 tiles, one barrier, all of
the B-plane depth, 1 KiB of shared memory, no trap handler, extent 32. -/
def placeDesc : BitVec 2048 :=
  BitVec.ofNat 2048 (0x01 * 2 ^ 16 + 31 * 2 ^ 24 + 32 * 2 ^ 40 + 1 * 2 ^ 48 + 32 * 2 ^ 56 + 1 * 2 ^ 64 +
    0xFFFFFFFF * 2 ^ 128 + 31 * 2 ^ 192 + 5 * 2 ^ 288)

/-- The address at which the placed instruction stands: after a clause header at offset 0 of its fetch block. -/
def placePc : Dword := 0x8#64

/-- The launch, block, group, tiles, module and translation of the placed instruction. -/
def State.placeWord (s : State) (w : Nat) : State :=
  let id := s.nextId
  let e : Entry := { pc := placePc, mask := 0xFFFFFFFF#32, mod := 0 }
  let g : Group :=
    { launch := id, block := id + 1, ctx := 0, g := 0, nregs := 256, flags := 0x7FF#12, entries := [(0, e)], spBase := 0
      spSize := 1024, live := 0xFFFFFFFF#32, work := .tile 0 }
  let l : Launch :=
    { queue := 0, ctx := 0, pkt := 0, desc := placeDesc, stage := .placed, stamp := s.clk.toNat, nblk := 1, handed := [0], work := 1 }
  let b : Block :=
    { launch := id, num := 0, core := 0, span := 1, shBase := [0], bpBase := [0], tiles := [List.range 32], bars := [{ na := 1 }]
      barNums := [0] }
  let page : PageMap := { va := 0, size := 2 ^ 16, phys := 0, hp := false, r := true, w := true, x := true, isReg := false }
  let block : BitVec 256 := BitVec.ofNat 256 (3 + (w % 2 ^ 128) * 2 ^ 64)
  { (s.setReg (regCtx 0 0x10) 0x80000000#32).setCtxStat 0 1 with
    groups := AMap.set s.groups 0 g
    blocks := AMap.set s.blocks (id + 1) b
    launches := AMap.set s.launches id l
    tiles := (List.range 32).map fun n => (n, {})
    modules := { ctx := 0, id := 0, seg := 0, len := 2 ^ 16, hash := 0, secver := 0 } :: s.modules
    tlb := { ctx := 0, page := page } :: s.tlb
    mem := Memory.write s.mem 0 (bytesOf 32 block)
    l0 := AMap.set s.l0 (cacheKey 0 0) block
    sel := some { grp := 0, entry := 0, pc := placePc, npc := placePc }
    nextId := id + 2 }

end Sys2Proof.Machine
end

