-- ==== Sys2Proof/Machine/Access.lean ====
section
/-! DEFINITION. What every access to scratchpad is checked for (20/R355 to R358, 09/R185 to R189, 20/R369, R370, 21/R384, R385), and the
issue of accesses in flight (06/R121 to R129). -/

namespace Sys2Proof.Machine

/-! ## The bytes that an instruction touches -/

/-- Bytes of scratchpad that a thread, or a copy or spawn, reads or writes. -/
structure Touch where
  thr : Nat
  addr : Nat
  len : Nat
  write : Bool
deriving DecidableEq, Repr

/-- Launches placed now. -/
def State.placed (s : State) : List Launch := (s.launches.filter fun q => q.2.stage = .placed).map Prod.snd

/-- A page whose entry is valid and claim-tracked. -/
def State.claimPage (s : State) (addr : Nat) : Bool := patValid (s.attr addr) && patClaim (s.attr addr)

/-- A page whose entry is valid and SC. -/
def State.scPage (s : State) (addr : Nat) : Bool := patValid (s.attr addr) && patSC (s.attr addr)

/-- Accesses to a page are performed at its home, without forwarding (R108, R129). -/
def State.homePage (s : State) (addr : Nat) : Bool := s.claimPage addr || s.scPage addr

/-- Some placed launch with a claim table has an owner array over a byte of a range (R384). -/
def State.inOwnerArray (s : State) (addr len : Nat) : Bool :=
  s.placed.any fun l => l.hasClaims && (List.range 16).any fun r =>
    let e := l.range r
    e.size != 0 && overlap addr len e.owner (16 * (e.size / 2 ^ e.log2ss))

/-- The pieces of a range by 64 KiB page. -/
def pagePieces (addr len : Nat) : List (Nat × Nat) :=
  (List.range ((addr % 2 ^ 16 + len + 2 ^ 16 - 1) / 2 ^ 16)).map fun i =>
    let lo := if i = 0 then addr else (addr / 2 ^ 16 + i) * 2 ^ 16
    (lo, min (addr + len) ((addr / 2 ^ 16 + i + 1) * 2 ^ 16) - lo)

/-- The sets that a range touches (R186), in ascending order of address within each range entry. -/
def Launch.setsIn (l : Launch) (addr len : Nat) : List Nat :=
  (List.range 16).flatMap fun r =>
    let e := l.range r
    let lo := max addr e.base
    let hi := min (addr + len) (e.base + e.size)
    if lo < hi then
      let i := (lo - e.base) / 2 ^ e.log2ss
      let j := (hi - 1 - e.base) / 2 ^ e.log2ss
      (List.range (j - i + 1)).map fun k => r * 2 ^ 28 + i + k
    else []

/-- The lowest byte of a set. -/
def Launch.setBase (l : Launch) (set : Nat) : Nat :=
  let e := l.range (set / 2 ^ 28)
  e.base + set % 2 ^ 28 * 2 ^ e.log2ss

/-- Uses that are illegal at issue for threads and copies alike: a write into the task's claim area (R185); a sealed task that touches a
set it does not hold (R194). -/
def State.touchIllegal (s : State) (g : Group) (t : Touch) : Bool :=
  match s.claimFrame g with
  | none => false
  | some (l, f) =>
    (t.write && overlap t.addr t.len f 2176) ||
      (s.sealed f && (l.setsIn t.addr t.len).any fun x => !(s.heldSets f).contains x)

/-- Claim-tracked bytes of one page piece that may not be touched (R293, R294, R373). -/
def State.pieceIllegal (s : State) (g : Group) (addr len : Nat) : Bool :=
  s.claimPage addr &&
    (match s.launch g.launch with
      | none => false
      | some l =>
        if l.hasClaims then
          (match s.claimFrame g with
            | none => true
            | some _ => (l.setOf addr).isNone || (l.setOf (addr + len - 1)).isNone)
        else s.placed.any fun x => x.hasClaims && x.claimsPage (addr / 2 ^ 16))

/-- SUB of the memory fault of a page piece (Table 21.1): 1 not valid, 2 not permitted, 3 written though RO or an owner array. -/
def State.pageFault (s : State) (ctx addr len : Nat) (write : Bool) : Option Nat :=
  let e := s.attr addr
  if !patValid e then some 1
  else if !patPermits e ctx then some 2
  else if write && (patRO e || s.inOwnerArray addr len) then some 3
  else none

/-- Sets requested and not yet held by a group's task. -/
def State.requested (s : State) (grp : Nat) : List Nat :=
  (((s.accesses.filter fun q => q.2.grp = grp).flatMap fun q => q.2.need) ++
    ((s.copies.filter fun q => q.2.grp = grp).flatMap fun q => q.2.need)).eraseDups

/-- The word addresses in claim sets that the writes among some touches need entries for (R370): neither logged nor allotted; ascending,
with the threads that write each. -/
def State.newWords (s : State) (g : Group) (l : Launch) (f : Nat) (ts : List Touch) : List (Nat × Nat) :=
  let logged := (s.undoLog f).map Prod.fst
  ((ts.filter (·.write)).flatMap fun t =>
    ((List.range ((t.addr % 4 + t.len + 3) / 4)).map fun i => (t.addr / 4 * 4 + 4 * i, t.thr)).filter fun w =>
      (l.setOf w.1).isSome && !logged.contains w.1 && !g.allotted.contains w.1)

/-- What the claims of a launch say to an instruction. -/
inductive ClaimVerdict
  /-- no set is touched -/
  | none
  /-- the sets to acquire and the words allotted -/
  | ok (need : List Nat) (words : List Nat)
  /-- claim-table overflow: lowest byte of the first new set -/
  | tableOverflow (addr : Nat)
  /-- undo-log overflow: the first word, and the threads that need entries -/
  | undoOverflow (addr : Nat) (thr : Word)
deriving DecidableEq, Repr

/-- The checks of R369 and R370. -/
def State.claimVerdict (s : State) (grp : Nat) (g : Group) (ts : List Touch) : ClaimVerdict :=
  match s.claimFrame g with
  | Option.none => .none
  | some (l, f) =>
    let sets := (ts.flatMap fun t => l.setsIn t.addr t.len).eraseDups
    if sets.isEmpty then .none
    else
      let held := s.heldSets f
      let asked := s.requested grp
      let fresh := sets.filter fun x => !held.contains x && !asked.contains x
      if 16 < held.length + (asked.filter fun x => !held.contains x).length + fresh.length then
        .tableOverflow (fresh.foldl (fun a x => min a (l.setBase x)) (fresh.headD 0 |> l.setBase))
      else
        let ws := s.newWords g l f ts
        let words := (ws.map Prod.fst).eraseDups
        if 256 < s.nlog f + g.allotted.length + words.length then
          .undoOverflow (words.foldl min (words.headD 0)) (ws.foldl (fun m w => m ||| bit32 w.2) 0)
        else .ok (sets.filter fun x => !held.contains x) words

/-! ## Order among accesses -/

/-- A unit's threads take part in an access. -/
def Access.byThreads (a : Access) (m : Word) : Bool := a.unit &&& m != 0

/-- The accesses in flight of some threads of a group. -/
def State.unitAccesses (s : State) (grp : Nat) (m : Word) : List Nat :=
  (s.accesses.filter fun q => q.2.grp = grp && q.2.byThreads m).map Prod.fst

/-- The accesses of some threads that carry acquire and are not yet performed: later accesses come after them (R126). -/
def State.acquires (s : State) (grp : Nat) (m : Word) : List Nat :=
  (s.accesses.filter fun q => q.2.grp = grp && q.2.byThreads m && q.2.acq).map Prod.fst

/-- What must be complete before a release of some threads: their accesses, and what they may have observed (R126). -/
def State.releaseWaits (s : State) (grp : Nat) (m : Word) : List Nat := s.unitAccesses grp m ++ s.observable grp

/-- Every agent of a scope of a group is on its core, or acts for the group (Table 6.1): there a store is visible to the scope once it is
visible on the core (R122). -/
def State.nearScope (s : State) (g : Group) (sc : Scope) : Bool :=
  match sc with
  | .grp => true
  | .blk => (s.blockOf g).elim false fun b => b.span = 1
  | _ => false

/-- A release of some threads at a scope may be performed now. -/
def State.released (s : State) (grp : Nat) (m : Word) (near : Bool) : Bool := (s.releaseWaits grp m).all (s.over near)

/-- Some threads have an access to an SC page in flight: they issue no other yet (R129). -/
def State.scBusy (s : State) (grp : Nat) (m : Word) : Bool := s.accesses.any fun q => q.2.grp = grp && q.2.byThreads m && q.2.sc

/-- What a new access must wait for. -/
def State.orderBefore (s : State) (grp : Nat) (m : Word) (rel : Bool) : List Nat :=
  s.acquires grp m ++ (if rel then s.releaseWaits grp m else [])

/-- Issuing an access: it is in flight under a new number, and its unit waits while it acquires sets (R188). -/
def State.issueAccess (s : State) (c : Cur) (a : Access) (words : List Nat) : State :=
  let id := s.nextId
  let s1 := { s with accesses := AMap.set s.accesses id a, nextId := id + 1 }
  let s2 := s1.updGroup c.u.grp fun g =>
    let g1 := { g with allotted := g.allotted ++ words }
    if a.counted then g1.countUp 8 else g1
  let s3 := s2.retire c
  if a.need.isEmpty then s3 else s3.updGroup c.u.grp fun g => g.updEntry c.u.entry fun e => { e with st := .atClaim id }

/-! ## Traps of accesses -/

/-- A trap whose condition arose in some threads, with the address of the lowest of them (R358). -/
def Cur.trapThreads (c : Cur) (s : State) (p : Pred) (cause sub : Nat) (bad : List (Nat × Int)) : State :=
  c.trap s { c.trapRec p cause sub with
    thr := bad.foldl (fun m q => m ||| bit32 q.1) 0
    addr := BitVec.ofInt 64 ((bad.map Prod.snd).headD 0) }

/-- The active threads of an instruction with their addresses, ascending (R270). -/
def Cur.addrs (c : Cur) (p : Pred) (a : Reg) (off : OffB) : List (Nat × Int) :=
  (threads (c.act p)).map fun t => (t, c.addr t a off)

/-- An access of n bytes at an address is aligned and within a space of some size (R270). -/
def inSpace (top n : Nat) (x : Int) : Bool := decide (0 ≤ x) && x.toNat % n = 0 && decide (x.toNat + n ≤ top)

/-- The scratchpad's size as programs see it. -/
def scrTop : Nat := 0x1E000000

/-- A scratchpad access of active threads, checked in the order of R355, then carried out with the sets to acquire and the words
allotted. A helper thread that writes is checked for range and alignment only (R357). -/
def Cur.checkScr (c : Cur) (s : State) (p : Pred) (l : List (Nat × Int)) (n : Nat) (write logs : Bool)
    (k : List Nat → List Nat → State) : State :=
  let skip := fun (t : Nat) => write && c.g.helper.getLsbD t
  let ts : List Touch := (l.filter fun q => inSpace scrTop n q.2 && !skip q.1).map fun q => ⟨q.1, q.2.toNat, n, logs⟩
  let illegal := l.filter fun q => !inSpace scrTop n q.2 || (!skip q.1 &&
    ((n = 16 && s.scPage q.2.toNat) || s.touchIllegal c.g ⟨q.1, q.2.toNat, n, logs⟩ || s.pieceIllegal c.g q.2.toNat n))
  if !illegal.isEmpty then c.trapThreads s p 2 0 illegal
  else
    let fault := fun (_ : Unit) => (l.filter fun q => !skip q.1).filterMap fun q =>
      (s.pageFault c.g.ctx q.2.toNat n write).map fun sub => (q.1, q.2, sub)
    match s.claimVerdict c.u.grp c.g ts with
    | .tableOverflow a => c.trap s { c.trapRec p 8 0 with addr := BitVec.ofNat 64 a }
    | .undoOverflow a m => c.trap s { c.trapRec p 9 0 with addr := BitVec.ofNat 64 a, thr := m }
    | v =>
      match fault () with
      | [] => match v with
        | .ok need words => k need words
        | _ => k [] []
      | (t, a, sub) :: r => c.trapThreads s p 3 sub ((t, a) :: r.map fun q => (q.1, q.2.1))

end Sys2Proof.Machine
end

