-- ==== Sys2Proof/Machine/Coverage.lean ====
section
/-! DEFINITION. Coverage launches (08_coverage_launches.md): the infill unit (R172, R174), the controller at its update instants (R176,
R177), f10 (R175), and their refusals (21/R386). -/

namespace Sys2Proof.Machine

/-- The type of TYPE (Table 8.2). -/
def covTy : Nat → Ty
  | 0 => .f64 | 1 => .f32 | 2 => .f16 | 3 => .bf16 | 4 => .i32 | _ => .n32

/-- The value of an element. -/
def covVal (ty : Ty) (x : Nat) : FVal :=
  match ty with
  | .i32 => ofInt (BitVec.ofNat 32 x).toInt 0
  | .n32 => ofInt x 0
  | _ => decodeF (fmtOf ty) x

/-- The integer nearest to n / d, ties to even. -/
def nearestInt (n : Int) (d : Nat) : Int :=
  let q := n / d
  let r := (n % d).toNat
  if 2 * r < d || (2 * r = d && q % 2 = 0) then q else q + 1

/-- An integer value of a finite number of exponent 0. -/
def FVal.asInt (x : FVal) : Int := x.scaled 0

/-- An element of a linear or bilinear stencil (R172): values with weights over a denominator. -/
def weighted (ty : Ty) (l : List (Nat × Nat)) (den : Nat) : Nat :=
  let vs := l.map fun q => (covVal ty q.1, q.2)
  if ty = .i32 || ty = .n32 then wrapNat 32 (nearestInt (vs.foldl (fun n q => n + q.1.asInt * q.2) 0) den)
  else roundTo (fmtOf ty) .rne false (fDiv (fSum .rne (vs.map fun q => fMul (ofInt q.2 0) q.1)) (ofInt den 0))

/-- The record of a point as it stood when its tile completed (R179); as it stands, where its tile is complete without having been handed
out (R350). -/
def State.recBytes (s : State) (l : Launch) (p : Point) : List Byte :=
  (AMap.get? l.recs (l.pindex p)).getD (s.scrRead (l.recAddr p) l.recSize)

/-- Element i of the record of a point. -/
def State.recElem (s : State) (l : Launch) (p : Point) (i : Nat) : Nat :=
  let z := (covTy l.covType).size
  leNat (((s.recBytes l p).drop (z * i)).take z)

/-- Element i of the record that R172 gives for a point. -/
def State.infillElem (s : State) (l : Launch) (p : Point) (i : Nat) : Nat :=
  let st := l.stencil p
  if l.covKern = 0 then (st.1.map fun q => s.recElem l q.1 i).headD 0
  else weighted (covTy l.covType) (st.1.map fun q => (s.recElem l q.1 i, q.2)) st.2

/-- The record that R172 gives for a point: under the nearest kernel the stencil point's whole record. -/
def State.infillRecord (s : State) (l : Launch) (p : Point) : List Byte :=
  let z := (covTy l.covType).size
  if l.covKern = 0 then ((l.stencil p).1.map fun q => s.recBytes l q.1).headD []
  else (List.range (l.recSize / z)).flatMap fun i => leBytes z (s.infillElem l p i)

/-- Some record of a list of points is poisoned. -/
def State.recsPoisoned (s : State) (l : Launch) (ps : List Point) : Bool :=
  ps.any fun p => s.poisoned (s.scrCell (l.recAddr p)) l.recSize

/-- INFILL of STATUS. -/
def State.infillRefused (s : State) (i : Nat) : State := s.updLaunch i fun l => { l with status := l.status ||| 4#7 }

/-- A write of the infill unit or the controller, with the launch's rights (R386); data formed from poison leaves poison. The 8-byte units of
a record are each atomic and their order is left open (R170): the model lands them together, in one event (DESIGN CHOICE, log 10). -/
def State.covWrite (s : State) (i : Nat) (l : Launch) (addr : Nat) (bs : List Byte) (bad : Bool) : State :=
  if (s.pageFault l.ctx addr bs.length true).isSome then s.infillRefused i
  else
    let s1 := s.scrWrite addr bs
    if bad then ((List.range bs.length).foldl (fun a j => a.addPoison (s.scrCell (addr + j))) s1).infillRefused i else s1

/-- The coverage fraction of a tile is fixed. -/
def Launch.known (l : Launch) (n : Nat) : Bool := decide (n < l.openTiles)

/-- A point waits to be infilled, and its tile and those of its stencil are complete (R174). -/
def Launch.infillReady (l : Launch) (k : Nat) : Bool :=
  let p := l.ofIndex k
  let ts := l.tileOf p :: l.stencilTiles p
  l.isCov && l.inExtent p && !l.computed p && !l.infilled.contains k && ts.all fun n => l.known n && l.tileDone n

/-- The turntable and the infill unit serve a launch: its context is not stopping or stopped (Table 7.7), and no destroy has stopped it. -/
def State.serves (s : State) (i : Nat) (l : Launch) : Bool := s.ctxStat l.ctx = 1 && s.launchRuns i

/-- INFILL_WRITE: the infill unit writes the record of one skipped point. -/
def execInfillWrite (i k : Nat) (s : State) : Host.Outcome State Fault Refusal :=
  match s.launch i with
  | none => .next s
  | some l =>
    if l.stage != .placed || !s.serves i l || l.f10 || !l.infillReady k then .next s
    else
      let p := l.ofIndex k
      let s1 := s.covWrite i l (l.recAddr p) (s.infillRecord l p) (s.recsPoisoned l ((l.stencil p).1.map Prod.fst))
      .next (s1.updLaunch i fun l => { l with infilled := insertNat k l.infilled })

/-- Error of a sample (R177): 0 for equal bits, 255 beyond the numbers, else the difference in units of the tolerance, at most 255. -/
def sampleError (ty : Ty) (tol : Int) (c v : Nat) : Nat :=
  if c = v then 0
  else
    let a := covVal ty c
    let b := covVal ty v
    if a.isNan || b.isNan || a.isInf.isSome || b.isInf.isSome then 255
    else
      match fSum .rne [a, b.negate] with
      | .fin _ m e => min (if tol ≤ e then m * 2 ^ (e - tol).toNat else m / 2 ^ (tol - e).toNat) 255
      | _ => 0

/-- The points of a tile inside the extent. -/
def Launch.tilePoints (l : Launch) (n : Nat) : List Point := ((List.range 32).map fun t => l.pointOf n t).filter l.inExtent

/-- A sample point's tile and those of its stencil have index below a bound. -/
def Launch.below (l : Launch) (b : Nat) (p : Point) : Bool := (l.tileOf p :: l.stencilTiles p).all fun n => decide (n < b)

/-- The samples counted at instant j (R177). -/
def Launch.samplesAt (l : Launch) (j : Nat) : List Point :=
  ((List.range (j * l.ut)).flatMap l.tilePoints).filter fun p => l.sample p && l.below (j * l.ut) p && !l.below ((j - 1) * l.ut) p

/-- The controller's new q (R177). -/
def Launch.nextQ (l : Launch) (q nsamp ssum : Nat) : Nat :=
  if nsamp = 0 then q
  else
    let m := 16 * ssum / nsamp
    if l.hiThr < m then min (q + l.qUp) l.qMax
    else if m < l.loThr then max (q - l.qDn) l.qMin
    else q

/-- UPDATE_INSTANT: instant j is processed once every tile below j · UT is complete (R176, R177). -/
def execUpdateInstant (i : Nat) (s : State) : Host.Outcome State Fault Refusal :=
  match s.launch i with
  | none => .next s
  | some l =>
    let j := l.instant
    if l.stage != .placed || !s.serves i l || l.ut = 0 || l.tiles ≤ j * l.ut || !((List.range (j * l.ut)).all l.tileDone) then .next s
    else
      let ps := l.samplesAt j
      let errs := ps.map fun p => sampleError (covTy l.covType) l.tolExp (s.recElem l p l.errIdx) (s.infillElem l p l.errIdx)
      let q := l.nextQ (l.qs.headD l.qInit) ps.length (errs.foldl (· + ·) 0)
      let bad := s.recsPoisoned l (ps.flatMap fun p => p :: (l.stencil p).1.map Prod.fst)
      let s1 := s.updLaunch i fun l => { l with qs := q :: l.qs, instant := j + 1 }
      .next (if j < l.histLen then s1.covWrite i l (l.qHist + j) [BitVec.ofNat 8 (q - 1)] bad else if bad then s1.infillRefused i else s1)

/-- COVERAGE_DONE: every tile is complete and every skipped point is written: f10 is set in every group that has not exited (R175). -/
def execCoverageDone (i : Nat) (s : State) : Host.Outcome State Fault Refusal :=
  match s.launch i with
  | none => .next s
  | some l =>
    let allDone := (List.range l.tiles).all fun n => l.known n && l.tileDone n && (l.infillPoints n).all fun p => l.infilled.contains (l.pindex p)
    if l.stage != .placed || !s.serves i l || !l.isCov || l.f10 || !allDone then .next s
    else
      .next { s.updLaunch i fun l => { l with f10 := true } with
        groups := AMap.mapV s.groups fun _ g => if g.launch = i && !g.entries.isEmpty then g.setFlag 10 true else g }

end Sys2Proof.Machine
end

