-- ==== Sys2Proof/Machine/Copy.lean ====
section
/-! DEFINITION. Copies (14/R279 to R285, 21/R379 to R383): their operand words and sides, issue, pre-flight, landing and completion, and
what comes from peers (R283, R284, 17/R336). -/

namespace Sys2Proof.Machine

/-! ## Operand words and sides (Table 14.4, R282) -/

/-- A field of an operand word. -/
def wfield (w : Dword) (lo n : Nat) : Nat := (w.extractLsb' lo n).toNat

/-- Bytes that a copy moves. -/
def CopyKind.len (k : CopyKind) (w : Dword) : Nat :=
  match k with
  | .cpgat _ => (wfield w 32 16 + 1) * 2 ^ wfield w 48 3
  | .cpbp => (wfield w 15 9 + 1) * wfield w 0 15
  | _ => wfield w 0 23

/-- The operand word alone is in order: reserved bits zero, every count in its range. -/
def CopyKind.wordOk (k : CopyKind) (w : Dword) (peerid : Nat) : Bool :=
  match k with
  | .cpin _ | .cpout _ => wfield w 23 41 == 0 && decide (1 ≤ k.len w ∧ k.len w ≤ 2 ^ 22)
  | .cpgat _ =>
    wfield w 51 13 == 0 && wfield w 29 3 == 0 && decide (wfield w 48 3 ≤ 6 ∧ k.len w ≤ 2 ^ 22) && wfield w 0 29 % 4 == 0 &&
      decide (wfield w 0 29 + 4 * (wfield w 32 16 + 1) ≤ scrTop)
  | .cpbp =>
    wfield w 24 8 == 0 && decide (wfield w 15 9 + 1 ≤ 256 ∧ 16 ≤ wfield w 0 15 ∧ wfield w 0 15 ≤ 16384) && wfield w 0 15 % 16 == 0
  | .peerPut | .peerGet =>
    wfield w 30 34 == 0 && wfield w 23 1 == 0 && decide (1 ≤ k.len w ∧ k.len w ≤ 2 ^ 22) && wfield w 24 6 != peerid

/-- Where a side of a copy lies. -/
inductive Place
  | virt | remote | scr | shared | bplane
deriving DecidableEq, Repr

/-- A side of a copy: its place and its runs of bytes, address and length, in the order of R282. -/
structure Side where
  place : Place
  runs : List (Nat × Nat)
deriving DecidableEq, Repr

/-- The inner place of a form. -/
def innerPlace (scr : Bool) : Place := if scr then .scr else .shared

/-- Source and destination of a copy (R282); idx holds the indices of a `cpgat`. -/
def copySides (k : CopyKind) (dst src : Nat) (w : Dword) (idx : List Nat) : Side × Side :=
  let n := k.len w
  match k with
  | .cpin scr => (⟨.virt, [(src, n)]⟩, ⟨innerPlace scr, [(dst, n)]⟩)
  | .cpout scr => (⟨innerPlace scr, [(src, n)]⟩, ⟨.virt, [(dst, n)]⟩)
  | .cpgat scr =>
    let e := 2 ^ wfield w 48 3
    (⟨.virt, idx.map fun x => (src + e * x, e)⟩, ⟨innerPlace scr, [(dst, n)]⟩)
  | .cpbp =>
    let rb := wfield w 0 15
    let pitch := if wfield w 32 32 = 0 then rb else wfield w 32 32
    let slices := List.range (wfield w 15 9 + 1)
    (⟨.virt, slices.map fun s => (src + pitch * s, rb)⟩, ⟨.bplane, slices.map fun s => (dst + 2 ^ 14 * s, rb)⟩)
  | .peerPut => (⟨.virt, [(src, n)]⟩, ⟨.remote, [(dst, n)]⟩)
  | .peerGet => (⟨.remote, [(src, n)]⟩, ⟨.virt, [(dst, n)]⟩)

/-- The index list of a `cpgat`: address and length. -/
def CopyKind.indexList (k : CopyKind) (w : Dword) : Option (Nat × Nat) :=
  match k with
  | .cpgat _ => some (wfield w 0 29, 4 * (wfield w 32 16 + 1))
  | _ => none

/-- An inner range of a copy lies in its space (R270, R282). -/
def State.innerOk (s : State) (g : Group) (p : Place) (addr : Nat) (w : Dword) (n : Nat) : Bool :=
  match p with
  | .shared => decide (addr + n ≤ (match s.launch g.launch, s.blockOf g with
      | some l, some b => b.span * l.shmem
      | _, _ => 0))
  | .scr => decide (addr + n ≤ scrTop)
  | .bplane =>
    let o := addr % 2 ^ 14
    decide (addr < 2 ^ 22) && o % 16 == 0 && decide (addr / 2 ^ 14 + wfield w 15 9 + 1 ≤ 256) &&
      decide (o + wfield w 0 15 ≤ ((s.launch g.launch).map (·.bpd)).getD 0)
  | _ => true

/-! ## Pages (R113) -/

/-- Putting a page in its place by address, with the lowest byte of the copy on it. -/
def insertPage (p : Nat × Nat) : List (Nat × Nat) → List (Nat × Nat)
  | [] => [p]
  | q :: r =>
    if p.1 < q.1 then p :: q :: r
    else if p.1 = q.1 then (q.1, min p.2 q.2) :: r
    else q :: insertPage p r

/-- The pages of a run: first address of each page, and the run's lowest byte on it; a page that is not mapped counts 64 KiB. -/
def State.runPages (s : State) (ctx : Nat) : Nat → Nat → Nat → List (Nat × Nat)
  | 0, _, _ => []
  | f + 1, a, n =>
    if n = 0 then []
    else
      let va := a % 2 ^ 64
      let pg := match s.translate ctx (BitVec.ofNat 64 va) with
        | .page p => (p.va, p.size)
        | _ => (va / 2 ^ 16 * 2 ^ 16, 2 ^ 16)
      let k := min n (pg.1 + pg.2 - va)
      (pg.1, va) :: s.runPages ctx f (va + k) (n - k)

/-- The pages of a virtual side, ascending. -/
def State.virtPages (s : State) (ctx : Nat) (runs : List (Nat × Nat)) : List (Nat × Nat) :=
  (runs.flatMap fun r => s.runPages ctx (r.2 / 2 ^ 16 + 2) r.1 r.2).foldl (fun l p => insertPage p l) []

/-- Pages of a local side; those of a remote side are counted on the peer (R283). -/
def State.sidePages (s : State) (ctx : Nat) (d : Side) : Nat :=
  match d.place with
  | .virt => (s.virtPages ctx d.runs).length
  | .scr => (d.runs.map fun r => (pagePieces r.1 r.2).length).sum
  | _ => 0

/-! ## Issue -/

/-- The barrier fields of IMM32 are in order (R280, R283). -/
def CopyKind.optOk (k : CopyKind) (opt : Word) (bars : Nat) : Bool :=
  let bv := opt.getLsbD 6
  let rem := opt.getLsbD 7
  let rblk := (opt.extractLsb' 8 8).toNat
  (if rem then k == .peerPut && bv else rblk == 0) && (!bv || rem || decide ((opt.extractLsb' 0 6).toNat < bars))

/-- A copy may issue as far as its operand words and limits go (Table 14.8). -/
def State.copyLegal (s : State) (g : Group) (k : CopyKind) (dst src w : Dword) (opt : Word) : Bool :=
  let sides := copySides k dst.toNat src.toNat w []
  let inner := match k with
    | .cpin scr | .cpgat scr => s.innerOk g (innerPlace scr) dst.toNat w (k.len w)
    | .cpout scr => s.innerOk g (innerPlace scr) src.toNat w (k.len w)
    | .cpbp => s.innerOk g .bplane dst.toNat w (k.len w)
    | _ => true
  k.wordOk w ((s.reg regPeerId).extractLsb' 0 6).toNat && inner && k.optOk opt (((s.blockOf g).map (·.bars.length)).getD 0) &&
    decide (s.sidePages g.ctx sides.1 ≤ 64 ∧ s.sidePages g.ctx sides.2 ≤ 64) &&
    (match k.indexList w with
      | some (a, n) => decide ((pagePieces a n).length ≤ 64)
      | none => true)

/-- The scratchpad bytes that a copy reads and writes (Table 14.7). -/
def copyTouches (k : CopyKind) (dst src : Nat) (w : Dword) : List Touch :=
  let n := k.len w
  let ix := match k.indexList w with
    | some (a, m) => [⟨0, a, m, false⟩]
    | none => []
  match k with
  | .cpin true | .cpgat true => ix ++ [⟨0, dst, n, true⟩]
  | .cpout true => [⟨0, src, n, false⟩]
  | _ => ix

/-- The lowest byte of the first page on which claim-tracked bytes may not be touched (R293, R294, R373). -/
def State.copyIllegalAt (s : State) (g : Group) (ts : List Touch) : Option Nat :=
  (ts.flatMap fun t => pagePieces t.addr t.len).findSome? fun q => if s.pieceIllegal g q.1 q.2 then some q.1 else none

/-- The copy that the selected unit issues. -/
def Cur.copy (c : Cur) (s : State) (p : Pred) (k : CopyKind) (o : Ord) (sc : Scope) (f : Reg) (dst src w : Dword) (opt : Word) : Copy :=
  { num := s.nextId, kind := k, grp := c.u.grp, ctx := c.g.ctx, block := c.g.block, core := coreOf c.u.grp, unit := c.e.mask, act := c.act p
    pc := c.u.pc, dst := dst, src := src, word := w, ord := o, scope := sc, token := f.toNat
    bar := if opt.getLsbD 6 then some (opt.extractLsb' 0 6).toNat else none
    after := (s.groupAccesses c.u.grp).map Prod.fst, age := c.g.age
    rem := if opt.getLsbD 7 then some (opt.extractLsb' 8 8) else none }

/-- Issue of a copy (R281 step 1): the token is counted, the claims are checked and the words allotted; a unit of helpers moves nothing
(R285). -/
def execCopy (i : Instr) (p : Pred) (k : CopyKind) (o : Ord) (sc : Scope) (f a b w : Reg) (opt : Option Word) (s : State) :
    Host.Outcome State Fault Refusal :=
  s.issueI i p fun c =>
    let dst := c.g.kget a.toNat
    let src := c.g.kget b.toNat
    let word := c.g.kget w.toNat
    let ts := copyTouches k dst.toNat src.toNat word
    if !c.any p then s.retire c
    else if !s.copyLegal c.g k dst src word (opt.getD 0) then c.illegalUse s p f.toNat
    else if c.helpersOnly p then s.finish c ((c.g.countUp f.toNat).countDown f.toNat)
    else
      match ts.find? (s.touchIllegal c.g) with
      | some t => c.trap s { c.trapRec p 2 0 with addr := BitVec.ofNat 64 t.addr }
      | none =>
        let cp := c.copy s p k o sc f dst src word (opt.getD 0)
        let go := fun (cp : Copy) (words : List Nat) =>
          if s.holdStands (coreOf c.u.grp) .copies then s.hold c .copies
          else
            let g := c.g.countUp f.toNat
            { s with copies := AMap.set s.copies s.nextId cp, nextId := s.nextId + 1 }.finish c { g with allotted := g.allotted ++ words }
        match s.copyIllegalAt c.g ts with
        | some addr => go { cp with illegal := some addr } []
        | none =>
          match s.claimVerdict c.u.grp c.g ts with
          | .tableOverflow addr => c.trap s { c.trapRec p 8 0 with addr := BitVec.ofNat 64 addr }
          | .undoOverflow addr _ => c.trap s { c.trapRec p 9 0 with addr := BitVec.ofNat 64 addr }
          | .ok need words => go { cp with need := need, words := words, logs := true } words
          | .none => go cp []

/-- `cpin`. -/
def execCpin (p : Pred) (scr : Bool) (o : Ord) (sc : Scope) (f a b c : Reg) (opt : Option Word) (s : State) :
    Host.Outcome State Fault Refusal := execCopy (.cpin p scr o sc f a b c opt) p (.cpin scr) o sc f a b c opt s

/-- `cpout`. -/
def execCpout (p : Pred) (scr : Bool) (o : Ord) (sc : Scope) (f a b c : Reg) (opt : Option Word) (s : State) :
    Host.Outcome State Fault Refusal := execCopy (.cpout p scr o sc f a b c opt) p (.cpout scr) o sc f a b c opt s

/-- `cpgat`. -/
def execCpgat (p : Pred) (scr : Bool) (o : Ord) (sc : Scope) (f a b c : Reg) (opt : Option Word) (s : State) :
    Host.Outcome State Fault Refusal := execCopy (.cpgat p scr o sc f a b c opt) p (.cpgat scr) o sc f a b c opt s

/-- `cpbp`. -/
def execCpbp (p : Pred) (o : Ord) (sc : Scope) (f a b c : Reg) (opt : Option Word) (s : State) : Host.Outcome State Fault Refusal :=
  execCopy (.cpbp p o sc f a b c opt) p .cpbp o sc f a b c opt s

/-- `cppeer`. -/
def execCppeer (p : Pred) (get : Bool) (o : Ord) (sc : Scope) (f a b c : Reg) (opt : Option Word) (s : State) :
    Host.Outcome State Fault Refusal :=
  execCopy (.cppeer p get o sc f a b c opt) p (if get then .peerGet else .peerPut) o sc f a b c opt s

/-! ## Pre-flight (R379 to R381) -/

/-- What pre-flight finds. -/
inductive PreResult
  | pass
  /-- a readiness bit is clear (R20) -/
  | wait (addr : Nat)
  /-- not present -/
  | absent (addr : Nat)
  /-- a trap after retirement -/
  | fail (cause sub addr : Nat)
  | poison (addr : Nat)
deriving DecidableEq, Repr

/-- The first result that is not a pass. -/
def firstBad : List PreResult → PreResult
  | [] => .pass
  | .pass :: r => firstBad r
  | x :: _ => x

/-- One page of main or host memory (Table 21.1), then the readiness of the memory behind it. -/
def State.preVirt (s : State) (ctx : Nat) (write : Bool) (q : Nat × Nat) : PreResult :=
  match s.translate ctx (BitVec.ofNat 64 q.2) with
  | .nonCanonical => .fail 3 5 q.2
  | .absent => .absent q.2
  | .poisoned => .poison q.2
  | .page p =>
    if !(if write then p.w else p.r) then .fail 3 4 q.2
    else
      match memReadyBit (p.phys + (q.2 - p.va)) with
      | some b => if s.ready b then .pass else .wait q.2
      | none => .pass

/-- SUB of the memory fault of a page that a copy touches (Table 21.1): as for a thread's access, but that a destination page fails where it
holds any byte of an owner array. -/
def State.copyFault (s : State) (ctx addr : Nat) (write : Bool) : Option Nat := s.pageFault ctx (addr / 2 ^ 16 * 2 ^ 16) (2 ^ 16) write

/-- One page piece of scratchpad. -/
def State.preScr (s : State) (ctx : Nat) (write : Bool) (q : Nat × Nat) : PreResult :=
  match s.copyFault ctx q.1 write with
  | some sub => .fail 3 sub q.1
  | none => .pass

/-- A local side. -/
def State.preSide (s : State) (ctx : Nat) (write : Bool) (d : Side) : PreResult :=
  match d.place with
  | .virt => firstBad ((s.virtPages ctx d.runs).map (s.preVirt ctx write))
  | .scr => firstBad ((d.runs.flatMap fun r => pagePieces r.1 r.2).map (s.preScr ctx write))
  | _ => .pass

/-- The remote side: the peer port's readiness, then the peer's answer; an address that is not canonical is not present there (R283). -/
def State.preRemote (s : State) (peer : Nat) (remote : RemoteCheck) (d : Side) : PreResult :=
  match d.place with
  | .remote =>
    let first := (d.runs.map Prod.fst).headD 0
    if !s.ready (52 + Config.peerPort peer % 12) then .wait first
    else
      match (s.virtPages 32 d.runs).find? fun q => !canonical (BitVec.ofNat 64 q.2) with
      | some q => .fail 3 5 q.2
      | none =>
        match remote with
        | .pass => .pass
        | .notPresent a => .fail 3 5 a.toNat
        | .denied a => .fail 3 4 a.toNat
        | .tooMany => .fail 2 0 first
  | _ => .pass

/-- A copy's engine reads poison in a run of cells, with the stores that it sees laid over it (R382, R388). -/
def State.copyPoison (s : State) (c : Copy) (cell n : Nat) : Bool := s.poisonedFor (s.seenStores c.num c.grp c.core) cell n

/-- The bytes of a run of cells as the engine acting for a copy reads them: the stores visible on its core, and its group's own before it,
laid over memory (R122, R130). -/
def State.engineBytes (s : State) (num grp core cell n : Nat) : List Byte :=
  overlay cell (s.seenStores num grp core) (Memory.read s.mem cell n)

/-- The index list: its pages as a scratchpad source, then poison. -/
def State.preIndex (s : State) (c : Copy) : PreResult :=
  match c.kind.indexList c.word with
  | none => .pass
  | some (a, n) =>
    firstBad ((pagePieces a n).map (s.preScr c.ctx false) ++
      [match (List.range (n / 4)).find? fun i => s.copyPoison c (s.scrCell (a + 4 * i)) 4 with
        | some i => .poison (a + 4 * i)
        | none => .pass])

/-- The indices of a `cpgat`. -/
def State.indices (s : State) (c : Copy) : List Nat :=
  match c.kind.indexList c.word with
  | some (a, n) => (List.range (n / 4)).map fun i => leNat (s.engineBytes c.num c.grp c.core (s.scrCell (a + 4 * i)) 4)
  | none => []

/-- An illegal use at which pre-flight fails: found at issue; sets of a task that has ended (R293); or a page that a placed launch's claim
table names now (R294). A copy that touches sets and has not begun when its task executes tend: the spec does not say what becomes of it once its
group has fetched another task; in the model its requests are withdrawn at the end of the task, and its pre-flight fails here, before the next
fetchw (R293) and after it (DESIGN CHOICE, log 58). -/
def State.preIllegal (s : State) (c : Copy) : PreResult :=
  match c.illegal with
  | some a => .fail 2 0 a
  | none =>
    match s.group c.grp with
    | some g =>
      if c.logs && (!g.taskOpen || g.age != c.age) then .fail 2 0 c.dst.toNat
      else if c.logs || (s.claimFrame g).isSome then .pass
      else
        match s.copyIllegalAt g (copyTouches c.kind c.dst.toNat c.src.toNat c.word) with
        | some a => .fail 2 0 a
        | none => .pass
    | none => .pass

/-- The sides of a copy as they stand at pre-flight. -/
def State.sidesOf (s : State) (c : Copy) : Side × Side := copySides c.kind c.dst.toNat c.src.toNat c.word (s.indices c)

/-- The checks of R379 in their order; those of the indices come before the pages that the indices name. -/
def State.preflight (s : State) (c : Copy) (remote : RemoteCheck) : PreResult :=
  match firstBad [s.preIllegal c, s.preIndex c] with
  | .pass =>
    let sides := s.sidesOf c
    let peer := wfield c.word 24 6
    if 64 < s.sidePages c.ctx sides.1 then .fail 2 0 ((s.virtPages c.ctx sides.1.runs).map Prod.snd |>.headD 0)
    else
      firstBad [s.preSide c.ctx false sides.1, s.preSide c.ctx true sides.2, s.preRemote peer remote sides.1, s.preRemote peer remote sides.2]
  | r => r

/-- The cell of one byte of a side. -/
def State.sideCell (s : State) (c : Copy) (p : Place) (a : Nat) : Nat :=
  match p with
  | .virt =>
    (match s.translate c.ctx (BitVec.ofNat 64 a) with
      | .page q => q.cell (a % 2 ^ 64)
      | _ => 0)
  | .remote => 0
  | .scr => s.scrCell a
  | .shared =>
    (match AMap.get? s.blocks c.block with
      | some b =>
        (match s.launch b.launch with
          | some l => cellShared (b.core + a / l.shmem) (b.shBase.getD (a / l.shmem) 0 + a % l.shmem)
          | none => 0)
      | none => 0)
  | .bplane =>
    (match AMap.get? s.blocks c.block with
      | some b => cellBplane c.core (a / 2 ^ 14) (b.bpBase.getD (c.core - b.core) 0 + a % 2 ^ 14)
      | none => 0)

/-- The bytes of a side in the order of R282: address and cell. -/
def State.sideBytes (s : State) (c : Copy) (d : Side) : List (Nat × Nat) :=
  d.runs.flatMap fun r => (List.range r.2).map fun i => (r.1 + i, s.sideCell c d.place (r.1 + i))

/-- The moves of a copy whose pre-flight has passed. -/
def State.movesOf (s : State) (c : Copy) : List Move :=
  let sides := s.sidesOf c
  ((s.sideBytes c sides.1).zip (s.sideBytes c sides.2)).map fun q => { src := q.1.2, dst := q.2.2, saddr := q.1.1, daddr := q.2.1 }

/-- The translations of a virtual side are cached (R111). -/
def State.cacheSide (s : State) (ctx : Nat) (d : Side) : State :=
  if d.place = .virt then
    (s.virtPages ctx d.runs).foldl (fun a q => match s.translate ctx (BitVec.ofNat 64 q.2) with
      | .page p => a.cacheTlb ctx p
      | _ => a) s
  else s

/-- A copy's place in its token's count is given up, while its group is that of its block (R281, R345). -/
def State.tokenDown (s : State) (c : Copy) : State :=
  match s.group c.grp with
  | some g => if g.block = c.block then s.setGroup c.grp (g.countDown c.token) else s
  | none => s

/-- A copy has left the engine: its block may end (R241). -/
def State.afterCopy (s : State) (c : Copy) : State := s.endBlock c.block

/-- Another write in flight of a group's task, an access or a copy, will log a word: it shares the word's allotment (R189, R370). -/
def State.writesWord (s : State) (grp w : Nat) : Bool :=
  (s.accesses.any fun q => q.2.grp = grp && q.2.logs && q.2.lanes.any fun l => overlap l.addr q.2.n w 4) ||
    s.copies.any fun q => q.2.grp = grp && q.2.logs &&
      (copyTouches q.2.kind q.2.dst.toNat q.2.src.toNat q.2.word).any fun t => t.write && overlap t.addr t.len w 4

/-- A copy that fails pre-flight (R345, R380, R409): it moves nothing and counts nothing, gives up its count and the allotments that no other
write in flight shares, and the trap is due. -/
def State.failCopy (s : State) (id : Nat) (c : Copy) (cause sub addr : Nat) : State :=
  let s1 := ({ s with copies := AMap.del s.copies id }).tokenDown c
  let s2 := s1.updGroup c.grp fun g => { g with allotted := g.allotted.filter fun w => !c.words.contains w || s1.writesWord c.grp w }
  (s2.lateTrap c.grp c.unit
    { cause := BitVec.ofNat 8 cause, sub := BitVec.ofNat 8 sub, pc := c.pc, thr := c.act, addr := BitVec.ofNat 64 addr
      info := BitVec.ofNat 8 c.token }).afterCopy c

/-- An `mma` of a group issued before an access has not read its B bytes yet (R303). -/
def State.mmaAhead (s : State) (id grp : Nat) : Bool :=
  s.arrays.any fun q => q.2.any fun c => c.grp = grp && decide (c.id < id) && !c.started && (match c.op with
    | .mma .. => true
    | _ => false)

/-- An earlier access of an engine's group to bytes that the engine touches is outstanding, and its effect is not yet what the engine sees
(R121): any access to bytes that it writes; to bytes that it reads, one that writes and is no store the engine sees. Runs of cells. -/
def State.groupHeld (s : State) (after : List Nat) (reads writes : List (Nat × Nat)) : Bool :=
  after.any fun i => (AMap.get? s.accesses i).elim false fun a =>
    a.lanes.any fun l =>
      (writes.any fun m => overlap l.cell a.n m.1 m.2) ||
        (a.writes && !(a.kind = .store && !l.home) && reads.any fun m => overlap l.cell a.n m.1 m.2)

/-- The same for some moves of a copy; a copy into the B-plane also comes after the reads of its group's earlier `mma`s (R303). -/
def State.copyHeld (s : State) (c : Copy) (ms : List Move) : Bool :=
  s.groupHeld c.after (ms.map fun m => (m.src, 1)) (ms.map fun m => (m.dst, 1)) || (c.kind = .cpbp && s.mmaAhead c.num c.grp)

/-- The same of the index list of a `cpgat`. -/
def State.indexHeld (s : State) (c : Copy) : Bool :=
  match c.kind.indexList c.word with
  | none => false
  | some (x, n) => c.after.any fun i => (AMap.get? s.accesses i).elim false fun a =>
      a.writes && a.scratch && a.lanes.any fun l => !(a.kind = .store && !l.home) && overlap l.addr a.n x n

/-- An earlier copy of the core has resumed its pre-flight and not yet made it again (R381). -/
def State.behindResumed (s : State) (c : Copy) : Bool :=
  c.resumed && s.copies.any fun q => decide (q.1 < c.num) && q.2.core = c.core && q.2.resumed && q.2.stage = .preflight

/-- COPY_PREFLIGHT: the checks of R379 and what follows on each. -/
def execCopyPreflight (id : Nat) (remote : RemoteCheck) (s : State) : Host.Outcome State Fault Refusal :=
  match AMap.get? s.copies id with
  | none => .next s
  | some c =>
    let put := fun (s : State) (x : Copy) => { s with copies := AMap.set s.copies id x }
    match c.stage with
    | .preflight =>
      if !((AMap.get? s.blocks c.block).elim false fun b => s.launchRuns b.launch) ||
          s.indexHeld c || s.behindResumed c then .next s
      else
        match s.preflight c remote with
        | .wait _ => .next (put s { c with resumed := false })
        | .absent a =>
          if (AMap.get? s.svc c.core).isSome then .next (put s { c with stage := .held, resumed := false })
          else .next (put (s.raiseSvc c.core false id a c.grp c.pc (BitVec.ofNat 64 a)) { c with stage := .held, resumed := false })
        | .fail cause sub a => .next (s.failCopy id c cause sub a)
        | .poison a => .next (s.terminateAt c.grp .poison 0 c.pc (BitVec.ofNat 64 a))
        | .pass =>
          let sides := s.sidesOf c
          let held := match (s.group c.grp).bind s.claimFrame with
            | some (_, f) => s.heldSets f
            | none => []
          let need := c.need.filter fun x => !held.contains x
          .next (put ((s.cacheSide c.ctx sides.1).cacheSide c.ctx sides.2)
            { c with resumed := false, moves := s.movesOf c, need := need, stage := if need.isEmpty then .begun else .claims })
    | .claims =>
      (match s.preIllegal c with
        | .fail cause sub a => .next (s.failCopy id c cause sub a)
        | _ => if c.need.isEmpty && (AMap.get? s.blocks c.block).elim false (fun b => s.launchRuns b.launch) then
            .next (put s { c with stage := .begun }) else .next s)
    | _ => .next s

/-- A copy's pre-flight that has waited 10 ms on a clear bit fails with SUB 6 (R381). -/
def State.copyTimeout (s : State) (id : Nat) : State :=
  match AMap.get? s.copies id with
  | none => s
  | some c =>
    if c.stage != .preflight then s
    else
      match s.preflight c .pass with
      | .wait a => s.failCopy id c 3 6 a
      | _ => s

/-! ## Moving and completion (R281 to R283, R363, R382) -/

/-- A list without repeats side by side. -/
def stutterless : List Nat → List Nat
  | [] => []
  | [x] => [x]
  | x :: y :: r => if x = y then stutterless (y :: r) else x :: stutterless (y :: r)

/-- The watched lines among the bytes that a copy writes into scratchpad (R202). -/
def State.watchCopy (s : State) (c : Copy) (ms : List Move) : State :=
  if (s.sidesOf c).2.place = .scr then (stutterless (ms.map fun m => m.daddr / 64 * 64)).foldl (fun s x => s.watchWrite c.block x) s else s

/-- The undo entries of the words that a copy writes into claim sets (R189). -/
def State.logCopy (s : State) (c : Copy) (ms : List Move) : State :=
  if c.logs && (s.sidesOf c).2.place = .scr then
    (stutterless (ms.map fun m => m.daddr / 4 * 4)).foldl (fun s x => s.logWrite c.grp x 4) s
  else s

/-- The block of a copy is still that of its group. -/
def State.sameBlock (s : State) (c : Copy) : Bool :=
  match s.group c.grp with
  | some g => g.block = c.block
  | none => false

/-- A copy that meets poison after it has begun (R382): the units that it read poisoned are poisoned at its destination, and its block
ends. -/
def State.poisonCopy (s : State) (id : Nat) (c : Copy) (bad : List Move) : State :=
  let s1 := bad.foldl (fun s m => if c.kind = .peerPut then s else s.addPoison m.dst) s
  let s2 := { s1 with copies := AMap.del s1.copies id }
  let addr := match bad with
    | m :: r => r.foldl (fun a m => min a (m.saddr / 8 * 8)) (m.saddr / 8 * 8)
    | [] => 0
  if s2.sameBlock c then s2.terminateAt c.grp .poison 0 c.pc (BitVec.ofNat 64 addr) else s2

/-- A copy's release reaches beyond its group, and so waits for what it has observed (R130). -/
def Copy.releases (c : Copy) : Bool := (c.ord = .rel || c.ord = .ar) && c.scope != .grp

/-- The release of a copy is at a scope that lies on its core (R130, R122). -/
def State.copyNear (s : State) (c : Copy) : Bool :=
  !(c.ord = .rel || c.ord = .ar) || (s.group c.grp).elim true fun g => s.nearScope g c.scope

/-- The bytes of a copy may be visible on its core before they are at their home: they are scratchpad bytes on ordinary pages, and neither a
barrier nor a wider release waits for them (R122, R132). -/
def State.mayLandNear (s : State) (c : Copy) (ms : List Move) : Bool :=
  (s.sidesOf c).2.place = .scr && c.bar.isNone && !c.logs && s.copyNear c && ms.all fun m => !s.homePage m.daddr

/-- The bytes that the engine reads for some moves. -/
def State.copyData (s : State) (c : Copy) (ms : List Move) : List Byte :=
  match s.seenStores c.num c.grp c.core with
  | [] => ms.map fun m => SMap.get s.mem m.src
  | l => ms.map fun m => (overlay m.src l [SMap.get s.mem m.src]).headD 0

/-- Bytes that an engine of a core leaves at their home: every agent sees them. -/
def State.landHome (s : State) (core : Nat) (l : List (Nat × Byte)) : State :=
  (mergeRuns l).foldl (fun s q => (s.noteFixed core q.1 q.2.length).writeCells q.1 q.2) s

/-- Bytes of a copy visible on its core: each 8-byte unit is a store in flight there. -/
def State.landNear (s : State) (c : Copy) (l : List (Move × Byte)) : State :=
  (stutterless (l.map fun q => q.1.dst / 8)).foldl (fun s u =>
    let bs := l.filter fun q => q.1.dst / 8 = u
    match bs with
    | [] => s
    | q :: _ =>
      let a : Access :=
        { kind := .store, grp := c.grp, unit := c.unit, core := c.core, pc := c.pc, n := bs.length, ty := .b64, scratch := true
          lanes := [{ thr := 0, cell := q.1.dst, addr := q.1.daddr, data := BitVec.ofNat 128 (leNat (bs.map Prod.snd)) }] }
      { s with accesses := AMap.set s.accesses s.nextId a, forwarded := s.forwarded ++ [s.nextId], nextId := s.nextId + 1 }) s

/-- The moves of an event: those into the 8-byte units that it names; all that are left where it names none. -/
def Copy.part (c : Copy) (units : Option (List Nat)) : List Move :=
  c.moves.filter fun m => units.elim true fun l => l.contains (m.dst / 8)

/-- What an event leaves to be moved. -/
def Copy.rest (c : Copy) (units : Option (List Nat)) : List Move :=
  c.moves.filter fun m => units.elim false fun l => !l.contains (m.dst / 8)

/-- The put that a copy sends, with its count on the peer where it has one (R283). -/
def State.putMsg (s : State) (c : Copy) (data : List (Option Byte)) (counted : Bool) : PeerMsg :=
  let q := ((AMap.get? s.blocks c.block).bind fun b => (s.launch b.launch).map (·.queue)).getD 0
  let cnt := match c.rem, c.bar with
    | some r, some b => if counted then some (q, r.toNat, b) else none
    | _, _ => none
  ⟨some (wfield c.word 24 6), c.ctx, c.dst, data, cnt⟩

/-- Bytes of a copy land: in the peer's memory, those read poisoned as poison, at their home, or on the core. -/
def State.landCopy (s : State) (c : Copy) (ms : List Move) (home : Bool) (data : List Byte) (bad : List Move) : State :=
  if c.kind = .peerPut then
    { s with outbox := s.outbox ++ [s.putMsg c ((ms.zip data).map fun q => if bad.contains q.1 then none else some q.2) bad.isEmpty] }
  else if home then ((s.logCopy c ms).landHome c.core ((ms.map (·.dst)).zip data)).watchCopy c ms
  else s.landNear c (ms.zip data)

/-- The moves of an event whose bytes are poisoned where they are read, here or on the peer (R382). -/
def State.copyBad (s : State) (c : Copy) (ms : List Move) (r : Landing) : List Move :=
  if c.kind = .peerGet then ((ms.zip r.peerData).filter fun q => q.2.isNone).map Prod.fst else ms.filter fun m => s.copyPoison c m.src 1

/-- COPY_BYTES_LANDED: units of a copy that has begun become visible, in any order: those named, or all that are left; at their home, or,
where that may be, on the core. With the last of them, those counted reach the barrier in one update (R363). A get takes its bytes from the
peer, of which some may be poisoned; a put's go out at once. -/
def execCopyBytesLanded (id : Nat) (r : Landing) (s : State) : Host.Outcome State Fault Refusal :=
  match AMap.get? s.copies id with
  | none => .next s
  | some c =>
    let ms := c.part r.units
    let get := c.kind = .peerGet
    if c.stage != .begun || ms.isEmpty || s.copyHeld c ms || (get && r.peerData.length != ms.length) ||
        (c.kind = .peerPut && ms.length != c.moves.length) || (!r.home && (!s.mayLandNear c ms || !(s.copyBad c ms r).isEmpty)) then .next s
    else
      let data := if get then r.peerData.map fun b => b.getD 0 else s.copyData c ms
      let bad := s.copyBad c ms r
      let s1 := s.landCopy c ms r.home data bad
      if !bad.isEmpty then .next (s1.poisonCopy id c bad)
      else
        let rest := c.rest r.units
        let seen := if c.releases then c.after ++ s.coreStores c.core else []
        let s2 := { s1 with
          copies := AMap.set s1.copies id { c with moves := rest, seen := c.seen ++ seen, stage := if rest.isEmpty then .landed else .begun } }
        match c.bar, c.rem with
        | some b, none => .next (if rest.isEmpty then s2.landBytes c.block b (c.kind.len c.word) else s2)
        | _, _ => .next s2

/-- COPY_COMPLETE: the copy's release is done, and with it the writes that it observed are visible at its scope (R130); its count falls
(R281 step 4). -/
def execCopyComplete (id : Nat) (s : State) : Host.Outcome State Fault Refusal :=
  match AMap.get? s.copies id with
  | none => .next s
  | some c =>
    if c.stage = .landed && c.seen.all (s.over (s.copyNear c)) then .next ((({ s with copies := AMap.del s.copies id }).tokenDown c).afterCopy c) else .next s

/-! ## What comes from peers (R283, R284, R336) -/

/-- The placed launch that a count meets: the earliest accepted of a context from a host queue. -/
def State.countLaunch (s : State) (ctx queue : Nat) : Option (Nat × Launch) :=
  (s.launches.filter fun q => q.2.stage = .placed && q.2.ctx = ctx && q.2.queue = queue).foldl (fun best q =>
    match best with
    | some b => if (b.2 : Launch).stamp ≤ q.2.stamp then some b else some q
    | none => some q) none

/-- Bytes counted on a barrier of a block. -/
def Block.landBytes (b : Block) (bar bytes : Nat) : Block :=
  match b.bar bar with
  | some x => b.setBar bar { x with landb := x.landb + BitVec.ofNat 64 bytes }.test
  | none => b

/-- A count applied to a block's barrier, or discarded where the launch has no such block or barrier; for a saved block it is kept until the
block stands again (R138). -/
def State.applyCount (s : State) (launch block bar bytes : Nat) : State :=
  let mine := fun (b : Block) => b.launch = launch && b.num = block
  { s with
    blocks := AMap.mapV s.blocks fun _ b => if mine b then b.landBytes bar bytes else b
    contexts := AMap.mapV s.contexts fun _ x => { x with saved := x.saved.map fun v =>
      { v with counts := v.counts ++ ((v.blocks.filter fun q => mine q.2).map fun q => (q.1, bar, bytes)) } } }

/-- The last flit of a put is written into this device's memory (R284). -/
def State.writeFlit (s : State) (e : PeerCount) : State := s.vaWrite e.ctx e.addr e.flit

/-- Entries held for a context. -/
def State.heldCounts (s : State) (ctx : Nat) : Nat := (s.peerCounts.filter fun e => e.ctx = ctx).length

/-- A count enters the table, summed with one of its name; none where a 257th entry would be needed. -/
def State.enterCount (s : State) (e : PeerCount) : Option State :=
  let same := fun (x : PeerCount) => x.ctx = e.ctx && x.queue = e.queue && x.block = e.block && x.bar = e.bar
  if s.peerCounts.any same then
    some { s.writeFlit e with peerCounts := s.peerCounts.map fun x => if same x then { x with bytes := x.bytes + e.bytes } else x }
  else if s.heldCounts e.ctx < 256 then some { s.writeFlit e with peerCounts := s.peerCounts ++ [{ e with addr := 0, flit := [] }] }
  else none

/-- PEER_COUNT_ARRIVAL: the last flit of a peer's put, with its count: the flit is written and the count meets its launch, or is held for
it; both wait where a 257th entry would be needed (R284). -/
def execPeerCountArrival (ctx : BitVec 5) (queue : BitVec 6) (block : Byte) (bar : BitVec 6) (put : PutEnd) (s : State) :
    Host.Outcome State Fault Refusal :=
  let e : PeerCount :=
    { ctx := ctx.toNat, queue := queue.toNat, block := block.toNat, bar := bar.toNat, bytes := put.bytes, addr := put.addr
      flit := put.flit }
  match s.countLaunch ctx.toNat queue.toNat with
  | some (i, _) => .next ((s.writeFlit e).applyCount i block.toNat bar.toNat put.bytes)
  | none => .next ((s.enterCount e).getD { s with peerHeld := s.peerHeld ++ [e] })

/-- Puts that wait for a count entry enter the table as entries are freed, oldest first. -/
def State.admitHeld (s : State) : State :=
  s.peerHeld.foldl (fun a e => match a.enterCount e with
    | some a' => { a' with peerHeld := a'.peerHeld.erase e }
    | none => a) s

/-- A peer's bytes written at a virtual address of a context: a poisoned byte leaves its unit poisoned (R382, R388). -/
def State.vaWritePeer (s : State) (ctx : Nat) (va : Dword) (bs : List (Option Byte)) : State :=
  let l := ((List.range bs.length).zip bs).filterMap fun q => (s.vaCell ctx (va + BitVec.ofNat 64 q.1) true).map fun c => (c, q.2)
  (l.filter fun q => q.2.isNone).foldl (fun a q => a.addPoison q.1) (s.writeBytes (l.filterMap fun q => q.2.map fun b => (q.1, b)))

/-- The bytes that a peer reads at a virtual address of a context, each none where it is poisoned. -/
def State.vaReadPeer (s : State) (ctx : Nat) (va : Dword) (n : Nat) : List (Option Byte) :=
  (List.range n).map fun i => (s.vaCell ctx (va + BitVec.ofNat 64 i) false).bind fun c =>
    if s.poisoned c 1 then none else some (SMap.get s.mem c)

/-- PEER_COPY_REQUEST: a peer's put writes its bytes, or a peer's get, of as many bytes, is answered, through the tables of the context here; a
request whose pages are not all present with the right it needs was refused at the peer's pre-flight and changes nothing. -/
def execPeerCopyRequest (ctx : BitVec 5) (get : Bool) (addr : Dword) (data : List (Option Byte)) (s : State) :
    Host.Outcome State Fault Refusal :=
  if !s.ctxValid ctx.toNat || !s.vaOk ctx.toNat addr data.length (!get) then .next s
  else if get then
    .next { s with outbox := s.outbox ++ [⟨none, ctx.toNat, addr, s.vaReadPeer ctx.toNat addr data.length, none⟩] }
  else .next (s.vaWritePeer ctx.toNat addr data)

end Sys2Proof.Machine
end

