-- ==== Sys2Proof/Machine/MemAccess.lean ====
section
/-! DEFINITION. Loads, stores, atomics and fences (14/R269 to R278), and the events in which accesses are performed (06, 21/R388). -/

namespace Sys2Proof.Machine

/-! ## Places -/

/-- The width in bytes of a load or store (R269). -/
def accWidth (ty : Ty) (n : Cnt) : Nat :=
  match ty with
  | .b32 => 4 * n.num
  | .b64 => 8 * n.num
  | _ => ty.size

/-- Size in bytes of a block's shared memory. -/
def State.sharedTop (s : State) (g : Group) : Nat :=
  match s.launch g.launch, s.blockOf g with
  | some l, some b => b.span * l.shmem
  | _, _ => 0

/-- The cell of a shared address (R98). -/
def State.sharedCell (s : State) (g : Group) (a : Nat) : Nat :=
  match s.launch g.launch, s.blockOf g with
  | some l, some b => cellShared (b.core + a / l.shmem) (b.shBase.getD (a / l.shmem) 0 + a % l.shmem)
  | _, _ => 0

/-- The cell of a spill-stack address (R97). -/
def spillAddr (grp : Nat) (g : Group) (a : Nat) : Nat := cellSpill (coreOf grp) (g.spBase + a)

/-- The data that a store of n bytes takes from a run (R271). -/
def Cur.runData (c : Cur) (t : Nat) (r : Reg) (n : Nat) : BitVec 128 :=
  BitVec.ofNat 128 ((List.range ((n + 3) / 4)).foldl (fun x i => x + (c.g.vget t (r.toNat + i)).toNat * 2 ^ (32 * i)) 0 % 2 ^ (8 * n))

/-- An access of the selected unit with its lanes. -/
def Cur.access (c : Cur) (s : State) (p : Pred) (k : AccessKind) (ty : Ty) (n : Nat) (lanes : List LaneAccess) : Access :=
  { kind := k, grp := c.u.grp, unit := c.act p, core := coreOf c.u.grp, pc := c.u.pc, n := n, ty := ty, lanes := lanes
    after := s.acquires c.u.grp (c.act p) }

/-! ## Shared memory and spill stack -/

/-- Further distinct words in the fullest bank of one temporal slot, for accesses of n bytes: banks are told apart by core (R99). -/
def bankWaits (part n : Nat) (l : List Nat) : Nat :=
  let words := (l.flatMap fun a => (List.range ((a % 8 + n + 7) / 8)).map fun i => a / 8 + i).eraseDups
  let bank : Nat → Nat × Nat := fun w => (8 * w / part, w % 64)
  words.foldl (fun m w => max m ((words.filter fun x => bank x = bank w).length - 1)) 0

/-- Clocks that a lane instruction waits for banks: its four temporal slots in turn (R29, R99). -/
def bankClocks (part n : Nat) (l : List (Nat × Int)) : Nat :=
  ((List.range 4).map fun s => bankWaits part n ((l.filter fun q => q.1 % 4 = s).map fun q => q.2.toNat)).sum

/-- The bank clocks of a shared-memory access of the selected unit are counted (counter 8). -/
def State.countBanks (s : State) (c : Cur) (w : Nat) (l : List (Nat × Int)) : State :=
  s.countN c.u.grp 8 (bankClocks (((s.launch c.g.launch).map (·.shmem)).getD 0) w l)

/-- An access of the selected unit that goes to a home on the network is counted: counter 8 includes its wait for slots (R107, log 45). -/
def State.countSlots (s : State) (c : Cur) (net : Bool) : State := if net then s.count c.u.grp netCount else s

/-- Some address lies in another core's part of the block's shared memory. -/
def State.anyFar (s : State) (c : Cur) (l : List (Nat × Int)) : Bool :=
  match s.launch c.g.launch, s.blockOf c.g with
  | some d, some b => l.any fun q => b.core + q.2.toNat / d.shmem != coreOf c.u.grp
  | _, _ => false

/-- The waits of an access to the block's shared memory. -/
def State.countShared (s : State) (c : Cur) (w : Nat) (l : List (Nat × Int)) : State := (s.countBanks c w l).countSlots c (s.anyFar c l)

/-- A load from a space of the block or the group. -/
def execLocalLoad (i : Instr) (p : Pred) (ty : Ty) (n : Cnt) (d a : Reg) (off : OffB) (sh : Bool) (top : State → Group → Nat)
    (cell : State → Nat → Group → Nat → Nat) (s : State) : Host.Outcome State Fault Refusal :=
  s.issueI i p fun c =>
    let w := accWidth ty n
    let l := c.addrs p a off
    let bad := l.filter fun q => !inSpace (top s c.g) w q.2
    if !c.any p then s.retire c
    else if !bad.isEmpty then c.trapThreads s p 2 0 bad
    else
      (if sh then s.countShared c w l else s).issueAccess c { c.access s p .load ty w (l.map fun q =>
          ⟨q.1, cell s c.u.grp c.g q.2.toNat, 0, 0, false⟩) with
        dst := d } []

/-- A store to a space of the block or the group; helper threads write nothing (R38). -/
def execLocalStore (i : Instr) (p : Pred) (ty : Ty) (n : Cnt) (a : Reg) (off : OffB) (k : Reg) (sh : Bool) (top : State → Group → Nat)
    (cell : State → Nat → Group → Nat → Nat) (s : State) : Host.Outcome State Fault Refusal :=
  s.issueI i p fun c =>
    let w := accWidth ty n
    let l := c.addrs p a off
    let bad := l.filter fun q => !inSpace (top s c.g) w q.2
    if !c.any p then s.retire c
    else if !bad.isEmpty then c.trapThreads s p 2 0 bad
    else
      (if sh then s.countShared c w l else s).issueAccess c { c.access s p .store ty w ((l.filter fun q => !c.g.helper.getLsbD q.1).map fun q =>
          ⟨q.1, cell s c.u.grp c.g q.2.toNat, 0, c.runData q.1 k w, false⟩) with
        counted := c.e.clause.names 8 } []

/-- `ld.sh`. -/
def execLdSh (p : Pred) (ty : Ty) (n : Cnt) (d a : Reg) (off : OffB) (s : State) : Host.Outcome State Fault Refusal :=
  execLocalLoad (.ldSh p ty n d a off) p ty n d a off true State.sharedTop (fun s _ g x => s.sharedCell g x) s

/-- `st.sh`. -/
def execStSh (p : Pred) (ty : Ty) (n : Cnt) (a : Reg) (off : OffB) (k : Reg) (s : State) : Host.Outcome State Fault Refusal :=
  execLocalStore (.stSh p ty n a off k) p ty n a off k true State.sharedTop (fun s _ g x => s.sharedCell g x) s

/-- `ld.sp`. -/
def execLdSp (p : Pred) (ty : Ty) (n : Cnt) (d a : Reg) (off : OffB) (s : State) : Host.Outcome State Fault Refusal :=
  execLocalLoad (.ldSp p ty n d a off) p ty n d a off false (fun _ g => g.spSize) (fun _ k g x => spillAddr k g x) s

/-- `st.sp`. -/
def execStSp (p : Pred) (ty : Ty) (n : Cnt) (a : Reg) (off : OffB) (k : Reg) (s : State) : Host.Outcome State Fault Refusal :=
  execLocalStore (.stSp p ty n a off k) p ty n a off k false (fun _ g => g.spSize) (fun _ k g x => spillAddr k g x) s

/-! ## Scratchpad -/

/-- A lane of a scratchpad access. -/
def State.scrLane (s : State) (t addr : Nat) (x : BitVec 128) : LaneAccess := ⟨t, s.scrCell addr, addr, x, s.homePage addr⟩

/-- Some address lies on an SC page. -/
def State.anySC (s : State) (l : List (Nat × Int)) : Bool := l.any fun q => s.scPage q.2.toNat

/-- `sld`. -/
def execSld (p : Pred) (ty : Ty) (n : Cnt) (d a : Reg) (off : OffB) (s : State) : Host.Outcome State Fault Refusal :=
  s.issueI (.sld p ty n d a off) p fun c =>
    let w := accWidth ty n
    let l := c.addrs p a off
    if !c.any p then s.retire c
    else
      c.checkScr s p l w false false fun need words =>
        let sc := s.anySC l
        if sc && s.scBusy c.u.grp (c.act p) then s.decline c
        else (s.countSlots c true).issueAccess c { c.access s p .load ty w (l.map fun q => s.scrLane q.1 q.2.toNat 0) with
          dst := d, scratch := true, sc := sc, need := need } words

/-- `sst`. -/
def execSst (p : Pred) (ty : Ty) (n : Cnt) (a : Reg) (off : OffB) (k : Reg) (s : State) : Host.Outcome State Fault Refusal :=
  s.issueI (.sst p ty n a off k) p fun c =>
    let w := accWidth ty n
    let l := c.addrs p a off
    if !c.any p then s.retire c
    else
      c.checkScr s p l w true true fun need words =>
        let live := l.filter fun q => !c.g.helper.getLsbD q.1
        let sc := s.anySC live
        if sc && s.scBusy c.u.grp (c.act p) then s.decline c
        else (s.countSlots c !live.isEmpty).issueAccess c { c.access s p .store ty w (live.map fun q => s.scrLane q.1 q.2.toNat (c.runData q.1 k w)) with
          scratch := true, sc := sc, need := need, logs := !words.isEmpty || !need.isEmpty || (s.claimFrame c.g).isSome
          counted := c.e.clause.names 8 } words

/-- `atom` (R274 to R277). -/
def execAtom (p : Pred) (op : AtomOp) (ty : Ty) (o : Ord) (sc : Scope) (d a : Reg) (off : OffB) (k : Reg) (s : State) :
    Host.Outcome State Fault Refusal :=
  s.issueI (.atom p op ty o sc d a off k) p fun c =>
    let l := c.addrs p a off
    if !c.any p then s.retire c
    else
      c.checkScr s p l ty.size true (op != .ld) fun need words =>
        let live := l.filter fun q => !c.g.helper.getLsbD q.1
        let scp := s.anySC live
        let rel := o = .rel || o = .ar
        if scp && s.scBusy c.u.grp (c.act p) then s.decline c
        else (s.countSlots c !live.isEmpty).issueAccess c { c.access s p (.atom op) ty ty.size (live.map fun q =>
            s.scrLane q.1 q.2.toNat (c.runData q.1 k (if op = .cas then 2 * ty.size else ty.size))) with
          dst := d, zero := c.act p &&& c.g.helper, scratch := true, sc := scp, need := need
          acq := o = .acq || o = .ar, scope := sc, near := rel && s.nearScope c.g sc, cum := rel
          logs := op != .ld && (s.claimFrame c.g).isSome, counted := c.e.clause.names 8
          after := s.orderBefore c.u.grp (c.act p) rel } words

/-! ## Fences (R278, R125) -/

/-- What a fence waits for: the loads and atomics of its threads, or, in the kinds that release, what a release waits for. -/
def State.fenceWaits (s : State) (grp : Nat) (m : Word) (kind : FenceKind) : List Nat :=
  match kind with
  | .acq => (s.accesses.filter fun q => q.2.grp = grp && q.2.byThreads m && (match q.2.kind with
      | .load | .atom _ => true
      | _ => false)).map Prod.fst
  | _ => s.releaseWaits grp m

/-- The scope at which a fence acquires (R126). -/
def fenceAcquires (kind : FenceKind) (sc : Scope) : Option Scope := if kind = .rel then none else some sc

/-- `fence`: the unit waits until the accesses it orders are complete. One of kind `.ar` acquires once its loads and atomics are performed, since
it orders no earlier store before a later load (R125). -/
def execFence (p : Pred) (kind : FenceKind) (sc : Scope) (s : State) : Host.Outcome State Fault Refusal :=
  s.issueI (.fence p kind sc) p fun c =>
    if !c.any p then s.retire c
    else
      let ids := s.fenceWaits c.u.grp (c.act p) kind
      let st := EStat.atFence ids (s.nearScope c.g sc) (kind != .acq) (fenceAcquires kind sc) (kind = .ar)
      ((s.retire c).updGroup c.u.grp fun g => g.updEntry c.u.entry fun e => { e with st := st }).acquireEarly c.u.grp

/-! ## Performing accesses -/

/-- An access may be performed now. -/
def State.mayPerform (s : State) (id : Nat) (a : Access) : Bool := a.need.isEmpty && !s.blocked id a

/-- The address of a poisoned lane, as a report gives it. -/
def State.poisonAddr (s : State) (a : Access) : Dword :=
  BitVec.ofNat 64 (((a.lanes.filter fun l => s.poisoned l.cell a.n).map (·.addr)).headD 0)

/-- The block of an access's group ends for poison (Table 21.2); the access itself writes nothing. -/
def State.poisonEnd (s : State) (id : Nat) (a : Access) : State :=
  ((s.returnSpawn a).endAccess id a).terminateAt a.grp .poison 0 a.pc (s.poisonAddr a)

/-- After an access has left flight: its block may end (R241). -/
def State.afterAccess (s : State) (a : Access) : State :=
  match s.group a.grp with
  | some g => s.endBlock g.block
  | none => s

/-- LOAD_REPLY: a load binds its values, or a spawn reads its image and pushes it (R271, R291); poison ends the block (R388). Where the
orders of 06 allow it, a load may read each of its 8-byte units as it stood before the newest writes, so many of them (R119, R123, R139). -/
def execLoadReply (r : LoadRead) (s : State) : Host.Outcome State Fault Refusal :=
  match AMap.get? s.accesses r.id with
  | none => .next s
  | some a =>
    if !s.mayPerform r.id a then .next s
    else
      match a.kind with
      | .load =>
        if !s.mayMiss r.back a then .next s
        else if s.accessPoisoned r.id a then .next (s.poisonEnd r.id a)
        else .next (((((s.performLoad r.back r.id a).passOn r.id a).endAccess r.id a).acquireEarly a.grp).afterAccess a)
      | .spawn q =>
        if s.accessPoisoned r.id a then .next (s.poisonEnd r.id a)
        else
          .next (((s.pushTask q (s.spawnImage r.id a) false).endAccess r.id a).afterAccess a)
      | _ => .next s

/-- An ordinary store to scratchpad may become visible on its core: what it is ordered after is over, and no earlier access of its group
that overlaps it is outstanding there (R121, R122). -/
def State.mayForward (s : State) (id : Nat) (a : Access) : Bool :=
  a.kind = .store && a.scratch && a.need.isEmpty && !s.forwarded.contains id && !(a.after.any fun i => !s.over a.near i) &&
    !(s.accesses.any fun q => decide (q.1 < id) && q.2.grp = a.grp && q.2.meets a && !s.forwarded.contains q.1)

/-- STORE_PERFORM: a store becomes visible on its core, through forwarding, or is performed at its home and visible to every agent
(R122). -/
def execStorePerform (r : StoreAt) (s : State) : Host.Outcome State Fault Refusal :=
  match AMap.get? s.accesses r.id with
  | none => .next s
  | some a =>
    if !r.home then .next (if s.mayForward r.id a then { s with forwarded := s.forwarded ++ [r.id] } else s)
    else if s.mayPerform r.id a && a.kind = .store then .next (((s.performStore r.id a).endAccess r.id a).afterAccess a)
    else .next s

/-- ATOMIC_AT_HOME: an atomic is performed at its home, and its replies land (R276); poison ends the requester's block, and the word stays
poisoned (Table 21.2). -/
def execAtomicAtHome (id : Nat) (s : State) : Host.Outcome State Fault Refusal :=
  match AMap.get? s.accesses id with
  | none => .next s
  | some a =>
    match a.kind with
    | .atom op =>
      if !s.mayPerform id a then .next s
      else if s.accessPoisoned id a then .next (s.poisonEnd id a)
      else .next ((((s.performAtom a op).endAccess id a).acquireEarly a.grp).afterAccess a)
    | _ => .next s

/-- BLD_PERFORM: a `bld` writes the B-plane (R312), once the group's earlier `mma`s have read theirs (R303). -/
def execBldPerform (id : Nat) (s : State) : Host.Outcome State Fault Refusal :=
  match AMap.get? s.accesses id with
  | none => .next s
  | some a =>
    if s.mayPerform id a && a.kind = .bld && !s.mmaAhead id a.grp then .next (((s.performStore id a).endAccess id a).afterAccess a) else .next s

end Sys2Proof.Machine
end

