-- ==== Sys2Proof/Machine/Sha.lean ====
section
/-! DEFINITION. SHA-256 (FIPS 180-4), which the spec names for every digest of the W1 (10/R197 to R200) and does not restate (log 15). -/

namespace Sys2Proof.Machine

/-- The round constants. -/
def shaK : List Word :=
  [0x428a2f98#32, 0x71374491#32, 0xb5c0fbcf#32, 0xe9b5dba5#32, 0x3956c25b#32, 0x59f111f1#32, 0x923f82a4#32, 0xab1c5ed5#32,
   0xd807aa98#32, 0x12835b01#32, 0x243185be#32, 0x550c7dc3#32, 0x72be5d74#32, 0x80deb1fe#32, 0x9bdc06a7#32, 0xc19bf174#32,
   0xe49b69c1#32, 0xefbe4786#32, 0x0fc19dc6#32, 0x240ca1cc#32, 0x2de92c6f#32, 0x4a7484aa#32, 0x5cb0a9dc#32, 0x76f988da#32] ++
  [0x983e5152#32, 0xa831c66d#32, 0xb00327c8#32, 0xbf597fc7#32, 0xc6e00bf3#32, 0xd5a79147#32, 0x06ca6351#32, 0x14292967#32,
   0x27b70a85#32, 0x2e1b2138#32, 0x4d2c6dfc#32, 0x53380d13#32, 0x650a7354#32, 0x766a0abb#32, 0x81c2c92e#32, 0x92722c85#32,
   0xa2bfe8a1#32, 0xa81a664b#32, 0xc24b8b70#32, 0xc76c51a3#32] ++
  [0xd192e819#32, 0xd6990624#32, 0xf40e3585#32, 0x106aa070#32, 0x19a4c116#32, 0x1e376c08#32, 0x2748774c#32, 0x34b0bcb5#32,
   0x391c0cb3#32, 0x4ed8aa4a#32, 0x5b9cca4f#32, 0x682e6ff3#32, 0x748f82ee#32, 0x78a5636f#32, 0x84c87814#32, 0x8cc70208#32,
   0x90befffa#32, 0xa4506ceb#32, 0xbef9a3f7#32, 0xc67178f2#32]

/-- The initial hash value. -/
def shaH0 : List Word :=
  [0x6a09e667#32, 0xbb67ae85#32, 0x3c6ef372#32, 0xa54ff53a#32, 0x510e527f#32, 0x9b05688c#32, 0x1f83d9ab#32, 0x5be0cd19#32]

/-- Rotating right. -/
def rotr (x : Word) (n : Nat) : Word := x.rotateRight n

/-- The message schedule: the last 16 words, newest first; each round adds one. -/
def shaNext (w : List Word) : Word :=
  let g := fun i => w.getD i 0
  let s0 := rotr (g 14) 7 ^^^ rotr (g 14) 18 ^^^ (g 14 >>> 3)
  let s1 := rotr (g 1) 17 ^^^ rotr (g 1) 19 ^^^ (g 1 >>> 10)
  g 15 + s0 + g 6 + s1

/-- One round on the eight working words. -/
def shaRound (v : List Word) (k w : Word) : List Word :=
  let g := fun i => v.getD i 0
  let e := g 4
  let a := g 0
  let t1 := g 7 + (rotr e 6 ^^^ rotr e 11 ^^^ rotr e 25) + ((e &&& g 5) ^^^ (~~~e &&& g 6)) + k + w
  let t2 := (rotr a 2 ^^^ rotr a 13 ^^^ rotr a 22) + ((a &&& g 1) ^^^ (a &&& g 2) ^^^ (g 1 &&& g 2))
  [t1 + t2, a, g 1, g 2, g 3 + t1, e, g 5, g 6]

/-- The rounds: words still to use in order, then the schedule's own. -/
def shaRounds : List Word → List Word → List Word → List Word → List Word
  | [], _, _, v => v
  | k :: ks, w :: ws, used, v => shaRounds ks ws (w :: used) (shaRound v k w)
  | k :: ks, [], used, v =>
    let w := shaNext used
    shaRounds ks [] ((w :: used).take 16) (shaRound v k w)

/-- One block of 16 words. -/
def shaBlock (h : List Word) (ws : List Word) : List Word :=
  (h.zip (shaRounds shaK ws [] h)).map fun p => p.1 + p.2

/-- A big-endian word of four bytes. -/
def beWord (bs : List Byte) : Word := bs.foldl (fun (x : Word) b => x * 256 + b.setWidth 32) 0

/-- Hashing n blocks of a padded message. -/
def shaBlocks : Nat → List Word → List Byte → List Word
  | 0, h, _ => h
  | n + 1, h, bs => shaBlocks n (shaBlock h ((List.range 16).map fun i => beWord ((bs.drop (4 * i)).take 4))) (bs.drop 64)

/-- The padded message. -/
def shaPad (bs : List Byte) : List Byte :=
  bs ++ [0x80#8] ++ List.replicate ((119 - bs.length % 64) % 64) 0#8 ++ (leBytes 8 (8 * bs.length)).reverse

/-- The digest's 32 bytes in order. -/
def sha256 (bs : List Byte) : List Byte :=
  (shaBlocks ((bs.length + 72) / 64) shaH0 (shaPad bs)).flatMap fun w => (leBytes 4 w.toNat).reverse

/-- The digest with its first byte lowest. -/
def sha256Bits (bs : List Byte) : BitVec 256 := BitVec.ofNat 256 (leNat (sha256 bs))

end Sys2Proof.Machine
end

