-- ==== Sys2Proof/Machine/Signature.lean ====
section
/-! DEFINITION. What the signature block of a module and the translation cache need beside SHA-256 (16/R327, R329): SHA-384 (FIPS 180-4),
ECDSA over P-384 (FIPS 186-5) and HMAC-SHA-256 (FIPS 198-1), which the spec names and does not restate (log 15, log 16). -/

namespace Sys2Proof.Machine

/-! ## SHA-384 -/

/-- The round constants. -/
def sha512K : List Dword :=
  [0x428a2f98d728ae22#64, 0x7137449123ef65cd#64, 0xb5c0fbcfec4d3b2f#64, 0xe9b5dba58189dbbc#64, 0x3956c25bf348b538#64,
   0x59f111f1b605d019#64, 0x923f82a4af194f9b#64, 0xab1c5ed5da6d8118#64, 0xd807aa98a3030242#64, 0x12835b0145706fbe#64,
   0x243185be4ee4b28c#64, 0x550c7dc3d5ffb4e2#64, 0x72be5d74f27b896f#64, 0x80deb1fe3b1696b1#64, 0x9bdc06a725c71235#64,
   0xc19bf174cf692694#64, 0xe49b69c19ef14ad2#64, 0xefbe4786384f25e3#64, 0x0fc19dc68b8cd5b5#64, 0x240ca1cc77ac9c65#64] ++
  [0x2de92c6f592b0275#64, 0x4a7484aa6ea6e483#64, 0x5cb0a9dcbd41fbd4#64, 0x76f988da831153b5#64, 0x983e5152ee66dfab#64,
   0xa831c66d2db43210#64, 0xb00327c898fb213f#64, 0xbf597fc7beef0ee4#64, 0xc6e00bf33da88fc2#64, 0xd5a79147930aa725#64,
   0x06ca6351e003826f#64, 0x142929670a0e6e70#64, 0x27b70a8546d22ffc#64, 0x2e1b21385c26c926#64, 0x4d2c6dfc5ac42aed#64,
   0x53380d139d95b3df#64, 0x650a73548baf63de#64, 0x766a0abb3c77b2a8#64, 0x81c2c92e47edaee6#64, 0x92722c851482353b#64] ++
  [0xa2bfe8a14cf10364#64, 0xa81a664bbc423001#64, 0xc24b8b70d0f89791#64, 0xc76c51a30654be30#64, 0xd192e819d6ef5218#64,
   0xd69906245565a910#64, 0xf40e35855771202a#64, 0x106aa07032bbd1b8#64, 0x19a4c116b8d2d0c8#64, 0x1e376c085141ab53#64,
   0x2748774cdf8eeb99#64, 0x34b0bcb5e19b48a8#64, 0x391c0cb3c5c95a63#64, 0x4ed8aa4ae3418acb#64, 0x5b9cca4f7763e373#64,
   0x682e6ff3d6b2b8a3#64, 0x748f82ee5defb2fc#64, 0x78a5636f43172f60#64, 0x84c87814a1f0ab72#64, 0x8cc702081a6439ec#64] ++
  [0x90befffa23631e28#64, 0xa4506cebde82bde9#64, 0xbef9a3f7b2c67915#64, 0xc67178f2e372532b#64, 0xca273eceea26619c#64,
   0xd186b8c721c0c207#64, 0xeada7dd6cde0eb1e#64, 0xf57d4f7fee6ed178#64, 0x06f067aa72176fba#64, 0x0a637dc5a2c898a6#64,
   0x113f9804bef90dae#64, 0x1b710b35131c471b#64, 0x28db77f523047d84#64, 0x32caab7b40c72493#64, 0x3c9ebe0a15c9bebc#64,
   0x431d67c49c100d4c#64, 0x4cc5d4becb3e42b6#64, 0x597f299cfc657e2a#64, 0x5fcb6fab3ad6faec#64, 0x6c44198c4a475817#64]

/-- The initial hash value of SHA-384. -/
def sha384H0 : List Dword :=
  [0xcbbb9d5dc1059ed8#64, 0x629a292a367cd507#64, 0x9159015a3070dd17#64, 0x152fecd8f70e5939#64, 0x67332667ffc00b31#64,
   0x8eb44a8768581511#64, 0xdb0c2e0d64f98fa7#64, 0x47b5481dbefa4fa4#64]

/-- The message schedule, newest word first; each round adds one. -/
def sha512Next (w : List Dword) : Dword :=
  let g := fun i => w.getD i 0
  let s0 := (g 14).rotateRight 1 ^^^ (g 14).rotateRight 8 ^^^ (g 14 >>> 7)
  let s1 := (g 1).rotateRight 19 ^^^ (g 1).rotateRight 61 ^^^ (g 1 >>> 6)
  g 15 + s0 + g 6 + s1

/-- One round on the eight working words. -/
def sha512Round (v : List Dword) (k w : Dword) : List Dword :=
  let g := fun i => v.getD i 0
  let e := g 4
  let a := g 0
  let t1 := g 7 + (e.rotateRight 14 ^^^ e.rotateRight 18 ^^^ e.rotateRight 41) + ((e &&& g 5) ^^^ (~~~e &&& g 6)) + k + w
  let t2 := (a.rotateRight 28 ^^^ a.rotateRight 34 ^^^ a.rotateRight 39) + ((a &&& g 1) ^^^ (a &&& g 2) ^^^ (g 1 &&& g 2))
  [t1 + t2, a, g 1, g 2, g 3 + t1, e, g 5, g 6]

/-- The rounds: words still to use in order, then the schedule's own. -/
def sha512Rounds : List Dword → List Dword → List Dword → List Dword → List Dword
  | [], _, _, v => v
  | k :: ks, w :: ws, used, v => sha512Rounds ks ws (w :: used) (sha512Round v k w)
  | k :: ks, [], used, v =>
    let w := sha512Next used
    sha512Rounds ks [] ((w :: used).take 16) (sha512Round v k w)

/-- A number in big-endian bytes. -/
def beNat (bs : List Byte) : Nat := bs.foldl (fun x b => 256 * x + b.toNat) 0

/-- Hashing n blocks of 128 bytes of a padded message. -/
def sha512Blocks : Nat → List Dword → List Byte → List Dword
  | 0, h, _ => h
  | n + 1, h, bs =>
    let ws := (List.range 16).map fun i => BitVec.ofNat 64 (beNat ((bs.drop (8 * i)).take 8))
    sha512Blocks n ((h.zip (sha512Rounds sha512K ws [] h)).map fun q => q.1 + q.2) (bs.drop 128)

/-- The padded message. -/
def sha512Pad (bs : List Byte) : List Byte :=
  bs ++ [0x80#8] ++ List.replicate ((239 - bs.length % 128) % 128) 0#8 ++ (leBytes 16 (8 * bs.length)).reverse

/-- The digest's 48 bytes in order. -/
def sha384 (bs : List Byte) : List Byte :=
  ((sha512Blocks ((bs.length + 144) / 128) sha384H0 (sha512Pad bs)).take 6).flatMap fun w => (leBytes 8 w.toNat).reverse

/-! ## HMAC-SHA-256 -/

/-- The code of a message under a key of at most 64 bytes. -/
def hmacSha256 (key msg : List Byte) : List Byte :=
  let k := (key ++ List.replicate 64 0#8).take 64
  sha256 ((k.map fun b => b ^^^ 0x5C#8) ++ sha256 ((k.map fun b => b ^^^ 0x36#8) ++ msg))

/-! ## ECDSA over P-384 -/

/-- The field prime. -/
def p384P : Nat := 2 ^ 384 - 2 ^ 128 - 2 ^ 96 + 2 ^ 32 - 1

/-- The order of the base point. -/
def p384N : Nat := 0xFFFFFFFFFFFFFFFFFFFFFFFFFFFFFFFFFFFFFFFFFFFFFFFFC7634D81F4372DDF581A0DB248B0A77AECEC196ACCC52973

/-- The coefficient b; a is -3. -/
def p384B : Nat := 0xB3312FA7E23EE7E4988E056BE3F82D19181D9C6EFE8141120314088F5013875AC656398D8A2ED19D2A85C8EDD3EC2AEF

/-- The base point. -/
def p384G : Nat × Nat :=
  (0xAA87CA22BE8B05378EB1C71EF320AD746E1D3B628BA79B9859F741E082542A385502F25DBF55296C3A545E3872760AB7,
   0x3617DE4A96262C6F5D9E98BF9292DC29F8F41DBD289A147CE9DA3113B5F0B8C00A60B1CE1D7E819D7A431D7C90EA0E5F)

/-- b to the power e, modulo m; f bounds the bits of e. -/
def powMod (m : Nat) : Nat → Nat → Nat → Nat
  | 0, _, _ => 1 % m
  | f + 1, b, e =>
    let r := powMod m f (b * b % m) (e / 2)
    if e % 2 = 1 then r * b % m else r

/-- The inverse of a number modulo a prime below 2^384. -/
def invMod (m x : Nat) : Nat := powMod m 384 (x % m) (m - 2)

/-- The sum of two points; none is the point at infinity. -/
def ecAdd (a b : Option (Nat × Nat)) : Option (Nat × Nat) :=
  match a, b with
  | none, q => q
  | q, none => q
  | some (x, y), some (u, v) =>
    let p := p384P
    let sub := fun (i j : Nat) => (i + p - j % p) % p
    if x = u && (y + v) % p = 0 then none
    else
      let l := if x = u then sub (3 * x * x) 3 * invMod p (2 * y) % p else sub v y * invMod p (sub u x) % p
      let w := sub (sub (l * l) x) u
      some (w, sub (l * sub x w) y)

/-- A point k times; f bounds the bits of k. -/
def ecMul : Nat → Nat → Option (Nat × Nat) → Option (Nat × Nat)
  | 0, _, _ => none
  | f + 1, k, q =>
    let r := ecMul f (k / 2) (ecAdd q q)
    if k % 2 = 1 then ecAdd r q else r

/-- A point lies on the curve. -/
def onP384 (q : Nat × Nat) : Bool :=
  decide (q.1 < p384P ∧ q.2 < p384P ∧ (q.2 * q.2 + 3 * q.1) % p384P = (q.1 * q.1 * q.1 + p384B) % p384P)

/-- A signature (r, s) of a digest verifies under a key. -/
def ecdsaP384 (key : Nat × Nat) (digest : List Byte) (r s : Nat) : Bool :=
  let n := p384N
  let w := invMod n s
  let z := beNat digest
  onP384 key && decide (1 ≤ r ∧ r < n ∧ 1 ≤ s ∧ s < n) &&
    (match ecAdd (ecMul 384 (z * w % n) (some p384G)) (ecMul 384 (r * w % n) (some key)) with
      | some q => q.1 % n == r
      | none => false)

/-! ## The module-signing key (R327) -/

/-- The bank of a firmware component. -/
def FwComp.bank (c : FwComp) (b : Bool) : FwBank := if b then c.bank1 else c.bank0
def FwComp.running (c : FwComp) : FwBank := c.bank c.active

/-- SIG of a signature block verifies on the SHA-384 digest of bytes [159:0], under the key that the running firmware-core image holds. -/
def State.signatureOk (s : State) (b : List Byte) : Bool :=
  ecdsaP384 (Config.moduleSigningKey s.firmware.running.bytes) (sha384 (b.take 160)) (beNat ((b.drop 160).take 48)) (beNat ((b.drop 208).take 48))

end Sys2Proof.Machine
end

