-- ==== Sys2Proof/Machine/Regs.lean ====
section
/-! DEFINITION. The registers of BAR 0 that software writes (00/R7): semaphores (01/R14 to R16), power states (01/R24, R25, 20/R377), the
fuse counter (22/R405), error registers (19/R353, 22/R397), the page attribute table (05/R101), translation invalidation (05/R111, R112),
queues (07/R143, R145, 22/R394), contexts (07/R141), fault rings (19/R351), the watch log (10/R203), and the management path (01/R17). -/

namespace Sys2Proof.Machine

/-! ## Semaphores -/

/-- OWNER of Table 1.3. -/
def ownerCode : Agent → Nat
  | .port0 => 1 | .port1 => 2 | .mgmt => 3

def State.semOwner (s : State) (m : Sem) : Nat := ((s.reg (semReg m)).extractLsb' 0 2).toNat

def State.owns (s : State) (m : Sem) (a : Agent) : Bool := s.semOwner m = ownerCode a

/-- A change of OWNER: GEN rises by one. -/
def State.setOwner (s : State) (m : Sem) (o : Nat) : State :=
  let gen := (s.reg (semReg m)).extractLsb' 8 8 + 1
  s.setReg (semReg m) ((0#16 ++ gen) ++ BitVec.ofNat 8 o)

/-- The agent that won a semaphore's last contended acquire. -/
def SemWinners.get (w : SemWinners) : Sem → Option Agent
  | .power => w.power | .fwUpdate => w.fwUpdate | .fuse => w.fuse | .reset => w.reset

def SemWinners.set (w : SemWinners) (m : Sem) (a : Agent) : SemWinners :=
  match m with
  | .power => { w with power := some a }
  | .fwUpdate => { w with fwUpdate := some a }
  | .fuse => { w with fuse := some a }
  | .reset => { w with reset := some a }

/-- The cyclic order of R15 after a recorded agent. -/
def cyclicAfter : Option Agent → List Agent
  | none | some .mgmt => [.port0, .port1, .mgmt]
  | some .port0 => [.port1, .mgmt, .port0]
  | some .port1 => [.mgmt, .port0, .port1]

/-- Acquire requests that arrive in one clock (R14, R15). -/
def State.acquire (s : State) (m : Sem) (agents : List Agent) : State :=
  if s.semOwner m != 0 then s
  else
    match (cyclicAfter (s.semWin.get m)).filter agents.contains with
    | [] => s
    | [a] => s.setOwner m (ownerCode a)
    | a :: _ => { s.setOwner m (ownerCode a) with semWin := s.semWin.set m a }

/-- A release request (R14). -/
def State.release (s : State) (m : Sem) (a : Agent) : State := if s.owns m a then s.setOwner m 0 else s

/-- Every semaphore that an agent holds is released (R406). -/
def State.releaseSems (s : State) (a : Agent) : State :=
  [Sem.power, .fwUpdate, .fuse, .reset].foldl (fun s m => s.release m a) s

/-- The resource of SEMERR (Table 22.2): its bit. -/
def semRes : Sem → Nat
  | .power => 4 | .fwUpdate => 5 | .fuse => 6 | .reset => 7

/-- An unheld write to a guarded control is recorded in SEMERR (R406). -/
def State.unheld (s : State) (m : Sem) (a : Agent) : State :=
  if (s.reg regSemErr).getLsbD 31 then s
  else s.setReg regSemErr (BitVec.ofNat 32 (2 ^ 31 + 2 ^ semRes m + ownerCode a))

/-- SEMAPHORE_ACQUIRE: writes with bit 0 set by agents in one clock. -/
def execSemaphoreAcquire (sem : Sem) (agents : List Agent) (s : State) : Host.Outcome State Fault Refusal := .next (s.acquire sem agents)

/-- SEMAPHORE_RELEASE: a write with bit 0 clear. -/
def execSemaphoreRelease (sem : Sem) (a : Agent) (s : State) : Host.Outcome State Fault Refusal := .next (s.release sem a)

/-! ## Power states (Table 1.6) -/

/-- A field of PSTATE, from a bit on. -/
def State.setPstate (s : State) (lo n x : Nat) : State :=
  let r := (s.reg regPstate).toNat
  s.setReg regPstate (BitVec.ofNat 32 (r - r / 2 ^ lo % 2 ^ n * 2 ^ lo + x % 2 ^ n * 2 ^ lo))

def State.busy (s : State) : Bool := (s.reg regPstate).getLsbD 15
def State.tripped (s : State) : Bool := (s.reg regPstate).getLsbD 14

/-- A change of state begins (R25): REQ names it and BUSY is 1. -/
def State.startChange (s : State) (req : BitVec 3) (trip : Bool) : State :=
  { (s.setPstate 0 3 req.toNat).setPstate 15 1 1 with psChange := some (req, trip) }

/-- A request is held until the change in progress is over, or until every sensor reads below 95 °C (R25, R377). -/
def State.holdChange (s : State) (req : BitVec 3) : State := { s.setPstate 15 1 1 with psHeld := some req }

/-- A write of PSTATE by an agent. -/
def State.writePstate (s : State) (a : Agent) (value : Word) : State :=
  let req := value.extractLsb' 0 3
  if !s.owns .power a then s.unheld .power a
  else if 6 ≤ req.toNat then s
  else if s.psChange.isSome || (s.hot && req != 5) then s.holdChange req
  else { s.startChange req false with psHeld := none }

/-- What the sensors read at a write of PSTATE: while one reads 95 °C or more, and until every sensor reads less, the write is held (R377). -/
def State.sense (s : State) (hot : Bool) : State := { s with hot := s.hot || hot }

/-- PSTATE_WRITE. -/
def execPstateWrite (a : PsWriter) (value : Word) (s : State) : Host.Outcome State Fault Refusal :=
  .next ((s.sense a.hot).writePstate a.agent value)

/-- The request held, where it may be applied. -/
def State.applyHeldChange (s : State) : State :=
  match s.psHeld with
  | none => s
  | some r => if s.hot && r != 5 then s else { s.startChange r false with psHeld := none }

/-- The change in progress is over: CUR is updated, TRIP says how the state was entered, and a trip made meanwhile follows, else a held
request. -/
def State.changeDone (s : State) (req : BitVec 3) (trip : Bool) : State :=
  let keep := s.tripped && s.pcur = 5 && req = 5
  let s1 := { (s.setPstate 8 3 req.toNat).setPstate 14 1 (if trip || keep then 1 else 0) with psChange := none }
  if s1.psTrip then { s1.startChange 5 true with psTrip := false }
  else if s1.psHeld.isSome then s1.applyHeldChange
  else s1.setPstate 15 1 0

/-- Instructions already issued have completed, as far as they need no more of any unit: no access may still be performed, and no array
command is running (R25, log 73). -/
def State.issuedDone (s : State) : Bool :=
  !(s.accesses.any fun q => s.mayPerform q.1 q.2) && !(s.arrays.any fun q => q.2.any fun c => c.started)

/-- POWER_STATE_CHANGE_DONE. -/
def execPowerStateChangeDone (s : State) : Host.Outcome State Fault Refusal :=
  match s.psChange with
  | some (req, trip) => if s.sel.isSome || !s.issuedDone then .next s else .next (s.changeDone req trip)
  | none => .next s

/-! ## The fuse counter and the error registers -/

/-- A write of FUSECNT by an agent (R405): an advance purges the revoked entries of the translation cache. -/
def State.writeFuse (s : State) (a : Agent) (value : Word) : State :=
  if !value.getLsbD 0 then s
  else if !s.owns .fuse a then s.unheld .fuse a
  else
    let n := min 64 ((s.reg regFuseCnt).toNat + 1)
    { s.setReg regFuseCnt (BitVec.ofNat 32 n) with transCache := s.transCache.filter fun e => n ≤ e.secver }

/-- FUSE_ADVANCE. -/
def execFuseAdvance (a : Agent) (value : Word) (s : State) : Host.Outcome State Fault Refusal := .next (s.writeFuse a value)

/-- A write of 1 clears a bit of DEVERR. -/
def State.writeDevErr (s : State) (value : Word) : State := s.setReg regDevErr (s.reg regDevErr &&& ~~~value)

/-- DEVERR_CLEAR. -/
def execDeverrClear (value : Word) (s : State) : Host.Outcome State Fault Refusal := .next (s.writeDevErr value)

/-- A write of 1 to VALID, bit 31, clears it. -/
def State.clearValid (s : State) (r : Nat) (value : Word) : State :=
  if value.getLsbD 31 then s.setReg r (s.reg r &&& 0x7FFFFFFF#32) else s

/-- UESRC_CLEAR. -/
def execUesrcClear (value : Word) (s : State) : Host.Outcome State Fault Refusal := .next (s.clearValid regUeSrc value)

/-- STOPERR_CLEAR. -/
def execStoperrClear (value : Word) (s : State) : Host.Outcome State Fault Refusal := .next (s.clearValid regStopErr value)

/-- SEMERR_CLEAR. -/
def execSemerrClear (value : Word) (s : State) : Host.Outcome State Fault Refusal := .next (s.clearValid regSemErr value)

/-! ## The page attribute table -/

/-- Bits of an entry that are not reserved (Table 5.2). -/
def patMask : BitVec 64 := 0xFFE01FFF#64

/-- A write of an entry is ignored as a whole (R101). -/
def State.patRefused (s : State) (page : Nat) (e : BitVec 64) : Bool :=
  decide (240 ≤ patFrame e) || (patSC e && patClaim e) ||
    (patValid e && s.pat.any fun q => q.1 != page && patValid q.2 && patHome q.2 = patHome e && patFrame q.2 = patFrame e)

/-- The cell of a scratchpad address on a page whose entry is rewritten, under the new entry; others stay. -/
def newCell (page : Nat) (e : BitVec 64) (addr cell : Nat) : Nat :=
  if addr / 2 ^ 16 = page then cellScr (patHome e) (patFrame e) (addr % 2 ^ 16) else cell

/-- An access that has not reached the page's home is performed under the new entry (R102). -/
def Access.rehome (a : Access) (page : Nat) (e : BitVec 64) : Access :=
  if !a.scratch then a
  else { a with lanes := a.lanes.map fun l =>
    if l.addr / 2 ^ 16 = page then { l with cell := newCell page e l.addr l.cell, home := patSC e || patClaim e } else l }

/-- The same for a copy, whose pages in scratchpad are on one side. -/
def Copy.rehome (c : Copy) (page : Nat) (e : BitVec 64) : Copy :=
  match c.kind with
  | .cpin true | .cpgat true => { c with moves := c.moves.map fun m => { m with dst := newCell page e m.daddr m.dst } }
  | .cpout true => { c with moves := c.moves.map fun m => { m with src := newCell page e m.saddr m.src } }
  | _ => c

/-- A write of an entry that is taken: what has not reached the home of the page goes to the new one, where there is one (R102, log 51). -/
def State.writePat (s : State) (page : Nat) (e : BitVec 64) : State :=
  let s1 := { s with pat := SMap.set s.pat page e }
  if !patValid e then s1
  else { s1 with
    accesses := AMap.mapV s.accesses fun _ a => a.rehome page e
    copies := AMap.mapV s.copies fun _ c => c.rehome page e }

/-- PAGE_ATTRIBUTE_WRITE: a 64-bit access, or a 32-bit access to the low half; the high half is reserved. -/
def execPageAttributeWrite (page : BitVec 13) (part : PatPart) (value : Dword) (s : State) : Host.Outcome State Fault Refusal :=
  let e := value &&& patMask
  match part with
  | .hi => .next s
  | .whole | .lo => .next (if s.patRefused page.toNat e then s else s.writePat page.toNat e)

/-! ## Translation invalidation (Table 5.6) -/

/-- The address in a register set. -/
def State.invAddr (s : State) (set : Bool) : Nat := (s.reg (regInv set 4)).toNat * 2 ^ 32 + (s.reg (regInv set 0)).toNat

/-- A write of INVCMD that is taken: BUSY is 1, the cached translations in scope are gone, and the copies of the contexts in scope that have
made their pre-flight are those it waits for (R112). -/
def State.invalidate (s : State) (set : Bool) (scope ctx : Nat) (hit : TlbEntry → Bool) : State :=
  if (s.reg (regInv set 8)).getLsbD 31 then s
  else
    let ids := (s.copies.filter fun q => (q.2.stage = .begun || q.2.stage = .claims) && (scope = 2 || q.2.ctx = ctx)).map Prod.fst
    { s.setReg (regInv set 8) (BitVec.ofNat 32 (2 ^ 31 + scope * 256 + ctx)) with
      tlb := s.tlb.filter fun e => !hit e
      invWait := AMap.set s.invWait set.toNat ids }

/-- INVALIDATE_PAGE: SCOPE 0b00. -/
def execInvalidatePage (set : Bool) (ctx : BitVec 5) (s : State) : Host.Outcome State Fault Refusal :=
  let a := s.invAddr set
  .next (s.invalidate set 0 ctx.toNat fun e => e.ctx = ctx.toNat && decide (e.page.va ≤ a ∧ a < e.page.va + e.page.size))

/-- INVALIDATE_CONTEXT: SCOPE 0b01. -/
def execInvalidateContext (set : Bool) (ctx : BitVec 5) (s : State) : Host.Outcome State Fault Refusal :=
  .next (s.invalidate set 1 ctx.toNat fun e => e.ctx = ctx.toNat)

/-- INVALIDATE_ALL: SCOPE 0b10; CTX is kept as it was written. -/
def execInvalidateAll (r : InvalAll) (s : State) : Host.Outcome State Fault Refusal :=
  .next (s.invalidate r.set 2 r.ctx.toNat fun _ => true)

/-- INVALIDATE_DONE: the copies it waits for have made all their reads and writes (R112). -/
def execInvalidateDone (set : Bool) (s : State) : Host.Outcome State Fault Refusal :=
  let ids := (AMap.get? s.invWait set.toNat).getD []
  if (s.reg (regInv set 8)).getLsbD 31 && ids.all fun i => (AMap.get? s.copies i).elim true fun c => c.stage != .begun && c.stage != .claims then
    .next { s.setReg (regInv set 8) (s.reg (regInv set 8) &&& 0x7FFFFFFF#32) with invWait := AMap.del s.invWait set.toNat }
  else .next s

/-! ## Queues (Table 7.2, R394, R397) -/

/-- Ring size Q. -/
def State.qSize (s : State) (q : Nat) : Nat := 2 ^ ((s.reg (regQ q 8)).extractLsb' 0 5).toNat

/-- A queue enters STATE 2 or 4 for its packet n (R397). -/
def State.queueError (s : State) (q st n : Nat) : State :=
  let r := if q < 32 then regQErrLo else regQErrHi
  (((s.setQStat q st).setReg r (s.reg r ||| bit32 (q % 32))).setReg (regQErrIdx q) (BitVec.ofNat 32 n)).raiseBoth regQErrVec

/-- The queue's bit clears when it returns to STATE 1 or reaches STATE 0. -/
def State.clearQueueError (s : State) (q : Nat) : State :=
  let r := if q < 32 then regQErrLo else regQErrHi
  s.setReg r (s.reg r &&& ~~~bit32 (q % 32))

/-- A write of QCFG (R143). -/
def State.writeQcfg (s : State) (q : Nat) (value : Word) : State :=
  let v := value &&& 0xDF00001F#32
  let log2 := (value.extractLsb' 0 5).toNat
  if (s.reg (regQ q 8)).getLsbD 31 || log2 < 4 || 16 < log2 then s
  else if !value.getLsbD 31 then s.setReg (regQ q 8) v
  else if !s.ctxValid (value.extractLsb' 24 5).toNat then s
  else { (((s.setReg (regQ q 8) v).setReg (regQ q 0xC) 0).setReg (regQ q 0x10) 0).setQStat q 1 with polls := AMap.del s.polls q, laps := AMap.del s.laps q }

/-- QUEUE_ENABLE. -/
def execQueueEnable (q : BitVec 6) (value : Word) (s : State) : Host.Outcome State Fault Refusal := .next (s.writeQcfg q.toNat value)

/-- A write of QNOTIFY: WIDX; a count out of range makes the queue stale, and any other write returns a stale queue to polling (R394). -/
def State.writeNotify (s : State) (q : Nat) (value : Word) : State :=
  let s1 := s.setReg (regQ q 0xC) value
  let st := s.qStat q
  let ridx := s.reg (regQ q 0x10)
  if st != 1 && st != 2 then s1
  else if s.qSize q < (value - ridx).toNat then s1.queueError q 2 ridx.toNat
  else if st = 2 then { (s1.setQStat q 1).clearQueueError q with polls := AMap.del s.polls q }
  else s1

/-- QUEUE_NOTIFY. -/
def execQueueNotify (q : BitVec 6) (value : Word) (s : State) : Host.Outcome State Fault Refusal := .next (s.writeNotify q.toNat value)

/-! ## The watch log (Table 10.1, R203) -/

/-- A write of WLCFG; the indices are cleared where EN was 0 (log 66). -/
def State.writeWatch (s : State) (value : Word) : State :=
  let old := s.reg (regMan 0x108)
  let log2 := (value.extractLsb' 0 5).toNat
  if log2 < 8 || 20 < log2 then s
  else if old.getLsbD 31 then s.setReg (regMan 0x108) ((old &&& 0x1F#32) ||| (value &&& 0x80000000#32))
  else
    let s1 := s.setReg (regMan 0x108) (value &&& 0x8000001F#32)
    if value.getLsbD 31 then ((s1.setReg (regMan 0x10C) 0).setReg (regMan 0x110) 0).setReg (regMan 0x114) 0 else s1

/-- WATCH_LOG_ENABLE. -/
def execWatchLogEnable (value : Word) (s : State) : Host.Outcome State Fault Refusal := .next (s.writeWatch value)

/-! ## Device state of a context that a register write touches -/

/-- The held counts of a context are discarded (R284). -/
def State.dropCounts (s : State) (ctx : Nat) (keep : PeerCount → Bool) : State :=
  ({ s with peerCounts := s.peerCounts.filter fun e => e.ctx != ctx || keep e }).admitHeld

/-- A write of a context register (Table 7.1, R141): locked while STATE is not 0, but for TSLICE. -/
def State.writeCtx (s : State) (c off : Nat) (value : Word) : State :=
  let idle := s.ctxStat c = 0
  match off with
  | 0x0 => if idle then s.setReg (regCtx c 0) (value &&& 0xFFFFF000#32) else s
  | 0x4 => if idle then s.setReg (regCtx c 4) (value &&& 0xFFFFF#32) else s
  | 0x8 => if idle then s.setReg (regCtx c 8) (value &&& 0xFFFF0000#32) else s
  | 0xC => if idle then s.setReg (regCtx c 0xC) (value &&& 0xFFFFF#32) else s
  | 0x10 =>
    let s1 := s.setReg (regCtx c 0x10)
      ((if idle then value &&& 0x80000000#32 else s.reg (regCtx c 0x10) &&& 0x80000000#32) ||| (value &&& 0xFFFF#32))
    if idle && !value.getLsbD 31 then s1.dropCounts c fun _ => false else s1
  | _ => s

/-- A write of a fault ring register (Table 19.5). -/
def State.writeRing (s : State) (c off : Nat) (value : Word) : State :=
  match off with
  | 0x0 => s.setReg (regFr c 0) (value &&& 0xFFFFFFC0#32)
  | 0x4 => s.setReg (regFr c 4) (value &&& 0xFFFFF#32)
  | 0x8 =>
    let n := (value.extractLsb' 0 5).toNat
    if n < 4 || 12 < n then s else s.setReg (regFr c 8) (value &&& 0xC000FF1F#32)
  | 0x10 => s.setReg (regFr c 0x10) value
  | _ => s

/-- A write of a manifest register (Table 10.1): the watch log's alone are writable. -/
def State.writeMan (s : State) (off : Nat) (value : Word) : State :=
  let en := (s.reg (regMan 0x108)).getLsbD 31
  match off with
  | 0x100 => if en then s else s.setReg (regMan 0x100) (value &&& 0xFFFFFFE0#32)
  | 0x104 => if en then s else s.setReg (regMan 0x104) (value &&& 0xFFFFF#32)
  | 0x108 => s.writeWatch value
  | 0x110 => s.setReg (regMan 0x110) value
  | _ => s

/-- A write of a queue register. -/
def State.writeQueue (s : State) (q off : Nat) (value : Word) : State :=
  let en := (s.reg (regQ q 8)).getLsbD 31
  match off with
  | 0x0 => if en then s else s.setReg (regQ q 0) (value &&& 0xFFFFF000#32)
  | 0x4 => if en then s else s.setReg (regQ q 4) value
  | 0x8 => s.writeQcfg q value
  | 0xC => s.writeNotify q value
  | _ => s

/-- A write of a debug register other than a command (Table 22.3). -/
def State.writeDbg (s : State) (c off : Nat) (value : Word) : State :=
  match off with
  | 0x0 => s.setReg (regDbg c 0) (value &&& 0x80000000#32)
  | 0x8 => s.setReg (regDbg c 8) (value &&& 0xFFFFFFC0#32)
  | 0xC => s.setReg (regDbg c 0xC) (value &&& 0xFFFFF#32)
  | _ => s

end Sys2Proof.Machine
end

