-- ==== Sys2Proof/Machine/Launching.lean ====
section
/-! DEFINITION. From an accepted launch packet to the launch's end: the checks of its structures (07/R154, 08/R164, 09/R180), its waits
(07/R155, 09/R182, 01/R20), its span and placement (02/R31 to R34, 07/R156, R157), and its completion (02/R46, 07/R151, 10/R198, R199). -/

namespace Sys2Proof.Machine

/-! ## The launch descriptor (Table 7.6) -/

/-- SHAPE is one of Table 2.3. -/
def shapeOk (b : Nat) : Bool :=
  let lx := b % 8
  let ly := b / 8 % 8
  b < 64 && ((lx == 5 && ly == 0) || (decide (1 ≤ lx ∧ 1 ≤ ly ∧ lx + ly ≤ 5)))

/-- The fields that every launch reads are in range. -/
def Launch.commonOk (l : Launch) : Bool :=
  fieldNat l.desc 20 4 == 0 && fieldNat l.desc 37 3 == 0 && fieldNat l.desc 74 2 == 0 && fieldNat l.desc 84 44 == 0 &&
    fieldNat l.desc 160 32 == 0 && decide (fieldNat l.desc 0 1 < 8 ∧ fieldNat l.desc 1 1 < 4) &&
    decide (1 ≤ l.gcount ∧ l.gcount ≤ 128 ∧ l.regs ≤ 256 ∧ l.spill ≤ 64 * 1024 ∧ l.acc ≤ 32 ∧ l.bars ≤ 64 ∧ l.bpd ≤ 16384 ∧
      l.shmem ≤ 512 * 1024) &&
    l.codeOff % 32 == 0 && (l.trapOff % 32 == 0 || l.trapOff == 0xFFFFFFFF)

/-- The tile fields are in range. -/
def Launch.tileOk (l : Launch) : Bool := shapeOk l.shape && decide (l.tiles ≤ 2 ^ 63 - 1) && (!l.isCov || l.covAddr.toNat % 64 == 0)

/-- The task fields are in range. -/
def Launch.taskOk (l : Launch) : Bool :=
  !l.isDet && !l.isCov && decide (l.tq < 64 ∧ 6 ≤ fieldNat l.desc 73 1 ∧ fieldNat l.desc 73 1 ≤ 24 ∧ l.ninit ≤ l.cap) &&
    l.tqBase.toNat % 4096 == 0 && l.claimAddr.toNat % 256 == 0

/-! ## Resources (Table 2.2) -/

/-- What is taken on one core. -/
structure CoreUse where
  blocks : Nat := 0
  ctxs : List Nat := []
  /-- group slots in use, by port -/
  slots : List Nat := []
  /-- allocated registers per thread: port, first register, number -/
  regs : List (Nat × Nat × Nat) := []
  spill : List (Nat × Nat) := []
  shared : List (Nat × Nat) := []
  /-- landing barriers in use -/
  bars : List Nat := []
  tiles : List Nat := []
  bplane : List (Nat × Nat) := []
deriving DecidableEq, Repr

/-- Two uses of a core together. -/
def CoreUse.add (a b : CoreUse) : CoreUse :=
  { blocks := a.blocks + b.blocks, ctxs := (a.ctxs ++ b.ctxs).eraseDups, slots := a.slots ++ b.slots, regs := a.regs ++ b.regs
    spill := a.spill ++ b.spill, shared := a.shared ++ b.shared, bars := a.bars ++ b.bars, tiles := a.tiles ++ b.tiles
    bplane := a.bplane ++ b.bplane }

/-- The register runs of one port. -/
def CoreUse.portRegs (u : CoreUse) (p : Nat) : List (Nat × Nat) := (u.regs.filter fun x => x.1 = p).map Prod.snd

/-- A run of n units from a base meets none of the runs taken. -/
def clearAt (taken : List (Nat × Nat)) (n b : Nat) : Bool :=
  n = 0 || taken.all fun r => r.2 = 0 || decide (b + n ≤ r.1 ∨ r.1 + r.2 ≤ b)

/-- The lowest base at which a run of n units lies clear of those taken and within the room; storage is free only in such a run (log 41). -/
def firstFit (taken : List (Nat × Nat)) (room n : Nat) : Option Nat :=
  leastBy id ((0 :: taken.map fun r => r.1 + r.2).filter fun b => decide (b + n ≤ room) && clearAt taken n b)

/-- The bases of several runs of n units, one after another. -/
def fitRuns (room n : Nat) : Nat → List (Nat × Nat) → Option (List Nat)
  | 0, _ => some []
  | k + 1, taken =>
    match firstFit taken room n with
    | none => none
    | some b => (fitRuns room n k ((b, n) :: taken)).map fun l => b :: l

/-- Group slots of a port: 64, but 63 on port 7 of a cluster's first core (R11). -/
def portSlots (core port : Nat) : Nat := if core % 8 = 0 && port = 7 then 63 else 64

/-- Groups of a block on core i of its span and one port (R32). -/
def groupsOn (g span i port : Nat) : List Nat := (List.range g).filter fun k => k % span = i && k / span % 8 = port

/-- One resource of a core for a newcomer: whether it is short, and whether a given use holds some of it. -/
structure Dim where
  short : Bool
  held : CoreUse → Bool

/-- The resources that a launch's block needs on core i of its span, beside what is taken there (R32, R157). -/
def Launch.dims (l : Launch) (u : CoreUse) (span core i : Nat) : List Dim :=
  let here := ((List.range l.gcount).filter fun k => k % span = i).length
  [⟨decide (8 ≤ u.blocks), fun c => decide (0 < c.blocks)⟩,
   ⟨decide (4 < (if u.ctxs.contains l.ctx then u.ctxs.length else u.ctxs.length + 1)), fun c => decide (0 < c.blocks)⟩,
   ⟨(fitRuns (512 * 1024) l.spill here u.spill).isNone, fun c => !c.spill.isEmpty⟩,
   ⟨(firstFit u.shared (512 * 1024) l.shmem).isNone, fun c => c.shared.any fun x => x.2 != 0⟩,
   ⟨i == 0 && decide (64 < u.bars.length + l.bars), fun c => !c.bars.isEmpty⟩,
   ⟨decide (32 < u.tiles.length + l.acc), fun c => !c.tiles.isEmpty⟩,
   ⟨(firstFit u.bplane 16384 l.bpd).isNone, fun _ => false⟩] ++
  (List.range 8).flatMap fun p =>
    let n := (groupsOn l.gcount span i p).length
    [⟨decide (portSlots core p < (u.slots.filter fun x => x / 64 = p).length + n), fun c => c.slots.any fun x => x / 64 = p⟩,
     ⟨(fitRuns 2048 l.regs n (u.portRegs p)).isNone, fun c => c.regs.any fun x => x.1 = p⟩]

/-- A block fits on core i of its span. -/
def Launch.fitsCore (l : Launch) (u : CoreUse) (span core i : Nat) : Bool := (l.dims u span core i).all fun d => !d.short

/-- The span size: the smallest for which the block fits on every span of empty cores, a cluster's first included (R32). -/
def Launch.spanSize (l : Launch) : Option Nat :=
  [1, 2, 4, 8].find? fun s => (List.range s).all fun i => l.fitsCore {} s i i

/-- The first cores of the spans of s cores that lie in the core mask, ascending. -/
def Launch.spansOf (l : Launch) (s : Nat) : List Nat :=
  ((List.range (256 / s)).map fun k => s * k).filter fun c => (List.range s).all fun i => l.cmask.getLsbD (c + i)

/-- The blocks of a context that is saved. -/
def Context.savedBlocks (x : Context) : AMap Block := (x.saved.map (·.blocks)).getD []

/-- What the contexts that are kept take on a core; every context's B-plane counts, a saved one's too (R162). -/
def State.coreUse (s : State) (core : Nat) (keep : Nat → Bool) : CoreUse :=
  let ctxOf : Block → Nat := fun b => ((s.launch b.launch).map (·.ctx)).getD 0
  let all := s.blocks.filter fun q => decide (q.2.core ≤ core ∧ core < q.2.core + q.2.span)
  let here := all.filter fun q => keep (ctxOf q.2)
  let gs := s.groups.filter fun q => coreOf q.1 = core && keep q.2.ctx
  let size : (Launch → Nat) → Block → Nat := fun f b => ((s.launch b.launch).map f).getD 0
  let away := s.contexts.flatMap fun q => q.2.savedBlocks.filter fun r => decide (r.2.core ≤ core ∧ core < r.2.core + r.2.span)
  { blocks := here.length
    ctxs := (here.map fun q => ctxOf q.2).eraseDups
    slots := gs.map fun q => q.1 % 512
    regs := gs.map fun q => (portOf q.1, q.2.vBase, q.2.nregs)
    spill := gs.map fun q => (q.2.spBase, q.2.spSize)
    shared := here.map fun q => (q.2.shBase.getD (core - q.2.core) 0, size Launch.shmem q.2)
    bars := here.flatMap fun q => if q.2.core = core then q.2.barNums else []
    tiles := here.flatMap fun q => q.2.tiles.getD (core - q.2.core) []
    bplane := (all ++ away).map fun q => (q.2.bpBase.getD (core - q.2.core) 0, size Launch.bpd q.2) }

/-- What a saved context needs again on a core; its B-plane is still its own (R162, R163). -/
def State.savedUse (s : State) (v : Saved) (core : Nat) : CoreUse :=
  let bs := v.blocks.filter fun q => decide (q.2.core ≤ core ∧ core < q.2.core + q.2.span)
  let gs := v.groups.filter fun q => coreOf q.1 = core
  { blocks := bs.length
    slots := gs.map fun q => q.1 % 512
    regs := gs.map fun q => (portOf q.1, q.2.vBase, q.2.nregs)
    spill := gs.map fun q => (q.2.spBase, q.2.spSize)
    shared := bs.map fun q => (q.2.shBase.getD (core - q.2.core) 0, ((s.launch q.2.launch).map Launch.shmem).getD 0)
    bars := bs.flatMap fun q => if q.2.core = core then q.2.barNums else []
    tiles := bs.flatMap fun q => q.2.tiles.getD (core - q.2.core) [] }

/-- What is taken on a core where a newcomer of a context is to keep clear of the places to which the context's own saved blocks return
(log 41). -/
def State.useFor (s : State) (ctx core : Nat) (keep : Nat → Bool) : CoreUse :=
  match (s.context ctx).saved with
  | some v => (s.coreUse core keep).add (s.savedUse v core)
  | none => s.coreUse core keep

/-- A launch fits beside the contexts that are kept: every block on its span, all at once (R157). -/
def State.fits (s : State) (l : Launch) (keep : Nat → Bool) : Bool :=
  (l.spansOf l.span).all fun c => (List.range l.span).all fun i => l.fitsCore (s.coreUse (c + i) keep) l.span (c + i) i

/-! ## Coverage descriptor and claim table -/

/-- The coverage descriptor is in order (R164, Table 8.2); under pattern 0 the kernel alone is ignored (log 54). -/
def Launch.covOk (l : Launch) : Bool :=
  let p := l.covPat
  let kern := l.covKern
  let kernOk := match p with
    | 1 => kern == 0 || kern == 1
    | 2 => kern != 3
    | _ => kern == 0
  let sz := (covTy l.covType).size
  fieldNat l.cov 48 16 == 0 && decide (fieldNat l.cov 0 1 < 16 ∧ fieldNat l.cov 1 1 < 32 ∧ 1 ≤ fieldNat l.cov 2 1 ∧
      fieldNat l.cov 2 1 ≤ 6 ∧ (l.slog = 0 ∨ 4 ≤ l.slog ∧ l.slog ≤ 8) ∧ l.qMin ≤ l.qInit ∧ l.qInit ≤ l.qMax) &&
    decide (l.covType < 6 ∧ sz ≤ l.recSize ∧ l.baseShare ≤ l.qMin) &&
    (l.ut == 0 || l.slog == 0 || decide (l.errIdx < l.recSize / sz)) &&
    (p == 0 || (kernOk && (kern != 2 || decide (l.covType < 4)))) &&
    (p != 1 || decide (1 ≤ fieldNat l.cov 11 1 ∧ fieldNat l.cov 11 1 ≤ 4 ∧ l.covAxis < 3)) && (p != 3 || l.nmod != 0) &&
    l.grid % l.recSize == 0 && decide (l.grid + l.recSize * (l.xExt * l.yExt * l.zExt) ≤ scrLast + 1) &&
    (l.histLen == 0 || decide (l.qHist + l.histLen ≤ scrLast + 1))

/-- Pages of a run of scratchpad. -/
def pagesOf (addr n : Nat) : List Nat := (List.range ((addr % 2 ^ 16 + n + 2 ^ 16 - 1) / 2 ^ 16)).map fun i => addr / 2 ^ 16 + i

/-- One range entry is in order (R180). -/
def State.rangeOk (s : State) (l : Launch) (r : Nat) : Bool :=
  let e := l.range r
  let own := 16 * (e.size / 2 ^ e.log2ss)
  fieldNat l.claim (16 * r) 3 == 0 &&
    (e.size == 0 ||
      (decide (6 ≤ e.log2ss ∧ e.log2ss ≤ 16) && e.base % 2 ^ 16 == 0 && e.size % 2 ^ e.log2ss == 0 && e.owner % 64 == 0 &&
        decide (e.base + e.size ≤ scrLast + 1 ∧ e.owner + own ≤ scrLast + 1) &&
        ((pagesOf e.base e.size).all fun p => patValid (SMap.get s.pat p) && patClaim (SMap.get s.pat p)) &&
        ((pagesOf e.owner own).all fun p =>
          let a := SMap.get s.pat p
          !patClaim a && !patSC a && !patRO a)))

/-- The claim table is in order: every entry, and no two ranges overlap. -/
def State.claimOk (s : State) (l : Launch) : Bool :=
  (List.range 16).all fun r => s.rangeOk l r && (List.range r).all fun q =>
    let a := l.range q
    let b := l.range r
    a.size == 0 || b.size == 0 || decide (a.base + a.size ≤ b.base ∨ b.base + b.size ≤ a.base)

/-! ## Acceptance (R154, R164, R180, R396) -/

/-- What the reading of a launch packet's structures finds. -/
inductive LaunchRead
  | malformed
  /-- a structure cannot be read: CODE 0x02 -/
  | unread
  | ok (l : Launch)
deriving DecidableEq, Repr

/-- The bits of a structure. -/
def structBits (w : Nat) (bs : List Byte) : BitVec w := BitVec.ofNat w (leNat bs)

/-- Reading and checking a launch's structures. -/
def State.readLaunch (s : State) (q idx : Nat) (tile : Bool) (desc : Dword) : LaunchRead :=
  let ctx := s.qCtx q
  match s.vaRead ctx desc 256 with
  | none => .unread
  | some bs =>
    let l0 : Launch :=
      { queue := q, ctx := ctx, pkt := idx, desc := structBits 2048 bs, stamp := s.clk.toNat
        devhash := structBits 256 ((List.range 8).flatMap fun i => bytesOf 4 (s.reg (regMan (0x80 + 4 * i)))) }
    if !l0.commonOk || l0.isTask == tile || !(if tile then l0.tileOk else l0.taskOk) then .malformed
    else
      match l0.spanSize with
      | none => .malformed
      | some sp =>
        let l1 := { l0 with span := sp }
        if (l1.spansOf sp).isEmpty then .malformed
        else if l1.isCov then
          match s.vaRead ctx l1.covAddr 64 with
          | none => .unread
          | some cs =>
            let l2 := { l1 with cov := structBits 512 cs }
            if l2.covOk then .ok { l2 with qs := [l2.qInit] } else .malformed
        else if l1.hasClaims then
          match s.vaRead ctx l1.claimAddr 256 with
          | none => .unread
          | some cs =>
            let l2 := { l1 with claim := structBits 2048 cs }
            if s.claimOk l2 then .ok l2 else .malformed
        else .ok l1

/-- A launch is accepted: its context is active (R141), and the history gets QINIT (R177). -/
def State.acceptLaunch (s : State) (l : Launch) : State :=
  let i := s.nextId
  let s1 := { s with launches := AMap.set s.launches i l, nextId := i + 1 }
  let s2 := if s1.ctxStat l.ctx = 0 then s1.setCtxStat l.ctx 1 else s1
  if l.isCov && 0 < l.histLen then s2.covWrite i l l.qHist [BitVec.ofNat 8 (l.qInit - 1)] false else s2

/-! ## Waiting to begin -/

/-- Every core of the mask lies in a cluster that is ready (R20). -/
def State.clustersReady (s : State) (l : Launch) : Bool :=
  (List.range 32).all fun k => s.ready k || fieldNat l.cmask k 1 == 0

/-- The pages that a launch's claim table names. -/
def Launch.claimPages (l : Launch) : List Nat :=
  (List.range 16).flatMap fun r => let e := l.range r; if e.size = 0 then [] else pagesOf e.base e.size

/-- A placed launch's claim table names a page. -/
def State.claimPlaced (s : State) (page : Nat) : Bool :=
  s.launches.any fun q => q.2.stage = .placed && q.2.hasClaims && q.2.claimsPage page

/-- A launch is held at the head of its queue (R20, R155, R182). -/
def State.launchHeld (s : State) (l : Launch) : Bool :=
  l.code == 0 && !l.status.getLsbD 5 &&
    (!s.clustersReady l ||
      ((List.range 64).any fun q => l.prodq.getLsbD q && !(l.isTask && q == l.tq) &&
        (AMap.get? s.taskQueues q).elim true fun t => t.ctx != l.ctx) ||
      (l.isTask && (AMap.get? s.taskQueues l.tq).isSome) ||
      (l.hasClaims && l.claimPages.any s.claimPlaced))

/-! ## Completion -/

/-- The 8 bytes of a completion record's STATUS (Table 22.1). -/
def statusBytes (code bits : Nat) : List Byte := leBytes 8 (code * 256 + bits)

/-- What stays of a context that becomes idle: a debugger's command in progress. -/
def Context.idle (x : Context) : Context := { heldCmd := x.heldCmd, toDrain := x.toDrain }

/-- A context with no launch left is idle (R141), a drained one too: its held counts are discarded (R284) and its slice forgotten. -/
def State.settleCtx (s : State) (ctx : Nat) : State :=
  if s.launches.any fun q => q.2.ctx = ctx then s
  else if s.ctxStat ctx = 1 || s.ctxStat ctx = 3 then ((s.setCtxStat ctx 0).setContext ctx (s.context ctx).idle).dropCounts ctx fun _ => false
  else s

/-- Bytes of a digest. -/
def hashBytes (bs : List Byte) : List Byte := sha256 bs

/-- ARGHASH, MODSET and COVHASH (R199). -/
def Launch.argHash (l : Launch) : List Byte :=
  let d := bytesOf 256 l.desc
  hashBytes (d.drop 192 ++ ((List.range 84).map fun i =>
    if i = 1 || i = 10 || i = 11 || (48 ≤ i && i ≤ 71) then 0 else d.getD i 0))

def Launch.modSet (l : Launch) : List Byte := hashBytes (l.mods.flatMap fun q => leBytes 2 q.1 ++ bytesOf 32 q.2)

def Launch.covHash (l : Launch) : List Byte :=
  if l.isCov then
    let c := bytesOf 64 l.cov
    hashBytes ((c.drop 24).take 16 ++ c.take 20 ++ l.qs.reverse.map fun q => BitVec.ofNat 8 (q - 1))
  else leBytes 32 0

/-- The manifest record (Table 10.2), its bytes in ascending order; WORK is the completion record's count (log 70). -/
def Launch.manifest (l : Launch) (count : Nat) : List Byte :=
  let head := [(1 : Byte), 0, 0, 0, BitVec.ofNat 8 l.mode, BitVec.ofNat 8 l.span] ++ leBytes 2 l.nblk ++ leBytes 8 count ++ leBytes 16 0
  let body := head ++ l.covHash ++ l.argHash ++ l.modSet ++ bytesOf 32 l.devhash
  body ++ hashBytes body

/-- The packet of a launch. -/
def State.packetOf (s : State) (l : Launch) : Option Packet := s.packets.find? fun p => p.queue = l.queue && p.idx = l.pkt

/-- SIGADDR and SIGVAL of a launch packet. -/
def Packet.launchSig (p : Packet) : Dword × Dword := (p.bytes.extractLsb' 128 64, p.bytes.extractLsb' 192 64)

/-- The number of work units in a launch's record: handed out, or those completed where it was cancelled (R392). -/
def Launch.count (l : Launch) : Nat :=
  if l.status.getLsbD 3 then (if l.isTask then l.ended else (l.complete.filter l.handed.contains).length) else l.work

/-- What a launch writes at its end: with CODE 0x00 the manifest record, then the completion record, then the signal (R151, R198, R392). -/
def State.writeEnd (s : State) (l : Launch) (code count : Nat) : State :=
  match s.packetOf l with
  | none => s
  | some p =>
    let sig := p.launchSig
    if sig.1 = 0 || !s.vaOk l.ctx sig.1 8 true then s
    else
      let s1 := if code = 0 then s.vaWrite l.ctx (sig.1 + 64) (l.manifest count) else s
      let rec_ := statusBytes code (if code = 0 then l.status.toNat else 0) ++ leBytes 8 count
      (s1.vaWrite l.ctx (sig.1 + 8) rec_).vaWrite l.ctx sig.1 (leBytes 8 sig.2.toNat)

/-- A launch ends: its record, its task queue, its part as a producer, its packet (R45, R46, R155). -/
def State.endLaunch (s : State) (i : Nat) (l : Launch) (code count : Nat) : State :=
  let s1 := s.writeEnd l code count
  let served := (s1.taskQueues.filter fun q => q.2.prods.contains i).map fun q => q.2.launch
  let s2 := { s1 with
    launches := AMap.mapV (AMap.del s1.launches i) fun k x => if served.contains k then { x with producers := x.producers + 1 } else x
    taskQueues := AMap.mapV (AMap.filterV s1.taskQueues fun _ t => t.launch != i) fun _ t => { t with prods := t.prods.filter (· != i) }
    packets := s1.packets.filter fun p => !(p.queue = l.queue && p.idx = l.pkt)
    watch := s1.watch.filter fun w => w.launch != i }
  s2.settleCtx l.ctx

/-- A launch's blocks that stand in a save area. -/
def State.savedOf (s : State) (i : Nat) (l : Launch) : AMap Block := (s.context l.ctx).savedBlocks.filter fun q => q.2.launch = i

/-- The groups of a launch that stand in a save area lose the tasks that hold claims (R372, R398), and its saved blocks are gone. -/
def State.discardSaved (s : State) (i : Nat) (l : Launch) : State :=
  match (s.context l.ctx).saved with
  | none => s
  | some v =>
    let s1 := (v.groups.filter fun q => q.2.launch = i && s.holdsClaims q.2).foldl (fun a q =>
      (((a.undoReplay q.2).releaseClear q.2).updLaunch i fun l => { l with status := l.status ||| 2#7 })) s
    let v1 : Saved :=
      { v with
        groups := v.groups.filter fun q => q.2.launch != i, blocks := v.blocks.filter fun q => q.2.launch != i
        counts := v.counts.filter fun q => (AMap.get? v.blocks q.1).elim false fun b => b.launch != i
        tiles := v.tiles.filter fun q => !(v.blocks.any fun b => b.2.launch = i && (List.range b.2.span).any fun k =>
          ((b.2.tiles.getD k []).map fun p => 32 * (b.2.core + k) + p).contains q.1) }
    s1.setContext l.ctx { s1.context l.ctx with saved := some v1 }

/-- No begun copy of a launch's blocks is left. -/
def State.copiesDone (s : State) (l : Launch) : Bool :=
  !s.copies.any fun q => decide (l.firstBlock ≤ q.2.block ∧ q.2.block < l.firstBlock + l.nblk)

/-- The engines hold nothing of a launch that a stop waits for: begun copies, array commands, parked results, accesses, serviceable faults
(Table 7.7). -/
def State.launchStill (s : State) (i : Nat) : Bool :=
  let bs := (s.blocks.filter fun q => q.2.launch = i).map Prod.fst
  let gs := (s.groups.filter fun q => q.2.launch = i).map Prod.fst
  !(s.copies.any fun q => bs.contains q.2.block && !q.2.stage.unbegun) && !(s.arrays.any fun q => q.2.any fun c => bs.contains c.block) &&
    !(s.parked.any fun q => bs.contains q.2.block) && !(s.accesses.any fun q => gs.contains q.2.grp && q.2.need.isEmpty) &&
    !(s.svc.any fun q => gs.any fun k => coreOf k = q.1)

/-- A task launch is exhausted (R45). -/
def State.exhausted (s : State) (l : Launch) : Bool :=
  (AMap.get? s.taskQueues l.tq).elim true fun t => t.recs.isEmpty && t.running == 0 && decide (l.nprod ≤ l.producers)

/-- Whether a launch may complete now. -/
def State.mayEnd (s : State) (i : Nat) (l : Launch) : Bool :=
  let gone := !(s.blocks.any fun q => q.2.launch = i)
  match l.stage with
  | .accepted => false
  | .ordered => l.status.getLsbD 3 || l.status.getLsbD 5 || l.code != 0
  | .placed =>
    if l.status.getLsbD 3 then s.launchStill i
    else if l.status.getLsbD 4 || l.status.getLsbD 5 then gone && s.copiesDone l
    else
      gone && (s.savedOf i l).isEmpty && s.copiesDone l && l.releases.isEmpty && (!l.isTask || s.exhausted l) && (!l.isCov || l.f10)

/-- The tasks of a launch that hold no claims are simply gone when its blocks are discarded: none of them is abandoned (R398 step 5). -/
def State.closeTasks (s : State) (i : Nat) : State :=
  { s with groups := AMap.mapV s.groups fun _ g =>
      if g.launch = i && g.taskOpen && !s.holdsClaims g then { g with taskOpen := false, work := .none } else g }

/-- A launch completes: its records and signal are written (R46, R151, R198); the blocks of one that was stopped are discarded first
(R398). -/
def State.completeLaunch (s : State) (i : Nat) (l : Launch) : State :=
  let s0 := s.closeTasks i
  let s1 := (s0.blocks.filter fun q => q.2.launch = i).foldl (fun a q => a.removeBlock q.1) s0
  let s2 := s1.discardSaved i l
  s2.endLaunch i ((s2.launch i).getD l) l.code.toNat l.count

/-! ## The placement order (R156) -/

/-- An entry of the placement order: class, time, identifier, core mask; an entry of a context has its number beyond 2^32. -/
structure OrderEntry where
  cls : Nat
  stamp : Nat
  id : Nat
  ctx : Option Nat
  mask : BitVec 256
deriving DecidableEq, Repr

/-- An entry stands before another. -/
def OrderEntry.before (a b : OrderEntry) : Bool :=
  decide (a.cls < b.cls) || (a.cls == b.cls && (decide (a.stamp < b.stamp) || (a.stamp == b.stamp && decide (a.id < b.id))))

/-- The cores of blocks, as a mask. -/
def coreMask (bs : AMap Block) : BitVec 256 :=
  bs.foldl (fun m q => (List.range q.2.span).foldl (fun m i => m ||| BitVec.ofNat 256 (2 ^ (q.2.core + i))) m) 0

/-- The lowest class among a context's launches that hold blocks (R159). -/
def State.ctxClass (s : State) (ctx : Nat) : Nat :=
  (s.launches.filter fun q => q.2.ctx = ctx && q.2.stage = .placed).foldl (fun n q => min n q.2.cls) 3

/-- A context that waits to resume: pre-empted, or drained with its resume ordered (R402). -/
def State.waitsResume (s : State) (ctx : Nat) (x : Context) : Bool :=
  s.ctxStat ctx = 3 && x.stop = some .preempt && x.saved.isSome && [0, 4].contains ((s.reg (regDbg ctx 4)).extractLsb' 0 3).toNat

/-- The clusters of a context's saved blocks are ready. -/
def State.savedReady (s : State) (x : Context) : Bool := x.savedBlocks.all fun q => s.ready (q.2.core / 8)

/-- The placement order, without regard to sequence. An entry that names a cluster that is not ready waits outside it (R20, R399). -/
def State.orderEntries (s : State) : List OrderEntry :=
  ((s.launches.filter fun q =>
        q.2.stage = .ordered && q.2.code = 0 && !q.2.status.getLsbD 3 && !q.2.status.getLsbD 5 && s.clustersReady q.2).map fun q =>
      ({ cls := q.2.cls, stamp := q.2.stamp, id := q.1, ctx := none, mask := q.2.cmask } : OrderEntry)) ++
    ((s.contexts.filter fun q => s.waitsResume q.1 q.2 && s.savedReady q.2).map fun q =>
      { cls := s.ctxClass q.1, stamp := q.2.stoppedAt, id := 2 ^ 32 + q.1, ctx := some q.1, mask := coreMask q.2.savedBlocks })

/-- The first entry. -/
def firstEntry : List OrderEntry → Option OrderEntry
  | [] => none
  | e :: r =>
    match firstEntry r with
    | none => some e
    | some f => if e.before f then some e else some f

/-- An entry may be placed: it is the first, or its mask shares no core with the first's. -/
def State.mayPlace (s : State) (e : OrderEntry) : Bool :=
  match firstEntry s.orderEntries with
  | some f => e == f || e.mask &&& f.mask == 0
  | none => false

/-! ## Placement (R32, R33, R157) -/

/-- The group's slot on its port: the lowest that is free (log 5). -/
def freeSlot (u : CoreUse) (core port k : Nat) : Nat :=
  (((List.range (portSlots core port)).filter fun x => !u.slots.contains (64 * port + x)).getD k 0)

/-- A group as it stands when its block starts (R96, R97, R281, R324). -/
def State.newGroup (s : State) (i : Nat) (l : Launch) (blk g vBase spBase : Nat) (seg : Dword) : Group :=
  { launch := i, block := blk, ctx := l.ctx, g := g, nregs := l.regs, vBase := vBase
    k := (List.range 8).foldl (fun k n => SMap.set k (8 + n) (l.kinit n)) []
    flags := if l.isCov then 0x3FF#12 else 0x7FF#12
    entries := [(0, { pc := seg + BitVec.ofNat 64 l.codeOff, mask := 0xFFFFFFFF#32, mod := l.modid, target := true })]
    spBase := spBase, spSize := l.spill, live := 0xFFFFFFFF#32, lastIssue := s.clk.toNat }

/-- A cell of a block's storage, which is zero when the block starts (R97, R98, R103). -/
def inBlock (l : Launch) (b : Block) (spills : List (Nat × Nat)) (cell : Nat) : Bool :=
  (List.range b.span).any fun i =>
    let c := b.core + i
    let sh := cellShared c (b.shBase.getD i 0)
    let bp := cellBplane c 0 0
    (decide (sh ≤ cell ∧ cell < sh + l.shmem)) ||
      (decide (bp ≤ cell ∧ cell < cellBplane c 256 0) &&
        (let o := (cell - bp) % 2 ^ 15
         decide (b.bpBase.getD i 0 ≤ o ∧ o < b.bpBase.getD i 0 + l.bpd))) ||
      spills.any fun q => q.1 = c && decide (cellSpill c q.2 ≤ cell ∧ cell < cellSpill c q.2 + l.spill)

/-- What a block of a launch keeps clear of on core i of its span: what is resident, and, where it can, the places of its context's own saved
blocks (log 41). -/
def State.placeUse (s : State) (l : Launch) (core i : Nat) : CoreUse :=
  let u := s.useFor l.ctx core fun _ => true
  if l.fitsCore u l.span core i then u else s.coreUse core fun _ => true

/-- Placing one block on the span that begins at a core. -/
def State.placeBlock (s : State) (i : Nat) (l : Launch) (num core : Nat) (seg : Dword) : State :=
  let sp := l.span
  let uses := (List.range sp).map fun k => s.placeUse l (core + k) k
  let use : Nat → CoreUse := fun k => uses.getD k {}
  let tiles := (List.range sp).map fun k => ((List.range 32).filter fun t => !(use k).tiles.contains t).take l.acc
  let b : Block :=
    { launch := i, num := num, core := core, span := sp
      shBase := uses.map fun u => (firstFit u.shared (512 * 1024) l.shmem).getD 0
      bpBase := uses.map fun u => (firstFit u.bplane 16384 l.bpd).getD 0
      tiles := tiles, bars := List.replicate l.bars { na := BitVec.ofNat 12 l.gcount }
      barNums := ((List.range 64).filter fun n => !(use 0).bars.contains n).take l.bars }
  let id := l.firstBlock + num
  let spills := (List.range sp).map fun k => (fitRuns (512 * 1024) l.spill ((List.range l.gcount).filter fun g => g % sp = k).length (use k).spill).getD []
  let regs : Nat → Nat → List Nat := fun k p => (fitRuns 2048 l.regs (groupsOn l.gcount sp k p).length ((use k).portRegs p)).getD []
  let num : Nat → Nat := fun g => 512 * (core + g % sp) + 64 * (g / sp % 8) + freeSlot (use (g % sp)) (core + g % sp) (g / sp % 8) (g / (8 * sp))
  let spill : Nat → Nat := fun g => (spills.getD (g % sp) []).getD (g / sp) 0
  let vbase : Nat → Nat := fun g => (regs (g % sp) (g / sp % 8)).getD (g / (8 * sp)) 0
  let cells := inBlock l b ((List.range l.gcount).map fun g => (core + g % sp, spill g))
  let s1 := { s with
    blocks := AMap.set s.blocks id b
    groups := (List.range l.gcount).foldl (fun m g => AMap.set m (num g) (s.newGroup i l id g (vbase g) (spill g) seg)) s.groups
    tiles := (List.range sp).foldl (fun m k => (tiles.getD k []).foldl (fun m t => AMap.set m (32 * (core + k) + t) {}) m) s.tiles
    mem := s.mem.filter fun q => !cells q.1
    poison := s.poison.filter fun u => !cells u }
  (List.range sp).foldl (fun a k => if l.shmem = 0 then a else a.noteFixed (core + k) (cellShared (core + k) (b.shBase.getD k 0)) l.shmem) s1

/-- The counts held for a launch are applied when it is placed (R284, R336). -/
def State.applyHeld (s : State) (i : Nat) (l : Launch) : State :=
  let mine := fun (e : PeerCount) => e.ctx = l.ctx && e.queue = l.queue
  let s1 := (s.peerCounts ++ s.peerHeld).foldl (fun a e => if mine e then (a.writeFlit e).applyCount i e.block e.bar e.bytes else a) s
  ({ s1 with peerCounts := s1.peerCounts.filter fun e => !mine e, peerHeld := s1.peerHeld.filter fun e => !mine e }).admitHeld

/-- A module that a launch may name: loaded and not unloading (R393). -/
def State.launchModule (s : State) (l : Launch) : Option Module := (s.module l.ctx l.modid).filter fun m => !m.unloading

/-- A fresh time slice begins (R159). -/
def State.freshSlice (s : State) (ctx : Nat) : State := s.setContext ctx { s.context ctx with expired := false, expiredAt := 0 }

/-- Placing a launch whole: its blocks in order of their first core (R33). -/
def State.placeLaunch (s : State) (i : Nat) (l : Launch) : State :=
  match s.launchModule l with
  | none => s.updLaunch i fun l => { l with code := 4 }
  | some m =>
    let cores := l.spansOf l.span
    let l1 := { l with stage := .placed, nblk := cores.length, firstBlock := s.nextId, f10 := false }
    let s1 := { s with launches := AMap.set s.launches i l1, nextId := s.nextId + cores.length }
    let s2 := ((List.range cores.length).zip cores).foldl (fun a q => a.placeBlock i l1 q.1 q.2 m.seg) s1
    let s3 := (s2.applyHeld i l1).freshSlice l.ctx
    { s3 with packets := s3.packets.map fun p =>
        if p.queue = l.queue && p.idx = l.pkt && p.bytes.getLsbD 8 then { p with stage := .over } else p }

/-- A placed launch's claim table names one of a launch's claim-tracked pages: the launch waits until it completes (R182). -/
def State.claimsHeld (s : State) (l : Launch) : Bool := l.hasClaims && l.claimPages.any s.claimPlaced

/-- The launch that is placed next: the first of the order that may be placed and fits. -/
def State.nextLaunch (s : State) : Option (Nat × Launch) :=
  (firstEntry (s.orderEntries.filter fun e => s.mayPlace e && e.ctx.isNone &&
    (match s.launch e.id with
      | some l => !s.claimsHeld l && s.fits l fun _ => true
      | none => false))).bind fun e => (s.launch e.id).map fun l => (e.id, l)

/-- LAUNCH_PLACE. -/
def execLaunchPlace (s : State) : Host.Outcome State Fault Refusal :=
  match s.nextLaunch with
  | some (i, l) => .next (s.placeLaunch i l)
  | none => .next s

end Sys2Proof.Machine
end

