-- ==== Sys2Proof/Machine/Packets.lean ====
section
/-! DEFINITION. Host queues and firmware (07/R144 to R153, 22/R392 to R398): reading the sequence word and accepting a packet, the stages of
every packet type, the firmware cores' steps, module loading (16/R327 to R332) and queue destroy. -/

namespace Sys2Proof.Machine

/-! ## The packet (Tables 7.3, 7.5) -/

def Packet.field (p : Packet) (b n : Nat) : Nat := fieldNat p.bytes b n
def Packet.addr (p : Packet) (b : Nat) : Dword := p.bytes.extractLsb' (8 * b) 64
def Packet.opc (p : Packet) : Nat := p.field 0 1
def Packet.ovl (p : Packet) : Bool := p.bytes.getLsbD 8
def Packet.bar (p : Packet) : Bool := p.bytes.getLsbD 9

/-- Where SIGADDR stands, SIGVAL 8 bytes on; a no-op has none, and a wait-signal's names the word it waits on. -/
def sigPlace : Nat → Option Nat
  | 1 | 2 | 7 | 8 | 9 => some 16
  | 3 => some 24
  | 5 | 6 => some 32
  | _ => none

/-- The body bytes that a type uses: first byte and number of bytes. -/
def usedBytes : Nat → List (Nat × Nat)
  | 1 | 2 | 8 => [(8, 24)]
  | 3 => [(8, 32)]
  | 4 => [(8, 17)]
  | 5 => [(8, 21), (32, 16)]
  | 6 => [(8, 18), (32, 24)]
  | 7 => [(8, 2), (16, 16)]
  | 9 => [(8, 1), (16, 16)]
  | _ => []

/-- Priority of a type (Table 7.4); a reserved OPC comes last. -/
def priority : Nat → Nat
  | 0 => 1 | 9 => 2 | 4 => 3 | 3 => 4 | 8 => 5 | 7 => 6 | 1 => 7 | 2 => 8 | 6 => 9 | 5 => 10 | _ => 11

/-- The packet alone is malformed (R395). -/
def Packet.badForm (p : Packet) : Bool :=
  let opc := p.opc
  decide (10 ≤ opc) || decide (4 ≤ p.field 1 1) || p.field 2 6 != 0 || (p.ovl && opc != 1 && opc != 2) ||
    ((List.range 48).any fun i => p.field (8 + i) 1 != 0 && !(usedBytes opc).any fun u => decide (u.1 ≤ 8 + i ∧ 8 + i < u.1 + u.2)) ||
    (match opc with
      | 1 | 2 => p.field 8 8 % 256 != 0
      | 3 => p.field 8 8 % 8 != 0
      | 4 => decide (4 ≤ p.field 24 1)
      | 5 => p.field 24 4 == 0 || decide (2 ^ 26 < p.field 24 4 ∨ 4 ≤ p.field 28 1)
      | 6 => p.field 16 8 == 0 || decide (2 ^ 40 < p.field 16 8) || p.field 48 8 % 64 != 0
      | 8 => p.field 8 8 % 64 != 0
      | 9 => decide (64 ≤ p.field 8 1)
      | _ => false)

/-- SIGADDR is a multiple of 8 that translates, with W = 1, or with R = 1 for a wait-signal (R395). -/
def State.sigOk (s : State) (ctx : Nat) (p : Packet) : Bool :=
  if p.opc = 4 then p.field 8 8 % 8 == 0 && (s.vaCell ctx (p.addr 8) false).isSome
  else
    match sigPlace p.opc with
    | some b => p.addr b == 0 || (p.field b 8 % 8 == 0 && (s.vaCell ctx (p.addr b) true).isSome)
    | none => true

/-! ## Acceptance (R145, R394 to R396) -/

/-- Where packet n of a queue lies in host memory. -/
def State.slotCell (s : State) (q n : Nat) : Nat :=
  let base := (s.reg (regQ q 4)).toNat * 2 ^ 32 + (s.reg (regQ q 0)).toNat / 2 ^ 12 * 2 ^ 12
  cellHost ((s.reg (regQ q 8)).getLsbD 30) (base + 64 * (n % s.qSize q))

/-- Packets accepted since enable, of which RIDX is the count modulo 2^32. -/
def State.packetCount (s : State) (q : Nat) : Nat := (AMap.get? s.laps q).getD 0 * 2 ^ 32 + (s.reg (regQ q 0x10)).toNat

/-- SEQW of a current packet n. -/
def State.currentSeqw (s : State) (q n : Nat) : Nat := (n / s.qSize q + 1) % 2 ^ 32 * 2 ^ 32 + n % 2 ^ 32

/-- RIDX passes a packet. -/
def State.passPacket (s : State) (q : Nat) : State :=
  let r := s.reg (regQ q 0x10) + 1
  { s.setReg (regQ q 0x10) r with laps := if r = 0 then AMap.set s.laps q ((AMap.get? s.laps q).getD 0 + 1) else s.laps }

/-- Adding an accepted packet. -/
def State.addPacket (s : State) (p : Packet) : State := { s with packets := s.packets ++ [p] }

/-- A packet is accepted: RIDX passes it, its structures are read, and a malformed one puts its queue into STATE 4. -/
def State.accept (s : State) (q n : Nat) (bytes : BitVec 512) : State :=
  let s1 := { s.passPacket q with polls := AMap.del s.polls q }
  let p : Packet := { queue := q, idx := n, bytes := bytes }
  let bad := fun (s : State) => (s.addPacket { p with malformed := true, code := 1 }).queueError q 4 n
  if p.badForm || !s1.sigOk (s1.qCtx q) p then bad s1
  else if p.opc = 1 || p.opc = 2 then
    match s1.readLaunch q n (p.opc = 1) (p.addr 8) with
    | .malformed => bad s1
    | .unread => s1.addPacket { p with code := 2 }
    | .ok l => (s1.addPacket { p with launch := some s1.nextId }).acceptLaunch l
  else s1.addPacket p

/-- Some firmware core serves packets, and a thermal halt has not ended acceptance (R20, R378). -/
def State.firmwareUp (s : State) : Bool := !s.halted && [64, 65, 66, 67].any s.ready

/-- Reading SEQW of packet RIDX: a current packet is accepted; the 64th reading in a row that finds none makes the queue stale (R394). -/
def State.readSeqw (s : State) (q : Nat) : State :=
  let ridx := (s.reg (regQ q 0x10)).toNat
  let d := (s.reg (regQ q 0xC) - s.reg (regQ q 0x10)).toNat
  if s.qStat q != 1 || !s.firmwareUp || d = 0 || s.qSize q < d then s
  else
    let c := s.slotCell q ridx
    if Memory.readNat s.mem (c + 56) 8 = s.currentSeqw q (s.packetCount q) then s.accept q ridx (BitVec.ofNat 512 (Memory.readNat s.mem c 64))
    else
      let k := (AMap.get? s.polls q).getD 0 + 1
      if 64 ≤ k then { s.queueError q 2 ridx with polls := AMap.del s.polls q } else { s with polls := AMap.set s.polls q k }

/-- SEQW_POLL: the first reading of a packet's sequence word. -/
def execSeqwPoll (q : BitVec 6) (s : State) : Host.Outcome State Fault Refusal :=
  if (AMap.get? s.polls q.toNat).isSome then .next s else .next (s.readSeqw q.toNat)

/-- SEQW_RETRY_TIMER: 1 µs after a reading that found no current packet, the word is read again. -/
def execSeqwRetryTimer (q : BitVec 6) (s : State) : Host.Outcome State Fault Refusal :=
  if (AMap.get? s.polls q.toNat).isNone then .next s else .next (s.readSeqw q.toNat)

/-! ## Completing a packet (R151, R392) -/

/-- Taking a packet out of the accepted ones. -/
def State.dropPacket (s : State) (p : Packet) : State := { s with packets := s.packets.filter fun x => !(x.queue = p.queue && x.idx = p.idx) }

/-- A packet other than a launch completes: with a CODE other than 0 its record is written, then the signal; a wait-signal writes nothing. -/
def State.endPacket (s : State) (p : Packet) (code : Nat) : State :=
  let ctx := s.qCtx p.queue
  let s1 := s.dropPacket p
  match sigPlace p.opc with
  | none => s1
  | some b =>
    let a := p.addr b
    if a = 0 || p.field b 8 % 8 != 0 || !s1.vaOk ctx a 8 true then s1
    else
      let s2 := if code = 0 then s1 else s1.vaWrite ctx (a + 8) (statusBytes code 0 ++ leBytes 8 0)
      s2.vaWrite ctx a (leBytes 8 (p.field (b + 8) 8))

/-- Replacing a packet. -/
def State.setPacket (s : State) (p : Packet) : State :=
  { s with packets := s.packets.map fun x => if x.queue = p.queue && x.idx = p.idx then p else x }

/-! ## Write-then-signal, wait-signal, snapshot -/

/-- A write-then-signal: VALUE to ADDR, then the signal. -/
def State.runWrite (s : State) (p : Packet) : State :=
  let ctx := s.qCtx p.queue
  if s.vaOk ctx (p.addr 8) 8 true then (s.vaWrite ctx (p.addr 8) (leBytes 8 (p.field 16 8))).endPacket p 0 else s.endPacket p 2

/-- word CMP VALUE (Table 7.5). -/
def cmpWord (cmp word value : Nat) : Bool :=
  match cmp with
  | 0 => decide (value ≤ word)
  | 1 => word == value
  | 2 => word != value
  | _ => decide (word < value)

/-- What a packet awaited has come: it waits for its finish stage, with its CODE (R148). -/
def State.meet (s : State) (p : Packet) (code : Byte) : State := s.setPacket { p with met := true, code := code }

/-- A wait-signal reads its word. -/
def State.pollWait (s : State) (p : Packet) : State :=
  match s.vaRead (s.qCtx p.queue) (p.addr 8) 8 with
  | none => s.meet p 2
  | some bs => if cmpWord (p.field 24 1) (leNat bs) (p.field 16 8) then s.meet p 0 else s

/-- The manifest block at offsets 0x000 to 0x0FF. -/
def State.manifestBlock (s : State) : List Byte := (List.range 64).flatMap fun i => bytesOf 4 (s.reg (regMan (4 * i)))

/-- A manifest snapshot. -/
def State.runSnapshot (s : State) (p : Packet) : State :=
  let ctx := s.qCtx p.queue
  if s.vaOk ctx (p.addr 8) 256 true then (s.vaWrite ctx (p.addr 8) s.manifestBlock).endPacket p 0 else s.endPacket p 2

/-! ## Host copy (R153) -/

/-- A side of a host copy: scratchpad or the queue's context. -/
structure HostSide where
  scr : Bool
  addr : Nat
deriving DecidableEq, Repr

def Packet.hostSrc (p : Packet) : HostSide := ⟨p.bytes.getLsbD 224, p.field 8 8⟩
def Packet.hostDst (p : Packet) : HostSide := ⟨p.bytes.getLsbD 225, p.field 16 8⟩

/-- The host copy touches a page of scratchpad that it must wait for: claim-tracked by a placed launch, or of its owner arrays (R182, R384). -/
def State.hostHeld (s : State) (p : Packet) : Bool :=
  [p.hostSrc, p.hostDst].any fun d => d.scr && (pagesOf d.addr (p.field 24 4)).any fun pg =>
    s.claimPlaced pg || s.launches.any fun q => q.2.stage = .placed && q.2.hasClaims &&
      (List.range 16).any fun r =>
        let e := q.2.range r
        e.size != 0 && (pagesOf e.owner (16 * (e.size / 2 ^ e.log2ss))).contains pg

/-- Bytes from a virtual address to the end of its n-th page. -/
def State.pagesSpan (s : State) (ctx : Nat) : Nat → Nat → Nat
  | 0, _ => 0
  | n + 1, va =>
    let pg := match s.translate ctx (BitVec.ofNat 64 va) with
      | .page p => (p.va, p.size)
      | _ => (va % 2 ^ 64 / 2 ^ 16 * 2 ^ 16, 2 ^ 16)
    let k := pg.1 + pg.2 - va % 2 ^ 64
    k + s.pagesSpan ctx n (va + k)

/-- Bytes that a side can give a piece: those of 64 pages. -/
def State.sideSpan (s : State) (ctx : Nat) (d : HostSide) : Nat :=
  if d.scr then 64 * 2 ^ 16 - d.addr % 2 ^ 16 else s.pagesSpan ctx 64 d.addr

/-- A side at an offset. -/
def HostSide.at (d : HostSide) (n : Nat) : HostSide := { d with addr := d.addr + n }

/-- The check of one side of a piece (R379). -/
def State.hostCheck (s : State) (ctx : Nat) (write : Bool) (d : HostSide) (n : Nat) : PreResult :=
  if d.scr then
    if 2 ^ 29 < d.addr + n then .fail 3 1 d.addr else s.preSide ctx write ⟨.scr, [(d.addr, n)]⟩
  else s.preSide ctx write ⟨.virt, [(d.addr, n)]⟩

/-- The cell of a byte of a side. -/
def State.hostCell (s : State) (ctx : Nat) (d : HostSide) (i : Nat) : Nat :=
  if d.scr then s.scrCell (d.addr + i)
  else
    match s.translate ctx (BitVec.ofNat 64 (d.addr + i)) with
    | .page p => p.cell ((d.addr + i) % 2 ^ 64)
    | _ => 0

/-- The next piece of a host copy: checked, then written; its poison ends the packet (Table 21.2). -/
def State.hostPiece (s : State) (p : Packet) : State :=
  let ctx := s.qCtx p.queue
  let src := p.hostSrc.at p.moved
  let dst := p.hostDst.at p.moved
  let n := min (min (2 ^ 22) (p.field 24 4 - p.moved)) (min (s.sideSpan ctx src) (s.sideSpan ctx dst))
  match firstBad [s.hostCheck ctx false src n, s.hostCheck ctx true dst n] with
  | .wait _ => s
  | .poison _ => s.meet p 0x0A
  | .absent _ | .fail .. => s.meet p 2
  | .pass =>
    let from_ := (List.range n).map (s.hostCell ctx src)
    let to_ := (List.range n).map (s.hostCell ctx dst)
    let bad := (from_.zip to_).filter fun q => s.poisoned q.1 1
    let s1 := s.writeBytes (to_.zip (from_.map (SMap.get s.mem)))
    let s2 := bad.foldl (fun a q => a.addPoison q.2) s1
    if !bad.isEmpty then s2.meet p 0x0A
    else if p.moved + n = p.field 24 4 then s2.meet p 0
    else s2.setPacket { p with moved := p.moved + n }

/-- A host-copy piece that has waited 10 ms on a clear bit fails (R20, R381). -/
def State.pieceTimeout (s : State) (p : Packet) : State :=
  let ctx := s.qCtx p.queue
  let src := p.hostSrc.at p.moved
  let dst := p.hostDst.at p.moved
  let n := min (min (2 ^ 22) (p.field 24 4 - p.moved)) (min (s.sideSpan ctx src) (s.sideSpan ctx dst))
  match firstBad [s.hostCheck ctx false src n, s.hostCheck ctx true dst n] with
  | .wait _ => s.meet p 2
  | _ => s

/-! ## Modules (R327 to R332) -/

/-- Launches of a queue, placed with OVL = 1 and running, that request the loads of their queue (R331). -/
def State.requesters (s : State) (q : Nat) : List Nat :=
  (s.launches.filter fun x => x.2.queue = q && x.2.stage = .placed && ((s.packetOf x.2).map Packet.ovl).getD false).map Prod.fst

/-- f11 in the groups of the launches that request a load; it is set only in those that have not exited. -/
def State.setF11 (s : State) (q : Nat) (b : Bool) : State :=
  let ls := s.requesters q
  { s with groups := AMap.mapV s.groups fun _ g => if ls.contains g.launch && !(b && g.entries.isEmpty) then g.setFlag 11 b else g }

/-- A load whose MODID is loaded or being unloaded waits at the head of its queue (R330). -/
def State.loadHeld (s : State) (p : Packet) : Bool := (s.module (s.qCtx p.queue) (BitVec.ofNat 16 (p.field 24 2))).isSome

/-- The signature block is valid by itself (R328 step 2). -/
def sigBlockOk (b : List Byte) : Bool :=
  let f : Nat → Nat → Nat := fun lo n => leNat ((b.drop lo).take n)
  f 96 64 == 0 && f 21 43 == 0 &&
    (match f 20 1 with
      | 0 => f 0 16 == 0
      | 1 => f 0 8 % 2 ^ 16 == 0 && f 8 8 % 2 ^ 16 == 0
      | _ => false)

/-- The code that authenticates a translation in the cache. -/
def codeMac (code : List Byte) : BitVec 256 := BitVec.ofNat 256 (leNat (hmacSha256 Config.deviceKey code))

/-- The bytes of a cached translation, where those that stand at its address now are the ones that were written (R329). -/
def State.cachedCode (s : State) (e : TransEntry) : Option (List Byte) :=
  (s.vaRead e.ctx e.addr e.len).bind fun bs => if codeMac bs = e.hmac then some bs else none

/-- Where a translation of an object comes from (R329). -/
inductive Translated
  | failed
  /-- from the cache -/
  | hit (code : List Byte)
  | fresh (code : List Byte)
deriving DecidableEq, Repr

/-- The translation of an object: a cached one whose bytes still stand, which is now the one used last; an entry whose bytes do not is
purged, and the object is translated afresh (R329). -/
def State.placoCode (s : State) (hash : BitVec 256) (obj : List Byte) : State × Translated :=
  let ver := s.reg (regMan 8)
  let fresh := match Config.translate obj ver with
    | none => Translated.failed
    | some code => .fresh code
  match s.transCache.find? fun e => e.key = hash && e.xlver = ver with
  | none => (s, fresh)
  | some e =>
    let others := s.transCache.filter (· != e)
    match s.cachedCode e with
    | some code => ({ s with transCache := e :: others }, .hit code)
    | none => ({ s with transCache := others }, fresh)

/-- A new translation that has been written enters the cache; the entry used longest ago gives way (R329). -/
def State.cacheCode (s : State) (hash : BitVec 256) (secver ctx : Nat) (area : Dword) (code : List Byte) : State :=
  let e : TransEntry :=
    { key := hash, xlver := s.reg (regMan 8), secver := secver, ctx := ctx, addr := area, len := code.length, hmac := codeMac code }
  { s with transCache := (e :: s.transCache).take 1024 }

/-- A module becomes callable (R328 step 6). -/
def State.addModule (s : State) (m : Module) : State := { s with modules := s.modules ++ [m] }

/-- A translation is written to the module's translation area, and the module is callable: the CODE, and the state (R328, R329). -/
def State.putCode (s : State) (m : Module) (area : Dword) (room : Nat) (code : List Byte) (fresh : Bool) : State × Nat :=
  if room < code.length then (s, 9)
  else if !s.vaOk m.ctx area code.length true then (s, 2)
  else
    let s1 := s.vaWrite m.ctx area code
    let s2 := if fresh then s1.cacheCode m.hash m.secver m.ctx area code else s1
    (s2.addModule { m with seg := area, len := code.length, hash := sha256Bits code }, 0)

/-- The steps of R328: the CODE, and the state with the module loaded where it is 0. -/
def State.loadModule (s : State) (p : Packet) : State × Nat :=
  let ctx := s.qCtx p.queue
  let seg := p.addr 8
  let len := p.field 16 8
  let id := p.field 24 2
  if seg.toNat % 2 ^ 16 != 0 || len % 32 != 0 || id = 0 then (s, 5)
  else
    match s.vaRead ctx (p.addr 48) 256 with
    | none => (s, 2)
    | some b =>
      let f : Nat → Nat → Nat := fun lo n => leNat ((b.drop lo).take n)
      if !sigBlockOk b then (s, 6)
      else
        match s.vaRead ctx seg len with
        | none => (s, 2)
        | some obj =>
          let hash := sha256Bits obj
          let secver := f 16 4
          if bytesOf 32 hash != (b.drop 64).take 32 || !s.signatureOk b then (s, 7)
          else if secver < (s.reg regFuseCnt).toNat then (s, 8)
          else
            let m : Module := { ctx := ctx, id := BitVec.ofNat 16 id, seg := seg, len := len, hash := hash, secver := secver }
            if f 20 1 = 0 then (s.addModule m, 0)
            else
              let area := BitVec.ofNat 64 (f 0 8)
              let r := s.placoCode hash obj
              match r.2 with
              | .failed => (r.1, 9)
              | .hit code => r.1.putCode m area (f 8 8) code false
              | .fresh code => r.1.putCode m area (f 8 8) code true

/-- The begin stage of a module load clears f11 in the launches that request it; its finish stage does the rest. -/
def State.runLoad (s : State) (p : Packet) : State :=
  match p.stage with
  | .accepted => (s.setF11 p.queue false).setPacket { p with stage := .begun }
  | _ =>
    let r := s.loadModule p
    (r.1.setF11 p.queue true).endPacket p r.2

/-- The begin stage of a module unload (R332). -/
def State.runUnload (s : State) (p : Packet) : State :=
  let ctx := s.qCtx p.queue
  let id := BitVec.ofNat 16 (p.field 8 2)
  match s.module ctx id with
  | none => s.endPacket p 4
  | some m =>
    if m.unloading then s.endPacket p 4
    else
      { s with modules := s.modules.map fun x => if x = m then { x with unloading := true } else x }.setPacket { p with stage := .begun }

/-- A group's program counters or return-address stack lie in a module (R151). -/
def State.inModule (s : State) (grp : Nat) (g : Group) (ctx : Nat) (id : Half) : Bool :=
  g.ctx = ctx && ((g.entries.any fun q => q.2.st != .parent && (q.2.mod = id || s.inSegment ctx id q.2.pc)) ||
    (s.ras grp g).any fun r => r.modid = id)

/-- No group stands in the module of an unload any more (R151). -/
def State.unloadDone (s : State) (p : Packet) : Bool :=
  let ctx := s.qCtx p.queue
  let saved := ((s.context ctx).saved.map (·.groups)).getD []
  !(s.groups ++ saved).any fun q => s.inModule q.1 q.2 ctx (BitVec.ofNat 16 (p.field 8 2))

/-- The completion of an unload: the module and its blocks are gone from every level (R116). -/
def State.finishUnload (s : State) (p : Packet) : State :=
  let ctx := s.qCtx p.queue
  let id := BitVec.ofNat 16 (p.field 8 2)
  if !s.unloadDone p then s
  else { s with modules := s.modules.filter fun m => !(m.ctx = ctx && m.id = id), l0 := [], l1 := [], l2 := [] }.endPacket p 0

/-! ## Launches begin (R155, R393, R396) -/

/-- The records that a task launch places in its queue, stamped in queue order (R41). -/
def stampRecs (age : Dword) : List (BitVec 256) → List (BitVec 256)
  | [] => []
  | r :: rest => recStamp r age (r.getLsbD 241) (r.getLsbD 242) :: stampRecs (age + 1) rest

/-- The 32-byte records of a run of bytes. -/
def recsOf : Nat → List Byte → List (BitVec 256)
  | 0, _ => []
  | n + 1, bs => structBits 256 (bs.take 32) :: recsOf n (bs.drop 32)

/-- A launch enters the placement order, as a producer of the queues of its context that its PRODQ names (R45). -/
def State.orderLaunch (s : State) (i : Nat) (l : Launch) : State :=
  { s with
    launches := AMap.upd s.launches i fun l => { l with stage := .ordered }
    taskQueues := AMap.mapV s.taskQueues fun q t =>
      if l.prodq.getLsbD q && t.ctx = l.ctx && t.launch != i then { t with prods := t.prods ++ [i] } else t }

/-- A task launch creates its queue with its records in place. -/
def State.createQueue (s : State) (i : Nat) (l : Launch) : State :=
  let recs := recsOf l.ninit ((s.vaRead l.ctx l.tqBase (32 * l.ninit)).getD [])
  { s with
    taskQueues := AMap.set s.taskQueues l.tq
      { launch := i, ctx := l.ctx, cap := l.cap, free := l.cap - l.ninit, base := l.tqBase, recs := stampRecs s.age recs }
    age := s.age + BitVec.ofNat 64 l.ninit }

/-- A launch that ends before it has placed a block, with a CODE. -/
def State.failLaunch (s : State) (i : Nat) (l : Launch) (code : Nat) : State := s.endLaunch i l code 0

/-- A launch that ends as it begins, with a CODE: it has begun, and so it is a producer, completed, of the queues that it names (R45). -/
def State.failBegun (s : State) (i : Nat) (l : Launch) (code : Nat) : State := (s.orderLaunch i l).failLaunch i l code

/-- The begin stage of a launch packet. -/
def State.runLaunch (s : State) (p : Packet) : State :=
  match p.launch.bind fun i => (s.launch i).map fun l => (i, l) with
  | none => s.endPacket p p.code.toNat
  | some (i, l) =>
    if l.code != 0 then s.failBegun i l l.code.toNat
    else if l.status.getLsbD 5 then s.failBegun i l 0
    else if (s.launchModule l).isNone then s.failBegun i l 4
    else if !l.isTask then (s.orderLaunch i l).setPacket { p with stage := .begun }
    else if !(s.vaOk l.ctx l.tqBase (32 * l.cap) false && s.vaOk l.ctx l.tqBase (32 * l.cap) true) then s.failBegun i l 2
    else ((s.createQueue i l).orderLaunch i l).setPacket { p with stage := .begun }

/-! ## Queue destroy (R398) -/

def Packet.target (p : Packet) : Nat := p.field 8 1

/-- Packets of a queue in order. -/
def State.packetsOf (s : State) (q : Nat) : List Packet := s.packets.filter fun p => p.queue = q

/-- EN clears and STATE becomes 0. -/
def State.disableQueue (s : State) (q : Nat) : State :=
  ((s.setReg (regQ q 8) (s.reg (regQ q 8) &&& 0x7FFFFFFF#32)).setQStat q 0).clearQueueError q

/-- One packet of a queue that is destroyed: one not begun is cancelled, a wait-signal ends, a launch that has begun is stopped, and others
run on. -/
def State.cancelPacket (s : State) (p : Packet) : State :=
  let id : Option (Nat × Launch) := p.launch.bind fun i => (s.launch i).map fun l => (i, l)
  match p.stage with
  | .accepted =>
    if p.malformed then s.endPacket p 1
    else
      match id with
      | some (i, l) => s.failLaunch i l 3
      | none => s.endPacket p 3
  | _ =>
    if p.opc = 4 then s.dropPacket p
    else
      match id with
      | some (i, _) => s.updLaunch i fun l => { l with status := l.status ||| 8#7 }
      | none => s

/-- The begin stage of a queue destroy. -/
def State.runDestroy (s : State) (p : Packet) : State :=
  let t := p.target
  if s.qStat t = 0 then s.endPacket p 0
  else if s.qStat t = 3 then s.setPacket { p with stage := .begun }
  else
    let others := (s.packetsOf t).filter fun x => !(x.queue = p.queue && x.idx = p.idx)
    if others.isEmpty then (s.disableQueue t).endPacket p 0
    else (others.foldl (fun a x => a.cancelPacket x) (s.setQStat t 3)).setPacket { p with stage := .begun }

/-- Nothing of the target of a queue destroy is left, or another destroy has ended it. -/
def State.destroyDone (s : State) (p : Packet) : Bool :=
  s.qStat p.target = 0 || ((s.packetsOf p.target).filter fun x => !(x.queue = p.queue && x.idx = p.idx)).isEmpty

/-- The end of a queue destroy. -/
def State.finishDestroy (s : State) (p : Packet) : State :=
  if !s.destroyDone p then s
  else if s.qStat p.target = 0 then s.endPacket p 0
  else (s.disableQueue p.target).endPacket p 0

/-! ## Stages (R148, R150) -/

/-- A packet may begin as far as the packets before it go (R150); a malformed one, once they have completed (R395). -/
def State.begins (s : State) (p : Packet) : Bool :=
  let earlier := (s.packetsOf p.queue).takeWhile fun x => x.idx != p.idx
  if p.malformed || p.bar || (p.opc = 9 && p.target = p.queue) then earlier.isEmpty
  else
    match earlier.getLast? with
    | none => true
    | some x => x.stage = .over

/-- A packet is held at the head of its queue (R20, R155, R182, R330, R384). -/
def State.held (s : State) (p : Packet) : Bool :=
  !p.malformed &&
    (match p.opc with
      | 1 | 2 => ((p.launch.bind s.launch).map s.launchHeld).getD false
      | 5 => s.hostHeld p
      | 6 => s.loadHeld p
      | _ => false)

/-- The debugger's STATE of a context (Table 22.3). -/
def State.dbgState (s : State) (c : Nat) : Nat := ((s.reg (regDbg c 4)).extractLsb' 0 3).toNat

/-- The lanes of a queue's context run: it is not stopping or stopped (Table 7.7), nor draining or drained (R402). -/
def State.lanesRun (s : State) (q : Nat) : Bool :=
  let c := s.qCtx q
  (s.ctxStat c = 0 || s.ctxStat c = 1) && s.dbgState c != 3 && s.dbgState c != 4

/-- A launch's packet may take its finish stage as far as its context goes: its lane runs, or has not acknowledged the stop in progress (Table
7.7); a launch that a destroy, a device error or a thermal halt ends waits for no lane (R398, R399, R378). -/
def State.launchFinishes (s : State) (p : Packet) (l : Launch) : Bool :=
  s.lanesRun p.queue || (s.ctxStat (s.qCtx p.queue) = 2 && (s.context (s.qCtx p.queue)).acks.contains (.lane p.queue)) ||
    l.status.getLsbD 3 || l.status.getLsbD 4 || l.status.getLsbD 5

/-- The launch of a packet. -/
def State.launchOf (s : State) (p : Packet) : Option (Nat × Launch) := p.launch.bind fun i => (s.launch i).map fun l => (i, l)

/-- What a packet awaited after its begin stage has come, so that it waits for its finish stage (R148, R151). -/
def State.finishes (s : State) (p : Packet) : Bool :=
  match p.opc with
  | 1 | 2 => (s.launchOf p).elim false fun q => s.mayEnd q.1 q.2 && s.launchFinishes p q.2
  | 4 => p.met && s.lanesRun p.queue
  | 6 => true
  | 7 => s.unloadDone p
  | 9 => s.destroyDone p
  | _ => p.met

/-- A packet waits for a stage. -/
def State.waitsStage (s : State) (p : Packet) : Bool :=
  if p.stage = .accepted then s.lanesRun p.queue && s.qStat p.queue != 3 && s.begins p && !s.held p else s.finishes p

/-- The finish stage of a packet: its completion record and signal are written (R148, R151, R392). -/
def State.finishStage (s : State) (p : Packet) : State :=
  match p.opc with
  | 1 | 2 =>
    (match s.launchOf p with
      | some (i, l) => s.completeLaunch i l
      | none => s)
  | 6 => s.runLoad p
  | 7 => s.finishUnload p
  | 9 => s.finishDestroy p
  | _ => s.endPacket p p.code.toNat

/-- The begin stage of a packet; of one that needs no external event, both stages (R148). -/
def State.beginStage (s : State) (p : Packet) : State :=
  if p.malformed then s.endPacket p 1
  else
    match p.opc with
    | 0 => s.endPacket p 0
    | 1 | 2 => s.runLaunch p
    | 3 => s.runWrite p
    | 4 => s.setPacket { p with stage := .begun }
    | 5 => s.setPacket { p with stage := .begun }
    | 6 => s.runLoad p
    | 7 => s.runUnload p
    | 8 => s.runSnapshot p
    | _ => s.runDestroy p

/-- One stage of a packet. -/
def State.runStage (s : State) (p : Packet) : State := if p.stage = .accepted then s.beginStage p else s.finishStage p

/-- The packet of a queue that waits for a stage. -/
def State.waiting (s : State) (q : Nat) : Option Packet := (s.packetsOf q).find? s.waitsStage

/-- The firmware core that serves the queues of core j (R147). -/
def State.server (s : State) (j : Nat) : Option Nat :=
  if s.ready (64 + j) then some j else [0, 1, 2, 3].find? fun k => s.ready (64 + k)

/-- The queues of lane i of core j: its own, and those it has adopted. -/
def State.laneQueues (s : State) (j i : Nat) : List Nat :=
  ([0, 1, 2, 3].filter fun k => s.server k = some j).map fun k => 16 * k + i

/-- What lane i of core j has waiting: a packet that is to finish; else, of its queues, the head of that which comes next after the one from
which it began a packet last (log 40). -/
def State.laneHead (s : State) (j i : Nat) : Option Packet :=
  let qs := s.laneQueues j i
  let last := (AMap.get? s.laneLast (16 * j + i)).getD 64
  let l := ((qs.filter fun q => decide (last < q)) ++ qs.filter fun q => decide (q ≤ last)).filterMap s.waiting
  (l.find? fun p => p.stage != .accepted).or l.head?

/-- The type that a core's step selects: that of the lane that has waited longest, at least 16 steps, the lowest lane where several have;
else the highest in Table 7.4 (log 40). -/
def selectType (ps : List Packet) : Option Nat :=
  let old := ps.filter fun p => 16 ≤ p.waited
  let best : (Packet → Packet → Bool) → List Packet → Option Packet := fun better l =>
    l.foldl (fun b p => match b with
      | some x => if better p x then some p else some x
      | none => some p) none
  ((best (fun p x => decide (x.waited < p.waited)) old).or (best (fun p x => decide (priority p.opc < priority x.opc)) ps)).map Packet.opc

/-- A stage of lane i of core j, where the packet still waits for it after the lanes before it; with a begin stage, the lane turns to the
packet's queue. -/
def State.laneStage (s : State) (j i : Nat) (p : Packet) : State :=
  if s.packets.contains p && s.waitsStage p then
    let s1 := (s.setPacket { p with waited := 0 }).runStage { p with waited := 0 }
    if p.stage = .accepted then { s1 with laneLast := AMap.set s1.laneLast (16 * j + i) p.queue } else s1
  else s

/-- A lane that is masked waits one step more. -/
def State.laneWait (s : State) (p : Packet) : State :=
  { s with packets := s.packets.map fun x => if x = p then { x with waited := x.waited + 1 } else x }

/-- The lanes of core j that wait for a stage, each with its packet. -/
def State.lanes (s : State) (j : Nat) : List (Nat × Packet) := (List.range 16).filterMap fun i => (s.laneHead j i).map fun p => (i, p)

/-- A packet that waits for no stage counts no steps: its count begins again when it does (R148). -/
def State.resetWaits (s : State) (j : Nat) : State :=
  { s with packets := s.packets.map fun p => if s.server (p.queue / 16) = some j && !s.waitsStage p then { p with waited := 0 } else p }

/-- A step of core j: it selects a type, and every lane with a packet of it takes one stage; the others wait (R148). -/
def State.coreStep (s : State) (j : Nat) : State :=
  let s0 := s.resetWaits j
  let lanes := s0.lanes j
  match selectType (lanes.map Prod.snd) with
  | none => s0
  | some ty => lanes.foldl (fun a q => if q.2.opc = ty then a.laneStage j q.1 q.2 else a.laneWait q.2) s0

/-- FIRMWARE_STEP. -/
def execFirmwareStep (core : BitVec 2) (s : State) : Host.Outcome State Fault Refusal :=
  .next (if s.ready (64 + core.toNat) then s.coreStep core.toNat else s)

/-! ## The steps in which one packet takes a stage -/

/-- The step of the core that serves a queue, where it is one in which a packet of that queue takes its stage. -/
def State.stepFor (s : State) (q : Nat) (want : Packet → Bool) : State :=
  match s.server (q / 16) with
  | none => s
  | some j =>
    let ps := ((s.resetWaits j).lanes j).map Prod.snd
    if ps.any fun p => p.queue = q && want p && selectType ps = some p.opc then s.coreStep j else s

/-- A packet of a type is at its begin stage. -/
def Packet.beginning (opc : Nat) (p : Packet) : Bool := p.opc = opc && p.stage = .accepted && !p.malformed

/-- A packet of a type is at its finish stage. -/
def Packet.finishing (opc : Nat) (p : Packet) : Bool := p.opc = opc && p.stage != .accepted

/-- NO_OP. -/
def execNoOp (q : BitVec 6) (s : State) : Host.Outcome State Fault Refusal := .next (s.stepFor q.toNat (Packet.beginning 0))

/-- TILE_LAUNCH: its begin stage. -/
def execTileLaunch (q : BitVec 6) (s : State) : Host.Outcome State Fault Refusal := .next (s.stepFor q.toNat (Packet.beginning 1))

/-- TASK_LAUNCH: its begin stage. -/
def execTaskLaunch (q : BitVec 6) (s : State) : Host.Outcome State Fault Refusal := .next (s.stepFor q.toNat (Packet.beginning 2))

/-- WRITE_THEN_SIGNAL. -/
def execWriteThenSignal (q : BitVec 6) (s : State) : Host.Outcome State Fault Refusal := .next (s.stepFor q.toNat (Packet.beginning 3))

/-- WAIT_SIGNAL: the wait begins. -/
def execWaitSignal (q : BitVec 6) (s : State) : Host.Outcome State Fault Refusal := .next (s.stepFor q.toNat (Packet.beginning 4))

/-- HOST_COPY: the copy begins. -/
def execHostCopy (q : BitVec 6) (s : State) : Host.Outcome State Fault Refusal := .next (s.stepFor q.toNat (Packet.beginning 5))

/-- MODULE_LOAD: the begin stage, or the finish stage. -/
def execModuleLoad (q : BitVec 6) (s : State) : Host.Outcome State Fault Refusal := .next (s.stepFor q.toNat fun p => p.opc = 6 && !p.malformed)

/-- MODULE_UNLOAD: its begin stage. -/
def execModuleUnload (q : BitVec 6) (s : State) : Host.Outcome State Fault Refusal := .next (s.stepFor q.toNat (Packet.beginning 7))

/-- MANIFEST_SNAPSHOT. -/
def execManifestSnapshot (q : BitVec 6) (s : State) : Host.Outcome State Fault Refusal := .next (s.stepFor q.toNat (Packet.beginning 8))

/-- QUEUE_DESTROY: its begin stage. -/
def execQueueDestroy (q : BitVec 6) (s : State) : Host.Outcome State Fault Refusal := .next (s.stepFor q.toNat (Packet.beginning 9))

/-- MODULE_UNLOAD_DONE: its finish stage. -/
def execModuleUnloadDone (q : BitVec 6) (s : State) : Host.Outcome State Fault Refusal := .next (s.stepFor q.toNat (Packet.finishing 7))

/-- QUEUE_DESTROY_DONE: its finish stage. -/
def execQueueDestroyDone (q : BitVec 6) (s : State) : Host.Outcome State Fault Refusal := .next (s.stepFor q.toNat (Packet.finishing 9))

/-- LAUNCH_COMPLETE: the finish stage of a launch that may end. -/
def execLaunchComplete (i : Nat) (s : State) : Host.Outcome State Fault Refusal :=
  match s.launch i with
  | none => .next s
  | some l => .next (s.stepFor l.queue fun p => p.launch = some i && p.stage != .accepted)

/-! ## The events that packets await -/

/-- The packet of a type that has begun in a queue, and awaits its event. -/
def State.begunOf (s : State) (q opc : Nat) (f : State → Packet → State) : State :=
  match (s.packetsOf q).find? fun p => p.opc = opc && p.stage = .begun && !p.met with
  | some p => if (s.server (q / 16)).isSome then f s p else s
  | none => s

/-- WAIT_SIGNAL_POLL; a wait of a context that is stopping or stopped is left unstarted (Table 7.7). -/
def execWaitSignalPoll (q : BitVec 6) (s : State) : Host.Outcome State Fault Refusal :=
  .next (if s.lanesRun q.toNat then s.begunOf q.toNat 4 State.pollWait else s)

/-- HOST_COPY_PIECE_DONE. -/
def execHostCopyPieceDone (q : BitVec 6) (s : State) : Host.Outcome State Fault Refusal := .next (s.begunOf q.toNat 5 State.hostPiece)

/-- PREFLIGHT_READINESS_TIMEOUT: of the copy of a number, or of the host copy of a queue. -/
def execPreflightReadinessTimeout (w : Waiter) (s : State) : Host.Outcome State Fault Refusal :=
  match w with
  | .copy id => .next (s.copyTimeout id)
  | .piece q => .next (s.begunOf q 5 State.pieceTimeout)

/-- A lane that waits on a word reads it again after each write that the W1 makes to it (R152): a step that has changed the word shows it to
the lane at once. -/
def State.wakeWaits (s : State) (before : Memory) : State :=
  if s.mem = before then s
  else
    (s.packets.filter fun p => p.opc = 4 && p.stage = .begun && !p.met && s.lanesRun p.queue).foldl (fun a p =>
      match a.vaCell (a.qCtx p.queue) (p.addr 8) false with
      | some c => if Memory.read before c 8 = Memory.read a.mem c 8 then a else a.pollWait p
      | none => a) s

end Sys2Proof.Machine
end

