-- ==== Sys2Proof/Machine/Auto.lean ====
section
/-! DEFINITION. The events that may come to pass next of themselves, in the order in which the model tries them when no event is
listed in the agenda (log 5). -/

namespace Sys2Proof.Machine

/-- Of groups: wounds, rollbacks, trap entries. -/
def State.groupCandidates (s : State) : List Instr :=
  ((s.groups.map Prod.fst).flatMap fun k =>
    [.woundTakesEffect (coreOf k) (slotOfGroup k), .rollback (coreOf k) (slotOfGroup k), .taskAbandon (coreOf k) (slotOfGroup k)]) ++
  (s.groups.flatMap fun q => (q.2.entries.filter fun r => !r.2.trap.isEmpty).map fun r =>
    .trapEntry (coreOf q.1) (slotOfGroup q.1) r.1)

/-- Of an access in flight. -/
def Access.candidates (id : Nat) (a : Access) : List Instr :=
  (a.need.map fun set => .claimAcquireRequest id set) ++
    [match a.kind with
      | .load | .spawn _ => .loadReply ⟨id, []⟩
      | .store => .storePerform ⟨id, true⟩
      | .atom _ => .atomicAtHome id
      | .bld => .bldPerform id]

/-- Of accesses and copies. -/
def State.memCandidates (s : State) : List Instr :=
  (s.accesses.flatMap fun q => q.2.candidates q.1) ++
  (s.copies.flatMap fun q => (q.2.need.map fun set => .claimAcquireRequest q.1 set) ++
    [.copyPreflight q.1 .pass, .copyBytesLanded q.1 ⟨none, true, []⟩, .copyComplete q.1])

/-- Of the sidings and the matrix arrays. -/
def State.unitCandidates (s : State) : List Instr :=
  ((List.range 32).flatMap fun k =>
    if s.parked.any fun q => q.2.core / 8 = k then [.sidingAccept k, .wideUnitServe k, .exactStageServe k] else []) ++
  (s.arrays.flatMap fun q => [.arrayCommandComplete q.1, .arrayCommandStart q.1])

/-- The infill writes of a coverage launch. -/
def Launch.infillCandidates (l : Launch) (i : Nat) : List Instr :=
  if l.isCov && !l.f10 then
    (List.range l.tiles).flatMap fun n => (l.infillPoints n).map fun p => .infillWrite i (l.pindex p)
  else []

/-- Of a launch. -/
def Launch.candidates (l : Launch) (i : Nat) : List Instr :=
  (l.releases.map fun r => .tileComplete i r.2.1) ++ [.updateInstant i] ++ l.infillCandidates i ++ [.coverageDone i] ++
    (if l.waits.isEmpty then [] else [.fetchwAnswer i (l.nextTile.getD 0)])

/-- Of launches. -/
def State.launchCandidates (s : State) : List Instr :=
  (s.launches.flatMap fun q => q.2.candidates q.1) ++ [.tokenGrant, .launchPlace] ++ (s.launches.map fun q => .launchComplete q.1)

/-- Of contexts. -/
def State.ctxCandidates (s : State) : List Instr :=
  (s.contexts.flatMap fun q =>
    let c := BitVec.ofNat 5 q.1
    (q.2.acks.map fun e => .stopAck c e) ++ [.debugHaltDone c]) ++
  ((List.range 32).map fun c => .contextResume (BitVec.ofNat 5 c)) ++
  (if s.orderEntries.isEmpty then [] else (List.range 32).map fun c => .preemptContext (BitVec.ofNat 5 c))

/-- Of firmware and its packets. -/
def State.packetCandidates (s : State) : List Instr :=
  (s.packets.flatMap fun p =>
    let q := BitVec.ofNat 6 p.queue
    [.waitSignalPoll q, .hostCopyPieceDone q, .moduleUnloadDone q, .queueDestroyDone q]) ++
  (if s.packets.isEmpty then [] else (List.range 4).map fun j => .firmwareStep (BitVec.ofNat 2 j)) ++
  (((List.range 64).filter fun q => s.qStat q = 1).map fun q => .seqwPoll (BitVec.ofNat 6 q))

/-- Inserting a group before those that issued later. -/
def insertByLast (q : Nat × Group) : List (Nat × Group) → List (Nat × Group)
  | [] => [q]
  | p :: r => if q.2.lastIssue < p.2.lastIssue then q :: p :: r else p :: insertByLast q r

/-- Groups in the order in which they last issued, so that none is passed over for ever (R53). -/
def byLastIssue (l : List (Nat × Group)) : List (Nat × Group) := l.foldl (fun a q => insertByLast q a) []

/-- Of fetch and issue. -/
def State.issueCandidates (s : State) : List Instr :=
  ((s.groups.filter fun q => !q.2.promoted && 4096 ≤ q.2.waited s.clk.toNat).map fun q =>
    .priorityPromotion (coreOf q.1) (slotOfGroup q.1)) ++
  (s.groups.flatMap fun q => (q.2.entries.filter fun r => s.fetchStalled q.1 r.1).map fun r =>
    .instructionFetchFill (coreOf q.1) (slotOfGroup q.1) ⟨r.1, 1⟩) ++
  ((byLastIssue (s.groups.filter fun q => !(s.readyUnits q.1).isEmpty)).map fun q => .issueSelect (coreOf q.1) (portOf q.1))

/-- The candidates of a state, engines first, issue last. -/
def State.candidates (s : State) : List Instr :=
  s.groupCandidates ++ s.memCandidates ++ s.unitCandidates ++ s.launchCandidates ++
    [.powerStateChangeDone, .invalidateDone false, .invalidateDone true] ++ s.ctxCandidates ++ s.packetCandidates ++ s.issueCandidates

end Sys2Proof.Machine
end

