-- ==== Sys2Proof/Machine/Barrier.lean ====
section
/-! DEFINITION. Landing barriers (14/R286 to R289, 20/R364). -/

namespace Sys2Proof.Machine

/-- A barrier that the selected unit names, with its number: none where the number is out of range or has reserved bits set. -/
def Cur.barrier (c : Cur) (s : State) (b : KI) : Option (Nat × Barrier) :=
  let n := (c.srcKI b).toNat
  if 64 ≤ n then none else ((s.blockOf c.g).bind fun k => k.bar n).map fun x => (n, x)

/-- The barrier number as TINFO shows it. -/
def Cur.barInfo (c : Cur) (b : KI) : Nat := (c.srcKI b).toNat % 256

/-- An update of a barrier of the selected unit's block, with the completion test of R288. -/
def State.updBar (s : State) (c : Cur) (n : Nat) (f : Barrier → Barrier) : State :=
  { s with blocks := AMap.upd s.blocks c.g.block fun k => match k.bar n with
      | some x => k.setBar n (f x)
      | none => k }

/-- A barrier instruction: it has its effect once, where some thread is active. -/
def onBarrier (i : Instr) (p : Pred) (b : KI) (f : Cur → Nat → Barrier → State) (s : State) : Host.Outcome State Fault Refusal :=
  s.issueI i p fun c =>
    if !c.any p then s.retire c
    else
      match c.barrier s b with
      | none => c.illegalUse s p (c.barInfo b)
      | some (n, x) => f c n x

/-- Every agent of a barrier's scope is on the core of the block. -/
def State.nearBar (s : State) (g : Group) (x : Barrier) : Bool := x.scope = 1 && s.nearScope g .blk

/-- A unit acquires at the barrier's scope where its phase is shown to it (R133). -/
def State.barAcquire (s : State) (c : Cur) (x : Barrier) : State := s.acquireAt c.u.grp c.e.mask x.acquires

/-- `barv`: one arrival, as a release: it issues once what it releases is complete (R133). -/
def execBarv (p : Pred) (d : Reg) (b : KI) (s : State) : Host.Outcome State Fault Refusal :=
  onBarrier (.barv p d b) p b (fun c n x =>
    if !s.released c.u.grp (c.act p) (s.nearBar c.g x) then s.decline c
    else (s.updBar c n fun y => { y with arr := y.arr + 1 }.test).finish c (c.g.kset d.toNat x.phase)) s

/-- `barx.exp`. -/
def execBarxExp (p : Pred) (b : KI) (k : Reg) (s : State) : Host.Outcome State Fault Refusal :=
  onBarrier (.barxExp p b k) p b (fun c n _ =>
    let v := c.g.kget k.toNat
    if v.extractLsb' 32 32 != 0 then c.illegalUse s p (c.barInfo b)
    else (s.updBar c n fun y => { y with expb := y.expb + v }.test).retire c) s

/-- `barx.cfg`. -/
def execBarxCfg (p : Pred) (b : KI) (k : Reg) (s : State) : Host.Outcome State Fault Refusal :=
  onBarrier (.barxCfg p b k) p b (fun c n x =>
    let v := c.g.kget k.toNat
    let na : BitVec 12 := v.extractLsb' 0 12
    let sc : BitVec 3 := v.extractLsb' 12 3
    if v.extractLsb' 15 49 != 0 || x.arr != 0 || x.expb != 0 || x.landb != 0 || na == 0 || sc == 0 || decide (3 < sc.toNat) then
      c.illegalUse s p (c.barInfo b)
    else (s.updBar c n fun y => { y with na := na, scope := sc }).retire c) s

/-- `barx.ph`. -/
def execBarxPh (p : Pred) (d : Reg) (b : KI) (s : State) : Host.Outcome State Fault Refusal :=
  onBarrier (.barxPh p d b) p b (fun c _ x => (s.barAcquire c x).finish c (c.g.kset d.toNat x.phase)) s

/-- `barw`: presented when it issues; it traps once on an excess of bytes (R364), else waits until the phase of its ticket has completed. -/
def execBarw (p : Pred) (a : Reg) (b : KI) (s : State) : Host.Outcome State Fault Refusal :=
  onBarrier (.barw p a b) p b (fun c n x =>
    let ticket := c.g.kget a.toNat
    if x.ovf != 0 then
      c.trap (s.updBar c n fun y => { y with ovf := 0 }) { c.trapRec p 7 0 with info := BitVec.ofNat 8 n, ovf := x.ovf }
    else if ticket < x.phase then (s.barAcquire c x).retire c
    else (s.retire c).updGroup c.u.grp fun g => g.updEntry c.u.entry fun e => { e with st := .atBarrier n ticket }) s

end Sys2Proof.Machine
end

