-- ==== Sys2Proof/Machine/Claims.lean ====
section
/-! DEFINITION. Claim sets (09_claim_sets.md): acquire requests at the home, wounds, rollback, and the abandoning of tasks (20/R371, R372). -/

namespace Sys2Proof.Machine

/-! ## Acquire requests (Table 9.5) -/

/-- Who asks for a set: the group, and the address of its instruction; none where the request is not outstanding. -/
def State.requester (s : State) (id set : Nat) : Option (Nat × Dword) :=
  match AMap.get? s.accesses id with
  | some a => if a.need.contains set then some (a.grp, a.pc) else none
  | none =>
    match AMap.get? s.copies id with
    | some c => if s.copyAsks c && c.need.contains set then some (c.grp, c.pc) else none
    | none => none

/-- The holder's age in an owner entry; 0 where the set is free. -/
def State.holderAge (s : State) (l : Launch) (set : Nat) : Dword := BitVec.ofNat 64 (s.scrNat (l.ownerAddr set) 8)

/-- The holder's group of an owner entry. -/
def State.holderGroup (s : State) (l : Launch) (set : Nat) : Nat :=
  512 * s.scrNat (l.ownerAddr set + 9) 1 + s.scrNat (l.ownerAddr set + 10) 2 % 512

/-- A set's home wounds its holder (R186): it sets ROLLBACK, and the wound reaches the holder's group, where it is
ignored once the group has issued `tend` or all its threads have exited (R190, R372). -/
def State.woundHolder (s : State) (l : Launch) (set grp : Nat) : State :=
  let s1 := s.scrWrite (l.ownerAddr set + 8) [BitVec.ofNat 8 (s.scrNat (l.ownerAddr set + 8) 1 ||| 2)]
  (s1.updGroup (s.holderGroup l set) fun g =>
    if g.taskOpen && !g.entries.isEmpty && !(g.entries.any fun q => q.2.atTend) then { g with wounded := true } else g).count grp 12

/-- CLAIM_ACQUIRE_REQUEST: the home of a set decides a request on the owner entry as it stands (R186); a poisoned entry ends the
requester's block (Table 21.2). -/
def execClaimAcquireRequest (id set : Nat) (s : State) : Host.Outcome State Fault Refusal :=
  match s.requester id set with
  | none => .next s
  | some (grp, pc) =>
    match (s.group grp).bind fun g => (s.claimFrame g).map fun q => (g, q.1, q.2) with
    | none => .next s
    | some (g, l, f) =>
      if s.poisoned (s.scrCell (l.ownerAddr set)) 16 then .next (s.terminateAt grp .poison 0 pc (BitVec.ofNat 64 (l.ownerAddr set)))
      else
        let h := s.holderAge l set
        let stat := s.scrNat (l.ownerAddr set + 8) 1
        if h = 0 || (s.heldSets f).contains set then
          .next (if (s.heldSets f).contains set then { s with
              accesses := AMap.mapV s.accesses fun _ a => if a.grp = grp then { a with need := a.need.filter (· != set) } else a
              copies := AMap.mapV s.copies fun _ c => if c.grp = grp then { c with need := c.need.filter (· != set) } else c }
            else s.grantSet grp set)
        else if g.age < h && stat % 4 == 0 then .next (s.woundHolder l set grp)
        else .next s

/-! ## Rollback (R190, R371) -/

/-- WOUND_TAKES_EFFECT: the group's waits are withdrawn, and it issues nothing more of the task (R190 steps 1 and 2); not while a unit is
in a handler (R371) or the context is halted (R401), and not once all the group's threads have exited (R372). -/
def execWoundTakesEffect (core slot : Nat) (s : State) : Host.Outcome State Fault Refusal :=
  let grp := 512 * core + slot
  match s.group grp with
  | none => .next s
  | some g =>
    if !g.wounded || g.rolling || !g.taskOpen || g.entries.isEmpty || g.inHandler || !s.ctxRuns g.ctx || !s.blockRuns g then .next s
    else
      let s1 := s.withdraw grp
      .next { s1.updGroup grp fun g => { g with rolling := true, wounded := false } with
        tokenReqs := s1.tokenReqs.filter fun r => r.1 != grp
        tokens := s1.tokens.filter fun r => r.1 != grp
        tiles := AMap.mapV s1.tiles fun _ t => { t with waiters := t.waiters.filter (· != grp) } }

/-- What a rollback or an abandonment waits for: the group's accesses; begun copies that touch a set; and, its release of the sets at `.dev`
being cumulative, the stores visible on its core (R136, R190 steps 2, 3 and 5). -/
def State.taskBusy (s : State) (grp : Nat) : Bool :=
  !(s.groupAccesses grp).isEmpty || !(s.coreStores (coreOf grp)).isEmpty || s.copies.any fun q => q.2.grp = grp && q.2.logs

/-- A poisoned undo entry of a task. -/
def State.undoPoison (s : State) (g : Group) : Option Nat :=
  (s.claimFrame g).bind fun q => ((List.range (s.nlog q.2)).find? fun j => s.poisoned (s.scrCell (q.2 + 128 + 8 * j)) 8).map fun j =>
    q.2 + 128 + 8 * j

/-- The record of a task that is rolled back goes back to its queue with its AGE and RST set, in its own slot (R190 step 6). -/
def State.requeue (s : State) (q : Nat) (r : BitVec 256) : State :=
  { s with taskQueues := AMap.upd s.taskQueues q fun t =>
      { t with recs := t.recs ++ [r ||| BitVec.ofNat 256 (2 ^ 241)], running := t.running - 1 } }

/-- The units of a group fuse into one, which stands at the `fetchw` that handed out the record (R190 step 7). -/
def Group.restart (g : Group) : Group :=
  let e : Entry :=
    { pc := g.fetchPc, mask := g.aliveMask, mod := g.fetchMod, clause := g.fetchClause, trap := g.entries.flatMap fun q => q.2.trap }
  { g with entries := [(0, e)], work := .none, taskOpen := false, wounded := false, rolling := false, allotted := [] }

/-- The return-address stack at a restart (R190 step 7): as deep as at the `fetchw`; newer entries are gone, and entries that the task has
popped stand there again (log 35). -/
def Group.rasAgain (g : Group) (ras : List RasEntry) : List RasEntry :=
  g.fetchRas.take (g.fetchDepth - ras.length) ++ ras.drop (ras.length - g.fetchDepth)

/-- ROLLBACK: steps 3 to 7 of R190. -/
def execRollback (core slot : Nat) (s : State) : Host.Outcome State Fault Refusal :=
  let grp := 512 * core + slot
  match s.group grp with
  | none => .next s
  | some g =>
    if !g.rolling || s.taskBusy grp || !s.blockRuns g then .next s
    else
      match g.work, s.launch g.launch with
      | .task r, some l =>
        let s1 := s.undoReplay g
        (match s.undoPoison g with
          | some a => .next (s1.terminateAt grp .blockState 0 g.fetchPc (BitVec.ofNat 64 a))
          | none =>
            let s2 := (s1.releaseClear g).requeue l.tq r
            let s3 := (s2.updGroup grp Group.restart).setRas grp (g.rasAgain (s2.ras grp g))
            .next (s3.count grp 11))
      | _, _ => .next s

/-- TASK_ABANDON: a group has exited before `tend` (R372): once what its task has in the engines is done, its claimed writes are undone, its
sets are released and its slot returns; then the group's exit is over. -/
def execTaskAbandon (core slot : Nat) (s : State) : Host.Outcome State Fault Refusal :=
  let grp := 512 * core + slot
  match s.group grp with
  | none => .next s
  | some g =>
    if !g.entries.isEmpty || !g.taskOpen || !s.blockRuns g then .next s
    else
      let s1 := s.withdraw grp
      if s1.taskBusy grp then .next s1
      else
        match s1.undoPoison g with
        | some a => .next ((s1.undoReplay g).terminateAt grp .blockState 0 g.fetchPc (BitVec.ofNat 64 a))
        | none => .next ((s1.abandonTask grp).groupExit grp)

end Sys2Proof.Machine
end

