-- ==== Sys2Proof/Machine/Control.lean ====
section
/-! DEFINITION. Control instructions (12/R234 to R243): branches, calls and returns, join, exit, yield, prefetch. -/

namespace Sys2Proof.Machine

/-- `nop` (R225): removed at decode; the unit's next instruction is the one that follows, and its clause's wait still stands. -/
def execNop (_len : Len) (s : State) : Host.Outcome State Fault Refusal :=
  s.issue fun c => { s.updGroup c.u.grp fun g => g.updEntry c.u.entry fun e => { e with pc := c.u.npc, resumed := false } with sel := none }

/-- The fetch fault of a target outside the current module's segment (Tables 12.7, 20.2): the instruction has no effect. -/
def Cur.badTargetTrap (c : Cur) (s : State) (p : Pred) (target : Dword) : State :=
  c.trap s { c.trapRec p 0x04 1 with pc := target, addr := target }

/-- The selected unit's control transfer has issued. -/
def State.transferred (s : State) (c : Cur) : State := s.issued c

/-- The whole unit goes on at an address that must hold a clause header. -/
def State.jump (s : State) (c : Cur) (target : Dword) : State :=
  (s.issued c).updGroup c.u.grp fun g => g.updEntry c.u.entry fun e => { e with pc := target, target := true, wait := 0 }

/-- A fetchw of a tile launch is not yet answered: its unit, the group's only one, remains whole (R290). -/
def State.splitBarred (s : State) (c : Cur) : Bool :=
  c.g.fetch.isSome && !(((s.launch c.g.launch).map (·.isTask)).getD false)

/-- Inserting a part in ascending order of program counters. DESIGN CHOICE (log 74): of two parts at one program counter the one listed first
stands first; so a `calli` target that is RETPC itself comes before the inactive threads' entry, which R234 and R238 leave open. -/
def insertPart (e : Entry) : List Entry → List Entry
  | [] => [e]
  | x :: r => if e.pc < x.pc then e :: x :: r else x :: insertPart e r

def sortParts (l : List Entry) : List Entry := l.foldl (fun a e => insertPart e a) []

/-- The unit splits into parts (R48); the split is counted. -/
def State.splitUnit (s : State) (c : Cur) (parts : List Entry) : State :=
  ((s.issued c).updGroup c.u.grp fun g => g.split c.u.entry (sortParts parts)).count c.u.grp 17

/-- The address of the next instruction after one that ends at an address: a block's last four bytes hold none, and are never executed (R206). -/
def nextAddr (a : Dword) : Dword := if 24 < a.toNat % 32 then blockBase a + 32 else a

/-- `br` (R234). -/
def execBr (p : Pred) (t : Target) (s : State) : Host.Outcome State Fault Refusal :=
  s.issue fun c =>
    let target := targetAddr c.u.pc t
    let npc := nextAddr c.u.npc
    let T := c.act p
    let F := c.e.mask &&& ~~~T
    if T = 0 then s.retire c
    else if F != 0 && target != npc && s.splitBarred c then c.illegalUse s p
    else if !s.inSegment c.g.ctx c.e.mod target then c.badTargetTrap s p target
    else if F = 0 || target = npc then s.jump c target
    else s.splitUnit c [{ c.e with pc := npc, mask := F, wait := 0, st := .run }, { c.e with pc := target, mask := T, wait := 0, st := .run, target := true }]

/-- The conditions of `brc` on a 64-bit value. -/
def brHolds (b : BrCond) (x : Dword) : Bool :=
  match b with
  | .nz => x != 0
  | .z => x == 0
  | .ltz => decide (x.toInt < 0)
  | .gez => decide (0 ≤ x.toInt)

/-- `brc` (R235): never splits. -/
def execBrc (b : BrCond) (p : Pred) (k : Reg) (t : Target) (s : State) : Host.Outcome State Fault Refusal :=
  s.issue fun c =>
    let target := targetAddr c.u.pc t
    if !(c.any p && brHolds b (c.g.kget k.toNat)) then s.retire c
    else if !s.inSegment c.g.ctx c.e.mod target then c.badTargetTrap s p target
    else s.jump c target

/-- The entry that a call pushes (R236). -/
def Cur.rasEntry (c : Cur) (kind : Byte) : RasEntry :=
  { modid := c.e.mod, kind := kind, entry := BitVec.ofNat 8 c.u.entry, mask := c.e.mask, retpc := blockBase c.u.pc + 32 }

/-- `call` (R237). -/
def execCall (p : Pred) (t : Target) (s : State) : Host.Outcome State Fault Refusal :=
  s.issue fun c =>
    let target := targetAddr c.u.pc t
    if !c.any p then s.retire c
    else if c.g.rasFull then c.illegalUse s p
    else if !s.inSegment c.g.ctx c.e.mod target then c.badTargetTrap s p target
    else ((s.flushSpill c.u.grp).pushRas c.u.grp (c.rasEntry 0)).jump c target

/-- The distinct targets of a `calli`, ascending. -/
def calliTargets (l : List Dword) : List Dword :=
  l.foldl (fun a x => if a.contains x then a else (a.filter (· < x)) ++ [x] ++ (a.filter (x < ·))) []

/-- The parts of a `calli` (R238): one per target in ascending order, each held until the one before it has returned or exited, and the
inactive threads waiting at RETPC. -/
def Cur.calliParts (c : Cur) (act : Word) (ret : Dword) (target : Nat → Dword) (l : List Dword) : List Entry :=
  let thr : Dword → Word := fun x => act &&& maskOf fun t => target t == x
  let part : Dword → Option Dword → Entry := fun x prev =>
    { c.e with
      pc := x, mask := thr x, wait := 0, target := true
      st := match prev with
        | none => .run
        | some y => .held c.e.mask (thr y) }
  let prevs : List (Option Dword) := none :: l.map some
  let parts := (l.zip prevs).map fun q => part q.1 q.2
  let rest := c.e.mask &&& ~~~act
  if rest = 0 then parts else parts ++ [{ c.e with pc := ret, mask := rest, wait := 0, st := .atRet }]

/-- `calli` (R238). -/
def execCalli (p : Pred) (a : Reg) (s : State) : Host.Outcome State Fault Refusal :=
  s.issueI (.calli p a) p fun c =>
    let act := c.act p
    let target : Nat → Dword := fun t => c.g.v64get t a.toNat
    let l := calliTargets ((threads act).map target)
    let bad := (threads act).find? fun t => !s.inSegment c.g.ctx c.e.mod (target t)
    let whole := l.length = 1 && act == c.e.mask
    if act = 0 then s.retire c
    else if c.g.rasFull then c.illegalUse s p
    else if !whole && s.splitBarred c then c.illegalUse s p
    else
      match bad, l with
      | some t, _ => c.badTargetTrap s p (target t)
      | none, [] => s.retire c
      | none, x :: _ =>
        let r := c.rasEntry 1
        if whole then ((s.flushSpill c.u.grp).pushRas c.u.grp r).jump c x
        else ((s.flushSpill c.u.grp).pushRas c.u.grp r).splitUnit c (c.calliParts act r.retpc target l)

/-- `callm` (R237, R330, R332). -/
def execCallm (p : Pred) (a b : Reg) (s : State) : Host.Outcome State Fault Refusal :=
  s.issue fun c =>
    let id : Half := (c.g.kget a.toNat).extractLsb' 0 16
    let off := ((c.g.kget b.toNat).extractLsb' 0 40).toNat
    if !c.any p then s.retire c
    else
      match s.module c.g.ctx id with
      | none => c.illegalUse s p
      | some m =>
        if m.unloading || off % 32 != 0 || m.len ≤ off || c.g.rasFull then c.illegalUse s p
        else
          let s1 := ((s.flushSpill c.u.grp).pushRas c.u.grp (c.rasEntry 2)).jump c (m.seg + BitVec.ofNat 64 off)
          s1.updGroup c.u.grp fun g => g.updEntry c.u.entry fun e => { e with mod := id }

/-- A matched entry that no split entry answers (R367): ENTRY is 64 or more, or names one that holds threads outside MASK. -/
def Group.badReturn (g : Group) (r : RasEntry) : Bool :=
  decide (64 ≤ r.entry.toNat) ||
    (match g.entry r.entry.toNat with
      | some e => !subMask (if e.st = .parent then e.mask &&& g.aliveMask else e.mask) r.mask
      | none => false)

/-- `ret` (R239): the unit waits for its matched entry. -/
def execRet (s : State) : Host.Outcome State Fault Refusal :=
  s.issue fun c =>
    let p : Pred := ⟨false, 0⟩
    let s0 := s.flushSpill c.u.grp
    match matchRas (s0.ras c.u.grp c.g) c.e.mask with
    | none => c.illegalUse s p
    | some (_, r) =>
      if c.g.badReturn r then c.illegalUse s p
      else ((s0.issued c).updGroup c.u.grp fun g => g.updEntry c.u.entry fun e => { e with st := .atRet, wait := 0 }).afterMove c.u.grp

/-- `join` (R240, R49). -/
def execJoin (s : State) : Host.Outcome State Fault Refusal :=
  s.issue fun c =>
    match c.e.parent with
    | none => s.retire c
    | some _ => ((s.issued c).updGroup c.u.grp fun g => g.updEntry c.u.entry fun e => { e with st := .atJoin, wait := 0 }).afterMove c.u.grp

/-- `exit` (R241): the active threads end, and the others go on. -/
def execExit (p : Pred) (s : State) : Host.Outcome State Fault Refusal :=
  s.issue fun c =>
    let act := c.act p
    if act = 0 then s.retire c
    else
      ((s.retire c).updGroup c.u.grp fun g =>
        { g.updEntry c.u.entry fun e => { e with mask := e.mask &&& ~~~act } with ended := g.ended ||| act }).afterMove c.u.grp

/-- `yield` (R242): a scheduling hint. -/
def execYield (_p : Pred) (s : State) : Host.Outcome State Fault Refusal := s.issue fun c => s.retire c

/-- Filling a block for `ipf` into a level and the levels outside it (R243). -/
def State.ipfBlock (s : State) (lvl : CacheLevel) (core cell : Nat) : State :=
  let b := match AMap.get? s.l1 (cacheKey (core / 8) cell), AMap.get? s.l2 (cacheKey (core / 64) cell) with
    | some b, _ => b
    | none, some b => b
    | none, none => s.blockAt cell
  let s2 := if (AMap.get? s.l2 (cacheKey (core / 64) cell)).isSome then s else s.putL2 core cell b
  let s1 := if (AMap.get? s.l1 (cacheKey (core / 8) cell)).isSome then s2 else s2.putL1 core cell b
  match lvl with
  | .l2 => s2
  | .l1 => s1
  | .l0 => if (AMap.get? s.l0 (cacheKey core cell)).isSome then s1 else s1.putL0 core cell b

/-- The limit of a range by level (R243). -/
def ipfLimit : CacheLevel → Nat
  | .l0 => 2 ^ 16 | .l1 => 2 ^ 20 | .l2 => 2 ^ 24

/-- `ipf` (R243): the blocks of the range inside the module's segment are filled; a fill that meets any fault is dropped (R390). -/
def execIpf (p : Pred) (lvl : CacheLevel) (a : Reg) (b : OffB) (s : State) : Host.Outcome State Fault Refusal :=
  s.issue fun c =>
    if !c.any p then s.retire c
    else
      let len := ((c.g.kget a.toNat).extractLsb' 0 24).toNat
      let start := match b with
        | .k n => blockBase (c.u.pc + c.g.kget n.toNat)
        | .i32 w => targetAddr c.u.pc (.off32 w)
        | .i64 d => targetAddr c.u.pc (.off64 d)
      let blocks := ((List.range ((len + 31) / 32)).filter fun i => s.inSegment c.g.ctx c.e.mod (start + BitVec.ofNat 64 (32 * i))).take
        (ipfLimit lvl / 32)
      let s1 := blocks.foldl (fun s i =>
        match s.fetchWhere c.g.ctx c.e.mod (start + BitVec.ofNat 64 (32 * i)) with
        | .cell _ n => if s.poisoned n 32 then s else s.ipfBlock lvl (coreOf c.u.grp) n
        | _ => s) s
      s1.retire c

end Sys2Proof.Machine
end

