-- ==== Sys2Proof/Machine/Debug.lean ====
section
/-! DEFINITION. Stopping contexts: pre-emption (07/R159 to R163), the save area (Tables 7.8, 7.9), stops that do not finish (22/R399), and
the debugger's halt, drain and resume (22/R400 to R402). -/

namespace Sys2Proof.Machine

/-! ## Engines (Table 7.7) -/

/-- The live blocks of a context. -/
def State.ctxBlocks (s : State) (c : Nat) : AMap Block := s.blocks.filter fun q => ((s.launch q.2.launch).map (·.ctx)) = some c

/-- The cores of blocks, without repeats. -/
def blockCores (bs : AMap Block) : List Nat := (bs.flatMap fun q => (List.range q.2.span).map fun i => q.2.core + i).eraseDups

/-- The engines that must acknowledge a stop of a context. -/
def State.enginesOf (s : State) (c : Nat) : List Engine :=
  let cores := blockCores (s.ctxBlocks c)
  (((List.range 64).filter fun q => s.qStat q != 0 && s.qCtx q = c).map Engine.lane) ++ [Engine.turntable] ++
    (cores.flatMap fun k => (List.range 8).map fun p => Engine.port k p) ++ cores.map Engine.matrix ++ cores.map Engine.copyEngine ++
    ((cores.map (· / 8)).eraseDups.flatMap fun k => [Engine.infill k, .service k, .wide k, .exact k])

/-- The row of Table 7.7, counted from 1. -/
def engineRow : Engine → Nat
  | .lane _ => 1 | .turntable => 2 | .port .. => 3 | .matrix _ => 4 | .copyEngine _ => 5
  | .infill _ => 6 | .service _ => 7 | .wide _ => 8 | .exact _ => 9

/-- A group belongs to a context. -/
def State.ofCtx (s : State) (grp c : Nat) : Bool := (s.group grp).elim false fun g => g.ctx = c

/-- An engine holds nothing that a stop must wait for of the groups, of the blocks (by context and number) and of the contexts that three
tests name (Table 7.7). -/
def State.engineFree (s : State) (grps : Nat → Bool) (blks : Nat → Nat → Bool) (ctxs : Nat → Bool) : Engine → Bool
  | .port k p =>
    let on : Nat → Bool := fun grp => coreOf grp = k && portOf grp = p
    !(s.sel.elim false fun u => on u.grp && grps u.grp) && !(s.accesses.any fun q => on q.2.grp && grps q.2.grp) &&
      !(s.parked.any fun q => on q.2.grp && blks q.2.ctx q.2.block) && !(s.svc.any fun q => q.1 = k && ctxs q.2.2.1) &&
      !(s.blocks.any fun q => decide (q.2.core ≤ k ∧ k < q.2.core + q.2.span) && q.2.dying.isSome && s.groups.any fun g => g.2.block = q.1 && grps g.1)
  | .matrix k =>
    !((AMap.get? s.arrays k).getD []).any (fun x => grps x.grp) && !(s.parked.any fun q => q.2.core = k && blks q.2.ctx q.2.block)
  | .copyEngine k => !(s.copies.any fun q => q.2.core = k && blks q.2.ctx q.2.block) && !s.accesses.any fun q => q.2.core = k && grps q.2.grp
  | .service k => !s.accesses.any fun q => q.2.core / 8 = k && grps q.2.grp
  | .wide k => !s.parked.any fun q => q.2.core / 8 = k && !q.2.exact && blks q.2.ctx q.2.block
  | .exact k => !s.parked.any fun q => q.2.core / 8 = k && blks q.2.ctx q.2.block
  | .lane _ | .turntable | .infill _ => true

/-- A module unload can still complete while its context is stopped, and so can a destroy of a queue with no unload that cannot (log 42). -/
def State.mayFinish (s : State) (p : Packet) : Bool :=
  match p.opc with
  | 5 | 6 => true
  | 7 => s.unloadDone p
  | 9 => (s.packetsOf p.target).all fun x => !(x.opc = 7 && x.stage = .begun) || s.unloadDone x
  | _ => false

/-- An engine may acknowledge the stop of a context: a lane once the packet in hand has completed, a launch whose finish is due among them; a
copy engine once the bytes that its copies left in flight are at their homes too (R138). -/
def State.mayAck (s : State) (c : Nat) : Engine → Bool
  | .lane q => !s.packets.any fun p => p.queue = q && p.stage != .accepted &&
      (s.mayFinish p || (s.launchOf p).elim false fun r => s.mayEnd r.1 r.2)
  | e => s.engineFree (fun k => s.ofCtx k c) (fun x _ => x = c) (· = c) e

/-! ## Stopping (R160, R161) -/

/-- An unanswered `fetchw` is withdrawn: a unit still just past it stands at it again; where the unit has gone on, its request is put again
at resumption (log 33). -/
def Group.withdrawFetch (g : Group) : Group :=
  match g.fetch with
  | none => g
  | some f =>
    let near : Entry → Bool := fun e => e.st = .run && e.pc = g.fetchPc + 8 && e.mod = g.fetchMod && f.1 &&& ~~~e.mask = 0
    if g.entries.any fun q => near q.2 then
      { g with fetch := none, entries := AMap.mapV g.entries fun _ e =>
          if near e then { e with pc := g.fetchPc, clause := g.fetchClause, wait := 0, target := false } else e }
    else { g with fetch := none, refetch := some f }

/-- A claim access that waits is withdrawn: its unit stands at it again. -/
def State.withdrawClaim (s : State) (id : Nat) (a : Access) : State :=
  let s1 := (s.returnSpawn a).endAccess id a
  let back : Entry → Entry := fun e => if e.st = .atClaim id then { e with pc := a.pc, st := .run } else e
  s1.updGroup a.grp fun g => { g with entries := AMap.mapV g.entries fun _ e => back e }

/-- The stop of a context goes out to every engine: its units issue nothing more, tokens granted to them return, and what waits for the
turntable or for a set is withdrawn. -/
def State.stopContext (s : State) (c : Nat) (k : StopKind) : State :=
  let s1 := (s.accesses.filter fun q => s.ofCtx q.2.grp c && !q.2.need.isEmpty).foldl (fun a q => a.withdrawClaim q.1 q.2) s
  let s2 := { s1.setCtxStat c 2 with
    groups := AMap.mapV s1.groups fun _ g => if g.ctx = c then g.withdrawFetch else g
    launches := AMap.mapV s1.launches fun _ l => if l.ctx = c then { l with waits := [] } else l
    tokens := s1.tokens.filter fun r => !s.ofCtx r.1 c
    tokenReqs := s1.tokenReqs.filter fun r => !s.ofCtx r.1 c
    sel := s1.sel.filter fun u => !s.ofCtx u.grp c }
  s2.setContext c { s2.context c with acks := s.enginesOf c, stop := some k }

/-! ## The save area (R162): what is written, with its offset in the record of a core -/

/-- The bytes of a landing barrier (Table 14.5). -/
def Barrier.bytes (b : Barrier) : List Byte :=
  leBytes 8 b.phase.toNat ++ [0, b.scope.setWidth 8] ++ leBytes 2 b.na.toNat ++ leBytes 2 b.arr.toNat ++ leBytes 2 0 ++
    leBytes 8 b.expb.toNat ++ leBytes 8 b.landb.toNat ++ leBytes 8 b.ovf.toNat ++ leBytes 24 0

/-- The trap state in number order (Table 19.3). -/
def TrapState.bytes (t : TrapState) : List Byte :=
  ([t.tcause, t.tpc, t.tresume, t.tmask, t.taddr, t.tinfo].flatMap fun x => leBytes 8 x.toNat) ++ bytesOf 32 t.tpend ++
    leBytes 8 t.tpendt.toNat ++ leBytes 8 t.tovf.toNat

/-- Bytes that the layout leaves open. -/
def freeBytes (free off n : Nat) : List Byte := (List.range n).map fun i => Config.freeSaved free (off + i)

/-- A split entry of a group record; the coding of its state, and of a parent that is none, is open (log 19). -/
def Entry.bytes (e : Entry) (free off : Nat) : List Byte :=
  leBytes 8 e.pc.toNat ++ leBytes 4 e.mask.toNat ++
    [e.parent.elim (Config.freeSaved free (off + 12)) fun p => BitVec.ofNat 8 p, Config.freeSaved free (off + 13), 0, 0]

/-- The current work unit: the continuation record, or the run that the answer of the turntable wrote for the tile. DESIGN CHOICE (log 19): Table
7.9 gives the tile origin no layout; the model writes the tile's index and x, y, z, 8 bytes each. -/
def State.workBytes (s : State) (g : Group) : List Byte :=
  match g.work with
  | .none => []
  | .task r => bytesOf 32 r
  | .tile n =>
    let o := ((s.launch g.launch).map fun l => l.origin n).getD ⟨0, 0, 0⟩
    leBytes 8 n ++ leBytes 8 o.x ++ leBytes 8 o.y ++ leBytes 8 o.z

/-- The group record at an offset (Table 7.9), but for split entries and stack entries that are not in use. DESIGN CHOICE (log 19): the table gives
the stack entries no order; the newest on chip comes first. -/
def State.groupPieces (s : State) (off : Nat) (g : Group) : List (Nat × List Byte) :=
  let entryAt : Nat → Nat := fun i => off + (if i < 32 then 0x240 + 16 * i else 0x600 + 16 * (i - 32))
  let last := (Config.freeSaved s.free (off + 0x57F) &&& 0xFE#8) ||| (if g.entries.any fun q => q.2.inHandler then 1 else 0)
  [(off, (List.range 64).flatMap fun n => leBytes 8 (g.kget n).toNat), (off + 0x200, (List.range 16).flatMap fun n => leBytes 4 (g.mget n).toNat)] ++
    (g.entries.map fun q => (entryAt q.1, q.2.bytes s.free (entryAt q.1))) ++
    (((List.range g.ras.length).zip g.ras).map fun q => (off + 0x440 + 16 * q.1, q.2.bytes)) ++
    [(off + 0x540, freeBytes s.free (off + 0x540) 0x3F ++ [last]), (off + 0x580, s.workBytes g), (off + 0x5A0, g.trap.bytes)]

/-- The places of a group's lane registers: the offset of each register's row of 32 threads (log 19). -/
def rowsOf (grp : Nat) (g : Group) : List (Nat × Nat) :=
  (List.range g.nregs).map fun n => (n, 0x102000 + 2 ^ 18 * portOf grp + 128 * (g.vBase + n))

/-- The runs of a core's memory that a context's blocks and groups own there: offset in the record, cell, length. -/
def State.savedRuns (s : State) (core : Nat) (gs : AMap Group) (bs : AMap Block) : List (Nat × Nat × Nat) :=
  (bs.map fun q =>
    let b := q.2.shBase.getD (core - q.2.core) 0
    (0x302000 + b, cellShared core b, ((s.launch q.2.launch).map Launch.shmem).getD 0)) ++
  gs.map fun q => (0x382000 + q.2.spBase, cellSpill core q.2.spBase, q.2.spSize)

/-- The tiles of blocks on a core: number, and offset in the record. -/
def savedTiles (core : Nat) (bs : AMap Block) : List (Nat × Nat) :=
  bs.flatMap fun q => (q.2.tiles.getD (core - q.2.core) []).map fun t => (32 * core + t, 0x402000 + 0x2000 * t)

/-- The groups and the blocks, of those given, that stand on a core. -/
def groupsAt (core : Nat) (gs : AMap Group) : AMap Group := gs.filter fun q => coreOf q.1 = core
def blocksAt (core : Nat) (bs : AMap Block) : AMap Block := bs.filter fun q => decide (q.2.core ≤ core ∧ core < q.2.core + q.2.span)

/-- The offset of a group's record. -/
def recordOff (grp : Nat) : Nat := 0x2000 + 2048 * slotOfGroup grp

/-- What the control cores write of one core (Table 7.8); the header's layout is open. -/
def State.savePieces (s : State) (core : Nat) (gs : AMap Group) (bs : AMap Block) : List (Nat × List Byte) :=
  [(0, freeBytes s.free 0 0x1000)] ++
  (bs.filter fun q => q.2.core = core).flatMap (fun q => (q.2.barNums.zip q.2.bars).map fun r => (0x1000 + 64 * r.1, r.2.bytes)) ++
  gs.flatMap (fun q => s.groupPieces (recordOff q.1) q.2) ++
  gs.flatMap (fun q => (rowsOf q.1 q.2).map fun r => (r.2, (List.range 32).flatMap fun t => leBytes 4 (q.2.vget t r.1).toNat)) ++
  (s.savedRuns core gs bs).map (fun r => (r.1, Memory.read s.mem r.2.1 r.2.2)) ++
  (savedTiles core bs).map fun r =>
    (r.2, (List.range 2048).flatMap fun e => leBytes 4 (SMap.get ((AMap.get? s.tiles r.1).getD {}).el e).toNat)

/-- The save record of a core lies here. -/
def State.saveBase (s : State) (c core : Nat) : Nat :=
  (s.reg (regCtx c 0xC)).toNat % 2 ^ 20 * 2 ^ 32 + (s.reg (regCtx c 8)).toNat / 2 ^ 16 * 2 ^ 16 + 0x450000 * core

/-- Writing the save area of a context. -/
def State.writeSave (s : State) (c : Nat) (gs : AMap Group) (bs : AMap Block) : State :=
  let s1 := (blockCores bs).foldl (fun a k =>
    (s.savePieces k (groupsAt k gs) (blocksAt k bs)).foldl (fun a q => a.physWrite false (s.saveBase c k + q.1) q.2) a) s
  { s1 with free := s1.free + 1 }

/-- The tiles of blocks. -/
def blockTiles (bs : AMap Block) : List Nat := (blockCores bs).flatMap fun k => (savedTiles k (blocksAt k bs)).map Prod.fst

/-- What is saved of a context beside what was saved before (R159). -/
def Saved.add (v w : Saved) : Saved :=
  { groups := w.groups.foldl (fun m q => AMap.set m q.1 q.2) v.groups, blocks := w.blocks.foldl (fun m q => AMap.set m q.1 q.2) v.blocks
    tiles := w.tiles.foldl (fun m q => AMap.set m q.1 q.2) v.tiles, poison := w.poison.foldl (fun l u => insertNat u l) v.poison
    counts := v.counts ++ w.counts }

/-- A context is saved: its blocks leave the cores, and CTXSTAT becomes 3 (R160 step 4). DESIGN CHOICE (log 74): the time at which it was stopped
(R156) is that of its last acknowledgement, at which it is saved; where blocks of it were saved before, it is theirs. -/
def State.saveContext (s : State) (c : Nat) : State :=
  let bs := s.ctxBlocks c
  let gs := s.groups.filter fun q => q.2.ctx = c
  let ts := blockTiles bs
  let runs := (blockCores bs).flatMap fun k => s.savedRuns k (groupsAt k gs) (blocksAt k bs)
  let v : Saved :=
    { groups := gs, blocks := bs, tiles := s.tiles.filter fun q => ts.contains q.1
      poison := s.poison.filter fun u => runs.any fun r => decide (u < r.2.1 + r.2.2 ∧ r.2.1 < u + 8) }
  let s1 := s.writeSave c gs bs
  let s2 := { s1 with
    groups := s1.groups.filter fun q => q.2.ctx != c
    blocks := AMap.filterV s1.blocks fun k _ => (AMap.get? bs k).isNone
    tiles := s1.tiles.filter fun q => !ts.contains q.1 }
  let x := s2.context c
  (s2.setCtxStat c 3).setContext c { x with
    saved := some (x.saved.elim v fun w => w.add v), stoppedAt := if x.savedBlocks.isEmpty then s.clk.toNat else x.stoppedAt, acks := [] }

/-- The last acknowledgement: the context is saved, and is idle where its last launch ended meanwhile; one whose stop had timed out is idle, or
active where launches of it have been accepted since (log 75). -/
def State.stopped (s : State) (c : Nat) : State :=
  match (s.context c).silent with
  | some _ =>
    let s1 := s.setContext c (s.context c).idle
    if s.launches.any fun q => q.2.ctx = c && !q.2.status.getLsbD 5 then s1.setCtxStat c 1 else (s1.setCtxStat c 0).dropCounts c fun _ => false
  | none => (s.saveContext c).settleCtx c

/-- STOP_ACK: an engine acknowledges once; with the last, the stop is done. -/
def execStopAck (ctx : BitVec 5) (e : Engine) (s : State) : Host.Outcome State Fault Refusal :=
  let c := ctx.toNat
  let x := s.context c
  if s.ctxStat c != 2 || !x.acks.contains e || !s.mayAck c e then .next s
  else
    let s1 := s.setContext c { x with acks := x.acks.erase e }
    .next (if (x.acks.erase e).isEmpty then s1.stopped c else s1)

/-! ## Stops that do not finish (R399) -/

/-- The readiness bit that clears when an engine stays silent: that of its cluster, or of the firmware core that serves the lane (R147). -/
def State.engineBit (s : State) : Engine → Option Nat
  | .lane q => (s.server (q / 16)).map (64 + ·)
  | .turntable => none
  | .port k _ | .matrix k | .copyEngine k => some (k / 8)
  | .infill k | .service k | .wide k | .exact k => some k

/-- Core, cluster or firmware core of an engine. -/
def State.enginePlace (s : State) : Engine → Nat
  | .lane q => (s.server (q / 16)).getD (q / 16)
  | .turntable => 0
  | .port k _ | .matrix k | .copyEngine k => k
  | .infill k | .service k | .wide k | .exact k => k

/-- A launch of a stop that did not finish completes with DEVE set. -/
def Launch.timeout (l : Launch) : Launch := { l with status := l.status ||| 32#7, dead := l.dead || l.stage = .placed }

/-- The first silent engine of a context's stop is recorded, some launches and their blocks end, those that have placed no block at once, and its
readiness bit clears until device reset. -/
def State.endSilent (s : State) (c : Nat) (e : Engine) (which : Launch → Bool) : State :=
  let rec_ := BitVec.ofNat 32 (2 ^ 31 + c * 2 ^ 16 + engineRow e * 2 ^ 12 + s.enginePlace e)
  let s1 := if (s.reg regStopErr).getLsbD 31 then s else s.setReg regStopErr rec_
  let s2 := s1.raiseBoth regQErrVec
  let s3 := ((s2.ctxBlocks c).filter fun q => (s2.launch q.2.launch).elim false which).foldl (fun a q => a.killBlock q.1 .blockState none) s2
  let s4 := { s3 with launches := AMap.mapV s3.launches fun _ l => if which l then l.timeout else l }
  let s5 := (s4.launches.filter fun q => which q.2 && q.2.stage != .placed).foldl (fun a q => a.endLaunch q.1 q.2 0 q.2.count) s4
  match s.engineBit e with
  | some n => { s5.setReady n false with deadBits := insertNat n s5.deadBits }
  | none => s5

/-- The launches of a context that a queue destroy is stopping (R398 step 5). -/
def State.stoppingLaunches (s : State) (c : Nat) : AMap Launch :=
  s.launches.filter fun q => q.2.ctx = c && q.2.stage = .placed && q.2.status.getLsbD 3 && !s.launchStill q.1

/-- The first engine that still holds something of them. -/
def State.silentEngine (s : State) (c : Nat) : Option Engine :=
  let ls := s.stoppingLaunches c
  let own : Nat → Bool := fun b => (AMap.get? s.blocks b).elim false fun x => ls.any fun q => q.1 = x.launch
  (s.enginesOf c).find? fun e => !s.engineFree (fun k => (s.group k).elim false fun g => own g.block) (fun _ b => own b) (· = c) e

/-- STOP_TIMEOUT: 2 s without every acknowledgement, clocks of a pending fault not counted; the stop of a context, or of the launches that a
queue destroy ends (R399). -/
def execStopTimeout (ctx : BitVec 5) (s : State) : Host.Outcome State Fault Refusal :=
  let c := ctx.toNat
  let x := s.context c
  if s.svc.any fun q => (blockCores (s.ctxBlocks c)).contains q.1 then .next s
  else if s.ctxStat c = 2 then
    match x.acks with
    | [] => .next s
    | e :: _ =>
      if x.silent.isSome then .next s
      else
        let s1 := s.endSilent c e fun l => l.ctx = c
        .next (s1.setContext c { s1.context c with acks := [e], silent := some e })
  else
    match s.silentEngine c with
    | some e => .next (s.endSilent c e fun l => l.ctx = c && l.stage = .placed && l.status.getLsbD 3)
    | none => .next s

/-! ## Resuming (R163) -/

/-- Runs that meet. -/
def runsMeet (a b : List (Nat × Nat)) : Bool := a.any fun x => b.any fun y => decide (x.1 < y.1 + y.2 ∧ y.1 < x.1 + x.2)

/-- The resources that a saved context needs on a core: the same places again, and a place among the core's four contexts, which launches of it
that have been placed since share with it. -/
def savedDims (ctx : Nat) (u n : CoreUse) : List Dim :=
  [⟨decide (8 < u.blocks + n.blocks), fun c => decide (0 < c.blocks)⟩,
   ⟨decide (4 ≤ (u.ctxs.filter (· != ctx)).length), fun c => decide (0 < c.blocks)⟩,
   ⟨u.slots.any n.slots.contains, fun c => c.slots.any n.slots.contains⟩, ⟨runsMeet u.spill n.spill, fun c => runsMeet c.spill n.spill⟩,
   ⟨runsMeet u.shared n.shared, fun c => runsMeet c.shared n.shared⟩, ⟨u.bars.any n.bars.contains, fun c => c.bars.any n.bars.contains⟩,
   ⟨u.tiles.any n.tiles.contains, fun c => c.tiles.any n.tiles.contains⟩] ++
  (List.range 8).map fun p =>
    ⟨runsMeet (u.portRegs p) (n.portRegs p), fun c => runsMeet (c.portRegs p) (n.portRegs p)⟩

/-- The cores of an entry with the resources it needs there, beside the contexts that are kept. -/
def State.entryDims (s : State) (e : OrderEntry) (keep : Nat → Bool) : List (Nat × List Dim) :=
  match e.ctx with
  | some c =>
    (match (s.context c).saved with
      | some v => (blockCores v.blocks).map fun k => (k, savedDims c (s.coreUse k keep) (s.savedUse v k))
      | none => [])
  | none =>
    match s.launch e.id with
    | some l => (l.spansOf l.span).flatMap fun c => (List.range l.span).map fun i =>
        (c + i, l.dims (s.coreUse (c + i) keep) l.span (c + i) i)
    | none => []

/-- An entry fits beside the contexts that are kept. -/
def State.entryFits (s : State) (e : OrderEntry) (keep : Nat → Bool) : Bool := (s.entryDims e keep).all fun q => q.2.all fun d => !d.short

/-- Bytes of a context's save record of a core, as they stand. -/
def State.savedBytes (s : State) (c core off n : Nat) : List Byte :=
  match cellPhys false (s.saveBase c core + off) with
  | some k => Memory.read s.mem k n
  | none => []

/-- Values of w bits in n bytes each, by number. -/
def valuesOf (w n : Nat) (bs : List Byte) : SMap w :=
  (List.range (bs.length / n)).foldl (fun m i => SMap.set m i (BitVec.ofNat w (leNat ((bs.drop (n * i)).take n)))) []

/-- Field of n bytes at an offset. -/
def fieldAt (bs : List Byte) (off n : Nat) : Nat := leNat ((bs.drop off).take n)

/-- A landing barrier from its bytes. -/
def barrierOf (bs : List Byte) : Barrier :=
  { phase := BitVec.ofNat 64 (fieldAt bs 0 8), scope := BitVec.ofNat 3 (fieldAt bs 9 1), na := BitVec.ofNat 12 (fieldAt bs 10 2)
    arr := BitVec.ofNat 16 (fieldAt bs 12 2), expb := BitVec.ofNat 64 (fieldAt bs 16 8), landb := BitVec.ofNat 64 (fieldAt bs 24 8)
    ovf := BitVec.ofNat 64 (fieldAt bs 32 8) }

/-- Trap state from its bytes. -/
def trapOf (bs : List Byte) : TrapState :=
  let q : Nat → Dword := fun i => BitVec.ofNat 64 (fieldAt bs (8 * i) 8)
  { tcause := q 0, tpc := q 1, tresume := q 2, tmask := q 3, taddr := q 4, tinfo := q 5, tpend := BitVec.ofNat 256 (fieldAt bs 48 32)
    tpendt := q 10, tovf := q 11 }

/-- A split entry from its bytes: program counter and threads; what of it has an open coding is as it was, and no entry is in a handler where the
record says so. -/
def Entry.restored (e : Entry) (handler : Bool) (bs : List Byte) : Entry :=
  { e with pc := BitVec.ofNat 64 (fieldAt bs 0 8), mask := BitVec.ofNat 32 (fieldAt bs 8 4), inHandler := e.inHandler && handler }

/-- The work unit from its bytes. -/
def Work.restored (w : Work) (bs : List Byte) : Work :=
  match w with
  | .none => .none
  | .tile _ => .tile (fieldAt bs 0 8)
  | .task _ => .task (BitVec.ofNat 256 (leNat bs))

/-- Where split entry i stands in a group record. -/
def entryOff (i : Nat) : Nat := if i < 32 then 0x240 + 16 * i else 0x600 + 16 * (i - 32)

/-- A saved group as it stands again: registers, split entries, return-address entries, work unit and trap state are copied back from its record,
the rest is as it was (log 19); its counters restart (R246), the clocks counted since its last issue, and its promotion, stand (R52, R53), and
a `fetchw` that was withdrawn behind its unit is put again (log 33). -/
def State.restoredGroup (s : State) (c grp : Nat) (g : Group) : Group :=
  let b := fun (off n : Nat) => s.savedBytes c (coreOf grp) off n
  let r := recordOff grp
  let handler := fieldAt (b (r + 0x57F) 1) 0 1 % 2 == 1
  { g with
    entries := g.entries.map fun q => (q.1, q.2.restored handler (b (r + entryOff q.1) 16))
    ras := (List.range g.ras.length).map fun i => rasOf (b (r + 0x440 + 16 * i) 16)
    work := g.work.restored (b (r + 0x580) 32)
    k := valuesOf 64 8 (b (recordOff grp) 512), m := valuesOf 32 4 (b (recordOff grp + 0x200) 64), trap := trapOf (b (recordOff grp + 0x5A0) 96)
    v := (rowsOf grp g).foldl (fun m r => let x := valuesOf 32 4 (b r.2 128)
      (List.range 32).foldl (fun m t => SMap.set m (256 * t + r.1) (SMap.get x t)) m) []
    fetch := g.refetch, refetch := none, pmc := [], first := g.first.map fun _ => s.clk.toNat, lost := 0, lostAt := 0
    lastIssue := s.clk.toNat - g.waited (s.context c).stoppedAt }

/-- A saved block as it stands again, with the counts of peers that have arrived for it since (R284, R138). -/
def State.restoredBlock (s : State) (c id : Nat) (v : Saved) (b : Block) : Block :=
  (v.counts.filter fun q => q.1 = id).foldl (fun b q => b.landBytes q.2.1 q.2.2)
    { b with bars := b.barNums.map fun n => barrierOf (s.savedBytes c b.core (0x1000 + 64 * n) 64) }

/-- The state of a saved context is copied back to its cores, and CTXSTAT becomes 4 (R163). Its groups, which stand on no thread's knowledge of
before, see every write made so far. -/
def State.restoreContext (s : State) (c : Nat) (v : Saved) : State :=
  let cores := blockCores v.blocks
  let runs := cores.flatMap fun k => (s.savedRuns k (groupsAt k v.groups) (blocksAt k v.blocks)).map fun r => (k, r)
  let s1 := runs.foldl (fun a r => (a.noteFixed r.1 r.2.2.1 r.2.2.2).writeCells r.2.2.1 (s.savedBytes c r.1 r.2.1 r.2.2.2)) s
  let poison := s1.poison.filter fun u => !(runs.any fun r => decide (r.2.2.1 ≤ u ∧ u < r.2.2.1 + r.2.2.2))
  let gs := v.groups.map fun q => (q.1, s.restoredGroup c q.1 q.2)
  let tile : Nat × Tile → Tile := fun q => { q.2 with el := valuesOf 32 4 (s.savedBytes c (q.1 / 32) (0x402000 + 0x2000 * (q.1 % 32)) 0x2000) }
  let s2 := v.groups.foldl (fun a q => a.acquireAt q.1 0xFFFFFFFF#32 .dev) (s1.setCtxStat c 4)
  { s2 with
    groups := gs.foldl (fun m q => AMap.set m q.1 q.2) s.groups
    blocks := v.blocks.foldl (fun m q => AMap.set m q.1 (s.restoredBlock c q.1 v q.2)) s.blocks
    tiles := v.tiles.foldl (fun m q => AMap.set m q.1 (tile q)) s.tiles
    poison := v.poison.foldl (fun l u => insertNat u l) poison
    launches := AMap.mapV s.launches fun i l =>
      { l with waits := l.waits ++ ((gs.filter fun q => q.2.launch = i && q.2.fetch.isSome).map Prod.fst) } }

/-- The groups of a context are no longer stopped by a `bkpt`. -/
def State.clearBkpt (s : State) (c : Nat) : State :=
  { s with groups := AMap.mapV s.groups fun _ g => if g.ctx = c then { g with bkpt := false } else g }

/-- A context whose state has been copied back issues again: CTXSTAT becomes 1, and one that was drained is running for the debugger (R163,
R402). -/
def State.contextBack (s : State) (c : Nat) : State :=
  let s1 := (s.setContext c (s.context c).idle).setCtxStat c 1
  let s2 := if s.dbgState c = 4 then (s1.setReg (regDbg c 4) 0).clearBkpt c else s1
  s2.settleCtx c

/-- A group record of the save area is poisoned: the group's block ends when it is restored (R389). -/
def State.poisonedRecord (s : State) (c grp : Nat) : Bool :=
  match cellPhys false (s.saveBase c (coreOf grp) + recordOff grp) with
  | some k => s.poisoned k 2048
  | none => false

/-- CONTEXT_RESUME: a pre-empted context whose turn it is, and whose blocks fit again where they were, is copied back, and in a second step
it issues again (R156, R163); none resumes after a thermal halt (R378). -/
def execContextResume (ctx : BitVec 5) (s : State) : Host.Outcome State Fault Refusal :=
  let c := ctx.toNat
  if s.ctxStat c = 4 then .next (s.contextBack c)
  else if s.halted then .next s
  else
    match s.orderEntries.find? fun e => e.ctx = some c, (s.context c).saved with
    | some e, some v =>
      if !s.mayPlace e || !(s.entryFits e fun _ => true) then .next s
      else
        let bad := ((v.groups.filter fun q => s.poisonedRecord c q.1).map fun q => q.2.block).eraseDups
        let s1 := s.restoreContext c v
        .next (bad.foldl (fun a b => a.terminateBlock b .blockState 0 ((a.blockGroups b).head?.map fun k => (k, ((0 : Dword), (0 : Dword)))))
          (s1.setContext c { s1.context c with saved := none, stop := none }))
    | _, _ => .next s

/-! ## Pre-emption (R159) -/

/-- TIME_SLICE_EXPIRY: the slice of a context with resident blocks runs out; a halted context's does not run (R159, R401). -/
def execTimeSliceExpiry (ctx : BitVec 5) (s : State) : Host.Outcome State Fault Refusal :=
  let c := ctx.toNat
  let x := s.context c
  if s.ctxStat c != 1 || (s.ctxBlocks c).isEmpty || x.expired || s.dbgState c != 0 then .next s
  else .next (s.setContext c { x with expired := true, expiredAt := s.clk.toNat })

/-- The context of an entry. -/
def State.entryCtx (s : State) (e : OrderEntry) : Nat := (e.ctx.or ((s.launch e.id).map (·.ctx))).getD 0

/-- The contexts that block an entry: they hold, on its cores, some of what is short. -/
def State.blockers (s : State) (e : OrderEntry) : List Nat :=
  (List.range 32).filter fun c => c != s.entryCtx e && !(s.ctxBlocks c).isEmpty &&
    (s.entryDims e fun _ => true).any fun q => q.2.any fun d => d.short && d.held (s.coreUse q.1 (· = c))

/-- Blocks of a context that have been placed since it was saved stand where its saved ones are to return. -/
def State.clashes (s : State) (c : Nat) : Bool :=
  (s.context c).saved.elim false fun v => (blockCores v.blocks).any fun k =>
    ((savedDims c (s.coreUse k (· = c)) (s.savedUse v k)).drop 2).any Dim.short

/-- The context to stop: the blocking context of greatest class beyond the entry's, else the one whose slice expired first; of several, the
lowest-numbered, where the spec names none (log 69). A context at STATE 3 with blocks placed since is stopped like any other, unless they stand
where its saved ones are to return (log 41). -/
def State.victim (s : State) (e : OrderEntry) : Option Nat :=
  let bs := s.blockers e
  if bs.isEmpty || !(s.entryFits e fun c => !bs.contains c) then none
  else
    let may := bs.filter fun c => (s.ctxStat c = 1 || (s.ctxStat c = 3 && !s.clashes c)) && s.dbgState c = 0
    (leastBy (fun c => 3 - s.ctxClass c) (may.filter fun c => decide (e.cls < s.ctxClass c))).or
      (leastBy (fun c => (s.context c).expiredAt) (may.filter fun c => (s.context c).expired))

/-- PREEMPT_CONTEXT: one context at a time is stopped until the first entry fits; one whose stop has timed out counts no more (R399). -/
def execPreemptContext (ctx : BitVec 5) (s : State) : Host.Outcome State Fault Refusal :=
  match firstEntry s.orderEntries with
  | none => .next s
  | some e =>
    if s.entryFits e (fun _ => true) || ((List.range 32).any fun c => s.ctxStat c = 2 && (s.context c).silent.isNone) || s.victim e != some ctx.toNat then .next s
    else .next (s.stopContext ctx.toNat .preempt)

/-! ## The debugger (R400 to R402) -/

/-- Changing STATE of DBGSTAT, BKPT standing. -/
def State.setDbgState (s : State) (c n : Nat) : State :=
  s.setReg (regDbg c 4) ((s.reg (regDbg c 4) &&& 8#32) ||| BitVec.ofNat 32 n)

/-- The groups of a context that have not exited, resident or saved. -/
def State.dbgGroups (s : State) (c : Nat) : AMap Group :=
  ((s.groups ++ ((s.context c).saved.map (·.groups)).getD []).filter fun q => q.2.ctx = c && !q.2.entries.isEmpty)

/-- The number of a group's block, resident or saved. -/
def State.blockNum (s : State) (c : Nat) (g : Group) : Nat :=
  ((s.blockOf g).or (AMap.get? (s.context c).savedBlocks g.block)).elim 0 (·.num)

/-- STAT of a group in a halt report. -/
def State.dbgStat (s : State) (grp : Nat) (g : Group) : Nat :=
  let pend := g.fetch.isSome || (s.parked.any fun q => q.2.grp = grp && !q.2.dead) || s.accesses.any fun q => q.2.grp = grp &&
    match q.2.kind with
    | .load | .atom _ => true
    | _ => false
  let side := s.parked.any fun q => q.2.grp = grp && !q.2.dead && !q.2.buffered
  pend.toNat + 2 * side.toNat + 4 * (g.entries.any fun q => q.2.inHandler).toNat + 8 * g.bkpt.toNat

/-- TOK: the flags on which copies of the group are counted. -/
def State.dbgTok (s : State) (grp : Nat) : Nat :=
  (List.range 8).foldl (fun n i => if s.copies.any fun q => q.2.grp = grp && q.2.token = i then n + 2 ^ i else n) 0

/-- The halt report (Table 22.4). -/
def State.haltReport (s : State) (c : Nat) : List Byte :=
  let gs := s.dbgGroups c
  leBytes 8 s.clk.toNat ++ leBytes 4 gs.length ++ leBytes 52 0 ++ gs.flatMap fun q =>
    let pc := ((q.2.entries.find? fun e => e.2.st != .parent).map fun e => e.2.pc).getD 0
    leBytes 2 (s.blockNum c q.2) ++ [BitVec.ofNat 8 (coreOf q.1)] ++ leBytes 2 (slotOfGroup q.1) ++
      [BitVec.ofNat 8 (s.dbgTok q.1), BitVec.ofNat 8 (s.dbgStat q.1 q.2), 0] ++ leBytes 8 pc.toNat

/-- Writing the halt report. -/
def State.writeReport (s : State) (c : Nat) : State :=
  s.physWrite false ((s.reg (regDbg c 0xC)).toNat % 2 ^ 20 * 2 ^ 32 + (s.reg (regDbg c 8)).toNat / 64 * 64) (s.haltReport c)

/-- A drain goes on from a halt: the engines are to stop, or the stop in progress, or done, becomes that of the drain (R402); an idle context
stays at STATE 0 of CTXSTAT, which has nothing to save (R141). -/
def State.startDrain (s : State) (c : Nat) : State :=
  let s1 := s.setDbgState c 3
  if s1.ctxStat c = 0 then s1
  else if s1.ctxStat c = 1 then s1.stopContext c .drain
  else s1.setContext c { s1.context c with stop := some .drain }

/-- Resuming a halted context at once; one that is drained waits to fit again, and is in STATE 4 until then (R402). -/
def State.dbgResume (s : State) (c : Nat) : State :=
  let x := s.context c
  if s.dbgState c = 4 then
    if s.ctxStat c = 3 then s.setContext c { x with stop := some .preempt } else (s.setReg (regDbg c 4) 0).clearBkpt c
  else
    let s1 := (s.setReg (regDbg c 4) 0).clearBkpt c
    let clear := fun (v : Saved) => { v with groups := AMap.mapV v.groups fun _ g => { g with bkpt := false } }
    s1.setContext c { x with saved := x.saved.map clear }

/-- A debugger's command: 1 halt, 2 halt and drain, 3 resume; while STATE is 1 or 3 it is held, the last one standing (log 49). -/
def State.dbgCommand (s : State) (c : Nat) (cmd : BitVec 2) : State :=
  if cmd = 0 || !(s.reg (regDbg c 0)).getLsbD 31 then s
  else
    let x := s.context c
    match s.dbgState c with
    | 0 =>
      if cmd = 3 then s
      else (s.setDbgState c 1).setContext c { x with heldCmd := none, toDrain := cmd = 2 }
    | 2 => if cmd = 2 then s.startDrain c else if cmd = 3 then s.dbgResume c else s
    | 4 => if cmd = 3 then s.dbgResume c else s
    | _ => s.setContext c { x with heldCmd := some cmd }

/-- DEBUG_HALT. -/
def execDebugHalt (ctx : BitVec 5) (s : State) : Host.Outcome State Fault Refusal := .next (s.dbgCommand ctx.toNat 1)

/-- DEBUG_HALT_DRAIN. -/
def execDebugHaltDrain (ctx : BitVec 5) (s : State) : Host.Outcome State Fault Refusal := .next (s.dbgCommand ctx.toNat 2)

/-- DEBUG_RESUME. -/
def execDebugResume (ctx : BitVec 5) (s : State) : Host.Outcome State Fault Refusal := .next (s.dbgCommand ctx.toNat 3)

/-- A state of the halt is reached: the report is written; a drain goes on, or a command that was held is applied. -/
def State.dbgReached (s : State) (c n : Nat) : State :=
  let s1 := (s.writeReport c).setDbgState c n
  let x := s1.context c
  if x.toDrain then (s1.setContext c { x with toDrain := false }).startDrain c
  else
    match x.heldCmd with
    | some cmd => (s1.setContext c { x with heldCmd := none }).dbgCommand c cmd
    | none => s1

/-- A drain is over: the context is saved, or, where nothing of it is resident, its engines hold nothing (R402). -/
def State.drained (s : State) (c : Nat) : Bool :=
  s.ctxStat c = 3 || ((s.ctxStat c = 0 || s.ctxStat c = 1) && (s.enginesOf c).all (s.mayAck c))

/-- DEBUG_HALT_DONE: the ports have stopped the context's units, or the drain is over. -/
def execDebugHaltDone (ctx : BitVec 5) (s : State) : Host.Outcome State Fault Refusal :=
  let c := ctx.toNat
  match s.dbgState c with
  | 1 => if s.ctxStat c = 4 || s.sel.elim false fun u => s.ofCtx u.grp c then .next s else .next (s.dbgReached c 2)
  | 3 => if s.drained c then .next (s.dbgReached c 4) else .next s
  | _ => .next s

/-! ## Writes of other registers (R7) -/

/-- REGISTER_WRITE: a write to a BAR 0 register that has no event of its own, by offset; a write to any other offset, to a read-only register
or to reserved bits changes nothing. -/
def execRegisterWrite (offset value : Word) (s : State) : Host.Outcome State Fault Refusal :=
  let o := offset.toNat
  if o % 4 != 0 then .next s
  else if o = regPeerId then .next (s.setReg regPeerId (value &&& 0x3F#32))
  else if 0x20000 ≤ o ∧ o < 0x20020 then .next (if o % 16 = 0 ∨ o % 16 = 4 then s.setReg o value else s)
  else if 0x30000 ≤ o ∧ o < 0x30800 then .next (s.writeQueue ((o - 0x30000) / 32) (o % 32) value)
  else if 0x31000 ≤ o ∧ o < 0x31400 then .next (s.writeCtx ((o - 0x31000) / 32) (o % 32) value)
  else if 0x32000 ≤ o ∧ o < 0x33000 then .next (s.writeMan (o - 0x32000) value)
  else if 0x33000 ≤ o ∧ o < 0x33400 then .next (s.writeRing ((o - 0x33000) / 32) (o % 32) value)
  else if o = regDevErrVec ∨ o = regQErrVec then .next (s.setReg o (value &&& 0x8000FFFF#32))
  else if 0x34000 ≤ o ∧ o < 0x34400 then
    let c := (o - 0x34000) / 32
    let s1 := s.writeDbg c (o % 32) value
    .next (if o % 32 = 0 then s1.dbgCommand c (value.extractLsb' 0 2) else s1)
  else .next s

end Sys2Proof.Machine
end

