-- ==== Sys2Proof/Machine/Functions.lean ====
section
/-! DEFINITION. The function instructions' exact results (13/R258, Table 13.6), enclosed between two numbers that round alike, and the
rounding test of the stages (04/R75 to R77, Table 4.2). -/

namespace Sys2Proof.Machine

/-- The functions of Table 13.6. -/
inductive Fn | exp | exp2 | expm1 | log | log2 | log1p | sin | cos | sinpi | cospi | tanh | sigm | rsq
deriving DecidableEq, Repr

/-- OPC of Table 13.6. -/
def Fn.opc : Fn → BitVec 8
  | .exp => 0x30#8 | .exp2 => 0x31#8 | .expm1 => 0x32#8 | .log => 0x33#8 | .log2 => 0x34#8 | .log1p => 0x35#8 | .sin => 0x36#8
  | .cos => 0x37#8 | .sinpi => 0x38#8 | .cospi => 0x39#8 | .tanh => 0x3A#8 | .sigm => 0x3B#8 | .rsq => 0x26#8

/-! ## Arguments decided by rule -/

/-- m · 2^e is an integer. -/
def isIntDy (m : Nat) (e : Int) : Bool := decide (0 ≤ e) || m % 2 ^ (-e).toNat = 0

/-- m · 2^e modulo 4, for an integer. -/
def mod4Dy (m : Nat) (e : Int) : Nat := if 0 ≤ e then (if 2 ≤ e then 0 else m * 2 ^ e.toNat % 4) else m / 2 ^ (-e).toNat % 4

/-- m · 2^e is a power of two: its exponent. -/
def pow2Dy (m : Nat) (e : Int) : Option Int := if m = 2 ^ Nat.log2 m then some (ilog m e) else none

/-- An exponent so far out that every format rounds 2^it alike. -/
def farExp (neg : Bool) : Int := if neg then -20000 else 20000

/-- 2^a for an integer a. -/
def exp2Int (n : Bool) (m : Nat) (e : Int) : FVal :=
  if 15 ≤ ilog m e then .fin false 1 (farExp n)
  else .fin false 1 (roundInt .rne n m e)

/-- |a| = 1. -/
def isOne (m : Nat) (e : Int) : Bool := pow2Dy m e = some 0

/-- The column "decided by rule" of Table 13.6; the value is exact, and RoundToFormat rounds it. -/
def byRule (fn : Fn) (x : FVal) : Option FVal :=
  let one : FVal := .fin false 1 0
  match fn, x with
  | _, .nan => some .nan
  | .exp, .zero _ | .exp2, .zero _ | .cos, .zero _ | .cospi, .zero _ => some one
  | .expm1, .zero n | .log1p, .zero n | .sin, .zero n | .sinpi, .zero n | .tanh, .zero n => some (.zero n)
  | .log, .zero _ | .log2, .zero _ => some (.inf true)
  | .sigm, .zero _ => some (.fin false 1 (-1))
  | .rsq, .zero n => some (.inf n)
  | .exp, .inf n | .exp2, .inf n => some (if n then .zero false else .inf false)
  | .expm1, .inf n => some (if n then .fin true 1 0 else .inf false)
  | .log, .inf n | .log2, .inf n | .log1p, .inf n => some (if n then .nan else .inf false)
  | .sin, .inf _ | .cos, .inf _ | .sinpi, .inf _ | .cospi, .inf _ => some .nan
  | .tanh, .inf n => some (.fin n 1 0)
  | .sigm, .inf n => some (if n then .zero false else one)
  | .rsq, .inf n => some (if n then .nan else .zero false)
  | .exp2, .fin n m e => if isIntDy m e then some (exp2Int n m e) else none
  | .log, .fin n m e => if n then some .nan else if isOne m e then some (.zero false) else none
  | .log2, .fin n m e => if n then some .nan else (pow2Dy m e).map fun k => ofInt k 0
  | .log1p, .fin n m e =>
    if n && isOne m e then some (.inf true) else if n && decide (0 ≤ ilog m e) then some .nan else none
  | .sinpi, .fin n m e =>
    if isIntDy m e then some (.zero n)
    else if isIntDy m (e + 1) then some (.fin (n != (mod4Dy m (e + 1) = 3)) 1 0)
    else none
  | .cospi, .fin _ m e =>
    if isIntDy m e then some (.fin (mod4Dy m e % 2 = 1) 1 0)
    else if isIntDy m (e + 1) then some (.zero false)
    else none
  | .rsq, .fin n m e =>
    if n then some .nan
    else (pow2Dy m e).bind fun k => if k % 2 = 0 then some (.fin false 1 (-(k / 2))) else none
  | _, _ => none

/-! ## Fixed-point series; a number y at scale W stands for y / 2^W -/

/-- Extra bits of work below the enclosure's half-width, which is 2^96 units: every series below errs by far less. -/
def fxSlack : Int := 2 ^ 96

/-- m · 2^e at scale W, rounded down. -/
def fxOf (W : Nat) (m : Nat) (e : Int) : Int := if 0 ≤ e + W then (m * 2 ^ (e + W).toNat : Nat) else (m / 2 ^ (-(e + W)).toNat : Nat)

def fxMul (W : Nat) (a b : Int) : Int := a * b / 2 ^ W
def fxDiv (W : Nat) (a b : Int) : Int := a * 2 ^ W / b

/-- Σ t / (2k + 1) with t divided by d each time: the inverse tangent series, with alternating signs or without. -/
def invSeries (d : Int) (alt : Bool) : Nat → Nat → Int → Int → Int
  | 0, _, _, s => s
  | n + 1, k, t, s =>
    invSeries d alt n (k + 1) (t / d) (if alt && k % 2 = 1 then s - t / (2 * k + 1) else s + t / (2 * k + 1))

/-- ln 2 = 2 artanh (1/3). -/
def fxLn2 (W : Nat) : Int := 2 * invSeries 9 false (W / 3 + 8) 0 (2 ^ W / 3) 0

/-- π = 16 arctan (1/5) − 4 arctan (1/239). -/
def fxPi (W : Nat) : Int :=
  16 * invSeries 25 true (W / 4 + 8) 0 (2 ^ W / 5) 0 - 4 * invSeries 57121 true (W / 4 + 8) 0 (2 ^ W / 239) 0

/-- Σ r^i / i!. -/
def expSeries (W : Nat) (r : Int) : Nat → Nat → Int → Int → Int
  | 0, _, _, s => s
  | n + 1, i, t, s => expSeries W r n (i + 1) (fxMul W t r / (i + 1)) (s + t)

/-- e^x at scale W as (y, k): y · 2^k, with y between ½ and 2. -/
def fxExp (W : Nat) (x : Int) : Int × Int :=
  let l := fxLn2 W
  let k := (2 * x + l) / (2 * l)
  (expSeries W (x - k * l) (W / 4) 0 (2 ^ W) 0, k)

/-- Σ z^(2k+1) / (2k + 1). -/
def artanhSeries (W : Nat) (z2 : Int) : Nat → Nat → Int → Int → Int
  | 0, _, _, s => s
  | n + 1, k, t, s => artanhSeries W z2 n (k + 1) (fxMul W t z2) (s + t / (2 * k + 1))

/-- ln (m · 2^e) at scale W. -/
def fxLog (W : Nat) (m : Nat) (e : Int) : Int :=
  let k := ilog m e
  let f := fxOf W m (e - k)
  let z := fxDiv W (f - 2 ^ W) (f + 2 ^ W)
  k * fxLn2 W + 2 * artanhSeries W (fxMul W z z) (W / 3 + 8) 0 z 0

/-- Σ ±r^j / j! over the j of one parity from j0, each term made from the one before. -/
def trigSeries (W : Nat) (r2 : Int) : Nat → Nat → Int → Int → Int
  | 0, _, _, s => s
  | n + 1, j, t, s => trigSeries W r2 n (j + 2) (-(fxMul W t r2 / ((j + 1) * (j + 2)))) (s + t)

/-- sin or cos of q · π/2 + r, at scale W. -/
def fxTrig (W : Nat) (cos : Bool) (q r : Int) : Int :=
  let r2 := fxMul W r r
  let sinr := trigSeries W r2 (W / 8) 1 r 0
  let cosr := trigSeries W r2 (W / 8) 0 (2 ^ W) 0
  match ((if cos then q + 1 else q) % 4).toNat with
  | 0 => sinr
  | 1 => cosr
  | 2 => -sinr
  | _ => -cosr

/-- The quadrant and remainder of m · 2^e by π/2, at scale W. -/
def fxReduce (W : Nat) (m : Nat) (e : Int) : Int × Int :=
  let b := (ilog m e + 1).toNat + 8
  let h := fxPi (W + b) / 2
  let x := fxOf (W + b) m e
  let q := (2 * x + h) / (2 * h)
  (q, (x - q * h) / 2 ^ b)

/-- The quadrant and remainder of π · m · 2^e, for e < 0. -/
def fxReducePi (W : Nat) (m : Nat) (e : Int) : Int × Int :=
  let d : Int := 2 ^ (-e).toNat
  let t : Int := (m : Int) % (2 * d)
  let q := (4 * t + d) / (2 * d)
  (q, fxMul W ((2 * t - q * d) * 2 ^ W / (2 * d)) (fxPi W))

/-! ## Enclosures -/

/-- The numbers lo · 2^e and hi · 2^e between which an exact result lies. -/
structure Encl where
  lo : Int
  hi : Int
  e : Int
deriving DecidableEq, Repr

/-- y · 2^(k − W), to within the slack. -/
def enclAt (W : Nat) (y k : Int) : Encl := ⟨y - fxSlack, y + fxSlack, k - W⟩

/-- One number that lies between the same boundaries as the exact result. -/
def enclPoint (m e : Int) : Encl := ⟨m, m, e⟩

/-- A number just inside ±1. -/
def nearOne (neg : Bool) : Encl := enclPoint ((if neg then -1 else 1) * (2 ^ 200 - 1)) (-200)

/-- e^x for x = ±m · 2^e at precision P, with its exponent. -/
def expOf (W : Nat) (n : Bool) (m : Nat) (e : Int) : Int × Int := fxExp W ((if n then -1 else 1) * fxOf W m e)

/-- e^−x for x = m · 2^e, at scale W. -/
def expNeg (W : Nat) (m : Nat) (e : Int) : Int :=
  let p := expOf W true m e
  if p.2 ≤ 0 then p.1 / 2 ^ (-p.2).toNat else p.1 * 2 ^ p.2.toNat

/-- An enclosure of f(±m · 2^e) at precision P bits, for an argument that is not decided by rule. -/
def encl (fn : Fn) (P : Nat) (n : Bool) (m : Nat) (e : Int) : Encl :=
  let W := P + 96
  let one : Int := 2 ^ W
  let big := decide (11 ≤ ilog m e)
  match fn with
  | .exp => if big then enclPoint 1 (farExp n) else let p := expOf W n m e; enclAt W p.1 p.2
  | .exp2 =>
    if big then enclPoint 1 (farExp n)
    else let p := fxExp W (fxMul W ((if n then -1 else 1) * fxOf W m e) (fxLn2 W)); enclAt W p.1 p.2
  | .expm1 =>
    if big then (if n then nearOne true else enclPoint 1 (farExp false))
    else
      let p := expOf W n m e
      if 0 ≤ p.2 then
        let s : Int := 2 ^ p.2.toNat
        ⟨(p.1 - fxSlack) * s - one, (p.1 + fxSlack) * s - one, -W⟩
      else if p.2 < -250 then nearOne true
      else enclAt W (p.1 / 2 ^ (-p.2).toNat - one) 0
  | .log => enclAt W (fxLog W m e) 0
  | .log2 => enclAt W (fxDiv W (fxLog W m e) (fxLn2 W)) 0
  | .log1p =>
    let x := ofInt (FVal.scaled (min e 0) (.fin n m e) + 2 ^ (-(min e 0)).toNat) (min e 0)
    match x with
    | .fin _ m' e' => enclAt W (fxLog W m' e') 0
    | _ => enclPoint 0 0
  | .sin => let p := fxReduce W m e; let y := fxTrig W false p.1 p.2; enclAt W (if n then -y else y) 0
  | .cos => let p := fxReduce W m e; enclAt W (fxTrig W true p.1 p.2) 0
  | .sinpi => let p := fxReducePi W m e; let y := fxTrig W false p.1 p.2; enclAt W (if n then -y else y) 0
  | .cospi => let p := fxReducePi W m e; enclAt W (fxTrig W true p.1 p.2) 0
  | .tanh =>
    if 7 ≤ ilog m e then nearOne n
    else
      let t := expNeg W m (e + 1)
      let y := fxDiv W (one - t) (one + t)
      enclAt W (if n then -y else y) 0
  | .sigm =>
    if 8 ≤ ilog m e && !n then nearOne false
    else if big then enclPoint 1 (farExp true)
    else
      let p := expOf W true m e
      let t := expNeg W m e
      if n then enclAt W (fxDiv W p.1 (one + t)) p.2 else enclAt W (fxDiv W one (one + t)) 0
  | .rsq =>
    let k : Nat := 400 + 2 * Nat.log2 m
    let k' : Nat := k + (if (e - k) % 2 = 0 then 0 else 1)
    let s : Int := isqrt (2 ^ k' / m)
    ⟨s - 1, s + 2, -(k' + e) / 2⟩

/-- The result of a function: its bits, whether it is tiny, and the enclosure that decided it. -/
structure FnValue where
  bits : Nat
  tiny : Bool
  encl : Encl
deriving DecidableEq, Repr

/-- A number of an enclosure's exponent as a value. -/
def Encl.at (b : Encl) (x : Int) : FVal := ofInt x b.e

/-- The enclosure's ends have one sign, lie within 2^−130 of one another, and round to one result, tiny or not alike. -/
def Encl.decides (b : Encl) (f : Fmt) (mode : RMode) : Option FnValue :=
  if (0 < b.lo || b.hi < 0) && decide ((b.hi - b.lo) * 2 ^ 130 ≤ b.lo.natAbs) && roundTo f mode false (b.at b.lo) = roundTo f mode false (b.at b.hi) &&
      tinyIn f mode (b.at b.lo) = tinyIn f mode (b.at b.hi) then
    some ⟨roundTo f mode false (b.at b.lo), tinyIn f mode (b.at b.lo), b⟩
  else none

/-- The precisions tried (log 8). -/
def fnLevels : List Nat := [256, 1400, 3700]

/-- The result that an enclosure's lower end gives. -/
def Encl.value (b : Encl) (f : Fmt) (mode : RMode) : FnValue := ⟨roundTo f mode false (b.at b.lo), tinyIn f mode (b.at b.lo), b⟩

/-- The result for an argument not decided by rule: that of the first precision that decides it. Should none of them, which R85 rules out,
the last one's enclosure gives it (log 8). -/
def evalFn (fn : Fn) (ty : Ty) (mode : RMode) (n : Bool) (m : Nat) (e : Int) : FnValue :=
  (fnLevels.findSome? fun P => (encl fn P n m e).decides (fmtOf ty) mode).getD ((encl fn 3700 n m e).value (fmtOf ty) mode)

/-! ## The rounding test -/

/-- E of Table 4.2 is 2^−j. -/
def errBound (fn : Fn) (wide64 wideUnit : Bool) : Nat :=
  match wideUnit, wide64 with
  | true, false => 48
  | true, true => 110
  | false, b =>
    let base := match fn with
      | .expm1 | .log1p | .sin | .cos | .tanh | .sigm => 35
      | .rsq => 38
      | _ => 36
    if b then base + 28 else base

/-- x · (1 ± d / 2^(2j)), on the side of larger value where up. -/
def widened (b : Encl) (j : Nat) (d : Int) (x : Int) (up : Bool) : FVal :=
  let one : Int := 2 ^ (2 * j)
  ofInt (x * (if up = decide (0 < x) then one + d else one - d)) (b.e - 2 * j)

/-- The values that a stage with error bound 2^−j may deliver for an exact result, in the destination format: |y − x| ≤ 2^−j |y| (R76), with
y brought to the format in either direction. -/
def nearValues (f : Fmt) (j : Nat) (b : Encl) : List Dword :=
  let lo := widened b j (2 ^ j + 2) b.lo false
  let hi := widened b j (2 ^ j + 2) b.hi true
  [roundTo f .rdn false lo, roundTo f .rup false lo, roundTo f .rdn false hi, roundTo f .rup false hi].map (BitVec.ofNat 64)

/-- Whether a stage with error bound 2^−j escalates a result (R77): some when R77 fixes it, none when it leaves it open. -/
def testFails (f : Fmt) (mode : RMode) (j : Nat) (b : Encl) : Option Bool :=
  let near : Int := 2 ^ j - 2
  let far : Int := 3 * 2 ^ j + 8
  if roundTo f mode false (widened b j near b.hi false) != roundTo f mode false (widened b j near b.lo true) then some true
  else if roundTo f mode false (widened b j far b.lo false) = roundTo f mode false (widened b j far b.hi true) then some false
  else none

end Sys2Proof.Machine
end

