-- ==== Sys2Proof/Machine/FloatArith.lean ====
section
/-! DEFINITION. Floating-point arithmetic, dot products, the group sum and the functions (13/R253 to R258), with what escalates to the
siding (04/R74 to R83, 13/R251). -/

namespace Sys2Proof.Machine

/-! ## Landing and parking -/

/-- What every entry of an instruction carries in HEAD (Table 4.4). -/
structure LaneOp where
  opc : BitVec 8
  sub : BitVec 8 := 0
  /-- destination type -/
  ty : Ty
  mode : RMode := .rne
deriving DecidableEq, Repr

/-- One thread's result: its bits; whether it is a tiny f32 or f64 result; whether the fast unit and the wide unit escalate it, where
that is fixed; and the operands of its entry. -/
structure LaneRes where
  bits : Dword
  tiny : Bool := false
  fast : Option Bool := some false
  wide : Option Bool := some false
  opa : Dword := 0
  opb : Dword := 0
  opc : Dword := 0
  oprec : Option OperandRec := none
  /-- the values that the fast unit, and the wide unit, may show in FASTV -/
  fastv : List Dword := []
  widev : List Dword := []
deriving DecidableEq, Repr

/-- SUB of a form whose operand b may be a uniform register (R215). -/
def subOf (subop : Nat) (b : OpB) (mod : Nat) : BitVec 8 :=
  BitVec.ofNat 8 (8 * subop + (match b with
    | .k _ => 4
    | _ => 0) + mod)

/-- A new entry of the escalation buffer. -/
def State.park (s : State) (x : Parked) : State :=
  { s with parked := AMap.set s.parked s.nextId { x with ctx := ((s.group x.grp).map (·.ctx)).getD 0 }, nextId := s.nextId + 1 }

/-- FASTV: one of the values that a stage may deliver (R76). -/
def pickFast (l : List Dword) (n : Nat) : Dword :=
  match l with
  | [] => 0
  | [x] => x
  | x :: r => (x :: r).getD (Config.freeFastValue n).toNat x

/-- One thread's result is written, or escalates (R76, R77, R62). -/
def State.landLane (s : State) (c : Cur) (h : LaneOp) (d : Reg) (t : Nat) (r : LaneRes) : State :=
  let esc := r.fast.getD (Config.freeEscalates s.free)
  let s1 := if r.fast.isNone then { s with free := s.free + 1 } else s
  if !esc && !r.tiny then s1.updGroup c.u.grp fun g => g.vwrite h.ty.wide t d.toNat r.bits
  else
    let s2 := if esc && 1 < r.fastv.length then { s1 with free := s1.free + 1 } else s1
    (s2.park
      { core := coreOf c.u.grp, grp := c.u.grp, block := c.g.block, dest := .reg c.u.grp t d h.ty.wide, value := r.bits, opc := h.opc
        sub := h.sub, ty := h.ty.code, mode := h.mode.code, opa := r.opa, opb := r.opb, opcv := r.opc
        fast := if esc then pickFast r.fastv s1.free else r.bits, widev := r.widev
        oprec := r.oprec, assist := !esc, tiny := r.tiny, wideFails := r.wide, exact := !esc }).count c.u.grp 4

/-- A lane instruction whose results may escalate. -/
def execLaneF (i : Instr) (p : Pred) (h : LaneOp) (may : Bool) (d : Reg) (f : Cur → Nat → LaneRes) (s : State) :
    Host.Outcome State Fault Refusal :=
  s.issueI i p fun c =>
    if may && s.holdStands (coreOf c.u.grp) .buffer then s.hold c .buffer
    else ((threads (c.act p)).foldl (fun s t => s.landLane c h d t (f c t)) s).retire c

/-- A type whose tiny results become assists (R62). -/
def assists (ty : Ty) : Bool := ty = .f32 || ty = .f64

/-- An exact result rounded once in the fast unit. -/
def rounded (ty : Ty) (mode : RMode) (x : FVal) : LaneRes :=
  { bits := BitVec.ofNat 64 (roundTo (fmtOf ty) mode false x), tiny := assistOf ty mode x }

/-- Operand values. -/
def Cur.fa (c : Cur) (ty : Ty) (t : Nat) (n : Reg) : FVal := decodeF (fmtOf ty) (c.srcA false ty t n).toNat
def Cur.fb (c : Cur) (ty : Ty) (t : Nat) (b : OpB) : FVal := decodeF (fmtOf ty) (c.srcB ty t b).toNat

/-- A two-operand instruction of Table 13.3. -/
def execF2 (i : Instr) (opc : BitVec 8) (p : Pred) (ty : Ty) (rm : RMode) (d a : Reg) (b : OpB) (f : FVal → FVal → FVal) (s : State) :
    Host.Outcome State Fault Refusal :=
  execLaneF i p { opc := opc, sub := subOf 0 b 0, ty := ty, mode := rm } (assists ty) d
    (fun c t => { rounded ty rm (f (c.fa ty t a) (c.fb ty t b)) with opa := c.srcA false ty t a, opb := c.srcB ty t b }) s

/-! ## Basic arithmetic (R253) -/

/-- `fadd`. -/
def execFadd (p : Pred) (ty : Ty) (rm : RMode) (d a : Reg) (b : OpB) (s : State) : Host.Outcome State Fault Refusal :=
  execF2 (.fadd p ty rm d a b) 0x20#8 p ty rm d a b (fun x y => fSum rm [x, y]) s

/-- `fsub`. -/
def execFsub (p : Pred) (ty : Ty) (rm : RMode) (d a : Reg) (b : OpB) (s : State) : Host.Outcome State Fault Refusal :=
  execF2 (.fsub p ty rm d a b) 0x21#8 p ty rm d a b (fun x y => fSum rm [x, y.negate]) s

/-- `fmul`. -/
def execFmul (p : Pred) (ty : Ty) (rm : RMode) (d a : Reg) (b : OpB) (s : State) : Host.Outcome State Fault Refusal :=
  execF2 (.fmul p ty rm d a b) 0x22#8 p ty rm d a b fMul s

/-- `ffma`. -/
def execFfma (p : Pred) (ty : Ty) (rm : RMode) (d a : Reg) (b : OpB) (k : Reg) (s : State) : Host.Outcome State Fault Refusal :=
  execLaneF (.ffma p ty rm d a b k) p { opc := 0x23#8, sub := subOf 0 b 0, ty := ty, mode := rm } (assists ty) d
    (fun c t =>
      { rounded ty rm (fSum rm [fMul (c.fa ty t a) (c.fb ty t b), c.fa ty t k]) with
        opa := c.srcA false ty t a, opb := c.srcB ty t b, opc := c.srcA false ty t k }) s

/-- `fdiv`. -/
def execFdiv (p : Pred) (ty : Ty) (rm : RMode) (d a : Reg) (b : OpB) (s : State) : Host.Outcome State Fault Refusal :=
  execF2 (.fdiv p ty rm d a b) 0x24#8 p ty rm d a b fDiv s

/-- `fsqrt`. -/
def execFsqrt (p : Pred) (ty : Ty) (rm : RMode) (d a : Reg) (s : State) : Host.Outcome State Fault Refusal :=
  execLaneF (.fsqrt p ty rm d a) p { opc := 0x25#8, ty := ty, mode := rm } (assists ty) d
    (fun c t => { rounded ty rm (fSqrt (c.fa ty t a)) with opa := c.srcA false ty t a }) s

/-! ## Minimum, maximum and comparison (R254, R255) -/

/-- The operand that `fmin` or `fmax` selects, or the canonical NaN; a tiny one is delivered as an assist (R251). -/
def pickF (ty : Ty) (max : Bool) (x y : Dword) : LaneRes :=
  let f := fmtOf ty
  let a := decodeF f x.toNat
  let b := decodeF f y.toNat
  let bits : Dword :=
    if a.isNan || b.isNan then BitVec.ofNat 64 f.nan
    else
      match a, b with
      | .zero n, .zero m => BitVec.ofNat 64 (f.bits (if max then n && m else n || m) 0)
      | _, _ => if (if max then decide (0 ≤ fCmp a b) else decide (fCmp a b ≤ 0)) then x else y
  { bits := bits, tiny := assistOf ty .rne (decodeF f bits.toNat), opa := x, opb := y }

/-- `fmin`. -/
def execFmin (p : Pred) (ty : Ty) (d a : Reg) (b : OpB) (s : State) : Host.Outcome State Fault Refusal :=
  execLaneF (.fmin p ty d a b) p { opc := 0x27#8, sub := subOf 0 b 0, ty := ty } (assists ty) d
    (fun c t => pickF ty false (c.srcA false ty t a) (c.srcB ty t b)) s

/-- `fmax`. -/
def execFmax (p : Pred) (ty : Ty) (d a : Reg) (b : OpB) (s : State) : Host.Outcome State Fault Refusal :=
  execLaneF (.fmax p ty d a b) p { opc := 0x28#8, sub := subOf 0 b 0, ty := ty } (assists ty) d
    (fun c t => pickF ty true (c.srcA false ty t a) (c.srcB ty t b)) s

/-- The conditions of Table 13.4. -/
def fcmpHolds (cnd : FCond) (a b : FVal) : Bool :=
  let nan := a.isNan || b.isNan
  let k := fCmp a b
  match cnd with
  | .eq => !nan && k = 0
  | .ne => nan || k != 0
  | .lt => !nan && decide (k < 0)
  | .le => !nan && decide (k ≤ 0)
  | .gt => !nan && decide (0 < k)
  | .ge => !nan && decide (0 ≤ k)
  | .un => nan
  | .or => !nan

/-- `fcmp` (R255). -/
def execFcmp (p : Pred) (ty : Ty) (cnd : FCond) (z : Bool) (d a : Reg) (b : OpB) (s : State) : Host.Outcome State Fault Refusal :=
  s.issueI (.fcmp p ty cnd z d a b) p fun c =>
    s.finish c (if c.any p then
      c.g.mset d.toNat (condMask (c.g.mget d.toNat) (c.act p) (maskOf fun t => fcmpHolds cnd (c.fa ty t a) (c.fb ty t b)) z)
    else c.g)

/-! ## Dot products and the group sum (R256, R257) -/

/-- Element i of a run from register r (Table 13.5). -/
def Cur.dotElem (c : Cur) (ty : Ty) (t : Nat) (r : Reg) (i : Nat) : Nat :=
  match ty.size with
  | 8 => (c.g.v64get t (r.toNat + 2 * i)).toNat
  | 4 => (c.g.vget t (r.toNat + i)).toNat
  | 2 => (c.g.vget t (r.toNat + i / 2)).toNat / 2 ^ (16 * (i % 2)) % 2 ^ 16
  | _ => (c.g.vget t (r.toNat + i / 4)).toNat / 2 ^ (8 * (i % 4)) % 2 ^ 8

/-- A multi-term result: rounded once from the exact sum of its terms, escalating as the window rule says (R78, R79). -/
def summed (ty : Ty) (mode : RMode) (terms : List FVal) (r : OperandRec) : LaneRes :=
  { rounded ty mode (fSum mode terms) with
    fast := some (windowEscalates (fmtOf ty) mode (ty = .f64) terms), oprec := some r
    fastv := [BitVec.ofNat 64 (windowFast (fmtOf ty) mode (ty = .f64) terms)] }

/-- The result format of a dot product. -/
def dotFmt (ty : Ty) : Ty := if ty = .f64 then .f64 else .f32

/-- `fdot4` and `fdot8` over n pairs. -/
def Cur.dot (c : Cur) (ty : Ty) (rm : RMode) (nc : Bool) (n t : Nat) (a b k : Reg) : LaneRes :=
  let rf := dotFmt ty
  let xs := (List.range n).map (c.dotElem ty t a)
  let ys := (List.range n).map (c.dotElem ty t b)
  let prods := (xs.zip ys).map fun q => fMul (decodeF (fmtOf ty) q.1) (decodeF (fmtOf ty) q.2)
  let add := c.srcA false rf t k
  summed rf rm (prods ++ (if nc then [] else [decodeF (fmtOf rf) add.toNat]))
    { nterms := n, afmt := ty.code, bfmt := ty.code, cval := if nc then 0 else add
      aops := xs.flatMap (leBytes ty.size), bops := ys.flatMap (leBytes ty.size) }

/-- `fdot4`. -/
def execFdot4 (p : Pred) (ty : Ty) (rm : RMode) (nc : Bool) (d a b k : Reg) (s : State) : Host.Outcome State Fault Refusal :=
  execLaneF (.fdot4 p ty rm nc d a b k) p { opc := 0x2B#8, sub := if nc then 1 else 0, ty := dotFmt ty, mode := rm } true d
    (fun c t => c.dot ty rm nc 4 t a b k) s

/-- `fdot8`. -/
def execFdot8 (p : Pred) (ty : Ty) (rm : RMode) (nc : Bool) (d a b k : Reg) (s : State) : Host.Outcome State Fault Refusal :=
  execLaneF (.fdot8 p ty rm nc d a b k) p { opc := 0x2C#8, sub := if nc then 1 else 0, ty := dotFmt ty, mode := rm } true d
    (fun c t => c.dot ty rm nc 8 t a b k) s

/-- `gsum` (R257): the active threads of the unit, helper threads included. -/
def execGsum (p : Pred) (ty : Ty) (rm : RMode) (d a : Reg) (s : State) : Host.Outcome State Fault Refusal :=
  execLaneF (.gsum p ty rm d a) p { opc := 0x2D#8, ty := ty, mode := rm } true d
    (fun c _ =>
      let ts := threads (c.act p)
      summed ty rm (ts.map fun t => c.fa ty t a)
        { nterms := ts.length, afmt := ty.code, bfmt := ty.code
          aops := ts.flatMap fun t => leBytes ty.size (c.srcA false ty t a).toNat, bops := [] }) s

/-! ## Functions (R258) -/

/-- The result of a function for one operand. -/
def fnResult (fn : Fn) (ty : Ty) (rm : RMode) (x : Dword) : LaneRes :=
  let v := decodeF (fmtOf ty) x.toNat
  match byRule fn v, v with
  | some y, _ => { rounded ty rm y with opa := x }
  | none, .fin n m e =>
    let r := evalFn fn ty rm n m e
    let fb := errBound fn (ty = .f64) false
    let wb := errBound fn (ty = .f64) true
    { bits := BitVec.ofNat 64 r.bits, tiny := assists ty && r.tiny, opa := x
      fast := testFails (fmtOf ty) rm fb r.encl, fastv := nearValues (fmtOf ty) fb r.encl
      wide := testFails (fmtOf ty) rm wb r.encl, widev := nearValues (fmtOf ty) wb r.encl }
  | none, _ => { bits := BitVec.ofNat 64 (fmtOf ty).nan, opa := x }

/-- A function instruction. -/
def execFn (i : Instr) (fn : Fn) (p : Pred) (ty : Ty) (rm : RMode) (d a : Reg) (s : State) : Host.Outcome State Fault Refusal :=
  execLaneF i p { opc := fn.opc, ty := ty, mode := rm } true d (fun c t => fnResult fn ty rm (c.srcA false ty t a)) s

/-- `frsq`. -/
def execFrsq (p : Pred) (ty : Ty) (rm : RMode) (d a : Reg) (s : State) : Host.Outcome State Fault Refusal :=
  execFn (.frsq p ty rm d a) .rsq p ty rm d a s

/-- `fexp`. -/
def execFexp (p : Pred) (ty : Ty) (rm : RMode) (d a : Reg) (s : State) : Host.Outcome State Fault Refusal :=
  execFn (.fexp p ty rm d a) .exp p ty rm d a s

/-- `fexp2`. -/
def execFexp2 (p : Pred) (ty : Ty) (rm : RMode) (d a : Reg) (s : State) : Host.Outcome State Fault Refusal :=
  execFn (.fexp2 p ty rm d a) .exp2 p ty rm d a s

/-- `fexpm1`. -/
def execFexpm1 (p : Pred) (ty : Ty) (rm : RMode) (d a : Reg) (s : State) : Host.Outcome State Fault Refusal :=
  execFn (.fexpm1 p ty rm d a) .expm1 p ty rm d a s

/-- `flog`. -/
def execFlog (p : Pred) (ty : Ty) (rm : RMode) (d a : Reg) (s : State) : Host.Outcome State Fault Refusal :=
  execFn (.flog p ty rm d a) .log p ty rm d a s

/-- `flog2`. -/
def execFlog2 (p : Pred) (ty : Ty) (rm : RMode) (d a : Reg) (s : State) : Host.Outcome State Fault Refusal :=
  execFn (.flog2 p ty rm d a) .log2 p ty rm d a s

/-- `flog1p`. -/
def execFlog1p (p : Pred) (ty : Ty) (rm : RMode) (d a : Reg) (s : State) : Host.Outcome State Fault Refusal :=
  execFn (.flog1p p ty rm d a) .log1p p ty rm d a s

/-- `fsin`. -/
def execFsin (p : Pred) (ty : Ty) (rm : RMode) (d a : Reg) (s : State) : Host.Outcome State Fault Refusal :=
  execFn (.fsin p ty rm d a) .sin p ty rm d a s

/-- `fcos`. -/
def execFcos (p : Pred) (ty : Ty) (rm : RMode) (d a : Reg) (s : State) : Host.Outcome State Fault Refusal :=
  execFn (.fcos p ty rm d a) .cos p ty rm d a s

/-- `fsinpi`. -/
def execFsinpi (p : Pred) (ty : Ty) (rm : RMode) (d a : Reg) (s : State) : Host.Outcome State Fault Refusal :=
  execFn (.fsinpi p ty rm d a) .sinpi p ty rm d a s

/-- `fcospi`. -/
def execFcospi (p : Pred) (ty : Ty) (rm : RMode) (d a : Reg) (s : State) : Host.Outcome State Fault Refusal :=
  execFn (.fcospi p ty rm d a) .cospi p ty rm d a s

/-- `ftanh`. -/
def execFtanh (p : Pred) (ty : Ty) (rm : RMode) (d a : Reg) (s : State) : Host.Outcome State Fault Refusal :=
  execFn (.ftanh p ty rm d a) .tanh p ty rm d a s

/-- `fsigm`. -/
def execFsigm (p : Pred) (ty : Ty) (rm : RMode) (d a : Reg) (s : State) : Host.Outcome State Fault Refusal :=
  execFn (.fsigm p ty rm d a) .sigm p ty rm d a s

end Sys2Proof.Machine
end

