-- ==== Sys2Proof/Machine/Exchange.lean ====
section
/-! DEFINITION. Conversion, block quantisation, the generator and the exchange between threads (13/R259 to R267). -/

namespace Sys2Proof.Machine

/-! ## Conversion (R259) -/

/-- `cvt`. -/
def execCvt (p : Pred) (dt st : Ty) (rm : RMode) (sat : Bool) (d a : Reg) (s : State) : Host.Outcome State Fault Refusal :=
  execLaneF (.cvt p dt st rm sat d a) p
    { opc := 0x40#8, sub := BitVec.ofNat 8 (8 * st.code.toNat + (if sat then 1 else 0)), ty := dt, mode := rm }
    (assists dt && dt != st && !st.isBits) d
    (fun c t =>
      let x := c.srcA false st t a
      let r := convert dt st rm sat x.toNat
      { bits := narrowWord dt r.1, tiny := r.2, opa := x }) s

/-! ## Quantisation (R260, R261) -/

/-- The 16 source values of thread t (Table 13.7), widened exactly. -/
def Cur.quantSource (c : Cur) (st : Ty) (t : Nat) (a : Reg) : List FVal :=
  (List.range 16).map fun i => decodeF (fmtOf st) (c.dotElem st t a i)

/-- `qblk`: the outlier limit is 8, 4, 2 or 0. -/
def execQblk (p : Pred) (dt st : Ty) (rm : RMode) (lim : BitVec 2) (d a : Reg) (s : State) : Host.Outcome State Fault Refusal :=
  s.issueI (.qblk p dt st rm lim d a) p fun c =>
    s.finish c (c.mapThreads p fun t g =>
      g.vsetRun t d.toNat (quantBlock dt rm (match lim.toNat with
        | 0 => 8 | 1 => 4 | 2 => 2 | _ => 0) (c.quantSource st t a)))

/-! ## The generator (R262) -/

/-- One round of the generator. -/
def rngRound (x k : Word) : Word :=
  let y := (x ^^^ k) * 0x9E3779B1#32
  y ^^^ (y >>> 16)

/-- The 32 bits for a key and a counter. -/
def rngBits (k c : Dword) : Word :=
  rngRound (rngRound (rngRound ((c.setWidth 32) ^^^ (k.setWidth 32)) ((c >>> 32).setWidth 32)) ((k >>> 32).setWidth 32)) 0x5851F42D#32

/-- `rngk`. -/
def execRngk (p : Pred) (ty : Ty) (d a b : Reg) (s : State) : Host.Outcome State Fault Refusal :=
  s.issueI (.rngk p ty d a b) p fun c =>
    s.finish c (c.mapThreads p fun t g =>
      let x := rngBits (c.g.kget a.toNat) (c.g.v64get t b.toNat)
      g.vset t d.toNat (match ty with
        | .f32 => BitVec.ofNat 32 (roundTo (fmtOf .f32) .rne false (ofInt ((x.toNat / 256 : Nat) : Int) (-24)))
        | _ => x))

/-! ## Exchange (R263 to R266) -/

/-- The thread from which thread t takes its value in `xsel`. -/
def xselFrom (op : XselOp) (t n : Nat) : Int :=
  match op with
  | .idx => n
  | .xor => (t ^^^ n : Nat)
  | .up => (t : Int) - n
  | .down => (t : Int) + n

/-- `xsel` (R263). -/
def execXsel (p : Pred) (ty : Ty) (op : XselOp) (d a : Reg) (b : OpB) (s : State) : Host.Outcome State Fault Refusal :=
  s.issueI (.xsel p ty op d a b) p fun c =>
    s.finish c (c.mapThreads p fun t g =>
      let j := xselFrom op t (c.srcB .b32 t b).toNat
      g.vwrite ty.wide t d.toNat (if 0 ≤ j && j ≤ 31 then c.g.vread ty.wide j.toNat a.toNat else 0))

/-- The slot that a quad exchange reads. -/
def quadSlot (dir : QDir) (i : Nat) : Nat :=
  match dir with
  | .h => i ^^^ 1
  | .v => i ^^^ 2
  | .d => i ^^^ 3

/-- `qswap` (R264). -/
def execQswap (p : Pred) (ty : Ty) (dir : QDir) (d a : Reg) (s : State) : Host.Outcome State Fault Refusal :=
  s.issueI (.qswap p ty dir d a) p fun c =>
    s.finish c (c.mapThreads p fun t g => g.vwrite ty.wide t d.toNat (c.g.vread ty.wide (t / 4 * 4 + quadSlot dir (t % 4)) a.toNat))

/-- `qbcast` (R264). -/
def execQbcast (p : Pred) (ty : Ty) (slot : BitVec 2) (d a : Reg) (s : State) : Host.Outcome State Fault Refusal :=
  s.issueI (.qbcast p ty slot d a) p fun c =>
    s.finish c (c.mapThreads p fun t g => g.vwrite ty.wide t d.toNat (c.g.vread ty.wide (t / 4 * 4 + slot.toNat) a.toNat))

/-- `qdiff` (R265). -/
def execQdiff (p : Pred) (ty : Ty) (rm : RMode) (y : Bool) (d a : Reg) (s : State) : Host.Outcome State Fault Refusal :=
  execLaneF (.qdiff p ty rm y d a) p { opc := 0x46#8, sub := if y then 8 else 0, ty := ty, mode := rm } (assists ty) d
    (fun c t =>
      let b := t / 4 * 4
      let i := t % 4
      let hi := b + (if y then i ||| 2 else i ||| 1)
      let lo := b + (if y then i &&& 1 else i &&& 2)
      { rounded ty rm (fSum rm [c.fa ty hi a, (c.fa ty lo a).negate]) with opa := c.srcA false ty hi a, opb := c.srcA false ty lo a }) s

/-- `ballot` (R266): the whole mask register; with no active thread, nothing. -/
def execBallot (p : Pred) (d a : Reg) (s : State) : Host.Outcome State Fault Refusal :=
  s.issueI (.ballot p d a) p fun c =>
    s.finish c (if c.any p then c.g.mset d.toNat (c.act p &&& maskOf fun t => c.g.vget t a.toNat != 0) else c.g)

end Sys2Proof.Machine
end

