-- ==== Sys2Proof/Machine/Faults.lean ====
section
/-! DEFINITION. Failures from outside a program: block termination as an event (19/R349), the service of faults (19/R348, R352), soft errors
(21/R387 to R389), peer links (21/R391, R382), heat (20/R375 to R378). -/

namespace Sys2Proof.Machine

/-- BLOCK_TERMINATE: a block ends for a cause found in it, with a report of its lowest group (R349). -/
def execBlockTerminate (block : Nat) (cause : TermCause) (s : State) : Host.Outcome State Fault Refusal :=
  match AMap.get? s.blocks block with
  | none => .next s
  | some _ =>
    let rep := (s.blockGroups block).head?.map fun k =>
      (k, (((s.group k).bind fun g => (g.entries.head?.map fun q => q.2.pc)).getD 0, (0 : Dword)))
    .next (s.terminateBlock block cause 0 rep)

/-! ## Serviceable faults -/

/-- SVC_RETRY: pre-flight or fetch walks the tables again, and the core issues (R348); held pre-flights resume (R381). -/
def execSvcRetry (core : Nat) (s : State) : Host.Outcome State Fault Refusal :=
  if (AMap.get? s.svc core).isNone then .next s else .next (s.clearSvc core)

/-- SVC_FAIL: the fault becomes a fetch fault or a memory fault (R348). A unit with a failure that is already known takes that first, and
fetches again after it (R407, log 30). -/
def execSvcFail (core : Nat) (s : State) : Host.Outcome State Fault Refusal :=
  match AMap.get? s.svc core with
  | none => .next s
  | some (fetch, _, a, b) =>
    let s1 := s.clearSvc core
    if fetch then
      match (s1.group a).bind fun g => g.entry b with
      | some e =>
        .next (if e.trap.isEmpty then s1.takeTrap a b { cause := 0x04, sub := 3, pc := e.pc, thr := e.mask, addr := e.pc } else s1)
      | none => .next s1
    else
      match AMap.get? s1.copies a with
      | some c => .next (s1.failCopy a c 3 5 b)
      | none => .next s1

/-! ## Soft errors -/

/-- A saturating count. -/
def State.countError (s : State) (r : Nat) : State := s.setReg r (if s.reg r = 0xFFFFFFFF#32 then s.reg r else s.reg r + 1)

/-- CORRECTED_ERROR: CECNT, or MEMCECNT for main memory (R387). -/
def execCorrectedError (mainMem : Bool) (s : State) : Host.Outcome State Fault Refusal :=
  .next (s.countError (if mainMem then regMemCeCnt else regCeCnt))

/-- The first uncorrectable error is recorded (Table 21.4). -/
def State.recordUe (s : State) (kind unit addr : Nat) : State :=
  if (s.reg regUeSrc).getLsbD 31 then s
  else
    ((s.setReg regUeAddrLo (BitVec.ofNat 32 addr)).setReg regUeAddrHi (BitVec.ofNat 32 (addr / 2 ^ 32))).setReg regUeSrc
      (BitVec.ofNat 32 (2 ^ 31 + kind * 2 ^ 28 + unit % 256))

/-- A device error ends a launch (R389): its blocks terminate without a report, and it completes with DEVE, or with CODE 0x0C where it has
placed none. -/
def State.deviceError (s : State) (i : Nat) : State :=
  match s.launch i with
  | none => s
  | some l =>
    if l.stage = .placed then
      let bs := (s.blocks.filter fun q => q.2.launch = i).map Prod.fst
      (bs.foldl (fun a b => a.terminateBlock b .blockState 0 none) s).updLaunch i fun l => { l with status := l.status ||| 32#7, dead := true }
    else s.updLaunch i fun l => { l with code := 0x0C }

/-- A readiness bit clears until device reset. -/
def State.killBit (s : State) (n : Nat) : State := { s.setReady n false with deadBits := insertNat n s.deadBits }

/-- The launches of a firmware core's queues. -/
def State.coreLaunches (s : State) (j : Nat) : List Nat := (s.launches.filter fun q => q.2.queue / 16 = j).map Prod.fst

/-- UNCORRECTABLE_ERROR: its effect by location (R388, Table 21.3). -/
def execUncorrectableError (loc : ErrLoc) (s : State) : Host.Outcome State Fault Refusal :=
  match loc with
  | .mainMem addr =>
    let a := addr.toNat
    if !mainBacked a then .next s
    else
      let u := if a < hbmEnd then (0, a / (48 * 2 ^ 30)) else (1, (a - ddrBase) / 2 ^ 38)
      .next (((s.addPoison (cellMain a)).recordUe u.1 u.2 a).devErr 4)
  | .hostMem port addr =>
    .next (((s.addPoison (cellHost port addr.toNat)).recordUe 4 port.toNat (2 ^ 51 + addr.toNat)).devErr 4)
  | .scratch addr =>
    let e := s.attr addr.toNat
    if !patValid e then .next s
    else .next (((s.addPoison (s.scrCell addr.toNat)).recordUe 2 (patHome e) addr.toNat).devErr 1)
  | .blockState b =>
    match AMap.get? s.blocks b with
    | none => .next s
    | some blk =>
      let rep := (s.blockGroups b).head?.map fun k =>
        (k, (((s.group k).bind fun g => (g.entries.head?.map fun q => q.2.pc)).getD 0, (0 : Dword)))
      .next ((s.recordUe 3 (blk.core / 8) 0).terminateBlock b .blockState 0 rep)
  | .icache level n cell => .next ((s.dropBlock level n cell).countError regCeCnt)
  | .cluster k =>
    let bs := ((s.parked.filter fun q => q.2.core / 8 = k.toNat && !q.2.buffered).map fun q => q.2.block).eraseDups
    let s1 := bs.foldl (fun a b =>
      let rep := (a.blockGroups b).head?.map fun g => (g, ((0 : Dword), (0 : Dword)))
      a.terminateBlock b .blockState 0 rep) s
    .next (((s1.recordUe 3 k.toNat 0).devErr 1).killBit k.toNat)
  | .firmware j => .next (((s.coreLaunches j.toNat).foldl (fun a i => a.deviceError i) (s.recordUe 3 0 0)).devErr 2)
  | .deviceState ls => .next ((ls.foldl (fun a i => a.deviceError i) (s.recordUe 3 0 0)).devErr 1)

/-! ## Peer links -/

/-- A copy through a peer port whose flits are moving. -/
def Copy.onPort (c : Copy) (port : Nat) : Bool :=
  (c.kind = .peerPut || c.kind = .peerGet) && c.stage = .begun && Config.peerPort (wfield c.word 24 6) % 12 = port

/-- The first n moves of a copy, in whole 8-byte units of its destination (R382). -/
def Copy.wholeUnits (c : Copy) (n : Nat) : List Move :=
  (c.moves.take n).filter fun m => (c.moves.drop n).all fun x => x.daddr / 8 != m.daddr / 8

/-- A copy that fails with its link (R382): the whole units that had moved stand, nothing is counted, and its block ends. -/
def State.failLink (s : State) (id : Nat) (c : Copy) (moved : List Byte) : State :=
  let ms := c.wholeUnits moved.length
  let s1 :=
    if c.kind = .peerGet then s.writeBytes ((ms.map (·.dst)).zip moved)
    else { s with outbox := s.outbox ++ [s.putMsg c ((s.copyData c ms).map some) false] }
  let s2 := { s1 with copies := AMap.del s1.copies id }
  let addr := ((c.moves.drop ms.length).head?.map (·.saddr)).getD c.src.toNat / 8 * 8
  if s2.sameBlock c then s2.terminateAt c.grp .peerLink 0 c.pc (BitVec.ofNat 64 addr) else s2

/-- PEER_LINK_DOWN: LINK is set, the bit clears, and each copy with flits due on the port fails, having moved the bytes that are listed. -/
def execPeerLinkDown (port : BitVec 4) (moved : List (Nat × List Byte)) (s : State) : Host.Outcome State Fault Refusal :=
  let p := port.toNat
  if 12 ≤ p || !s.ready (52 + p) then .next s
  else
    let s1 := (s.setReady (52 + p) false).devErr 3
    .next ((s.copies.filter fun q => q.2.onPort p).foldl (fun a q =>
      match AMap.get? a.copies q.1 with
      | some c => a.failLink q.1 c ((AMap.get? moved q.1).getD [])
      | none => a) s1)

/-- PEER_RETRAIN: training of a port that is down; success sets its bit. -/
def execPeerRetrain (port : BitVec 4) (ok : Bool) (s : State) : Host.Outcome State Fault Refusal :=
  if 12 ≤ port.toNat || !ok then .next s else .next (s.setReady (52 + port.toNat) true)

/-! ## Heat -/

/-- THERMAL_TRIP: the change to P5 (R375). -/
def execThermalTrip (s : State) : Host.Outcome State Fault Refusal :=
  let s1 := { s.devErr 0 with hot := true }
  if s1.psChange.isSome then .next { s1.setPstate 15 1 1 with psHeld := none, psTrip := true }
  else if s1.pcur = 5 then .next s1
  else .next { s1.startChange 5 true with psHeld := none }

/-- THERMAL_COOLDOWN: every sensor reads below 95 °C, and a held request is applied (R377). -/
def execThermalCooldown (s : State) : Host.Outcome State Fault Refusal :=
  let s1 := { s with hot := false }
  .next (if s1.psChange.isSome then s1 else s1.applyHeldChange)

/-- A launch at a thermal halt: THERM, or CODE 0x0B where it has placed no block. -/
def Launch.halt (l : Launch) : Launch :=
  if l.stage = .placed then { l with status := l.status ||| 16#7, dead := true } else { l with code := 0x0B }

/-- THERMAL_HALT, at P5: issue stops, every block terminates without a report, every launch ends, and firmware accepts nothing more
(R378). -/
def execThermalHalt (s : State) : Host.Outcome State Fault Refusal :=
  if s.pcur != 5 || s.psChange.isSome then .next s
  else
    let s1 := (s.blocks.map Prod.fst).foldl (fun a b => a.terminateBlock b .blockState 0 none) s
    .next { s1.devErr 0 with
      halted := true, hot := true, sel := none
      launches := AMap.mapV s1.launches fun _ l => l.halt }

end Sys2Proof.Machine
end

