-- ==== Sys2Proof/Machine/Integer.lean ====
section
/-! DEFINITION. Integer and mask instructions (12/R227 to R233). An instruction with no active thread changes nothing (R216, log 25). -/

namespace Sys2Proof.Machine

/-- Width of an integer instruction's operands (R228). -/
def Ty.bits32 (ty : Ty) : Nat := if ty.wide then 64 else 32

/-- The result D of R229: clamped under .sat, else wrapped. -/
def intResult (ty : Ty) (sat : Bool) (x : Int) : Dword :=
  BitVec.ofNat 64 (wrapNat (Ty.bits32 ty) (if sat then clampInt (intMin ty) (intMax ty) x else x))

/-- An instruction that computes one value for each active thread, or once for the unit (R229). -/
def execInt (i : Instr) (u : Bool) (p : Pred) (ty : Ty) (d : Reg) (f : Cur → Nat → Dword) (s : State) :
    Host.Outcome State Fault Refusal :=
  s.issueI i p fun c => s.finish c (c.writeResult u p ty d (f c))

/-- Operand b of `add` (R228): its own 32 bits, signed or unsigned, under .sx and .zx. -/
def Cur.addB (c : Cur) (ty : Ty) (x : Ext) (t : Nat) (b : OpB) : Int :=
  match x with
  | .none => intVal ty (c.srcB ty t b)
  | .sx => intVal .i32 (c.srcB .b32 t b)
  | .zx => intVal .n32 (c.srcB .b32 t b)

/-- `add` (Table 12.1). -/
def execAdd (u : Bool) (p : Pred) (ty : Ty) (x : Ext) (sat : Bool) (d a : Reg) (b : OpB) (s : State) :
    Host.Outcome State Fault Refusal :=
  execInt (.add u p ty x sat d a b) u p ty d (fun c t => intResult ty sat (intVal ty (c.srcA u ty t a) + c.addB ty x t b)) s

/-- `sub`. -/
def execSub (u : Bool) (p : Pred) (ty : Ty) (sat : Bool) (d a : Reg) (b : OpB) (s : State) : Host.Outcome State Fault Refusal :=
  execInt (.sub u p ty sat d a b) u p ty d
    (fun c t => intResult ty sat (intVal ty (c.srcA u ty t a) - intVal ty (c.srcB ty t b))) s

/-- `mul` and `mul.hi`. -/
def execMul (u : Bool) (p : Pred) (ty : Ty) (hi sat : Bool) (d a : Reg) (b : OpB) (s : State) : Host.Outcome State Fault Refusal :=
  execInt (.mul u p ty hi sat d a b) u p ty d
    (fun c t =>
      let x := intVal ty (c.srcA u ty t a) * intVal ty (c.srcB ty t b)
      intResult ty sat (if hi then x / 2 ^ Ty.bits32 ty else x)) s

/-- `mad`. -/
def execMad (u : Bool) (p : Pred) (ty : Ty) (sat : Bool) (d a : Reg) (b : OpB) (k : Reg) (s : State) :
    Host.Outcome State Fault Refusal :=
  execInt (.mad u p ty sat d a b k) u p ty d
    (fun c t => intResult ty sat (intVal ty (c.srcA u ty t a) * intVal ty (c.srcB ty t b) + intVal ty (c.srcA u ty t k))) s

/-- a · 2^b modulo 2^w: 0 for a count of w or more (R229). -/
def shiftLeft (ty : Ty) (a : Int) (n : Nat) : Dword :=
  if Ty.bits32 ty ≤ n then 0 else intResult ty false (a * 2 ^ n)

/-- ⌊a / 2^b⌋: 0, or −1 for a negative i operand, for a count of w or more. -/
def shiftRight (ty : Ty) (a : Int) (n : Nat) : Dword := intResult ty false (a / 2 ^ min n (Ty.bits32 ty))

/-- `shl`. -/
def execShl (u : Bool) (p : Pred) (ty : Ty) (d a : Reg) (b : OpB) (s : State) : Host.Outcome State Fault Refusal :=
  execInt (.shl u p ty d a b) u p ty d (fun c t => shiftLeft ty (intVal ty (c.srcA u ty t a)) (c.srcB ty t b).toNat) s

/-- `shr`. -/
def execShr (u : Bool) (p : Pred) (ty : Ty) (d a : Reg) (b : OpB) (s : State) : Host.Outcome State Fault Refusal :=
  execInt (.shr u p ty d a b) u p ty d (fun c t => shiftRight ty (intVal ty (c.srcA u ty t a)) (c.srcB ty t b).toNat) s

/-- `and`. -/
def execAnd (u : Bool) (p : Pred) (ty : Ty) (d a : Reg) (b : OpB) (s : State) : Host.Outcome State Fault Refusal :=
  execInt (.and u p ty d a b) u p ty d (fun c t => c.srcA u ty t a &&& c.srcB ty t b) s

/-- `or`. -/
def execOr (u : Bool) (p : Pred) (ty : Ty) (d a : Reg) (b : OpB) (s : State) : Host.Outcome State Fault Refusal :=
  execInt (.or u p ty d a b) u p ty d (fun c t => c.srcA u ty t a ||| c.srcB ty t b) s

/-- `xor`. -/
def execXor (u : Bool) (p : Pred) (ty : Ty) (d a : Reg) (b : OpB) (s : State) : Host.Outcome State Fault Refusal :=
  execInt (.xor u p ty d a b) u p ty d (fun c t => c.srcA u ty t a ^^^ c.srcB ty t b) s

/-- `not`. -/
def execNot (u : Bool) (p : Pred) (ty : Ty) (d a : Reg) (s : State) : Host.Outcome State Fault Refusal :=
  execInt (.not u p ty d a) u p ty d (fun c t => lowBits ty (~~~c.srcA u ty t a)) s

/-- `min`. -/
def execMin (u : Bool) (p : Pred) (ty : Ty) (d a : Reg) (b : OpB) (s : State) : Host.Outcome State Fault Refusal :=
  execInt (.min u p ty d a b) u p ty d
    (fun c t => intResult ty false (min (intVal ty (c.srcA u ty t a)) (intVal ty (c.srcB ty t b)))) s

/-- `max`. -/
def execMax (u : Bool) (p : Pred) (ty : Ty) (d a : Reg) (b : OpB) (s : State) : Host.Outcome State Fault Refusal :=
  execInt (.max u p ty d a b) u p ty d
    (fun c t => intResult ty false (max (intVal ty (c.srcA u ty t a)) (intVal ty (c.srcB ty t b)))) s

/-- Writing condition bits to a mask register; with no active thread nothing is written. -/
def Cur.writeMask (c : Cur) (p : Pred) (d : Reg) (z : Bool) (cond : Word) : Group :=
  if c.any p then c.g.mset d.toNat (condMask (c.g.mget d.toNat) (c.act p) cond z) else c.g

/-- `icmp` (R230). -/
def execIcmp (u : Bool) (p : Pred) (ty : Ty) (cnd : ICond) (z : Bool) (d a : Reg) (b : OpB) (s : State) :
    Host.Outcome State Fault Refusal :=
  s.issueI (.icmp u p ty cnd z d a b) p fun c =>
    let holds := fun t => icmpHolds cnd (intVal ty (c.srcA u ty t a)) (intVal ty (c.srcB ty t b))
    s.finish c (c.writeMask p d z (if u then (if holds 0 then 0xFFFFFFFF#32 else 0) else maskOf holds))

/-- `sel` (R230). -/
def execSel (u : Bool) (p : Pred) (ty : Ty) (d a : Reg) (b : OpB) (m : Reg) (s : State) : Host.Outcome State Fault Refusal :=
  execInt (.sel u p ty d a b m) u p ty d
    (fun c t =>
      let mask := c.g.mget m.toNat
      if (if u then mask &&& c.act p != 0 else mask.getLsbD t) then c.srcA u ty t a else c.srcB ty t b) s

/-- `mov` and `mov.tid`. -/
def execMov (u : Bool) (p : Pred) (ty : Ty) (tid : Bool) (d : Reg) (b : OpB) (s : State) : Host.Outcome State Fault Refusal :=
  execInt (.mov u p ty tid d b) u p ty d
    (fun c t => if tid then (if u then 0 else BitVec.ofNat 64 t) else c.srcB ty t b) s

/-- Ones, leading zeros, trailing zeros and bit reversal of the low w bits. -/
def cntOf (op : CntOp) (w x : Nat) : Nat :=
  let bits := (List.range w).map fun i => decide (x / 2 ^ i % 2 = 1)
  match op with
  | .pop => (bits.filter id).length
  | .lz => (bits.reverse.takeWhile (!·)).length
  | .tz => (bits.takeWhile (!·)).length
  | .rev => bits.foldl (fun n b => 2 * n + (if b then 1 else 0)) 0

/-- `cnt`. -/
def execCnt (u : Bool) (p : Pred) (ty : Ty) (op : CntOp) (d a : Reg) (s : State) : Host.Outcome State Fault Refusal :=
  execInt (.cnt u p ty op d a) u p ty d (fun c t => BitVec.ofNat 64 (cntOf op (Ty.bits32 ty) (c.srcA u ty t a).toNat)) s

/-- The operations of `mop` (Table 12.3). -/
def mopOf (op : MopOp) (x y : Word) : Word :=
  match op with
  | .and => x &&& y
  | .or => x ||| y
  | .xor => x ^^^ y
  | .andn => x &&& ~~~y
  | .not => ~~~x

/-- `mop` (R232). -/
def execMop (p : Pred) (op : MopOp) (d a b : Reg) (s : State) : Host.Outcome State Fault Refusal :=
  s.issueI (.mop p op d a b) p fun c =>
    s.finish c (if c.any p then c.g.mset d.toNat (mopOf op (c.g.mget a.toNat) (c.g.mget b.toNat)) else c.g)

/-- `mmov` (R232). -/
def execMmov (p : Pred) (op : MmovOp) (d a : Reg) (s : State) : Host.Outcome State Fault Refusal :=
  s.issueI (.mmov p op d a) p fun c =>
    s.finish c (if c.any p then
      (match op with
        | .m => c.g.mset d.toNat ((c.g.kget a.toNat).setWidth 32)
        | .k => c.g.kset d.toNat ((c.g.mget a.toNat).setWidth 64)
        | .unit => c.g.mset d.toNat c.e.mask)
    else c.g)

end Sys2Proof.Machine
end

