-- ==== Sys2Proof/Machine/Matrix.lean ====
section
/-! DEFINITION. The matrix unit (15_matrix_instructions.md): MFMT, array commands and their queue, tile ownership, `mdrn`, `bld`, and the
start and completion of array commands. -/

namespace Sys2Proof.Machine

/-! ## Formats (R298, R299) -/

/-- A valid combination of Table 15.2. -/
structure MmaForm where
  a : Ty
  b : Ty
  isInt : Bool
  /-- the 8-bit class -/
  c8 : Bool
  asc : Bool
  bsc : Bool
deriving DecidableEq, Repr

/-- The combination that a value of MFMT names; none where Table 15.2 does not admit it. -/
def mmaForm (m : Dword) : Option MmaForm :=
  let asc := m.getLsbD 12
  let bsc := m.getLsbD 13
  if m.extractLsb' 14 50 != 0 || m.extractLsb' 10 2 != 0 then none
  else
    match Ty.ofCode (m.extractLsb' 0 5), Ty.ofCode (m.extractLsb' 5 5) with
    | some a, some b =>
      let f8 := fun (t : Ty) => t = .e4m3 || t = .e5m2
      if f8 a && f8 b then some ⟨a, b, false, true, asc, bsc⟩
      else if asc || bsc then none
      else if a = .i8 && b = .i8 then some ⟨a, b, true, true, false, false⟩
      else if (a = .bf16 && (b = .bf16 || b = .q4o)) || (a = .f16 && b = .f16) then some ⟨a, b, false, false, false, false⟩
      else none
    | _, _ => none

/-- `msetf`. -/
def execMsetf (p : Pred) (b : KI) (s : State) : Host.Outcome State Fault Refusal :=
  s.issueI (.msetf p b) p fun c =>
    let v : Dword := ((c.srcKI b).extractLsb' 0 32).setWidth 64
    if !c.any p then s.retire c
    else if (mmaForm v).isNone then c.illegalUse s p
    else s.finish c { c.g with mfmt := v }

/-! ## Issue of array commands (R297, R315) -/

/-- The shape word; none where reserved bits of a uniform register are set (R315). -/
def Cur.shape (c : Cur) (b : KI) (res : Word) : Option Word :=
  match b with
  | .i w => some w
  | .k n =>
    let v := c.g.kget n.toNat
    let w := v.extractLsb' 0 32
    if v.extractLsb' 32 32 == 0 && w &&& res == 0 then some w else none

/-- The physical tile that the selected unit names. -/
def Cur.tile (c : Cur) (s : State) (t : Reg) : Nat := (s.tileOfName c.u.grp t.toNat).getD 0

def State.tileAt (s : State) (n : Nat) : Tile := (AMap.get? s.tiles n).getD {}

/-- The token that an array command takes as it issues. -/
def State.takeToken (s : State) (c : Cur) : State := { s with tokens := s.tokens.filter (· != (c.u.grp, c.u.entry)) }

/-- An array command that has passed its checks: it waits for its token, then its port holds it until the queue has a place
(R158, R297). -/
def State.arrayIssue (s : State) (c : Cur) (k : State → State) : State :=
  if !s.tokens.contains (c.u.grp, c.u.entry) then s.requestToken c
  else if s.holdStands (coreOf c.u.grp) .array then s.hold c .array
  else k (s.takeToken c)

/-- A command enters the queue of its core. -/
def State.enqueue (s : State) (c : Cur) (a : ArrayCmd) : State :=
  let core := coreOf c.u.grp
  let s1 := { s with arrays := AMap.set s.arrays core (s.arrayQueue core ++ [a]), nextId := s.nextId + 1 }
  (if a.counted then s1.updGroup c.u.grp (·.countUp 9) else s1).retire c

/-- A command of the selected unit. -/
def Cur.command (c : Cur) (s : State) (p : Pred) (t : Reg) (op : ArrayOp) : ArrayCmd :=
  { id := s.nextId, op := op, grp := c.u.grp, block := c.g.block, unit := c.e.mask, act := c.act p, pc := c.u.pc, tile := c.tile s t
    name := t, bpBase := ((s.blockOf c.g).bind fun b => b.bpBase[coreOf c.u.grp - b.core]?).getD 0 }

/-- The illegal use of a matrix instruction: TINFO names the tile. -/
def Cur.tileTrap (c : Cur) (s : State) (p : Pred) (t : Reg) (addr : Dword := 0) : State :=
  c.trap s { c.trapRec p 2 0 with info := t, addr := addr }

/-! ## mma -/

/-- Fields of the shape word of `mma` (Table 15.4). -/
def mmaNb (w : Word) : Nat := (w.extractLsb' 0 5).toNat + 1
def mmaN (w : Word) : Nat := (w.extractLsb' 8 8).toNat + 1
def mmaC0 (w : Word) : Nat := (w.extractLsb' 16 8).toNat
def mmaBo (w : Word) : Nat := 64 * (w.extractLsb' 24 8).toNat

/-- Bytes that a column occupies (R303). -/
def MmaForm.columnBytes (f : MmaForm) (nb : Nat) : Nat :=
  if f.c8 then 16 * nb + (if f.bsc then nb else 0) else if f.b = .q4o then 10 * nb else 32 * nb

/-- An `mma` with this shape is legal but for its tile. -/
def MmaForm.shapeOk (f : MmaForm) (w : Word) (depth : Nat) : Bool :=
  decide (mmaNb w ≤ (if f.c8 then 32 else 16) ∧ mmaC0 w + mmaN w ≤ 256 ∧ mmaBo w + f.columnBytes (mmaNb w) ≤ depth)

/-- The A run of all threads (R302). -/
def Cur.aRun (c : Cur) (a : Reg) (n : Nat) : SMap 32 :=
  (List.range 32).foldl (fun m t => (List.range n).foldl (fun m i => SMap.set m (256 * t + i) (c.g.vget t (a.toNat + i))) m) []

/-- `mma`: the A run, MFMT and the shape are read, and the command enters the queue (R301 to R304, R316). -/
def execMma (p : Pred) (rm : RMode) (t a : Reg) (b : KI) (s : State) : Host.Outcome State Fault Refusal :=
  s.issueI (.mma p rm t a b) p fun c =>
    if !c.any p then s.arrayIssue c fun s => s.retire c
    else
      match mmaForm c.g.mfmt, c.shape b 0x000000E0#32 with
      | some f, some w =>
        let tl := s.tileAt (c.tile s t)
        if tl.holder.isSome || tl.isInt != f.isInt || !f.shapeOk w (((s.launch c.g.launch).map (·.bpd)).getD 0) then c.tileTrap s p t
        else if s.tokens.contains (c.u.grp, c.u.entry) && s.holdStands (coreOf c.u.grp) .buffer then s.hold c .buffer
        else
          s.arrayIssue c fun s => s.enqueue c
            { c.command s p t (.mma rm c.g.mfmt w) with
              a := c.aRun a (if f.asc then 34 else 32)
              after := (s.accesses.filter fun q => q.2.grp = c.u.grp && q.2.kind = .bld).map Prod.fst }
      | _, _ => c.tileTrap s p t

/-! ## Ownership: macq, mrel -/

/-- `macq` (R307). -/
def execMacq (p : Pred) (t : Reg) (s : State) : Host.Outcome State Fault Refusal :=
  s.issueI (.macq p t) p fun c =>
    let n := c.tile s t
    let tl := s.tileAt n
    if !c.any p || tl.holder = some c.u.grp then s.retire c
    else
      let tl' := match tl.holder with
        | none => { tl with holder := some c.u.grp }
        | some _ => if tl.waiters.contains c.u.grp then tl else { tl with waiters := tl.waiters ++ [c.u.grp] }
      (({ s with tiles := AMap.set s.tiles n tl' }).retire c).updGroup c.u.grp fun g =>
        g.updEntry c.u.entry fun e => { e with st := .atMacq n s.nextId }

/-- `mrel` (R308). -/
def execMrel (p : Pred) (t : Reg) (s : State) : Host.Outcome State Fault Refusal :=
  s.issueI (.mrel p t) p fun c =>
    let n := c.tile s t
    if !c.any p then s.retire c
    else if (s.tileAt n).holder != some c.u.grp then c.tileTrap s p t
    else ({ s with tiles := AMap.set s.tiles n (s.tileAt n).release }).retire c

/-! ## mzero, mld -/

/-- A tile's kind is set. -/
def State.setKind (s : State) (n : Nat) (isInt : Bool) : State :=
  { s with tiles := AMap.set s.tiles n { s.tileAt n with isInt := isInt } }

/-- `mzero` (R309). -/
def execMzero (p : Pred) (ty : Ty) (t : Reg) (s : State) : Host.Outcome State Fault Refusal :=
  s.issueI (.mzero p ty t) p fun c =>
    let n := c.tile s t
    if !c.any p then s.arrayIssue c fun s => s.retire c
    else if (s.tileAt n).holder.isSome then c.tileTrap s p t
    else s.arrayIssue c fun s => (s.setKind n (ty = .i32)).enqueue c (c.command s p t (.mzero (ty = .i32)))

/-- Fields of the shape word of `mld` (R310). -/
def mldC0 (w : Word) : Nat := (w.extractLsb' 0 8).toNat
def mldNc (w : Word) : Nat := (w.extractLsb' 8 8).toNat + 1
def mldPitch (w : Word) : Nat := if (w.extractLsb' 16 16).toNat = 0 then mldNc w else (w.extractLsb' 16 16).toNat

/-- The rows of storage that an `mld` covers: address and length. -/
def mldRows (a : Nat) (w : Word) : List (Nat × Nat) := (List.range 8).map fun r => (a + 4 * (r * mldPitch w), 4 * mldNc w)

/-- The address part of an `mld` is legal: aligned, in its space, and on no claim-tracked page. -/
def State.mldAddrOk (s : State) (g : Group) (scr : Bool) (a : Nat) (w : Word) : Bool :=
  let top := if scr then scrTop else s.sharedTop g
  a % 4 == 0 && (mldRows a w).all fun r => decide (r.1 + r.2 ≤ top) && (!scr || (pagePieces r.1 r.2).all fun q => !s.claimPage q.1)

/-- An `mld`: checked, then queued. -/
def execLoadStoreTile (i : Instr) (p : Pred) (scr out isInt flag : Bool) (sc : Scope) (t a : Reg) (b : KI) (s : State) :
    Host.Outcome State Fault Refusal :=
  s.issueI i p fun c =>
    let n := c.tile s t
    let tl := s.tileAt n
    let addr := c.g.kget a.toNat
    if !c.any p then s.arrayIssue c fun s => s.retire c
    else
      match c.shape b 0 with
      | none => c.tileTrap s p t
      | some w =>
        if tl.holder.isSome || 256 < mldC0 w + mldNc w || (out && tl.isInt != isInt) then c.tileTrap s p t
        else if !s.mldAddrOk c.g scr addr.toNat w then c.tileTrap s p t addr
        else if out && c.helpersOnly p then s.arrayIssue c fun s => s.retire c
        else
          s.arrayIssue c fun s =>
            let op : ArrayOp := if out then .mldOut scr addr w else .mldIn scr isInt tl.isInt addr w
            (if out then s else s.setKind n isInt).enqueue c
              { c.command s p t op with
                ord := flag, scope := sc, counted := out && c.e.clause.names 9
                after := (s.groupAccesses c.u.grp).map Prod.fst }

/-- `mld.in`. -/
def execMldIn (p : Pred) (scr : Bool) (ty : Ty) (acq : Bool) (sc : Scope) (t a : Reg) (b : KI) (s : State) :
    Host.Outcome State Fault Refusal := execLoadStoreTile (.mldIn p scr ty acq sc t a b) p scr false (ty = .i32) acq sc t a b s

/-- `mld.out`. -/
def execMldOut (p : Pred) (scr : Bool) (ty : Ty) (rel : Bool) (sc : Scope) (t a : Reg) (b : KI) (s : State) :
    Host.Outcome State Fault Refusal := execLoadStoreTile (.mldOut p scr ty rel sc t a b) p scr true (ty = .i32) rel sc t a b s

/-! ## mdrn (R311) -/

/-- The value of Table 15.6 that an element narrows to; none where the kind does not admit the type. -/
def drained (isInt : Bool) (ty : Ty) (sat : Bool) (x : Word) : Option Nat :=
  if isInt then
    match ty with
    | .i32 => some x.toNat
    | .i16 | .i8 => some (wrapNat (8 * ty.size) (clampInt (intMin ty) (intMax ty) x.toInt))
    | _ => none
  else
    match ty with
    | .f32 => some x.toNat
    | .f16 | .bf16 | .e4m3 | .e5m2 => some (roundTo (fmtOf ty) .rtz sat (decodeF (fmtOf .f32) x.toNat))
    | _ => none

/-- An element of a tile. -/
def Tile.get (t : Tile) (row col : Nat) : Word := SMap.get t.el (256 * row + col)

/-- The registers that a thread receives. -/
def drainRun (tl : Tile) (ty : Ty) (sat : Bool) (c0 j t : Nat) : List Word :=
  let z := ty.size
  let es := (List.range j).map fun i => (drained tl.isInt ty sat (tl.get (t / 4) (c0 + t % 4 * j + i))).getD 0
  (List.range (mdrnRegs ty j)).map fun r =>
    BitVec.ofNat 32 ((List.range (4 / z)).foldl (fun n k => n + es.getD (4 / z * r + k) 0 * 2 ^ (8 * z * k)) 0)

/-- `mdrn`. -/
def execMdrn (p : Pred) (ty : Ty) (sat : Bool) (d t : Reg) (b : KI) (s : State) : Host.Outcome State Fault Refusal :=
  s.issueI (.mdrn p ty sat d t b) p fun c =>
    let tl := s.tileAt (c.tile s t)
    if !c.any p then s.retire c
    else
      match c.shape b 0xFFFFC000#32 with
      | none => c.tileTrap s p t
      | some w =>
        let j := (w.extractLsb' 8 6).toNat + 1
        let c0 := (w.extractLsb' 0 8).toNat
        if tl.holder != some c.u.grp || (drained tl.isInt ty sat 0).isNone || 256 < c0 + 4 * j || c.g.nregs < d.toNat + mdrnRegs ty j then
          c.tileTrap s p t
        else s.finish c (c.mapThreads p fun th g => g.vsetRun th d.toNat (drainRun tl ty sat c0 j th))

/-! ## bld (R312) -/

/-- The cell of a B-plane address on the core of the selected unit. -/
def Cur.bplaneCell (c : Cur) (s : State) (a : Nat) : Nat :=
  let core := coreOf c.u.grp
  cellBplane core (a / 2 ^ 14) (((s.blockOf c.g).bind fun b => b.bpBase[core - b.core]?).getD 0 + a % 2 ^ 14)

/-- `bld`. -/
def execBld (p : Pred) (ty : Ty) (n : Cnt) (a : Reg) (off : OffB) (k : Reg) (s : State) : Host.Outcome State Fault Refusal :=
  s.issueI (.bld p ty n a off k) p fun c =>
    let w := accWidth ty n
    let l := c.addrs p a off
    let depth := ((s.launch c.g.launch).map (·.bpd)).getD 0
    let bad := l.filter fun q => !(inSpace (2 ^ 22) w q.2 && decide (q.2.toNat % 2 ^ 14 + w ≤ depth))
    if !c.any p then s.retire c
    else if !bad.isEmpty then c.trapThreads s p 2 0 bad
    else
      s.issueAccess c { c.access s p .bld ty w ((l.filter fun q => !c.g.helper.getLsbD q.1).map fun q =>
          ⟨q.1, c.bplaneCell s q.2.toNat, 0, c.runData q.1 k w, false⟩) with
        counted := c.e.clause.names 8 } []

/-! ## The operands of an mma (Table 15.5) -/

/-- Byte or half-word k of a row of A. -/
def ArrayCmd.aCode (q : ArrayCmd) (f : MmaForm) (row k : Nat) : Nat :=
  if f.c8 then (SMap.get q.a (256 * (4 * row + k / 128) + k % 128 / 4)).toNat / 2 ^ (8 * (k % 4)) % 256
  else (SMap.get q.a (256 * (4 * row + k / 64) + k % 64 / 2)).toNat / 2 ^ (16 * (k % 2)) % 65536

/-- Scale byte of K block j of a row of A. -/
def ArrayCmd.aScale (q : ArrayCmd) (row j : Nat) : Nat :=
  (SMap.get q.a (256 * (4 * row + j / 8) + 32 + j % 8 / 4)).toNat / 2 ^ (8 * (j % 4)) % 256

/-- A run of a column of B, from the command's B offset. -/
def State.bBytes (s : State) (q : ArrayCmd) (w : Word) (col i n : Nat) : Nat :=
  Memory.readNat s.mem (cellBplane (q.tile / 32) col (q.bpBase + mmaBo w + i)) n

/-- A column of B as the array takes it: exact values, codes as the record holds them, scales, non-canonical codes. -/
structure BColumn where
  vals : List FVal
  codes : List Nat
  scales : List Nat
  odd : Nat
deriving DecidableEq, Repr

/-- A column of B (R303); a Q4O column is expanded, and its record holds bf16 codes of the values before their scale, and the scales, which
together are the exact values (log 32). -/
def State.bColumn (s : State) (q : ArrayCmd) (f : MmaForm) (w : Word) (col : Nat) : BColumn :=
  let nb := mmaNb w
  let k := 16 * nb
  if f.b = .q4o then
    let blocks := (List.range nb).map fun j =>
      q4Block (s.bBytes q w col (8 * j) 8) (s.bBytes q w col (8 * nb + 2 * j) 1) (s.bBytes q w col (8 * nb + 2 * j + 1) 1 % 16)
    let vals := blocks.flatMap Prod.fst
    let scales := (List.range nb).map fun j => s.bBytes q w col (8 * nb + 2 * j) 1
    let plain := (List.range nb).flatMap fun j =>
      (q4Block (s.bBytes q w col (8 * j) 8) 127 (s.bBytes q w col (8 * nb + 2 * j + 1) 1 % 16)).1
    ⟨vals, plain.map (roundTo (fmtOf .bf16) .rne false), scales, blocks.foldl (fun n b => n + b.2) 0⟩
  else if f.c8 then
    let codes := (List.range k).map fun i => s.bBytes q w col i 1
    let scales := if f.bsc then (List.range nb).map fun j => s.bBytes q w col (k + j) 1 else []
    let vals := (List.range k).map fun i =>
      let v := decodeF (fmtOf f.b) (codes.getD i 0)
      if f.bsc then scaleUe (scales.getD (i / 16) 0) v else v
    ⟨vals, codes, scales, 0⟩
  else
    let codes := (List.range k).map fun i => s.bBytes q w col (2 * i) 2
    ⟨codes.map (decodeF (fmtOf f.b)), codes, [], 0⟩

/-- A row of A: exact values, codes, scales. -/
def ArrayCmd.aRow (q : ArrayCmd) (f : MmaForm) (w : Word) (row : Nat) : List FVal × List Nat × List Nat :=
  let k := 16 * mmaNb w
  let codes := (List.range k).map (q.aCode f row)
  let scales := if f.asc then (List.range (mmaNb w)).map (q.aScale row) else []
  (((List.range k).map fun i =>
    let v := decodeF (fmtOf f.a) (codes.getD i 0)
    if f.asc then scaleUe (scales.getD (i / 16) 0) v else v), codes, scales)

/-- An i32 element (R304): the exact sum, saturated. -/
def intElem (as bs : List Nat) (c : Word) : Word :=
  let i8 := fun (x : Nat) => (BitVec.ofNat 8 x).toInt
  BitVec.ofInt 32 (clampInt (-2 ^ 31) (2 ^ 31 - 1) ((as.zip bs).foldl (fun n q => n + i8 q.1 * i8 q.2) c.toInt))

/-- An f32 element (R304): the rounded sum, whether it escalates, its record. -/
def floatElem (f : MmaForm) (rm : RMode) (el : Nat) (a : List FVal × List Nat × List Nat) (b : BColumn) (c : Word) : ElemOut :=
  let z := if f.c8 then 1 else 2
  let terms := (a.1.zip b.vals).map (fun q => fMul q.1 q.2) ++ [decodeF (fmtOf .f32) c.toNat]
  let r := summed .f32 rm terms
    { nterms := a.2.1.length, afmt := f.a.code, bfmt := if f.b = .q4o then Ty.bf16.code else f.b.code
      scl := (if f.asc then 1 else 0) + (if f.bsc || f.b = .q4o then 2 else 0), cval := c.setWidth 64
      aops := a.2.1.flatMap (leBytes z), bops := b.codes.flatMap (leBytes z), asc := a.2.2.map (BitVec.ofNat 8)
      bsc := b.scales.map (BitVec.ofNat 8) }
  { el := el, bits := r.bits.setWidth 32, escalates := r.fast.getD false, fast := (r.fastv.headD 0).setWidth 32, tiny := r.tiny
    oprec := r.oprec }

/-- The rows that a command updates. -/
def ArrayCmd.rows (q : ArrayCmd) : List Nat := (List.range 8).filter fun r => q.act.extractLsb' (4 * r) 4 != (0 : BitVec 4)

/-- The elements that an `mma` will leave. -/
def State.mmaOut (s : State) (q : ArrayCmd) (rm : RMode) (m : Dword) (w : Word) : List ElemOut :=
  match mmaForm m with
  | none => []
  | some f =>
    let tl := s.tileAt q.tile
    let rows := q.rows.map fun r => (r, q.aRow f w r)
    (List.range (mmaN w)).flatMap fun i =>
      let col := mmaC0 w + i
      let b := s.bColumn q f w col
      rows.map fun r =>
        let el := 256 * r.1 + col
        if f.isInt then { el := el, bits := intElem r.2.2.1 b.codes (SMap.get tl.el el) }
        else floatElem f rm el r.2 b (SMap.get tl.el el)

/-- Non-canonical Q4O codes that an `mma` decodes (R68). -/
def State.mmaOdd (s : State) (q : ArrayCmd) (m : Dword) (w : Word) : Nat :=
  match mmaForm m with
  | none => 0
  | some f => if f.b = .q4o then (List.range (mmaN w)).foldl (fun n i => n + (s.bColumn q f w (mmaC0 w + i)).odd) 0 else 0

/-- The first poisoned byte that an `mma` reads, as a B-plane address. -/
def State.mmaPoison (s : State) (q : ArrayCmd) (m : Dword) (w : Word) : Option Nat :=
  match mmaForm m with
  | none => none
  | some f =>
    ((List.range (mmaN w)).map fun i => mmaC0 w + i).findSome? fun col =>
      if s.poisoned (cellBplane (q.tile / 32) col (q.bpBase + mmaBo w)) (f.columnBytes (mmaNb w)) then some (col * 2 ^ 14 + mmaBo w) else none

/-! ## Start and completion of commands (R297) -/

/-- Storage of an `mld`, one entry for each element of the tile: element, address, cell. -/
def State.mldCells (s : State) (q : ArrayCmd) (scr : Bool) (a : Nat) (w : Word) : List (Nat × Nat × Nat) :=
  (List.range 8).flatMap fun r => (List.range (mldNc w)).map fun i =>
    let addr := a + 4 * (r * mldPitch w + i)
    (256 * r + mldC0 w + i, addr, if scr then s.scrCell addr else
      match AMap.get? s.blocks q.block with
      | some b =>
        (match s.launch b.launch with
          | some l => cellShared (b.core + addr / l.shmem) (b.shBase.getD (addr / l.shmem) 0 + addr % l.shmem)
          | none => 0)
      | none => 0)

/-- The first page of an `mld` in scratchpad that fails its check: SUB and lowest byte (R310, R379). -/
def State.mldFault (s : State) (q : ArrayCmd) (scr write : Bool) (a : Nat) (w : Word) : Option (Nat × Nat) :=
  let ctx := ((s.group q.grp).map (·.ctx)).getD 0
  if !scr then none
  else ((mldRows a w).flatMap fun r => pagePieces r.1 r.2).findSome? fun x => (s.copyFault ctx x.1 write).map fun sub => (sub, x.1)

/-- The head of a core's queue. -/
def State.setHead (s : State) (core : Nat) (q : ArrayCmd) : State :=
  { s with arrays := AMap.set s.arrays core (q :: (s.arrayQueue core).tail) }

/-- The head of a core's queue leaves it: it has completed, and its token returns to the pool. -/
def State.popHead (s : State) (core : Nat) (q : ArrayCmd) : State :=
  let rest := (s.arrayQueue core).tail
  let s1 := { s with arrays := if rest.isEmpty then AMap.del s.arrays core else AMap.set s.arrays core rest }
  let s2 := if q.counted then s1.updGroup q.grp (·.countDown 9) else s1
  s2.endBlock q.block

/-- A command that set a tile's kind as it issued has failed: the next of the later commands that sets the kind takes over the kind that the
tile had before; none where there is none, and the tile itself has it again. -/
def passKind (tile : Nat) (was : Bool) : List ArrayCmd → Option (List ArrayCmd)
  | [] => none
  | c :: r =>
    if c.tile = tile then
      match c.op with
      | .mzero _ => some (c :: r)
      | .mldIn scr isInt _ a w => some ({ c with op := .mldIn scr isInt was a w } :: r)
      | _ => (passKind tile was r).map fun l => c :: l
    else (passKind tile was r).map fun l => c :: l

/-- An `mld` that fails its pre-flight (R310, R345): it does nothing, and its trap is due. -/
def State.failMld (s : State) (core : Nat) (q : ArrayCmd) (sub addr : Nat) : State :=
  let s1 := match q.op with
    | .mldIn _ _ was _ _ =>
      (match passKind q.tile was (s.arrayQueue core).tail with
        | some l => { s with arrays := AMap.set s.arrays core (q :: l) }
        | none => s.setKind q.tile was)
    | _ => s
  let s2 := s1.lateTrap q.grp q.unit
    { cause := 3, sub := BitVec.ofNat 8 sub, pc := q.pc, thr := q.act, addr := BitVec.ofNat 64 addr, info := q.name }
  s2.popHead core q

/-- What a command is ordered after is outstanding: earlier `bld`s of an `mma`'s group; accesses of an `mld`'s group to the bytes that it
reads or writes (R121, R130, R303). -/
def State.commandHeld (s : State) (q : ArrayCmd) : Bool :=
  let cells := fun scr a w => (s.mldCells q scr a w).map fun x => (x.2.2, 4)
  match q.op with
  | .mldIn scr _ _ a w => s.groupHeld q.after (cells scr a.toNat w) []
  | .mldOut scr a w => s.groupHeld q.after [] (cells scr a.toNat w)
  | _ => q.after.any fun i => (AMap.get? s.accesses i).isSome

/-- ARRAY_COMMAND_START: the command at the head of a core's queue starts, once its tile has no pending element and what it is ordered
after is complete; it reads its tile, B bytes or storage. -/
def execArrayCommandStart (core : Nat) (s : State) : Host.Outcome State Fault Refusal :=
  match s.arrayQueue core with
  | [] => .next s
  | q :: _ =>
    if q.started || s.pendTile q.tile || s.commandHeld q then .next s
    else
      match q.op with
      | .mzero _ => .next (s.setHead core { q with started := true })
      | .mma rm m w =>
        (match s.mmaPoison q m w with
          | some a => .next (s.terminateAt q.grp .poison 0 q.pc (BitVec.ofNat 64 a))
          | none => .next ((s.setHead core { q with started := true, out := s.mmaOut q rm m w }).countN q.grp 13 (s.mmaOdd q m w)))
      | .mldIn scr _ _ a w =>
        (match s.mldFault q scr false a.toNat w with
          | some (sub, addr) => .next (s.failMld core q sub addr)
          | none =>
            let cells := s.mldCells q scr a.toNat w
            match cells.find? fun x => s.poisoned x.2.2 4 with
            | some x => .next (s.terminateAt q.grp .poison 0 q.pc (BitVec.ofNat 64 (x.2.1 / 8 * 8)))
            | none =>
              .next (s.setHead core { q with
                started := true, out := cells.map fun x => { el := x.1, bits := BitVec.ofNat 32 (leNat (s.engineBytes q.id q.grp core x.2.2 4)) } }))
      | .mldOut scr a w =>
        (match s.mldFault q scr true a.toNat w with
          | some (sub, addr) => .next (s.failMld core q sub addr)
          | none => .next (s.setHead core { q with started := true }))

/-- An element of an `mma` goes to the escalation buffer (R79, R62). -/
def State.parkElem (s : State) (q : ArrayCmd) (rm : RMode) (e : ElemOut) : State :=
  s.park
    { core := q.tile / 32, grp := q.grp, block := q.block, dest := .elem q.tile e.el, value := e.bits.setWidth 64, opc := 0x81#8, sub := 0
      ty := Ty.f32.code, mode := rm.code, fast := if e.escalates then e.fast.setWidth 64 else e.bits.setWidth 64
      oprec := e.oprec, assist := !e.escalates, tiny := e.tiny, exact := !e.escalates }

/-- Elements written to a tile. -/
def State.writeElems (s : State) (tile : Nat) (l : List ElemOut) : State :=
  { s with tiles := AMap.set s.tiles tile (l.foldl (fun t e => { t with el := SMap.set t.el e.el e.bits }) (s.tileAt tile)) }

/-- An element that leaves by the siding. -/
def ElemOut.parks (e : ElemOut) : Bool := e.escalates || e.tiny

/-- Some element of a tile waits in its core's escalation buffer. -/
def State.tileBuffered (s : State) (tile : Nat) : Bool :=
  s.parked.any fun q => q.2.buffered && (match q.2.dest with
    | .elem t _ => t = tile
    | .reg .. => false)

/-- The mode of an `mma`. -/
def ArrayOp.mode : ArrayOp → RMode
  | .mma rm _ _ => rm
  | _ => .rne

/-- The effect of a started command that has no element to park. -/
def State.commandEffect (s : State) (q : ArrayCmd) : State :=
  match q.op with
  | .mzero _ => { s with tiles := AMap.set s.tiles q.tile { s.tileAt q.tile with el := [] } }
  | .mldOut scr a w =>
    let tl := s.tileAt q.tile
    s.landHome (q.tile / 32) ((s.mldCells q scr a.toNat w).flatMap fun x =>
      ((List.range 4).map fun i => x.2.2 + i).zip (bytesOf 4 (SMap.get tl.el x.1)))
  | _ => s.writeElems q.tile q.out

/-- ARRAY_COMMAND_COMPLETE: a started command leaves its elements; those that escalate enter the escalation buffer as it has room, and the
command completes once all of them hold siding entries (R83, R297). -/
def execArrayCommandComplete (core : Nat) (s : State) : Host.Outcome State Fault Refusal :=
  match s.arrayQueue core with
  | [] => .next s
  | q :: _ =>
    if !q.started then .next s
    else if q.out.any (·.parks) then
      let plain := q.out.filter fun e => !e.parks
      let parks := q.out.filter (·.parks)
      let room := 256 - s.buffered core
      let s1 := (parks.take room).foldl (fun s e => s.parkElem q q.op.mode e) (s.writeElems q.tile plain)
      .next (s1.setHead core { q with out := parks.drop room })
    else if s.tileBuffered q.tile then .next s
    else .next ((s.commandEffect q).popHead core q)

end Sys2Proof.Machine
end

