-- ==== Sys2Proof/Machine/Reset.lean ====
section
/-! DEFINITION. Bring-up and reset: readiness (01/R19, R20), firmware banks at boot (01/R28, 22/R404), device reset (01/R21, R22), what host
ports and the management path lose (22/R406), the management path's accesses (01/R17), and the update agent (01/R27, R28, 22/R403). -/

namespace Sys2Proof.Machine

/-! ## Readiness -/

/-- A DDR-5 channel with no module fitted never sets its bit (R20). -/
def unfitted (n : Nat) : Bool := decide (40 ≤ n ∧ n < 52) && Config.ddrBytes (n - 40) == 0

/-- FUNCTION_READY: a function has completed its training (R19); a bit that a failure cleared until device reset stays clear. -/
def execFunctionReady (bit : BitVec 7) (s : State) : Host.Outcome State Fault Refusal :=
  let n := bit.toNat
  if 71 ≤ n || unfitted n || s.deadBits.contains n then .next s else .next (s.setReady n true)

/-! ## Firmware banks at boot -/

/-- A bank passes the checks of the boot ROM: its signature was found good, and its security version is not revoked. -/
def FwBank.passes (b : FwBank) (fuse : Nat) : Bool := b.verified && decide (fuse ≤ b.secver)

/-- The marked bank becomes active; a component whose active bank fails, or every component when all are to fall back, starts from the
other. The Bool says that it fell back. -/
def FwComp.boot (c : FwComp) (fuse : Nat) (all : Bool) : FwComp × Bool :=
  let c1 := { c with active := c.marked.getD c.active, marked := none, ready := false }
  if all || !c1.running.passes fuse then ({ c1 with active := !c1.active }, true) else (c1, false)

/-- The 32 bytes of a digest in the registers at an offset (R197). -/
def State.setHash (s : State) (off : Nat) (h : BitVec 256) : State :=
  (List.range 8).foldl (fun s i => s.setReg (regMan (off + 4 * i)) (h.extractLsb' (32 * i) 32)) s

/-- Booting: FWSTAT and the manifest registers report the banks that run (R197, R404). -/
def State.boot (s : State) (all : Bool) : State :=
  let fuse := (s.reg regFuseCnt).toNat
  let a := s.firmware.boot fuse all
  let b := s.microcode.boot fuse all
  let c := s.translator.boot fuse all
  let n : Bool → Nat := Bool.toNat
  let fell := n a.2 + 2 * n b.2 + 4 * n c.2
  let act := n a.1.active + 2 * n b.1.active + 4 * n c.1.active
  let stat := (if fell = 0 then 0 else 2 ^ 31) + 8 * fell + act
  let s1 := { s with firmware := a.1, microcode := b.1, translator := c.1 }
  let s2 := ((((s1.setReg regFwStat (BitVec.ofNat 32 stat)).setReg (regMan 0) 1).setReg (regMan 4) b.1.running.version).setReg
    (regMan 8) c.1.running.version).setReg (regMan 0xC) a.1.running.version
  let hs := [a.1.running.digest, b.1.running.digest, c.1.running.digest]
  let dev := sha256Bits (hs.flatMap fun h => bytesOf 32 h)
  (((s2.setHash 0x20 a.1.running.digest).setHash 0x40 b.1.running.digest).setHash 0x60 c.1.running.digest).setHash 0x80 dev

/-! ## Transfers of the update agent -/

/-- The component of a number (R27). -/
def State.comp (s : State) (n : Nat) : FwComp :=
  match n with
  | 0 => s.firmware | 1 => s.microcode | _ => s.translator

def State.setComp (s : State) (n : Nat) (c : FwComp) : State :=
  match n with
  | 0 => { s with firmware := c }
  | 1 => { s with microcode := c }
  | _ => { s with translator := c }

/-- Writing the inactive bank, which is no longer marked for the next reset (log 68). -/
def FwComp.setInactive (c : FwComp) (b : FwBank) : FwComp :=
  let c1 := { c with marked := none }
  if c.active then { c1 with bank0 := b } else { c1 with bank1 := b }

/-- The agent reports. -/
def State.say (s : State) (r : FwReport) : State := { s with fwReport := r :: s.fwReport }

/-- The transfer ends in failure; its bank holds no verified component. -/
def State.failTransfer (s : State) (n : Nat) : State :=
  { (s.setComp n { (s.comp n).setInactive { verified := false } with ready := false }).say .transferFailed with transfer := none }

/-- A transfer in progress stops: it failed (R403). It stops where another one replaces it, where the binding goes down, at ACTIVATE_FIRMWARE,
and at a device reset. -/
def State.dropTransfer (s : State) : State :=
  match s.transfer with
  | some (k, _) => s.failTransfer k.toNat
  | none => s

/-! ## Device reset -/

/-- Memory after a device reset: host memory stays, the SRAMs are zero, and HBM4 and DDR-5 hold anything (R22). -/
def State.resetMem (s : State) : Memory :=
  (Config.resetMemory s.free).foldl (fun m q => if mainBacked q.1 then SMap.set m (cellMain q.1) q.2 else m)
    (s.mem.filter fun q => 2 ^ 56 ≤ q.1 && q.1 < 2 * 2 ^ 56)

/-- A device reset (R22): all work ends without a word, the registers hold the values of R21, and the banks that are due start. -/
def State.deviceReset (s : State) (all : Bool) : State :=
  let fuse := s.reg regFuseCnt
  ({ State.reset with
      mem := s.resetMem, poison := s.poison.filter fun u => 2 ^ 56 ≤ u && u < 2 * 2 ^ 56
      bar0 := SMap.set [] regFuseCnt fuse, firmware := s.firmware, microcode := s.microcode, translator := s.translator
      fwReport := s.dropTransfer.fwReport, agenda := s.agenda, free := s.free + 1, nextId := s.nextId }).boot all

/-- POWER_ON. -/
def execPowerOn (s : State) : Host.Outcome State Fault Refusal := .next (s.deviceReset false)

/-- A write of RSTCTL by an agent. -/
def State.writeRst (s : State) (a : Agent) (value : Word) : State :=
  if !s.owns .reset a then s.unheld .reset a else if value = 1 then s.deviceReset false else s

/-- DEVICE_RESET. -/
def execDeviceReset (a : Agent) (value : Word) (s : State) : Host.Outcome State Fault Refusal := .next (s.writeRst a value)

/-- BOOT_READY_TIMEOUT: a firmware core is not ready within 2 s of reset: once, the W1 resets again with every component on its other bank
(R404). -/
def execBootReadyTimeout (s : State) : Host.Outcome State Fault Refusal :=
  let waiting := [64, 65, 66, 67].any fun n => !s.ready n && !s.deadBits.contains n
  if waiting && !(s.reg regFwStat).getLsbD 31 then .next (s.deviceReset true) else .next s

/-! ## Host ports and the management binding -/

/-- The agent of a host port. -/
def portAgent (port : Bool) : Agent := if port then .port1 else .port0

/-- HOST_PORT_RESET: only the endpoint is reset (R22), and the port's semaphores are released. -/
def execHostPortReset (port : Bool) (s : State) : Host.Outcome State Fault Refusal := .next (s.releaseSems (portAgent port))

/-- HOST_PORT_LINK_DOWN. -/
def execHostPortLinkDown (port : Bool) (s : State) : Host.Outcome State Fault Refusal := .next (s.releaseSems (portAgent port))

/-- MGMT_BINDING_DOWN: the management-interface bit clears. -/
def execMgmtBindingDown (s : State) : Host.Outcome State Fault Refusal := .next ((s.dropTransfer.setReady 68 false).releaseSems .mgmt)

/-! ## The management path (Table 1.7) -/

/-- A register that the path reaches. -/
def mgmtReaches (off : Nat) : Bool := decide (off < 0x100) || off == regDevErr || off == regFuseCnt || off == regFwStat

/-- The answer to a request: completion code and data. -/
def mgmtReply (cc : Nat) (data : Word) : Dword := data ++ (BitVec.ofNat 32 cc)

/-- A request is well formed but for its command. -/
def reqFormed (r : MgmtReq) : Bool := r.resv == 0 && r.offset.toNat % 4 == 0

/-- MGMT_REGISTER_READ: CMD 0x01; a request of no command is answered here too. -/
def execMgmtRegisterRead (req : MgmtReq) (s : State) : Host.Outcome State Fault Refusal :=
  let off := req.offset.toNat
  if req.cmd = 2 then .next s
  else if req.cmd != 1 || !reqFormed req || req.data != 0 then .next { s with mgmtAnswer := mgmtReply 2 0 }
  else if !mgmtReaches off then .next { s with mgmtAnswer := mgmtReply 1 0 }
  else .next { s with mgmtAnswer := mgmtReply 0 (if off = 0x28 then 0 else s.reg off) }

/-- A write of a semaphore register. -/
def State.writeSem (s : State) (m : Sem) (a : Agent) (value : Word) : State :=
  if value.getLsbD 0 then s.acquire m [a] else s.release m a

/-- A write by the management controller. -/
def State.mgmtWrite (s : State) (hot : Bool) (off : Nat) (value : Word) : State :=
  if off = 0x0 then s.writeSem .power .mgmt value
  else if off = 0x4 then s.writeSem .fwUpdate .mgmt value
  else if off = 0x8 then s.writeSem .fuse .mgmt value
  else if off = 0xC then s.writeSem .reset .mgmt value
  else if off = regPstate then (s.sense hot).writePstate .mgmt value
  else if off = regPeerId then s.setReg regPeerId (value &&& 0x3F#32)
  else if off = regRstCtl then s.writeRst .mgmt value
  else if off = regDevErr then s.writeDevErr value
  else if off = regFuseCnt then s.writeFuse .mgmt value
  else s

/-- MGMT_REGISTER_WRITE: CMD 0x02. -/
def execMgmtRegisterWrite (req : MgmtReq) (s : State) : Host.Outcome State Fault Refusal :=
  let off := req.offset.toNat
  if req.cmd != 2 then .next s
  else if !reqFormed req then .next { s with mgmtAnswer := mgmtReply 2 0 }
  else if !mgmtReaches off then .next { s with mgmtAnswer := mgmtReply 1 0 }
  else .next { s.mgmtWrite req.hot off req.data with mgmtAnswer := mgmtReply 0 0 }

/-! ## The update agent -/

/-- The received component is verified (R28, R403). -/
def State.verifyComp (s : State) (n : Nat) (bytes : List Byte) : State :=
  let secver := Config.firmwareSecurityVersion bytes
  let ok := Config.firmwareSignatureValid bytes && decide ((s.reg regFuseCnt).toNat ≤ secver)
  let b : FwBank := { secver := secver, version := Config.firmwareVersion bytes, digest := sha256Bits bytes, verified := ok, bytes := bytes }
  { (s.setComp n { (s.comp n).setInactive b with ready := ok }).say (if ok then .verified else .verifyFailed) with transfer := none }

/-- A transfer in progress that another one replaces has stopped (R403). -/
def State.stopTransfer (s : State) (comp : BitVec 2) (offset : Nat) : State :=
  match s.transfer with
  | some (k, _) => if k != comp || offset = 0 then s.dropTransfer else s
  | none => s

/-- REQUEST_FIRMWARE_DATA: a piece of a component, up to 4 KiB, reaches the inactive bank; offset 0 begins a transfer, a shorter piece ends
it, and a piece out of order, or one beyond the bank, fails it; a transfer that another replaces has failed. -/
def execRequestFirmwareData (comp : BitVec 2) (offset : Nat) (data : List Byte) (s : State) : Host.Outcome State Fault Refusal :=
  let n := comp.toNat
  if n = 3 || 4096 < data.length then .next s
  else
    let s1 := s.stopTransfer comp offset
    let got := (s1.transfer.map Prod.snd).getD []
    if got.length != offset || Config.firmwareBankSize < offset + data.length then .next (s1.failTransfer n)
    else if data.length < 4096 then .next (s1.verifyComp n (got ++ data))
    else .next { (s1.setComp n { (s1.comp n).setInactive { verified := false } with ready := false }).say .received with
      transfer := some (comp, got ++ data) }

/-- The verified bank of a component is marked for the next reset. -/
def FwComp.mark (c : FwComp) : FwComp := if c.ready then { c with marked := some (!c.active), ready := false } else c

/-- Activation while SEMFWU is the management controller's. -/
def State.markAll (s : State) : State :=
  { s.say .activationPending with
    firmware := s.firmware.mark, microcode := s.microcode.mark, translator := s.translator.mark, activating := false }

/-- ACTIVATE_FIRMWARE: SEMFWU is acquired as management controller, the verified banks are marked, and SEMFWU is released; while another
agent holds it, the agent waits (R28, R403); a transfer not finished by then has stopped. -/
def execActivateFirmware (s : State) : Host.Outcome State Fault Refusal :=
  let s0 := s.dropTransfer
  let s1 := s0.acquire .fwUpdate [.mgmt]
  if s1.owns .fwUpdate .mgmt then .next (s1.markAll.release .fwUpdate .mgmt) else .next { s0 with activating := true }

/-- ACTIVATE_SEMFWU_TIMEOUT: SEMFWU could not be acquired within 1 s (R403). -/
def execActivateSemfwuTimeout (s : State) : Host.Outcome State Fault Refusal :=
  if s.activating then .next { s.say .invalidState with activating := false } else .next s

end Sys2Proof.Machine
end

