-- ==== Sys2Proof/Machine/Siding.lean ====
section
/-! DEFINITION. The siding of a cluster (04/R80 to R88): acceptance from the cores' escalation buffers, the wide unit, the exact stage, and
the landing of parked results. -/

namespace Sys2Proof.Machine

/-- Siding entries of a cluster. -/
def State.sidingEntries (s : State) (k : Nat) : List (Nat × Parked) := s.parked.filter fun q => q.2.core / 8 = k && !q.2.buffered

/-- The oldest entry of a core's escalation buffer. -/
def State.bufferHead (s : State) (core : Nat) : Option (Nat × Parked) := s.parked.find? fun q => q.2.core = core && q.2.buffered

/-- The siding of a cluster has room, and so has its operand pool: an entry waits while either is full (R80, R83). -/
def State.sidingRoom (s : State) (k : Nat) : Bool :=
  let l := s.sidingEntries k
  decide (l.length < 4096) && decide ((l.filter fun q => q.2.oprec.isSome).length < 512)

/-! ## The siding region (R80 to R82) -/

/-- The least number that is not in a list, from one on. -/
def leastFree (used : List Nat) : Nat → Nat → Nat
  | 0, n => n
  | f + 1, n => if used.contains n then leastFree used f (n + 1) else n

/-- A byte of a cluster's siding region: the 16 frames above those that programs use. -/
def sidingCell (k off : Nat) : Nat := cellScr k 240 off

/-- HEAD (Table 4.4) with a stage. -/
def Parked.head (x : Parked) (stage : Nat) : Nat :=
  let kind := match x.dest with
    | .reg _ _ _ w => if w then 1 else 0
    | .elem .. => 2
  x.opc.toNat * 2 ^ 56 + x.sub.toNat * 2 ^ 48 + x.ty.toNat * 2 ^ 43 + x.mode.toNat * 2 ^ 40 + stage * 2 ^ 38 + kind * 2 ^ 36 +
    x.assist.toNat * 2 ^ 35 + x.ext.isSome.toNat * 2 ^ 34

/-- DEST (Table 4.4). -/
def Parked.destWord (x : Parked) : Nat :=
  x.core * 2 ^ 56 + slotOfGroup x.grp * 2 ^ 47 + (match x.dest with
    | .reg _ t n _ => t * 2 ^ 42 + n.toNat * 2 ^ 34
    | .elem tile el => tile % 32 * 2 ^ 29 + el / 256 * 2 ^ 26 + el % 256 * 2 ^ 18)

/-- The offset of an operand record in the region. -/
def poolOffset (n : Nat) : Nat := 0x40000 + 1152 * n

/-- A siding entry (Table 4.3). -/
def Parked.image (x : Parked) (stage : Nat) : List Byte :=
  leBytes 8 (x.head stage) ++ leBytes 8 x.destWord ++ leBytes 8 x.seq.toNat ++ leBytes 8 x.opa.toNat ++ leBytes 8 x.opb.toNat ++
    leBytes 8 x.opcv.toNat ++ leBytes 8 x.fast.toNat ++ leBytes 8 (x.ext.elim 0 poolOffset)

/-- Bytes filled up with zeros. -/
def padTo (n : Nat) (l : List Byte) : List Byte := (l ++ List.replicate n 0).take n

/-- An operand record (Table 4.5). -/
def OperandRec.image (r : OperandRec) : List Byte :=
  leBytes 4 r.nterms ++ [r.afmt.setWidth 8, r.bfmt.setWidth 8, r.scl.setWidth 8, 0] ++ leBytes 8 r.cval.toNat ++ leBytes 48 0 ++
    padTo 512 r.aops ++ padTo 512 r.bops ++ padTo 32 r.asc ++ padTo 32 r.bsc

/-- STAGE of an entry. -/
def Parked.stage (x : Parked) : Nat := if x.exact then 2 else 1

/-- The bytes of an entry in its place. -/
def State.writeEntry (s : State) (x : Parked) (stage : Nat) : State :=
  s.writeCells (sidingCell (x.core / 8) (64 * x.slot)) (x.image stage)

/-- The bytes of an entry's operand record in its place. -/
def State.writeRecord (s : State) (x : Parked) : State :=
  match x.ext, x.oprec with
  | some n, some r => s.writeCells (sidingCell (x.core / 8) (poolOffset n)) r.image
  | _, _ => s

/-- An entry as the siding takes it: numbered, in the lowest free place, its record in the lowest free place of the pool. DESIGN CHOICE (log 74):
R80 does not say which free place either takes. -/
def State.entered (s : State) (k : Nat) (x : Parked) : Parked :=
  let l := s.sidingEntries k
  let slots := l.map fun q => q.2.slot
  let exts := l.filterMap fun q => q.2.ext
  { x with
    buffered := false
    seq := SMap.get s.seqs k
    slot := leastFree slots slots.length 0
    ext := x.oprec.map fun _ => leastFree exts exts.length 0 }

/-- The cores of a cluster in round-robin order after the one served last. DESIGN CHOICE (log 74): after reset the first is the cluster's core 0,
which R83 leaves open. -/
def State.sidingOrder (s : State) (k : Nat) : List Nat :=
  let last := ((AMap.get? s.sideLast k).getD (8 * k + 7)) % 8
  (List.range 8).map fun i => 8 * k + (last + 1 + i) % 8

/-- An event of an entry is counted; for its group only while its block lives. -/
def State.countParked (s : State) (x : Parked) (c : Nat) : State :=
  if x.dead then
    let i := 32 * x.core + c
    { s with corePmc := SMap.set s.corePmc i (SMap.get s.corePmc i + 1) }
  else s.count x.grp c

/-- SIDING_ACCEPT: the siding takes one entry from the buffers of its cores and numbers it (R83); an assist goes to the exact stage. -/
def execSidingAccept (k : Nat) (s : State) : Host.Outcome State Fault Refusal :=
  match (s.sidingOrder k).findSome? fun core => (s.bufferHead core).bind fun q => if s.sidingRoom k then some (core, q) else none with
  | none => .next s
  | some (core, id, x) =>
    let y := s.entered k x
    let s1 := { (s.writeEntry y y.stage).writeRecord y with
      parked := AMap.set s.parked id y
      seqs := SMap.set s.seqs k (SMap.get s.seqs k + 1)
      sideLast := AMap.set s.sideLast k core }
    .next (if x.assist then s1.countParked x 6 else s1)

/-- The entry with the smallest SEQ. -/
def leastSeq : List (Nat × Parked) → Option (Nat × Parked)
  | [] => none
  | q :: r =>
    match leastSeq r with
    | none => some q
    | some p => if p.2.seq < q.2.seq then some p else some q

/-- A parked result lands (R88): a lane register of a thread that has not ended, or a tile element; the entry is free. -/
def State.land (s : State) (id : Nat) (x : Parked) : State :=
  let s1 := { s.writeEntry x 0 with parked := AMap.del s.parked id }
  let s2 := if x.dead then s1 else match x.dest with
    | .reg grp t n w => s1.updGroup grp fun g => if g.ended.getLsbD t then g else g.vwrite w t n.toNat x.value
    | .elem tile el => { s1 with tiles := AMap.upd s1.tiles tile fun tl => { tl with el := SMap.set tl.el el (x.value.setWidth 32) } }
  match s2.group x.grp with
  | some g => if g.entries.isEmpty then s2.endBlock x.block else s2
  | none => s2

/-- An entry passes to the exact stage (R84). -/
def State.toExact (s : State) (id : Nat) (x : Parked) : State :=
  let y := { x with exact := true }
  ({ s.writeEntry y y.stage with parked := AMap.set s.parked id y }).countParked x 5

/-- WIDE_UNIT_SERVE: the wide unit serves the entry with the smallest SEQ that waits for it: it lands it, or passes it on (R84, R77). -/
def execWideUnitServe (k : Nat) (s : State) : Host.Outcome State Fault Refusal :=
  match leastSeq ((s.sidingEntries k).filter fun q => !q.2.exact) with
  | none => .next s
  | some (id, x) =>
    let fails := x.wideFails.getD (Config.freeEscalates s.free)
    let s1 := if x.wideFails.isNone then { s with free := s.free + 1 } else s
    if fails then .next ({ s1 with free := s1.free + 1 }.toExact id { x with fast := pickFast x.widev s1.free })
    else if x.tiny then .next ((s1.toExact id { x with fast := x.value, assist := true }).countParked x 6)
    else .next (s1.land id x)

/-- EXACT_STAGE_SERVE: the exact stage completes the entry with the smallest SEQ that waits for it (R85). -/
def execExactStageServe (k : Nat) (s : State) : Host.Outcome State Fault Refusal :=
  match leastSeq ((s.sidingEntries k).filter fun q => q.2.exact) with
  | none => .next s
  | some (id, x) => .next (s.land id x)

end Sys2Proof.Machine
end

