-- ==== Sys2Proof/Machine/Traps.lean ====
section
/-! DEFINITION. The entry of traps that wait: those known after retirement, and those held back by another handler (19/R345, R346, R409,
23/R407). -/

namespace Sys2Proof.Machine

/-- A unit goes on over a clause header, a `nop` or a block tail, none of which is an instruction that issues; none where its program
counter names an instruction, holds no block in L0, or may not be passed. -/
def State.passOver (s : State) (grp i : Nat) : Option State :=
  (s.group grp).bind fun g => (g.entry i).bind fun e =>
    match s.slotAt grp g e with
    | some (.header h) =>
      let w := if e.resumed then 0 else e.wait
      some (s.setGroup grp (g.setEntry i
        { e with clause := ⟨h.seta, h.setb⟩, wait := w ||| h.wait, target := false, resumed := false, pc := e.pc + 8 }))
    | some .tail => if e.target then none else some (s.setGroup grp (g.setEntry i { e with pc := blockBase e.pc + 32, resumed := false }))
    | some (.instr (.nop _) n) =>
      if e.target then none else some (s.setGroup grp (g.setEntry i { e with pc := e.pc + BitVec.ofNat 64 n, resumed := false }))
    | _ => none

/-- Passing over as far as it goes. -/
def State.passAll : Nat → State → Nat → Nat → State
  | 0, s, _, _ => s
  | n + 1, s, grp, i =>
    match s.passOver grp i with
    | some s' => State.passAll n s' grp i
    | none => s

/-- A unit's block is missing from L0 and will come (R115): it does not where its page is not present, which holds no trap back (R407, log 30). -/
def State.awaitsFill (s : State) (grp : Nat) (g : Group) (e : Entry) : Bool :=
  (s.l0Block grp g e).isNone &&
    (match s.fetchWhere g.ctx e.mod e.pc with
      | .cell .. => true
      | _ => false)

/-- A waiting trap of a unit is entered, once the unit's own wait has ended, with the acquire of that wait, no other unit of its group is in a
handler and, for a trap after retirement, its first instruction not issued is known (R407). -/
def State.tryTrap (s : State) (grp i : Nat) : State :=
  match s.group grp with
  | none => s
  | some g =>
    match g.entry i with
    | none => s
    | some e =>
      match e.trap with
      | [] => s
      | r :: _ =>
        if !s.waitOver grp g e || g.otherHandler i then s
        else if !r.late then (s.acquireOver grp e.mask e.st).takeTrap grp i r
        else
          let s1 := State.passAll 64 s grp i
          match (s1.group grp).bind fun g => (g.entry i).map fun e => (g, e) with
          | some (g1, e1) => if s1.awaitsFill grp g1 e1 then s1 else (s1.acquireOver grp e1.mask e1.st).takeTrap grp i r
          | none => s1

/-- TRAP_ENTRY. -/
def execTrapEntry (core slot entry : Nat) (s : State) : Host.Outcome State Fault Refusal :=
  let grp := 512 * core + slot
  match s.group grp with
  | some g => .next (if s.coreRuns core && s.ctxRuns g.ctx && s.launchRuns g.launch && s.blockRuns g then s.tryTrap grp entry else s)
  | none => .next s

end Sys2Proof.Machine
end

