-- ==== Sys2Proof/Machine/System.lean ====
section
/-! DEFINITION. System instructions (12/R244 to R247, 09/R193, R194, 19/R345 to R347, 20/R360, 22/R400, R401): `sread`, `swrite`, `trap`,
`eret`, `bkpt`, `pmc`. -/

namespace Sys2Proof.Machine

/-! ## System registers (Table 12.5) -/

/-- GRPLOC. -/
def Cur.grpLoc (c : Cur) (s : State) : Dword :=
  let num := ((s.blockOf c.g).map (·.num)).getD 0
  let gs := ((s.launch c.g.launch).map (·.gcount)).getD 1
  BitVec.ofNat 64 (num * 2 ^ 48 + (gs - 1) % 128 * 2 ^ 32 + c.g.g * 2 ^ 24 + c.u.entry * 2 ^ 17 + slotOfGroup c.u.grp * 2 ^ 8 +
    coreOf c.u.grp)

/-- LAUNCH. -/
def Cur.launchWord (c : Cur) (s : State) : Dword :=
  match s.launch c.g.launch with
  | none => 0
  | some l =>
    BitVec.ofNat 64 (c.e.mod.toNat * 2 ^ 24 + l.mode * 2 ^ 16 + l.cls * 2 ^ 14 + Nat.log2 l.span * 2 ^ 11 + l.queue * 2 ^ 5 + c.g.ctx)

/-- DETDONE (R201). -/
def Cur.detDone (c : Cur) (s : State) : Dword :=
  match s.launch c.g.launch with
  | none => 0
  | some l => if l.isDet then BitVec.ofNat 64 ((firstFrom (fun n => !l.tileDone n) l.tiles 0).getD l.tiles) else 0

/-- CLMSTAT (Table 9.6); 0 in a group that runs no task (log 71). -/
def Cur.clmStat (c : Cur) (s : State) : Dword :=
  match s.claimFrame c.g with
  | none => 0
  | some (_, f) => BitVec.ofNat 64 ((if s.sealed f then 2 ^ 31 else 0) + s.nlog f % 512 * 2 ^ 16 + s.nset f % 32)

/-- A trap state register (Table 19.3). -/
def TrapState.get (t : TrapState) (n : Nat) : Option Dword :=
  match n with
  | 0x100 => some t.tcause
  | 0x101 => some t.tpc
  | 0x102 => some t.tresume
  | 0x103 => some t.tmask
  | 0x104 => some t.taddr
  | 0x105 => some t.tinfo
  | 0x106 => some (t.tpend.extractLsb' 0 64)
  | 0x107 => some (t.tpend.extractLsb' 64 64)
  | 0x108 => some (t.tpend.extractLsb' 128 64)
  | 0x109 => some (t.tpend.extractLsb' 192 64)
  | 0x10A => some t.tpendt
  | 0x10B => some t.tovf
  | _ => none

/-- The value of a system register; none where reading it is an illegal use. -/
def Cur.sysReg (c : Cur) (s : State) (n : Nat) : Option Dword :=
  match n with
  | 0 => some (c.g.live.setWidth 64)
  | 1 => some (c.g.helper.setWidth 64)
  | 2 => some (c.e.mask.setWidth 64)
  | 3 => some (c.grpLoc s)
  | 4 => some (c.launchWord s)
  | 5 => some s.clk
  | 6 => some (c.detDone s)
  | 7 => some (c.clmStat s)
  | 8 => some c.g.mfmt
  | 9 => some (c.g.flags.setWidth 64)
  | 10 => some (BitVec.ofNat 64 (c.g.spilled * 2 ^ 16 + c.g.ras.length))
  | 11 => some (BitVec.ofNat 64 c.g.spSize)
  | n => if c.e.inHandler then c.g.trap.get n else none

/-- In a deterministic launch a read of DETDONE is an acquire at `.dev` (R201). -/
def Cur.sreadAcquires (c : Cur) (s : State) (num : Half) : State :=
  if num = 6#16 && (s.launch c.g.launch).elim false Launch.isDet then s.acquireAt c.u.grp c.e.mask .dev else s

/-- `sread`. -/
def execSread (p : Pred) (d : Reg) (num : Half) (s : State) : Host.Outcome State Fault Refusal :=
  s.issueI (.sread p d num) p fun c =>
    if !c.any p then s.retire c
    else
      match c.sysReg s num.toNat with
      | some x => (c.sreadAcquires s num).finish c (c.g.kset d.toNat x)
      | none => c.illegalUse s p

/-- OSTAT of a held set (Table 9.2). -/
def State.ostat (s : State) (l : Launch) (set : Nat) : Nat := s.scrNat (l.ownerAddr set + 8) 1

/-- Some held set is being rolled back, or a wound has reached the group (R194). -/
def State.sealVoid (s : State) (g : Group) (l : Launch) (f : Nat) : Bool :=
  g.wounded || (s.heldSets f).any fun x => s.ostat l x / 2 % 2 == 1

/-- A write of 1 to CLMSTAT.SEALED (R194): every home without ROLLBACK sets SEALED; the task is sealed, or rollback is due. -/
def State.sealTask (s : State) (c : Cur) : State :=
  match s.claimFrame c.g with
  | none => s.retire c
  | some (l, f) =>
    match (s.heldSets f).find? fun x => s.poisoned (s.scrCell (l.ownerAddr x)) 16 with
    | some x => s.terminateAt c.u.grp .poison 0 c.u.pc (BitVec.ofNat 64 (l.ownerAddr x))
    | none =>
      let s1 := (s.heldSets f).foldl (fun a x =>
        if s.ostat l x / 2 % 2 = 1 then a else a.scrWrite (l.ownerAddr x + 8) [BitVec.ofNat 8 (s.ostat l x ||| 1)]) s
      if s.sealVoid c.g l f then s1.finish c { c.g with wounded := true }
      else
        (s1.scrWrite (f + 3) [BitVec.ofNat 8 (s.scrNat (f + 3) 1 ||| 1)]).retire c

/-- `swrite`: CLMSTAT, and TRESUME in a handler; every other number is an illegal use. -/
def execSwrite (p : Pred) (a : Reg) (num : Half) (s : State) : Host.Outcome State Fault Refusal :=
  s.issueI (.swrite p a num) p fun c =>
    let x := c.g.kget a.toNat
    if !c.any p then s.retire c
    else if num = 7#16 then (if x.getLsbD 31 then s.sealTask c else s.retire c)
    else if num = 0x102#16 && c.e.inHandler then s.finish c { c.g with trap := { c.g.trap with tresume := x } }
    else c.illegalUse s p

/-! ## Traps and breakpoints -/

/-- The instruction retires, and its trap is due at once (R345). -/
def State.retireTrap (s : State) (c : Cur) (r : TrapRec) : State :=
  ((s.retire c).updGroup c.u.grp fun g => g.updEntry c.u.entry fun e => { e with trap := e.trap ++ [{ r with late := true }] }).tryTrap
    c.u.grp c.u.entry

/-- `trap`. -/
def execTrap (p : Pred) (b : KI) (s : State) : Host.Outcome State Fault Refusal :=
  s.issueI (.trap p b) p fun c =>
    if !c.any p then s.retire c
    else s.retireTrap c { c.trapRec p 5 0 with code := (c.srcKI b).extractLsb' 0 16 }

/-- `eret`: legal in a handler, in a unit that holds every thread that entered it and has not exited (R347, R360). -/
def execEret (p : Pred) (s : State) : Host.Outcome State Fault Refusal :=
  s.issueI (.eret p) p fun c =>
    if !c.any p then s.retire c
    else if !c.e.inHandler || (c.g.trap.tmask.extractLsb' 32 32) &&& c.g.unexited != c.e.mask then c.illegalUse s p
    else (s.issued c).returnTrap c.u.grp c.u.entry

/-- A debugger is attached to a context (Table 22.3). -/
def State.attached (s : State) (ctx : Nat) : Bool := (s.reg (regDbg ctx 0)).getLsbD 31

/-- `bkpt`: the breakpoint trap, or the halt of the context where a debugger is attached (R245, R400, R401). -/
def execBkpt (p : Pred) (s : State) : Host.Outcome State Fault Refusal :=
  s.issueI (.bkpt p) p fun c =>
    if !c.any p then s.retire c
    else if s.attached c.g.ctx then
      ((s.retire c).updGroup c.u.grp fun g => { g with bkpt := true }).setReg (regDbg c.g.ctx 4) 9#32
    else s.retireTrap c (c.trapRec p 6 0)

/-! ## Performance counters (R246) -/

/-- Clocks waited for the network slots of accesses of a place, counted since a clock: at most 7 for each, the same in every reading (R107, log
45). The accesses are those from the number `lo` on and below `hi`. -/
def slotClocks (place since lo hi : Nat) : Nat :=
  ((List.range (hi - lo)).map fun i => Config.freeSlotClocks place since (lo + i) % 8).sum

/-- Counter n of a table of counters from a place on; counter 8 includes the waits for network slots. -/
def counterAt (place since : Nat) (m : SMap 64) (base n : Nat) : Dword :=
  let x := SMap.get m (base + n)
  if n = 8 then
    x + BitVec.ofNat 64 (slotClocks place since (SMap.get m (base + netBase)).toNat (SMap.get m (base + netCount)).toNat)
  else x

/-- A counter of the selected group: counter 0 is the counted clocks since its first issue (R53), and counter 7 reads 0. -/
def Cur.groupCounter (c : Cur) (s : State) (n : Nat) : Dword :=
  match n with
  | 0 => c.g.first.elim 0 fun t => BitVec.ofNat 64 (s.clk.toNat - t - c.g.lost)
  | 7 => 0
  | n => counterAt (c.u.grp + 256) (c.g.first.getD 0) c.g.pmc 0 n

/-- A counter of the selected unit's core. -/
def Cur.coreCounter (c : Cur) (s : State) (n : Nat) : Dword := if n = 0 then s.clk else counterAt (coreOf c.u.grp) 0 s.corePmc (32 * coreOf c.u.grp) n

/-- A group's counter n is cleared. -/
def Group.clearCounter (g : Group) (clk n : Nat) : Group :=
  if n = 0 then { g with first := some clk, lost := 0 }
  else { g with pmc := SMap.set (if n = 8 then SMap.set g.pmc netBase (SMap.get g.pmc netCount) else g.pmc) n 0 }

/-- `pmc`. -/
def execPmc (p : Pred) (clear : Bool) (d : Reg) (b : KI) (s : State) : Host.Outcome State Fault Refusal :=
  s.issueI (.pmc p clear d b) p fun c =>
    let x := c.srcKI b
    let n := (x.extractLsb' 0 8).toNat
    if !c.any p then s.retire c
    else if x.extractLsb' 9 55 != 0 || 18 < n then c.illegalUse s p
    else
      if x.getLsbD 8 then s.finish c (c.g.kset d.toNat (c.coreCounter s n))
      else
        let g := c.g.kset d.toNat (c.groupCounter s n)
        s.finish c (if clear then g.clearCounter s.clk.toNat n else g)

end Sys2Proof.Machine
end

