-- ==== Sys2Proof/Machine/Task.lean ====
section
/-! DEFINITION. Work and tasks: `fetchw`, `spawn`, `tend` (14/R290 to R292), the turntable's answer (02/R35 to R45, 20/R373, R374) and the
completion of tiles (08/R173). -/

namespace Sys2Proof.Machine

/-- The unit holds every live thread of its group that has not exited. -/
def Cur.whole (c : Cur) : Bool := c.g.unexited == c.e.mask

/-- The launch of the selected unit is a task launch. -/
def Cur.inTask (c : Cur) (s : State) : Bool := ((s.launch c.g.launch).map (·.isTask)).getD false

/-- Depth of a group's return-address stack. -/
def Group.depth (g : Group) : Nat := g.ras.length + g.spilled

/-- `fetchw`: the group's tile is finished, and the request goes to the turntable; its destination is pending until the answer. -/
def execFetchw (p : Pred) (d : Reg) (s : State) : Host.Outcome State Fault Refusal :=
  s.issueI (.fetchw p d) p fun c =>
    if !c.any p then s.retire c
    else if !c.whole || (c.inTask s && c.g.taskOpen) then c.illegalUse s p
    else if c.g.fetch.isSome then s.decline c
    else
      let s1 := s.finishTile c.u.grp
      let s2 := s1.updGroup c.u.grp fun g =>
        { g with
          work := .none, fetch := some (c.act p, d), fetchPc := c.u.pc, fetchMod := c.e.mod, fetchDepth := g.depth, fetchRas := s.ras c.u.grp c.g
          fetchClause := c.e.clause }
      (s2.updLaunch c.g.launch fun l => { l with waits := l.waits ++ [c.u.grp] }).retire c

/-- `spawn`: unless it traps, which waits for no slot (R356), it is not ready while its queue has no free slot (R44, R51), in a unit of helpers
too; then the slot is taken, and the image is read and pushed once the unit's earlier accesses are complete. -/
def execSpawn (p : Pred) (a b : Reg) (s : State) : Host.Outcome State Fault Refusal :=
  s.issueI (.spawn p a b) p fun c =>
    let q := (c.g.kget a.toNat).toNat
    let addr := (c.g.kget b.toNat).toNat
    let prod := ((s.launch c.g.launch).map fun l => l.prodq.getLsbD q).getD false
    let rec_ := { c.trapRec p 2 0 with addr := BitVec.ofNat 64 addr }
    if !c.any p then s.retire c
    else
      match AMap.get? s.taskQueues q with
      | none => c.trap s rec_
      | some t =>
        let touch : Touch := ⟨0, addr, 32, false⟩
        if 64 ≤ q || !prod || t.ctx != c.g.ctx || addr % 32 != 0 || scrTop < addr + 32 then c.trap s rec_
        else if c.helpersOnly p then (if t.free = 0 then s.decline c else s.retire c)
        else if s.touchIllegal c.g touch || s.pieceIllegal c.g addr 32 then c.trap s rec_
        else
          let go := fun (need words : List Nat) =>
            match s.pageFault c.g.ctx addr 32 false with
            | some sub => c.trap s { c.trapRec p 3 sub with addr := BitVec.ofNat 64 addr }
            | none =>
              if t.free = 0 then s.decline c
              else
                let s1 := { s with taskQueues := AMap.set s.taskQueues q { t with free := t.free - 1 } }
                s1.issueAccess c
                  { kind := .spawn q, grp := c.u.grp, unit := c.act p, core := coreOf c.u.grp, pc := c.u.pc, n := 32, ty := .b32
                    lanes := [⟨0, s.scrCell addr, addr, 0, s.homePage addr⟩], scratch := true, need := need, cum := true
                    after := s.orderBefore c.u.grp (c.act p) true } words
          match s.claimVerdict c.u.grp c.g [touch] with
          | .tableOverflow x => c.trap s { c.trapRec p 8 0 with addr := BitVec.ofNat 64 x }
          | .undoOverflow x m => c.trap s { c.trapRec p 9 0 with addr := BitVec.ofNat 64 x, thr := m }
          | .ok need words => go need words
          | .none => go [] []

/-- The check of JOINA (R374). -/
def State.joinOk (s : State) (ctx a : Nat) : Bool :=
  let e := s.attr a
  a % 64 == 0 && decide (a ≤ 0x1DFFFFC0) && patValid e && patPermits e ctx && !patRO e && !patSC e && !patClaim e

/-- What `tend` waits for: every begun copy of the task that touches a set, and every access that its release covers (R292 steps 1 and 2). -/
def State.tendWaits (s : State) (grp : Nat) : Bool :=
  (s.copies.any fun q => q.2.grp = grp && q.2.logs && !q.2.stage.unbegun) || !(s.releaseWaits grp 0xFFFFFFFF#32).isEmpty

/-- The copies of a group that have not begun ask for no set any more: their task has ended (R192, R293, log 58). -/
def State.withdrawCopies (s : State) (grp : Nat) : State :=
  { s with copies := AMap.mapV s.copies fun _ c => if c.grp = grp && c.stage.unbegun then { c with need := [] } else c }

/-- The task is over: its sets are released, and its group holds no work (R292 step 3). -/
def State.closeTask (s : State) (grp : Nat) (g : Group) : State :=
  (((s.withdrawCopies grp).releaseAll g).updLaunch g.launch fun l => { l with ended := l.ended + 1 }).updGroup grp fun g =>
    { g with taskOpen := false, work := .none, claimBad := false, wounded := false, rolling := false, allotted := [] }

/-- A task of a queue no longer runs. -/
def State.stopRunning (s : State) (q : Nat) : State :=
  { s with taskQueues := AMap.upd s.taskQueues q fun t => { t with running := t.running - 1 } }

/-- The join decrement and what follows (R43, R374): the decrement to zero pushes the parent in the ending task's slot; any other returns
the slot. -/
def State.joinStep (s : State) (g : Group) (q : Nat) (r : BitVec 256) : State :=
  if recNoJoin r then s.returnSlot q
  else
    let a := recJoin r
    let n := s.scrNat a 4
    if n = 0 then (s.updLaunch g.launch fun l => { l with status := l.status ||| 64#7 }).returnSlot q
    else
      let s1 := s.scrWrite a (leBytes 4 (n - 1))
      if n = 1 then s1.pushTask q (BitVec.ofNat 256 (s.scrNat (a + 32) 32)) true else s1.returnSlot q

/-- The join block of a task is poisoned where `tend` reads it (Table 21.2). -/
def State.joinPoisoned (s : State) (r : BitVec 256) : Bool :=
  !recNoJoin r && (s.poisoned (s.scrCell (recJoin r)) 4 || (s.scrNat (recJoin r) 4 == 1 && s.poisoned (s.scrCell (recJoin r + 32)) 32))

/-- `tend`. -/
def execTend (s : State) : Host.Outcome State Fault Refusal :=
  s.issue fun c =>
    let p : Pred := ⟨false, 0⟩
    match c.g.work, s.launch c.g.launch with
    | .task r, some l =>
      if !l.isTask || !c.whole || !c.g.taskOpen then c.illegalUse s p
      else if !recNoJoin r && !s.joinOk c.g.ctx (recJoin r) then
        c.trap s { c.trapRec p 2 0 with addr := BitVec.ofNat 64 (recJoin r) }
      else if s.tendWaits c.u.grp then
        (s.decline c).updGroup c.u.grp fun g => g.updEntry c.u.entry fun e => { e with st := .atTend }
      else if s.joinPoisoned r then (s.terminateAt c.u.grp .poison 0 c.u.pc (BitVec.ofNat 64 (recJoin r)))
      else (((s.closeTask c.u.grp c.g).stopRunning l.tq).joinStep c.g l.tq r).retire c
    | _, _ => c.illegalUse s p

/-! ## The turntable's answer -/

/-- The run that an answer writes. -/
def Group.kRun (g : Group) (d : Reg) (a b c e : Dword) : Group :=
  (((g.kset d.toNat a).kset (d.toNat + 1) b).kset (d.toNat + 2) c).kset (d.toNat + 3) e

/-- A request is answered: it leaves the launch's waits. -/
def State.answered (s : State) (i grp : Nat) (f : Group → Group) : State :=
  (s.updLaunch i fun l => { l with waits := l.waits.filter (· != grp) }).updGroup grp fun g => { f g with fetch := none }

/-- The exhausted indication. -/
def State.answerExhausted (s : State) (i grp : Nat) (d : Reg) : State :=
  s.answered i grp fun g => g.kRun d 0 0 0 0x8000000000000000#64

/-- A tile (R36, R37): the group's only unit, which asked, holds exactly its live threads (R290). -/
def State.answerTile (s : State) (i : Nat) (l : Launch) (grp : Nat) (d : Reg) (n : Nat) : State :=
  let o := l.origin n
  let live := l.liveMask n
  let s1 := s.answered i grp fun g =>
    { g with
      work := .tile n, live := live, helper := l.helperMask n
      ended := g.ended &&& ~~~live
      entries := AMap.mapV g.entries fun _ (e : Entry) => if e.st = EStat.parent then e else { e with mask := live } }.kRun d (BitVec.ofNat 64 n)
      (BitVec.ofNat 64 o.x) (BitVec.ofNat 64 o.y) (BitVec.ofNat 64 o.z)
  s1.updLaunch i fun l => { l with handed := insertNat n l.handed, work := l.work + 1 }

/-- The record with the smallest AGE (R42). -/
def oldestRec : List (BitVec 256) → Option (BitVec 256)
  | [] => none
  | r :: t =>
    match oldestRec t with
    | none => some r
    | some x => if recAge x < recAge r then some x else some r

/-- A record's claim area passes (R373). -/
def State.claimAreaOk (s : State) (ctx f : Nat) : Bool :=
  f % 64 == 0 && decide (f + 2176 ≤ scrTop) && (pagePieces f 2176).all fun q =>
    let e := s.attr q.1
    patValid e && patPermits e ctx && !patRO e && !patSC e && !patClaim e

/-- A task (R40 to R42, R185); where its claim area is refused, the illegal use of the `fetchw`, whose unit held every thread of the group,
is due (R373, R409). The claim-area header is Table 9.3's first 64 bytes: NLOG, NSET and FLAGS become 0, and the reserved bytes zero (Table 20.1,
log 72). The task's threads acquire what its spawner, the last child to end, or an earlier run released (R134). -/
def State.answerTask (s : State) (i : Nat) (l : Launch) (grp : Nat) (act : Word) (d : Reg) (r : BitVec 256) : State :=
  let ctx := ((s.group grp).map (·.ctx)).getD 0
  let ok := s.claimAreaOk ctx (recFrame r)
  let bad := l.hasClaims && !ok
  let w := fun (n : Nat) => r.extractLsb' (64 * n) 64
  let s1 := s.answered i grp fun g =>
    { g with work := .task r, taskOpen := true, claimBad := bad, live := 0xFFFFFFFF#32, helper := 0, allotted := [] }.kRun d
      (w 0) (w 1) (w 2) (w 3)
  let s2 := { s1 with taskQueues := AMap.upd s1.taskQueues l.tq fun t => { t with recs := t.recs.erase r, running := t.running + 1 } }
  let s3 := s2.updLaunch i fun l => { l with work := l.work + 1 }
  let s4 := s3.acquireAt grp 0xFFFFFFFF#32 .dev
  if bad then
    s4.lateTrap grp 0xFFFFFFFF#32
      { cause := 2, pc := ((s.group grp).map (·.fetchPc)).getD 0, thr := act, addr := BitVec.ofNat 64 (recFrame r) }
  else if l.hasClaims then s4.scrWrite (recFrame r) (leBytes 64 0)
  else s4

/-- FETCHW_ANSWER: the first waiting request of a launch is answered with a tile, a record or the exhausted indication; pick is the tile
that the turntable chooses where the order is open (R39). -/
def execFetchwAnswer (i pick : Nat) (s : State) : Host.Outcome State Fault Refusal :=
  match s.launch i with
  | none => .next s
  | some l =>
    match l.waits with
    | [] => .next s
    | grp :: _ =>
      if !s.ctxRuns l.ctx || !s.launchRuns i then .next s
      else match (s.group grp).bind fun g => g.fetch with
      | none => .next s
      | some (act, d) =>
        if l.isTask then
          match AMap.get? s.taskQueues l.tq with
          | none => .next (s.answerExhausted i grp d)
          | some t =>
            match oldestRec t.recs with
            | some r => .next (s.answerTask i l grp act d r)
            | none => if t.running = 0 && l.nprod ≤ l.producers then .next (s.answerExhausted i grp d) else .next s
        else
          match l.nextTile with
          | none => if l.openTiles = l.tiles then .next (s.answerExhausted i grp d) else .next s
          | some n =>
            if l.isDet || pick = n then .next (s.answerTile i l grp d n)
            else if pick < l.openTiles && !l.handed.contains pick && l.handsOut pick then .next (s.answerTile i l grp d pick)
            else .next s

/-- TILE_COMPLETE: the writes that a finished tile's release covers are visible (R173). -/
def execTileComplete (i tile : Nat) (s : State) : Host.Outcome State Fault Refusal :=
  match s.launch i with
  | none => .next s
  | some l =>
    match l.releases.find? fun r => r.2.1 = tile && r.2.2.all fun a => (AMap.get? s.accesses a).isNone with
    | none => .next s
    | some r => .next (s.updLaunch i fun l => { s.completed l tile with releases := l.releases.erase r })

end Sys2Proof.Machine
end

