-- ==== Sys2Proof/Machine/Dispatch.lean ====
section
/-! DEFINITION. The meaning of each step: one arm per constructor of Instr. -/

namespace Sys2Proof.Machine

def exec (i : Instr) (s : State) : Host.Outcome State Fault Refusal :=
  match i with
  | .nop len => Sys2Proof.Machine.execNop len s
  | .br p t => Sys2Proof.Machine.execBr p t s
  | .brc c p k t => Sys2Proof.Machine.execBrc c p k t s
  | .call p t => Sys2Proof.Machine.execCall p t s
  | .calli p a => Sys2Proof.Machine.execCalli p a s
  | .callm p a b => Sys2Proof.Machine.execCallm p a b s
  | .ret => Sys2Proof.Machine.execRet s
  | .join => Sys2Proof.Machine.execJoin s
  | .exit p => Sys2Proof.Machine.execExit p s
  | .yield p => Sys2Proof.Machine.execYield p s
  | .ipf p lvl a b => Sys2Proof.Machine.execIpf p lvl a b s
  | .add u p ty x sat d a b => Sys2Proof.Machine.execAdd u p ty x sat d a b s
  | .sub u p ty sat d a b => Sys2Proof.Machine.execSub u p ty sat d a b s
  | .mul u p ty hi sat d a b => Sys2Proof.Machine.execMul u p ty hi sat d a b s
  | .mad u p ty sat d a b c => Sys2Proof.Machine.execMad u p ty sat d a b c s
  | .shl u p ty d a b => Sys2Proof.Machine.execShl u p ty d a b s
  | .shr u p ty d a b => Sys2Proof.Machine.execShr u p ty d a b s
  | .and u p ty d a b => Sys2Proof.Machine.execAnd u p ty d a b s
  | .or u p ty d a b => Sys2Proof.Machine.execOr u p ty d a b s
  | .xor u p ty d a b => Sys2Proof.Machine.execXor u p ty d a b s
  | .not u p ty d a => Sys2Proof.Machine.execNot u p ty d a s
  | .min u p ty d a b => Sys2Proof.Machine.execMin u p ty d a b s
  | .max u p ty d a b => Sys2Proof.Machine.execMax u p ty d a b s
  | .icmp u p ty c z d a b => Sys2Proof.Machine.execIcmp u p ty c z d a b s
  | .sel u p ty d a b m => Sys2Proof.Machine.execSel u p ty d a b m s
  | .mov u p ty tid d b => Sys2Proof.Machine.execMov u p ty tid d b s
  | .cnt u p ty op d a => Sys2Proof.Machine.execCnt u p ty op d a s
  | .fadd p ty rm d a b => Sys2Proof.Machine.execFadd p ty rm d a b s
  | .fsub p ty rm d a b => Sys2Proof.Machine.execFsub p ty rm d a b s
  | .fmul p ty rm d a b => Sys2Proof.Machine.execFmul p ty rm d a b s
  | .ffma p ty rm d a b c => Sys2Proof.Machine.execFfma p ty rm d a b c s
  | .fdiv p ty rm d a b => Sys2Proof.Machine.execFdiv p ty rm d a b s
  | .fsqrt p ty rm d a => Sys2Proof.Machine.execFsqrt p ty rm d a s
  | .frsq p ty rm d a => Sys2Proof.Machine.execFrsq p ty rm d a s
  | .fmin p ty d a b => Sys2Proof.Machine.execFmin p ty d a b s
  | .fmax p ty d a b => Sys2Proof.Machine.execFmax p ty d a b s
  | .fcmp p ty c z d a b => Sys2Proof.Machine.execFcmp p ty c z d a b s
  | .fdot4 p ty rm nc d a b c => Sys2Proof.Machine.execFdot4 p ty rm nc d a b c s
  | .fdot8 p ty rm nc d a b c => Sys2Proof.Machine.execFdot8 p ty rm nc d a b c s
  | .gsum p ty rm d a => Sys2Proof.Machine.execGsum p ty rm d a s
  | .fexp p ty rm d a => Sys2Proof.Machine.execFexp p ty rm d a s
  | .fexp2 p ty rm d a => Sys2Proof.Machine.execFexp2 p ty rm d a s
  | .fexpm1 p ty rm d a => Sys2Proof.Machine.execFexpm1 p ty rm d a s
  | .flog p ty rm d a => Sys2Proof.Machine.execFlog p ty rm d a s
  | .flog2 p ty rm d a => Sys2Proof.Machine.execFlog2 p ty rm d a s
  | .flog1p p ty rm d a => Sys2Proof.Machine.execFlog1p p ty rm d a s
  | .fsin p ty rm d a => Sys2Proof.Machine.execFsin p ty rm d a s
  | .fcos p ty rm d a => Sys2Proof.Machine.execFcos p ty rm d a s
  | .fsinpi p ty rm d a => Sys2Proof.Machine.execFsinpi p ty rm d a s
  | .fcospi p ty rm d a => Sys2Proof.Machine.execFcospi p ty rm d a s
  | .ftanh p ty rm d a => Sys2Proof.Machine.execFtanh p ty rm d a s
  | .fsigm p ty rm d a => Sys2Proof.Machine.execFsigm p ty rm d a s
  | .cvt p dt st rm sat d a => Sys2Proof.Machine.execCvt p dt st rm sat d a s
  | .qblk p dt st rm lim d a => Sys2Proof.Machine.execQblk p dt st rm lim d a s
  | .rngk p ty d a b => Sys2Proof.Machine.execRngk p ty d a b s
  | .xsel p ty op d a b => Sys2Proof.Machine.execXsel p ty op d a b s
  | .qswap p ty dir d a => Sys2Proof.Machine.execQswap p ty dir d a s
  | .qbcast p ty slot d a => Sys2Proof.Machine.execQbcast p ty slot d a s
  | .qdiff p ty rm y d a => Sys2Proof.Machine.execQdiff p ty rm y d a s
  | .ballot p d a => Sys2Proof.Machine.execBallot p d a s
  | .mop p op d a b => Sys2Proof.Machine.execMop p op d a b s
  | .mmov p op d a => Sys2Proof.Machine.execMmov p op d a s
  | .ldSh p ty n d a off => Sys2Proof.Machine.execLdSh p ty n d a off s
  | .stSh p ty n a off c => Sys2Proof.Machine.execStSh p ty n a off c s
  | .ldSp p ty n d a off => Sys2Proof.Machine.execLdSp p ty n d a off s
  | .stSp p ty n a off c => Sys2Proof.Machine.execStSp p ty n a off c s
  | .sld p ty n d a off => Sys2Proof.Machine.execSld p ty n d a off s
  | .sst p ty n a off c => Sys2Proof.Machine.execSst p ty n a off c s
  | .atom p op ty o sc d a off c => Sys2Proof.Machine.execAtom p op ty o sc d a off c s
  | .fence p kind sc => Sys2Proof.Machine.execFence p kind sc s
  | .cpin p scr o sc f a b c opt => Sys2Proof.Machine.execCpin p scr o sc f a b c opt s
  | .cpout p scr o sc f a b c opt => Sys2Proof.Machine.execCpout p scr o sc f a b c opt s
  | .cpgat p scr o sc f a b c opt => Sys2Proof.Machine.execCpgat p scr o sc f a b c opt s
  | .cpbp p o sc f a b c opt => Sys2Proof.Machine.execCpbp p o sc f a b c opt s
  | .cppeer p get o sc f a b c opt => Sys2Proof.Machine.execCppeer p get o sc f a b c opt s
  | .barv p d b => Sys2Proof.Machine.execBarv p d b s
  | .barxExp p b c => Sys2Proof.Machine.execBarxExp p b c s
  | .barxCfg p b c => Sys2Proof.Machine.execBarxCfg p b c s
  | .barxPh p d b => Sys2Proof.Machine.execBarxPh p d b s
  | .barw p a b => Sys2Proof.Machine.execBarw p a b s
  | .fetchw p d => Sys2Proof.Machine.execFetchw p d s
  | .spawn p a b => Sys2Proof.Machine.execSpawn p a b s
  | .tend => Sys2Proof.Machine.execTend s
  | .msetf p b => Sys2Proof.Machine.execMsetf p b s
  | .mma p rm t a b => Sys2Proof.Machine.execMma p rm t a b s
  | .macq p t => Sys2Proof.Machine.execMacq p t s
  | .mrel p t => Sys2Proof.Machine.execMrel p t s
  | .mldIn p scr ty acq sc t a b => Sys2Proof.Machine.execMldIn p scr ty acq sc t a b s
  | .mldOut p scr ty rel sc t a b => Sys2Proof.Machine.execMldOut p scr ty rel sc t a b s
  | .mdrn p ty sat d t b => Sys2Proof.Machine.execMdrn p ty sat d t b s
  | .mzero p ty t => Sys2Proof.Machine.execMzero p ty t s
  | .bld p ty n a off c => Sys2Proof.Machine.execBld p ty n a off c s
  | .sread p d num => Sys2Proof.Machine.execSread p d num s
  | .swrite p a num => Sys2Proof.Machine.execSwrite p a num s
  | .trap p b => Sys2Proof.Machine.execTrap p b s
  | .eret p => Sys2Proof.Machine.execEret p s
  | .bkpt p => Sys2Proof.Machine.execBkpt p s
  | .pmc p clear d b => Sys2Proof.Machine.execPmc p clear d b s
  | .instructionFetchFill core slot entry => Sys2Proof.Machine.execInstructionFetchFill core slot entry s
  | .issueSelect core port => Sys2Proof.Machine.execIssueSelect core port s
  | .priorityPromotion core slot => Sys2Proof.Machine.execPriorityPromotion core slot s
  | .tokenGrant => Sys2Proof.Machine.execTokenGrant s
  | .loadReply id => Sys2Proof.Machine.execLoadReply id s
  | .storePerform id => Sys2Proof.Machine.execStorePerform id s
  | .atomicAtHome id => Sys2Proof.Machine.execAtomicAtHome id s
  | .sidingAccept cluster => Sys2Proof.Machine.execSidingAccept cluster s
  | .wideUnitServe cluster => Sys2Proof.Machine.execWideUnitServe cluster s
  | .exactStageServe cluster => Sys2Proof.Machine.execExactStageServe cluster s
  | .arrayCommandStart core => Sys2Proof.Machine.execArrayCommandStart core s
  | .arrayCommandComplete core => Sys2Proof.Machine.execArrayCommandComplete core s
  | .bldPerform id => Sys2Proof.Machine.execBldPerform id s
  | .copyPreflight id remote => Sys2Proof.Machine.execCopyPreflight id remote s
  | .preflightReadinessTimeout id => Sys2Proof.Machine.execPreflightReadinessTimeout id s
  | .copyBytesLanded id peerData => Sys2Proof.Machine.execCopyBytesLanded id peerData s
  | .copyComplete id => Sys2Proof.Machine.execCopyComplete id s
  | .peerCountArrival ctx queue block bar put => Sys2Proof.Machine.execPeerCountArrival ctx queue block bar put s
  | .fetchwAnswer launch pick => Sys2Proof.Machine.execFetchwAnswer launch pick s
  | .tileComplete launch tile => Sys2Proof.Machine.execTileComplete launch tile s
  | .updateInstant launch => Sys2Proof.Machine.execUpdateInstant launch s
  | .infillWrite launch point => Sys2Proof.Machine.execInfillWrite launch point s
  | .coverageDone launch => Sys2Proof.Machine.execCoverageDone launch s
  | .claimAcquireRequest id set => Sys2Proof.Machine.execClaimAcquireRequest id set s
  | .woundTakesEffect core slot => Sys2Proof.Machine.execWoundTakesEffect core slot s
  | .rollback core slot => Sys2Proof.Machine.execRollback core slot s
  | .taskAbandon core slot => Sys2Proof.Machine.execTaskAbandon core slot s
  | .trapEntry core slot entry => Sys2Proof.Machine.execTrapEntry core slot entry s
  | .blockTerminate block cause => Sys2Proof.Machine.execBlockTerminate block cause s
  | .svcRetry core => Sys2Proof.Machine.execSvcRetry core s
  | .svcFail core => Sys2Proof.Machine.execSvcFail core s
  | .correctedError mainMem => Sys2Proof.Machine.execCorrectedError mainMem s
  | .uncorrectableError loc => Sys2Proof.Machine.execUncorrectableError loc s
  | .peerLinkDown port moved => Sys2Proof.Machine.execPeerLinkDown port moved s
  | .peerRetrain port ok => Sys2Proof.Machine.execPeerRetrain port ok s
  | .thermalTrip => Sys2Proof.Machine.execThermalTrip s
  | .thermalCooldown => Sys2Proof.Machine.execThermalCooldown s
  | .thermalHalt => Sys2Proof.Machine.execThermalHalt s
  | .functionReady bit => Sys2Proof.Machine.execFunctionReady bit s
  | .powerOn => Sys2Proof.Machine.execPowerOn s
  | .deviceReset a value => Sys2Proof.Machine.execDeviceReset a value s
  | .hostPortReset port => Sys2Proof.Machine.execHostPortReset port s
  | .hostPortLinkDown port => Sys2Proof.Machine.execHostPortLinkDown port s
  | .mgmtBindingDown => Sys2Proof.Machine.execMgmtBindingDown s
  | .semaphoreAcquire sem agents => Sys2Proof.Machine.execSemaphoreAcquire sem agents s
  | .semaphoreRelease sem a => Sys2Proof.Machine.execSemaphoreRelease sem a s
  | .mgmtRegisterRead req => Sys2Proof.Machine.execMgmtRegisterRead req s
  | .mgmtRegisterWrite req => Sys2Proof.Machine.execMgmtRegisterWrite req s
  | .pstateWrite a value => Sys2Proof.Machine.execPstateWrite a value s
  | .powerStateChangeDone => Sys2Proof.Machine.execPowerStateChangeDone s
  | .fuseAdvance a value => Sys2Proof.Machine.execFuseAdvance a value s
  | .deverrClear value => Sys2Proof.Machine.execDeverrClear value s
  | .uesrcClear value => Sys2Proof.Machine.execUesrcClear value s
  | .stoperrClear value => Sys2Proof.Machine.execStoperrClear value s
  | .semerrClear value => Sys2Proof.Machine.execSemerrClear value s
  | .pageAttributeWrite page part value => Sys2Proof.Machine.execPageAttributeWrite page part value s
  | .invalidatePage set ctx => Sys2Proof.Machine.execInvalidatePage set ctx s
  | .invalidateContext set ctx => Sys2Proof.Machine.execInvalidateContext set ctx s
  | .invalidateAll set => Sys2Proof.Machine.execInvalidateAll set s
  | .invalidateDone set => Sys2Proof.Machine.execInvalidateDone set s
  | .queueEnable q value => Sys2Proof.Machine.execQueueEnable q value s
  | .queueNotify q value => Sys2Proof.Machine.execQueueNotify q value s
  | .watchLogEnable value => Sys2Proof.Machine.execWatchLogEnable value s
  | .registerWrite offset value => Sys2Proof.Machine.execRegisterWrite offset value s
  | .seqwPoll q => Sys2Proof.Machine.execSeqwPoll q s
  | .seqwRetryTimer q => Sys2Proof.Machine.execSeqwRetryTimer q s
  | .firmwareStep core => Sys2Proof.Machine.execFirmwareStep core s
  | .noOp q => Sys2Proof.Machine.execNoOp q s
  | .tileLaunch q => Sys2Proof.Machine.execTileLaunch q s
  | .taskLaunch q => Sys2Proof.Machine.execTaskLaunch q s
  | .writeThenSignal q => Sys2Proof.Machine.execWriteThenSignal q s
  | .waitSignal q => Sys2Proof.Machine.execWaitSignal q s
  | .waitSignalPoll q => Sys2Proof.Machine.execWaitSignalPoll q s
  | .hostCopy q => Sys2Proof.Machine.execHostCopy q s
  | .hostCopyPieceDone q => Sys2Proof.Machine.execHostCopyPieceDone q s
  | .moduleLoad q => Sys2Proof.Machine.execModuleLoad q s
  | .moduleUnload q => Sys2Proof.Machine.execModuleUnload q s
  | .moduleUnloadDone q => Sys2Proof.Machine.execModuleUnloadDone q s
  | .manifestSnapshot q => Sys2Proof.Machine.execManifestSnapshot q s
  | .queueDestroy q => Sys2Proof.Machine.execQueueDestroy q s
  | .queueDestroyDone q => Sys2Proof.Machine.execQueueDestroyDone q s
  | .launchPlace => Sys2Proof.Machine.execLaunchPlace s
  | .launchComplete launch => Sys2Proof.Machine.execLaunchComplete launch s
  | .timeSliceExpiry ctx => Sys2Proof.Machine.execTimeSliceExpiry ctx s
  | .preemptContext ctx => Sys2Proof.Machine.execPreemptContext ctx s
  | .stopAck ctx e => Sys2Proof.Machine.execStopAck ctx e s
  | .stopTimeout ctx => Sys2Proof.Machine.execStopTimeout ctx s
  | .contextResume ctx => Sys2Proof.Machine.execContextResume ctx s
  | .debugHalt ctx => Sys2Proof.Machine.execDebugHalt ctx s
  | .debugHaltDrain ctx => Sys2Proof.Machine.execDebugHaltDrain ctx s
  | .debugResume ctx => Sys2Proof.Machine.execDebugResume ctx s
  | .debugHaltDone ctx => Sys2Proof.Machine.execDebugHaltDone ctx s
  | .requestFirmwareData comp offset data => Sys2Proof.Machine.execRequestFirmwareData comp offset data s
  | .activateFirmware => Sys2Proof.Machine.execActivateFirmware s
  | .activateSemfwuTimeout => Sys2Proof.Machine.execActivateSemfwuTimeout s
  | .bootReadyTimeout => Sys2Proof.Machine.execBootReadyTimeout s
  | .peerCopyRequest ctx get addr data => Sys2Proof.Machine.execPeerCopyRequest ctx get addr data s

end Sys2Proof.Machine
end

