-- ==== Sys2Proof/Machine/Run.lean ====
section
/-! DEFINITION. What one step does: the unit in the issue slot fetches, decodes and issues; with the slot free, the next event of the
agenda comes to pass; with the agenda empty, the first event that may. -/

namespace Sys2Proof.Machine

/-- A port holds an instruction, and what it holds it for stands. -/
def State.portBlocked (s : State) (port : Nat) : Option HoldKind :=
  (s.heldUnit port).bind fun q => if s.holdStands (port / 8) q.2.2 then some q.2.2 else none

/-- The port of a group cannot issue for a reason outside its groups (R53, R83, R281, R297): a power-state change, a serviceable fault of the
core, the stop or halt of the context, an instruction that the port holds. -/
def State.barred (s : State) (grp : Nat) (g : Group) : Bool :=
  s.psChange.isSome || (AMap.get? s.svc (coreOf grp)).isSome || (s.context g.ctx).stop.isSome || s.ctxStat g.ctx = 4 ||
    (s.portBlocked (grp / 64)).isSome

/-- Counters raised, each by a number of its own. -/
def addCounts (m : SMap 64) (l : List (Nat × Nat)) : SMap 64 :=
  l.foldl (fun m q => if q.2 = 0 then m else SMap.set m q.1 (SMap.get m q.1 + BitVec.ofNat 64 q.2)) m

/-- What a clock adds to the counters of the cores: what it adds for each group, and counter 7 where a port withholds issue under R83. -/
def State.coreAdds (s : State) : List (Nat × Nat) :=
  (s.groups.flatMap fun q => clockCounters.map fun n => (32 * coreOf q.1 + n, s.clockAdds q.1 q.2 n)) ++
    (((s.portHeld.map Prod.fst).filter fun p => s.portBlocked p = some .buffer).map fun p => 32 * (p / 8) + 7).eraseDups.map fun i => (i, 1)

/-- A clock passes (log 4): it is counted for a group unless its port cannot issue (R53), and the counters that rise by clocks rise, a group's
from its first issue on (R246). -/
def State.tick (s : State) : State :=
  { s with
    clk := s.clk + 1
    corePmc := addCounts s.corePmc s.coreAdds
    groups := AMap.mapV s.groups fun k g =>
      { g with
        lost := if s.barred k g then g.lost + 1 else g.lost
        pmc := if g.first.isSome then addCounts g.pmc (clockCounters.map fun n => (n, s.clockAdds k g n)) else g.pmc } }

/-- The machine stops where the W1 itself wrote to an address that nothing backs. -/
def guardWrite (o : Host.Outcome State Fault Refusal) : Host.Outcome State Fault Refusal :=
  match o with
  | .next s => match s.badWrite with
    | some a => .fault (.unbackedAddress a)
    | none => .next s
  | o => o

/-- The lanes that wait on words see what has been written to them (R152). -/
def wakeLanes (before : Memory) (o : Host.Outcome State Fault Refusal) : Host.Outcome State Fault Refusal :=
  match o with
  | .next s => .next (s.wakeWaits before)
  | o => o

/-- The unit in the issue slot: what stands at its program counter is entered, passed over, trapped or carried out. -/
def issueStep (c : Cur) (s : State) : Host.Outcome State Fault Refusal :=
  match s.l0Block c.u.grp c.g c.e with
  | none => .next { s with sel := none }
  | some b =>
    match decodeAt b (c.u.pc.toNat % 32) with
    | .header h => .next (s.enterClause c h)
    | .tail => .next (if c.e.target then s.badTarget c else s.skipTail c)
    | .bad n => .next (s.badWord c b n)
    | .resv i _ => .next (s.badWord c b (if c.encodingOk s i then 7 else 6))
    | .instr i n =>
      if c.e.target then .next (if c.encodingOk s i then s.badTarget c else s.badWord c b 6)
      else exec i { s with sel := some { c.u with npc := c.u.pc + BitVec.ofNat 64 n } }

/-- What an event may have brought about is tried again: the units that left the slot may be selected, unless the event only selects. -/
def State.recall (s : State) (e : Instr) : State :=
  match e with
  | .issueSelect .. => s
  | _ => { s with declined := [] }

/-- An event changes the state. -/
def State.happens (s : State) (e : Instr) : Bool :=
  match exec e s with
  | .next s' => s' != s
  | _ => true

/-- One step (log 5): a clock passes, then the issue slot, the agenda or the first event that changes the state. -/
def runStep (s : State) : Host.Outcome State Fault Refusal :=
  guardWrite <| wakeLanes s.mem <|
    match s.tick.sel with
    | some _ =>
      match s.tick.cur with
      | some c => issueStep c s.tick
      | none => .next { s.tick with sel := none }
    | none =>
      match s.tick.agenda with
      | e :: r => exec e { s.tick.recall e with agenda := r }
      | [] =>
        match s.tick.candidates.find? s.tick.happens with
        | some e => exec e (s.tick.recall e)
        | none => .next s.tick

end Sys2Proof.Machine
end

