-- ==== Sys2Proof/Safety.lean ====
section
/-! DEFINITION. What a safe run is, and the terms in which statements are made: the instruction that stands before the selected unit, what
an issued instruction changes beside its own effect, lane and uniform results, and the invariants of the machine. -/

namespace Sys2Proof.Safety

/-- The step at a state answers a next state. -/
def Goes (s : Machine.State) : Prop := ∃ t, Machine.step s = .next t

/-- k steps from a state all go: no step of them stops, by a fault or by a refusal. -/
def SafeFor : Nat → Machine.State → Prop
  | 0, _ => True
  | k + 1, s => ∃ t, Machine.step s = .next t ∧ SafeFor k t

end Sys2Proof.Safety

namespace Sys2Proof.Machine

/-! ## The selected unit and its instruction -/

/-- Instruction i stands before the selected unit c (R52): it is an instruction of the encoding, and it names only registers and tiles that
its group and its launch have (condition 6 of R226). -/
structure Stands (s : State) (c : Cur) (i : Instr) : Prop where
  cur : s.cur = some c
  wf : i.wellFormed = true
  enc : c.encodingOk s i = true

/-- The unit's entry after its instruction has issued: it stands at the instruction that follows, and no wait mask applies (R206, R210). -/
def Cur.goneOn (c : Cur) : Entry := { c.e with pc := c.u.npc, wait := 0, resumed := false }

/-- What the issue of an instruction changes beside the instruction's own effect (R52, R53, R131, R246): the port remembers the group and holds
no instruction any more, the group and its core count the instruction, the group's counted clocks begin with its first issue, its promotion ends, and the issue slot is
free. s is the machine with the instruction's effect beyond its group; g is the group with the instruction's effect on it; e is the unit's
entry as it goes on. No other entry and no other group changes. -/
structure Issued (s t : State) (c : Cur) (g : Group) (e : Entry) : Prop where
  rest : t = { s with
    groups := t.groups, sel := none, declined := [], lastGroup := AMap.set s.lastGroup (c.u.grp / 64) c.u.grp, known := c.knows s
    portHeld := AMap.del s.portHeld (c.u.grp / 64)
    corePmc := SMap.set s.corePmc (32 * coreOf c.u.grp + 1) (SMap.get s.corePmc (32 * coreOf c.u.grp + 1) + 1) }
  others : ∀ k, k ≠ c.u.grp → t.group k = s.group k
  own : ∃ es, t.group c.u.grp = some { g with
      entries := es, pmc := SMap.set g.pmc 1 (SMap.get g.pmc 1 + 1), lastIssue := s.clk.toNat, promoted := false
      lastEntry := c.u.entry, first := some (g.first.getD s.clk.toNat), lost := if g.first.isNone then 0 else g.lost
      lostAt := if g.first.isNone then 0 else g.lost } ∧
    AMap.get? es c.u.entry = some e ∧ ∀ j, j ≠ c.u.entry → AMap.get? es j = g.entry j

/-- A clock has passed (log 4): it is not counted for a group whose port cannot issue for a reason outside its groups, a power-state
change, a serviceable fault of its core, the stop or halt of its context, an instruction that the port holds (R53). From its first issue on a
group counts on its counters 2, 3, 9 and 10 what the clock adds (R246, log 67); of its core's counters, at most those and 7 rise. -/
structure Ticked (s u : State) : Prop where
  rest : u = { s with clk := s.clk + 1, groups := u.groups, corePmc := u.corePmc }
  none : ∀ k, s.group k = none → u.group k = none
  groups : ∀ k g, s.group k = some g → ∃ m, u.group k = some { g with
      pmc := m
      lost := g.lost + if s.psChange.isSome || (AMap.get? s.svc (k / 512)).isSome || (s.context g.ctx).stop.isSome || s.ctxStat g.ctx == 4 ||
        (s.portBlocked (k / 64)).isSome then 1 else 0 } ∧
    ∀ n, SMap.get m n = SMap.get g.pmc n + if g.first.isSome then BitVec.ofNat 64 (s.clockAdds k g n) else 0
  cores : ∀ k n, n < 32 → n ∉ [2, 3, 7, 9, 10] → SMap.get u.corePmc (32 * k + n) = SMap.get s.corePmc (32 * k + n)

/-- The port holds the selected unit's instruction for h (R83, R281, R297, log 28): the unit leaves the slot, and nothing else changes but that,
where the port held no instruction before, the clock is not counted for its groups, and under R83 the core counts it on counter 7. -/
structure Withheld (s t : State) (c : Cur) (h : HoldKind) : Prop where
  rest : t = { s with
    sel := none, declined := (c.u.grp, c.u.entry) :: s.declined, groups := t.groups, corePmc := t.corePmc
    portHeld := AMap.set s.portHeld (c.u.grp / 64) (c.u.grp, c.u.entry, h) }
  groups : ∀ k, t.group k = (s.group k).map fun g =>
    if k / 64 = c.u.grp / 64 && (AMap.get? s.portHeld (c.u.grp / 64)).isNone then { g with lost := g.lost + 1 } else g
  counted : ∀ n, SMap.get t.corePmc n = SMap.get s.corePmc n +
    if n = 32 * coreOf c.u.grp + 7 ∧ h = .buffer ∧ AMap.get? s.portHeld (c.u.grp / 64) = none then 1 else 0

/-- Instruction i completes: it changes the group of its unit to one that g describes, and nothing else but what every issue changes. -/
def Completes (s : State) (c : Cur) (i : Instr) (g : Group → Prop) : Prop :=
  ∃ t g', exec i s = .next t ∧ Issued s t c g' c.goneOn ∧ g g'

/-! ## Results -/

/-- Group g' is group g but for a lane result: each thread of T holds its value in register d (in the pair d, d + 1 where the type is
wide); every other register of every thread keeps its value. -/
structure LaneWritten (g g' : Group) (T : Word) (wide : Bool) (d : Nat) (f : Nat → Dword) : Prop where
  rest : g' = { g with v := g'.v }
  low : ∀ th, th < 32 → T.getLsbD th = true → g'.vget th d = (f th).extractLsb' 0 32
  high : wide = true → ∀ th, th < 32 → T.getLsbD th = true → g'.vget th (d + 1) = (f th).extractLsb' 32 32
  other : ∀ th n, th < 32 → n < 256 → ¬(T.getLsbD th = true ∧ (n = d ∨ (wide = true ∧ n = d + 1))) → g'.vget th n = g.vget th n

/-- A lane instruction completes: the value of each active thread (R216) is as ok says. -/
def CompletesLane (s : State) (c : Cur) (i : Instr) (p : Pred) (wide : Bool) (d : Reg) (ok : Nat → Dword → Prop) : Prop :=
  Completes s c i fun g => ∃ f, LaneWritten c.g g (c.act p) wide d.toNat f ∧
    ∀ th, th < 32 → (c.act p).getLsbD th = true → ok th (f th)

/-- Group g' is group g but for a run of n lane registers from register d: each thread of T holds f's words there. -/
structure RunWritten (g g' : Group) (T : Word) (n d : Nat) (f : Nat → Nat → Word) : Prop where
  rest : g' = { g with v := g'.v }
  run : ∀ th j, th < 32 → T.getLsbD th = true → j < n → g'.vget th (d + j) = f th j
  other : ∀ th m, th < 32 → m < 256 → ¬(T.getLsbD th = true ∧ d ≤ m ∧ m < d + n) → g'.vget th m = g.vget th m

/-- Group g' is group g but for uniform register d, which holds x. -/
def UniWritten (g g' : Group) (d : Nat) (x : Dword) : Prop :=
  g' = { g with k := g'.k } ∧ ∀ n, g'.kget n = if n = d then x else g.kget n

/-- Group g' is group g but for mask register d, which holds x; m0 reads all ones (Table 0.2). -/
def MaskWritten (g g' : Group) (d : Nat) (x : Word) : Prop :=
  g' = { g with m := g'.m } ∧ ∀ n, g'.mget n = if n = d then x else g.mget n

/-- An instruction with one effect for the unit completes: it has the effect where some thread is active, and none otherwise (R216). -/
def CompletesOnce (s : State) (c : Cur) (i : Instr) (p : Pred) (g : Group → Prop) : Prop :=
  Completes s c i fun g' => if c.act p = 0 then g' = c.g else g g'

/-! ## Numbers (R56, R60, R63) -/

/-- k is the exact magnitude n / d of a number of a sign, rounded to an integer in a mode of Table 3.3. -/
def RoundsTo (mode : RMode) (neg : Bool) (n d k : Nat) : Prop :=
  let down := k * d ≤ n ∧ n < k * d + d
  let up := n ≤ k * d ∧ k * d < n + d
  let near := 2 * k * d ≤ 2 * n + d ∧ 2 * n ≤ 2 * k * d + d
  match mode with
  | .rne => near ∧ (2 * k * d = 2 * n + d ∨ 2 * n = 2 * k * d + d → k % 2 = 0)
  | .rna => near ∧ 2 * n ≠ 2 * k * d + d
  | .rtz => down
  | .rup => if neg then down else up
  | .rdn => if neg then up else down

/-- k is the square root of n / d rounded to an integer. -/
def RoundsToRoot (mode : RMode) (n d k : Nat) : Prop :=
  let down := k * k * d ≤ n ∧ n < (k + 1) * (k + 1) * d
  let up := n ≤ k * k * d ∧ (k = 0 ∨ (k - 1) * (k - 1) * d < n)
  let near := (k = 0 ∨ (2 * k - 1) * (2 * k - 1) * d ≤ 4 * n) ∧ 4 * n ≤ (2 * k + 1) * (2 * k + 1) * d
  match mode with
  | .rne | .rna => near
  | .rtz | .rdn => down
  | .rup => up

/-- MaxFinite of Table 3.1 in units of the format's smallest subnormal. -/
def maxUnits (f : Fmt) : Nat :=
  if f.infs then (2 ^ (f.mbits + 1) - 1) * 2 ^ (2 ^ f.ebits - 3) else (2 ^ (f.mbits + 1) - 2) * 2 ^ (2 ^ f.ebits - 2)

/-- A value is a finite number; x is its number of units 2^lo, where it is a multiple of them. -/
def Units (lo : Int) (v : FVal) (x : Int) : Prop :=
  match v with
  | .zero _ => x = 0
  | .fin n m e => lo ≤ e ∧ x = (if n then -1 else 1) * (m * 2 ^ (e - lo).toNat : Nat)
  | _ => False

/-- a < b for values that are no NaN; zeros of either sign are equal, and the infinities lie outside every number. -/
def ValueLess (a b : FVal) : Prop :=
  match a, b with
  | .nan, _ | _, .nan => False
  | .inf n, y => n = true ∧ y ≠ .inf true
  | x, .inf n => n = false ∧ x ≠ .inf false
  | x, y => ∃ lo i j, Units lo x i ∧ Units lo y j ∧ i < j

/-- r holds the number x in the form that R57 gives a result of integer type ty. -/
def HoldsNarrow (ty : Ty) (x : Int) (r : Dword) : Prop :=
  match ty with
  | .i64 => r.toInt = x
  | .i8 | .i16 | .i32 => (r.extractLsb' 0 32).toInt = x ∧ r.extractLsb' 32 32 = 0
  | _ => (r.toNat : Int) = x

/-! ## Integers (R228, R229) -/

/-- r holds the exact value x in the form of type ty: clamped to the range of ty where sat is set, else modulo 2^w. -/
def HoldsInt (ty : Ty) (sat : Bool) (x : Int) (r : Dword) : Prop :=
  r.toNat < 2 ^ Ty.bits32 ty ∧
    if sat then intVal ty r = max (intMin ty) (min x (intMax ty)) else ((r.toNat : Int) - x) % 2 ^ Ty.bits32 ty = 0

/-- The low w bits of r are those that b says, and the others are 0. -/
def HoldsBits (ty : Ty) (b : Nat → Bool) (r : Dword) : Prop := ∀ i, r.getLsbD i = (decide (i < Ty.bits32 ty) && b i)

/-- Uniform register values (R217): a 64-bit result, or a 32-bit result extended, with its sign under i32. -/
def UniForm (ty : Ty) (r x : Dword) : Prop := x = if ty = .i32 then (r.extractLsb' 0 32).signExtend 64 else r

/-- Group g' is group g but for uniform register d, which holds a w-bit result of type ty for which ok says so, extended to 64 bits. -/
def UniResult (g g' : Group) (ty : Ty) (d : Reg) (ok : Dword → Prop) : Prop :=
  ∃ r x, ok r ∧ UniForm ty r x ∧ UniWritten g g' d.toNat x

/-- Operand a or c, and operand b, of a thread as integers of type ty (R228). -/
def Cur.intA (c : Cur) (ty : Ty) (th : Nat) (a : Reg) : Int := intVal ty (c.srcA false ty th a)
def Cur.intB (c : Cur) (ty : Ty) (th : Nat) (b : OpB) : Int := intVal ty (c.srcB ty th b)

/-- r holds what `cnt` gives for the w bits of x (Table 12.1): how many are 1, how many zeros stand before the first 1 from the top or from
the bottom (w where there is none), or the bits in reverse order. -/
def CountOf (ty : Ty) (op : CntOp) (x r : Dword) : Prop :=
  let w := Ty.bits32 ty
  match op with
  | .pop => r.toNat = ((List.range w).filter fun i => x.getLsbD i).length
  | .lz => r.toNat ≤ w ∧ (∀ i, i < r.toNat → x.getLsbD (w - 1 - i) = false) ∧ (r.toNat < w → x.getLsbD (w - 1 - r.toNat) = true)
  | .tz => r.toNat ≤ w ∧ (∀ i, i < r.toNat → x.getLsbD i = false) ∧ (r.toNat < w → x.getLsbD r.toNat = true)
  | .rev => HoldsBits ty (fun i => x.getLsbD (w - 1 - i)) r

/-! ## Results that may escalate (R62, R76, R82, R83) -/

/-- A thread's result has landed: register d of thread th (the pair where wide) holds its bits. -/
def Landed (g : Group) (wide : Bool) (th : Nat) (d : Nat) (x : Dword) : Prop :=
  g.vget th d = x.extractLsb' 0 32 ∧ (wide = true → g.vget th (d + 1) = x.extractLsb' 32 32)

/-- A thread's result has escalated: an entry that is new in t and waits in the escalation buffer holds its landing bits and names its
register (Table 4.4). -/
def Escalated (s t : State) (c : Cur) (wide : Bool) (th : Nat) (d : Reg) (x : Dword) : Prop :=
  ∃ id q, s.nextId ≤ id ∧ id < t.nextId ∧ AMap.get? t.parked id = some q ∧ q.dest = .reg c.u.grp th d wide ∧ q.value = x ∧
    q.grp = c.u.grp ∧ q.block = c.g.block ∧ q.core = coreOf c.u.grp ∧ q.buffered = true

/-- A lane instruction whose results may escalate has issued: each active thread's result r has landed or has escalated, and then its
register still holds what it held; a tiny f32 or f64 result and one that the fast unit's test fails escalate, and one that passes the test
and is not tiny lands. Beside the results only counters, the escalation buffer and what every issue changes are different. -/
structure FloatIssued (s t : State) (c : Cur) (p : Pred) (wide : Bool) (d : Reg) (r : Nat → LaneRes) : Prop where
  rest : t = { s with
    groups := t.groups, parked := t.parked, nextId := t.nextId, free := t.free, corePmc := t.corePmc, sel := none, declined := []
    known := c.knows s, lastGroup := AMap.set s.lastGroup (c.u.grp / 64) c.u.grp, portHeld := AMap.del s.portHeld (c.u.grp / 64) }
  others : ∀ k, k ≠ c.u.grp → t.group k = s.group k
  kept : ∀ id, id < s.nextId → AMap.get? t.parked id = AMap.get? s.parked id
  own : ∃ g', t.group c.u.grp = some g' ∧
    g' = { c.g with
      v := g'.v, entries := g'.entries, pmc := g'.pmc, lastIssue := s.clk.toNat, promoted := false, lastEntry := c.u.entry
      first := g'.first, lost := g'.lost, lostAt := g'.lostAt } ∧
    g'.entry c.u.entry = some c.goneOn ∧ (∀ j, j ≠ c.u.entry → g'.entry j = c.g.entry j) ∧
    (∀ th, th < 32 → (c.act p).getLsbD th = true →
      (Landed g' wide th d.toNat (r th).bits ∧ (r th).tiny = false ∧ (r th).fast ≠ some true) ∨
        (Escalated s t c wide th d (r th).bits ∧ ((r th).tiny = true ∨ (r th).fast ≠ some false) ∧
          g'.vget th d.toNat = c.g.vget th d.toNat ∧ (wide = true → g'.vget th (d.toNat + 1) = c.g.vget th (d.toNat + 1)))) ∧
    ∀ th n, th < 32 → n < 256 → ¬((c.act p).getLsbD th = true ∧ (n = d.toNat ∨ (wide = true ∧ n = d.toNat + 1))) →
      g'.vget th n = c.g.vget th n

/-- A lane instruction whose results may escalate completes, with results that are as ok says: at once where it can have none that escalates,
else while at least 32 entries of its core's escalation buffer are free (R83). -/
def CompletesFloat (s : State) (c : Cur) (i : Instr) (p : Pred) (wide : Bool) (d : Reg) (may : Bool) (ok : Nat → LaneRes → Prop) : Prop :=
  (may = true → s.bufferRoom (coreOf c.u.grp) = true) →
    ∃ t r, exec i s = .next t ∧ FloatIssued s t c p wide d r ∧ ∀ th, th < 32 → (c.act p).getLsbD th = true → ok th (r th)

/-- A result that is rounded once from an exact value (R63, R64), and escalates only as a tiny f32 or f64 result (R62, R75). -/
def RoundedFrom (ty : Ty) (rm : RMode) (x : FVal) (r : LaneRes) : Prop :=
  r.bits = BitVec.ofNat 64 (roundTo (fmtOf ty) rm false x) ∧ r.fast = some false ∧
    (r.tiny = true ↔ (ty = .f32 ∨ ty = .f64) ∧ tinyIn (fmtOf ty) rm x = true)

/-! ## Memory -/

/-- An access has issued: it is in flight under the next number; the group has counted it on f8 where it is counted (R211), holds the words
allotted to it (R370), and its unit goes on, or waits for the sets that the access must acquire (R188). Nothing is read or written yet. -/
structure AccessIssued (s t : State) (c : Cur) (a : Access) (words : List Nat) : Prop where
  rest : t = { s with
    accesses := AMap.set s.accesses s.nextId a, nextId := s.nextId + 1, groups := t.groups, sel := none, declined := []
    known := c.knows s, lastGroup := AMap.set s.lastGroup (c.u.grp / 64) c.u.grp, corePmc := t.corePmc
    portHeld := AMap.del s.portHeld (c.u.grp / 64) }
  others : ∀ k, k ≠ c.u.grp → t.group k = s.group k
  own : ∃ g', t.group c.u.grp = some g' ∧
    g' = { c.g with
      allotted := c.g.allotted ++ words, flags := if a.counted then c.g.flags &&& ~~~256 else c.g.flags
      cnts := if a.counted then AMap.set c.g.cnts 8 (c.g.cnt 8 + 1) else c.g.cnts
      entries := g'.entries, pmc := g'.pmc, lastIssue := s.clk.toNat, promoted := false, lastEntry := c.u.entry
      first := g'.first, lost := g'.lost, lostAt := g'.lostAt } ∧
    g'.entry c.u.entry = some (if a.need = [] then c.goneOn else { c.goneOn with st := .atClaim s.nextId }) ∧
    ∀ j, j ≠ c.u.entry → g'.entry j = c.g.entry j

/-- What an access that the selected unit issues says of its issue. -/
structure IssuedBy (s : State) (c : Cur) (p : Pred) (a : Access) (kind : AccessKind) (n : Nat) : Prop where
  kind : a.kind = kind
  width : a.n = n
  unit : a.grp = c.u.grp ∧ a.unit = c.act p ∧ a.core = coreOf c.u.grp ∧ a.pc = c.u.pc

/-- The active threads of an instruction, helper threads left out where it writes (R38). -/
def Cur.takesPart (c : Cur) (p : Pred) (writes : Bool) (th : Nat) : Bool :=
  (c.act p).getLsbD th && !(writes && c.g.helper.getLsbD th)

/-- The lanes of an access are those of the threads that take part, in ascending order, each at the cell of its address. -/
def LanesAt (c : Cur) (p : Pred) (writes : Bool) (a : Access) (cell : Nat → Nat) : Prop :=
  a.lanes.map (·.thr) = (List.range 32).filter (c.takesPart p writes) ∧ ∀ l ∈ a.lanes, l.cell = cell l.thr

/-- Each lane holds the low n bytes of its thread's run from register r (R271). -/
def LanesHold (c : Cur) (a : Access) (r : Reg) (n : Nat) : Prop :=
  ∀ l ∈ a.lanes, (∀ i, i < n → l.data.extractLsb' (8 * i) 8 = (c.g.vget l.thr (r.toNat + i / 4)).extractLsb' (8 * (i % 4)) 8) ∧
    l.data.toNat < 2 ^ (8 * n)

/-- The access in flight leaves: what waited for it, a tile's release too, no longer does. -/
structure LeftFlight (s t : State) (id : Nat) : Prop where
  gone : AMap.get? t.accesses id = none
  others : ∀ k, k ≠ id → AMap.get? t.accesses k = AMap.get? s.accesses k
  launches : ∀ k, t.launch k = (s.launch k).map fun l =>
    { l with releases := l.releases.map fun r => (r.1, r.2.1, r.2.2.filter (· != id)) }

/-- A unit's entry once the loads and atomics for which it waits at a fence that orders no store before a later load are performed: the fence
has acquired (R125). -/
def Entry.early (s : State) (e : Entry) : Entry :=
  match e.st with
  | .atFence ids near cum (some _) true =>
    if ids.all fun i => (AMap.get? s.accesses i).elim true fun x => x.kind.isStore then { e with st := .atFence ids near cum none true } else e
  | _ => e

/-- The bytes of a run of cells. -/
def CellsHold (s : State) (cell n : Nat) (b : Nat → Byte) : Prop := ∀ i, i < n → SMap.get s.mem (cell + i) = b i

/-! ## Control -/

/-- A call of the selected unit may be made: its push stays in the spill stack, and entries are spilled only where 16 are on chip (R236,
R247). -/
structure CallReady (c : Cur) : Prop where
  room : c.g.rasFull = false
  chip : c.g.ras.length ≤ 16 ∧ (c.g.ras.length < 16 → c.g.spilled = 0)

/-- The group's accesses to its spill stack have been performed (R121, R273), with group g0 as they leave it: none is in flight any more, and
where there was none nothing has changed. -/
structure SpillDone (s u : State) (grp : Nat) (g g0 : Group) : Prop where
  state : u = s.flushSpill grp
  group : u.group grp = some g0
  others : ∀ k, k ≠ grp → u.group k = s.group k
  done : ∀ q ∈ u.accesses, q.2.grp = grp → q.2.onSpill = false
  quiet : (∀ q ∈ s.accesses, q.2.grp = grp → q.2.onSpill = false) → u = s
  kept : g0.entries = g.entries ∧ g0.ras = g.ras ∧ g0.spilled = g.spilled ∧ g0.spBase = g.spBase ∧ g0.spSize = g.spSize ∧ g0.first = g.first

/-- The threads of some units. -/
def threadsOf (l : List (Nat × Entry)) : Word := l.foldl (fun m q => m ||| q.2.mask) 0

/-- The group's return-address stack stands as calls leave it, its oldest entries in the spill stack, to which no access is outstanding. -/
structure StackReady (s : State) (c : Cur) : Prop where
  quiet : ∀ x ∈ s.accesses, x.2.grp = c.u.grp → x.2.onSpill = false
  chip : c.g.ras.length ≤ 16 ∧ (c.g.ras.length < 16 → c.g.spilled = 0)
  room : 16 * c.g.spilled ≤ c.g.spSize

/-- The units of a group: its entries that are no parents. -/
def Group.units (g : Group) : List (Nat × Entry) := g.entries.filter fun q => decide (q.2.st ≠ .parent)

/-- The group has split, in one level or more, below its entry 0, which is d: every parent has children, each entry but d is a child of a
parent, and no entry descends from itself. The selected unit is one of its units. -/
structure SplitGroup (c : Cur) (d : Entry) : Prop where
  order : (c.g.entries.map Prod.fst).Pairwise (· < ·) ∧ ∀ q ∈ c.g.entries, q.1 < 64
  root : c.g.entry 0 = some d ∧ d.st = .parent ∧ d.parent = none
  below : ∀ q ∈ c.g.entries, q.1 ≠ 0 → ∃ p x, q.2.parent = some p ∧ c.g.entry p = some x ∧ x.st = .parent
  ranked : ∃ f : Nat → Nat, ∀ q ∈ c.g.entries, ∀ p, q.2.parent = some p → f p < f q.1
  full : ∀ q ∈ c.g.entries, q.2.st = .parent → c.g.children q.1 ≠ []
  units : ∀ q ∈ c.g.units, q.2.mask ≠ 0
  own : (c.u.entry, c.e) ∈ c.g.units ∧ c.e.pc = c.u.pc

/-- A call has pushed r, once the accesses to the spill stack were performed, which left state u and group g0: the whole stack is r above the
old one, and in memory only the 16 bytes of the entry that the push spills have changed, where it spills one. -/
structure Pushed (u t : State) (c : Cur) (g0 g' : Group) (r : RasEntry) : Prop where
  rest : t = { u with
    groups := t.groups, mem := t.mem, poison := t.poison, sel := none, declined := [], known := c.knows u
    lastGroup := AMap.set u.lastGroup (c.u.grp / 64) c.u.grp, corePmc := t.corePmc, portHeld := AMap.del u.portHeld (c.u.grp / 64) }
  others : ∀ k, k ≠ c.u.grp → t.group k = u.group k
  own : t.group c.u.grp = some g' ∧ g' = { g0 with
    entries := g'.entries, ras := g'.ras, spilled := g'.spilled, pmc := g'.pmc, lastIssue := u.clk.toNat, promoted := false
    lastEntry := c.u.entry, first := g'.first, lost := g'.lost, lostAt := g'.lostAt }
  stack : t.ras c.u.grp g' = r :: u.ras c.u.grp g0
  chip : g0.ras.length < 16 → t.mem = u.mem
  memory : ∀ a, let cell := cellSpill (coreOf c.u.grp) (g0.spBase + g0.spSize - 16 * (g0.spilled + 1))
    ¬(cell ≤ a ∧ a < cell + 16) → SMap.get t.mem a = SMap.get u.mem a

/-- The whole unit has gone to an address that must hold a clause header. -/
def Cur.goneTo (c : Cur) (target : Dword) : Entry := { c.e with pc := target, target := true, wait := 0 }

/-- The entry of Table 12.4 that a call of the selected unit pushes. -/
def Cur.returnEntry (c : Cur) (kind : Byte) : RasEntry :=
  { modid := c.e.mod, kind := kind, entry := BitVec.ofNat 8 c.u.entry, mask := c.e.mask, retpc := c.u.pc - c.u.pc % 32 + 32 }

/-! ## Traps (R345, R346) -/

/-- The trap state that Table 19.3 lays out for record r, taken by unit e of group number grp. -/
structure TrapStateOf (s : State) (grp : Nat) (g : Group) (e : Entry) (r : TrapRec) (t : TrapState) : Prop where
  tcause : t.tcause.extractLsb' 0 8 = r.cause ∧ t.tcause.extractLsb' 8 8 = r.sub ∧ t.tcause.extractLsb' 16 16 = r.code ∧
    t.tcause.extractLsb' 32 32 = 0
  tpc : t.tpc = r.pc
  tresume : t.tresume = e.pc
  tmask : t.tmask.extractLsb' 32 32 = e.mask ∧ t.tmask.extractLsb' 0 32 = r.thr &&& g.unexited
  taddr : t.taddr = r.addr
  tinfo : t.tinfo.extractLsb' 0 8 = r.info ∧ t.tinfo.extractLsb' 8 16 = e.mod ∧
    t.tinfo.getLsbD 24 = e.clause.seta.isSome ∧ t.tinfo.extractLsb' 25 4 = e.clause.seta.getD 0 ∧
    t.tinfo.getLsbD 29 = e.clause.setb.isSome ∧ t.tinfo.extractLsb' 30 4 = e.clause.setb.getD 0 ∧
    t.tinfo.extractLsb' 34 12 = e.wait &&& ~~~g.flags ∧ t.tinfo.extractLsb' 46 18 = 0
  tpend : ∀ n, n < 256 → t.tpend.getLsbD n = s.pendV grp n
  tpendt : ∀ n, n < 64 → (t.tpendt.getLsbD n = true ↔ n < 32 ∧ ∃ x, s.tileOfName grp n = some x ∧ s.pendTile x = true)
  tovf : t.tovf = r.ovf

/-- Unit i of a group enters the handler of its launch with record r: the trap state and k63 are written, and it goes on at the handler's
clause header. No lane register, flag, other uniform register, other unit or other group changes. -/
structure HandlerEntered (s t : State) (grp i : Nat) (g : Group) (e : Entry) (l : Launch) (r : TrapRec) : Prop where
  rest : t = { s with
    groups := t.groups, sel := t.sel, tokens := s.tokens.filter (· != (grp, i))
    tokenReqs := s.tokenReqs.filter fun q => !(q.1 = grp && q.2 = i) }
  others : ∀ k, k ≠ grp → t.group k = s.group k
  own : ∃ g', t.group grp = some g' ∧ g' = { g with trap := g'.trap, k := g'.k, entries := g'.entries } ∧
    TrapStateOf s grp g e r g'.trap ∧ (∀ n, g'.kget n = if n = 63 then g'.trap.tcause else g.kget n) ∧
    g'.entry i = some { e with
      pc := ((s.segment g.ctx l.modid).map Prod.fst).getD 0 + BitVec.ofNat 64 l.trapOff, mod := l.modid, st := .run, clause := {}
      wait := 0, target := true, resumed := false, inHandler := true, trap := e.trap.erase r } ∧
    ∀ j, j ≠ i → g'.entry j = g.entry j

/-- What comes of a trap of unit i with record r: its block ends, where the unit is in a handler (cause 0x12) or its launch has none (cause
0x13); it waits, the record first of those it holds, while another unit of the group is in a handler; else the unit enters the handler. -/
structure TrapTaken (s t : State) (grp i : Nat) (g : Group) (e : Entry) (l : Launch) (r : TrapRec) : Prop where
  twice : e.inHandler = true → t = { s.terminateAt grp .trapInHandler r.cause.toNat r.pc r.addr with sel := t.sel }
  none : e.inHandler = false → l.trapOff = 0xFFFFFFFF →
    t = { s.terminateAt grp .noHandler r.cause.toNat r.pc r.addr with sel := t.sel }
  waits : e.inHandler = false → l.trapOff ≠ 0xFFFFFFFF → g.otherHandler i = true →
    t = { s with
      groups := t.groups, sel := t.sel, tokens := s.tokens.filter (· != (grp, i))
      tokenReqs := s.tokenReqs.filter fun q => !(q.1 = grp && q.2 = i) } ∧ (∀ k, k ≠ grp → t.group k = s.group k) ∧ ∃ es, t.group grp = some { g with entries := es } ∧
      AMap.get? es i = some { e with trap := r :: e.trap.erase r } ∧ ∀ j, j ≠ i → AMap.get? es j = g.entry j
  enters : e.inHandler = false → l.trapOff ≠ 0xFFFFFFFF → g.otherHandler i = false → HandlerEntered s t grp i g e l r

/-! ## Fault reports (R351) -/

/-- A report to the fault ring of a context: it is dropped and counted while the ring is disabled or full; else it stands in the next entry
of the ring, field by field (first byte, bytes, value), FRWIDX counts it and the vector of the ring is raised; an entry that nothing backs
stops the machine. -/
structure Reported (s t : State) (ctx : Nat) (fields : List (Nat × Nat × Nat)) : Prop where
  dropped : (s.reg (0x33008 + 32 * ctx)).getLsbD 31 = false ∨
      (s.reg (0x3300C + 32 * ctx) - s.reg (0x33010 + 32 * ctx)).toNat = 2 ^ ((s.reg (0x33008 + 32 * ctx)).extractLsb' 0 5).toNat →
    t.mem = s.mem ∧ t.msix = s.msix ∧ t.reg (0x3300C + 32 * ctx) = s.reg (0x3300C + 32 * ctx) ∧
      t.reg (0x33014 + 32 * ctx) = if s.reg (0x33014 + 32 * ctx) = 0xFFFFFFFF then 0xFFFFFFFF else s.reg (0x33014 + 32 * ctx) + 1
  written : (s.reg (0x33008 + 32 * ctx)).getLsbD 31 = true →
      (s.reg (0x3300C + 32 * ctx) - s.reg (0x33010 + 32 * ctx)).toNat ≠ 2 ^ ((s.reg (0x33008 + 32 * ctx)).extractLsb' 0 5).toNat →
    let a := ((s.reg (0x33004 + 32 * ctx)).extractLsb' 0 20).toNat * 2 ^ 32 + ((s.reg (0x33000 + 32 * ctx)).extractLsb' 6 26).toNat * 64 +
      64 * ((s.reg (0x3300C + 32 * ctx)).toNat % 2 ^ ((s.reg (0x33008 + 32 * ctx)).extractLsb' 0 5).toNat)
    let hp := (s.reg (0x33008 + 32 * ctx)).getLsbD 30
    t.reg (0x3300C + 32 * ctx) = s.reg (0x3300C + 32 * ctx) + 1 ∧ t.reg (0x33014 + 32 * ctx) = s.reg (0x33014 + 32 * ctx) ∧
      t.msix = (hp, (s.reg (0x33008 + 32 * ctx)).extractLsb' 8 8) :: s.msix ∧
      (∀ k, cellPhys hp a = some k →
        (∀ f ∈ fields, leNat (Memory.read t.mem (k + f.1) f.2.1) = f.2.2 % 2 ^ (8 * f.2.1)) ∧
        ∀ n, ¬(k ≤ n ∧ n < k + 64) → SMap.get t.mem n = SMap.get s.mem n) ∧
      (cellPhys hp a = none → t.mem = s.mem ∧ t.badWrite = some a)

/-- The fields of a report about a group (Table 19.4). -/
def reportOf (s : State) (grp : Nat) (g : Group) (kind cause sub pc addr : Nat) : List (Nat × Nat × Nat) :=
  [(0, 1, kind), (1, 3, 0), (4, 1, cause), (5, 1, sub), (6, 1, g.ctx), (7, 1, ((s.launch g.launch).map (·.queue)).getD 0), (8, 2, 0),
   (10, 2, grp % 512), (12, 1, 0), (13, 1, grp / 512), (14, 2, ((s.blockOf g).map (·.num)).getD 0),
   (16, 8, match g.work with
      | .none => 0
      | .tile n => n
      | .task r => (r.extractLsb' 0 64).toNat),
   (24, 8, s.clk.toNat), (32, 8, pc), (40, 8, addr), (48, 16, 0)]

/-! ## Writes through a context's page tables, and the end of packets (R151, R392) -/

/-- n bytes are written from a virtual address of a context on: each byte that the context may write, where a later one does not fall on
the same cell; nothing else changes but poison that is written over. -/
structure VaWritten (s t : State) (ctx : Nat) (va : Dword) (n : Nat) (b : Nat → Byte) : Prop where
  rest : t = { s with mem := t.mem, poison := t.poison }
  bytes : ∀ i c, i < n → s.vaCell ctx (va + BitVec.ofNat 64 i) true = some c →
    (∀ j, i < j → j < n → s.vaCell ctx (va + BitVec.ofNat 64 j) true ≠ some c) → SMap.get t.mem c = b i
  other : ∀ a, (∀ i, i < n → s.vaCell ctx (va + BitVec.ofNat 64 i) true ≠ some a) → SMap.get t.mem a = SMap.get s.mem a

/-- Byte i of a number. -/
def byteOf (x i : Nat) : Byte := BitVec.ofNat 8 (x / 2 ^ (8 * i))

/-- The byte of a packet at which SIGADDR stands (Table 7.5), SIGVAL 8 bytes on; none for a no-op and a wait-signal. -/
def sigByte (p : Packet) : Option Nat :=
  match (p.bytes.extractLsb' 0 8).toNat with
  | 1 | 2 | 7 | 8 | 9 => some 16
  | 3 => some 24
  | 5 | 6 => some 32
  | _ => none

/-- A packet other than a launch has completed with a CODE: it is accepted no longer; where it has a signal word, a CODE other than 0 leaves
its record there, with zero in its second half, and then the word holds SIGVAL; a signal word that may not be written stays as it is. -/
def PacketEnded (s t : State) (p : Packet) (code : Nat) : Prop :=
  let s1 := { s with packets := s.packets.filter fun x => !(x.queue = p.queue && x.idx = p.idx) }
  match sigByte p with
  | none => t = s1
  | some k =>
    let a : Dword := p.bytes.extractLsb' (8 * k) 64
    let v : Dword := p.bytes.extractLsb' (8 * (k + 8)) 64
    if a = 0 ∨ a.toNat % 8 ≠ 0 ∨ s.vaCell (s.qCtx p.queue) a true = none then t = s1
    else ∃ u, (code = 0 → u = s1) ∧
      (code ≠ 0 → code < 256 ∧ VaWritten s1 u (s.qCtx p.queue) (a + 8) 16 fun i => if i = 1 then BitVec.ofNat 8 code else 0) ∧
      VaWritten u t (s.qCtx p.queue) a 8 (byteOf v.toNat)

/-- A launch of packet p has left its records: nothing where SIGADDR may not be written; else, with CODE 0 alone, its manifest record, then its
completion record, then its signal (R151, R198, R392). -/
def LaunchRecord (s t : State) (p : Packet) (ctx : Nat) (code : Byte) (status : BitVec 7) (manifest : List Byte) (work : Nat) : Prop :=
  let sig : Dword := p.bytes.extractLsb' 128 64
  let val : Dword := p.bytes.extractLsb' 192 64
  if sig = 0 ∨ s.vaOk ctx sig 8 true = false then t.mem = s.mem
  else ∃ u1 u2 u3, (if code = 0 then VaWritten s u1 ctx (sig + 64) 192 (fun k => manifest.getD k 0) else u1 = s) ∧
    VaWritten u1 u2 ctx (sig + 8) 16 (fun k => if k = 0 then (if code = 0 then status.setWidth 8 else 0) else if k = 1 then code
      else if k < 8 then 0 else byteOf work (k - 8)) ∧
    VaWritten u2 u3 ctx sig 8 (byteOf val.toNat) ∧ t.mem = u3.mem

/-- Two states differ in nothing but how long packets have waited. -/
def WaitsOnly (s t : State) : Prop :=
  t = { s with packets := t.packets } ∧ t.packets.map (fun x => { x with waited := 0 }) = s.packets.map fun x => { x with waited := 0 }

/-- Lane k of firmware core j, which serves the packet's queue, has packet p waiting for a stage, and the core selects p's type; no other
lane of the core waits with a packet of that type (R147, R148). A queue holds no two packets of one index. -/
structure Turn (s : State) (j k : Nat) (p : Packet) : Prop where
  serves : s.server (p.queue / 16) = some j
  lane : (k, p) ∈ (s.resetWaits j).lanes j
  pick : selectType (((s.resetWaits j).lanes j).map Prod.snd) = some p.opc
  only : ∀ q ∈ (s.resetWaits j).lanes j, q.2.opc = p.opc → q = (k, p)
  once : ∀ y ∈ (s.resetWaits j).packets, y.queue = p.queue → y.idx = p.idx → y = p

/-- Each of the listed events is the step of core j in which packet p takes its stage on lane k: u is the machine before the stage and v
after it, and a lane whose packet is at its begin stage turns to its queue. -/
def StageTaken (s : State) (j k : Nat) (p : Packet) (is : List Instr) (ok : State → State → Prop) : Prop :=
  ∀ i ∈ .firmwareStep (BitVec.ofNat 2 j) :: is, ∃ u v t, exec i s = .next t ∧ WaitsOnly s u ∧ ok u v ∧
    WaitsOnly { v with laneLast := if p.stage = .accepted then AMap.set s.laneLast (16 * j + k) p.queue else s.laneLast } t

/-! ## Registers of BAR 0 -/

/-- Of the whole machine, only BAR 0 registers at offsets in l may differ. -/
def OnlyRegs (s t : State) (l : List Nat) : Prop := t = { s with bar0 := t.bar0 } ∧ ∀ o, o ∉ l → t.reg o = s.reg o

/-! ## Invariants -/

/-- An entry of the page attribute table as R101 lets it stand: its reserved bits are 0, its frame is below 240, and it is not both SC and
claim-tracked (Table 5.2). -/
def PatEntrySound (e : BitVec 64) : Prop := e &&& ~~~patMask = 0 ∧ patFrame e < 240 ∧ ¬(patSC e = true ∧ patClaim e = true)

/-- The page attribute table as R101 keeps it: every entry is sound, and no two valid entries name one frame of one slice. -/
structure PageTableSound (s : State) : Prop where
  form : SMap.wf s.pat = true
  sound : ∀ n, PatEntrySound (SMap.get s.pat n)
  single : ∀ n m, n ≠ m → patValid (SMap.get s.pat n) = true → patValid (SMap.get s.pat m) = true →
    ¬(patHome (SMap.get s.pat n) = patHome (SMap.get s.pat m) ∧ patFrame (SMap.get s.pat n) = patFrame (SMap.get s.pat m))

end Sys2Proof.Machine
end

