-- ==== Sys2Proof/Certificates/Slice0/Obligations.lean ====
section
/-! DEFINITION. The statements for the provers. -/

open Sys2Proof Sys2Proof.Machine

/-! ## Encoding -/

/-- O1. Words that the spec itself assembles decode to the instructions they stand for (Table 16.4; the words of 19's trap example). -/
def Obligations.KnownWordsDecode : Prop :=
  decodeBits 0x0880000000080078 = .ok (.mov false ⟨false, 0⟩ .b32 true 8 (.v 0)) ∧
  decodeBits 0x7008000008080100 = .ok (.cvt ⟨false, 0⟩ .f32 .n32 .rne false 8 8) ∧
  decodeBits 0x000000000200000C = .ok (.call ⟨false, 0⟩ (.off24 2)) ∧
  decodeBits 0x0408000808080088 = .ok (.fmul ⟨false, 0⟩ .f32 .rne 8 8 (.k 8)) ∧
  decodeBits 0x0000000000000020 = .ok (.exit ⟨false, 0⟩) ∧
  decodeBits 0x0000000000000018 = .ok .ret ∧
  decodeBits 0x0000000000000000 = .ok (.nop .l64) ∧
  decodeBits 0x0000002A00000000000083C9 = .ok (.trap ⟨false, 0⟩ (.i 0x2A)) ∧
  decodeBits 0x0800060504038180 = .ok (.cpin ⟨false, 0⟩ true .none .grp 3 4 5 6 none)

/-- O2. Decoding the words of an instruction gives the instruction back, with every operand at every value that its encoding admits. -/
def Obligations.DecodeEncode : Prop :=
  ∀ i : Instr, i.isEvent = false → i.wellFormed = true → decodeWords (encode i) = .ok i

/-- The opcodes that Table 11.7 leaves reserved. -/
def reservedOpcode (n : Nat) : Bool :=
  (0x0B ≤ n && n ≤ 0x0F) || n = 0x2A || n = 0x2E || n = 0x2F || (0x3C ≤ n && n ≤ 0x3F) || (0x4A ≤ n && n ≤ 0x4F) ||
    (0x58 ≤ n && n ≤ 0x5F) || (0x68 ≤ n && n ≤ 0x6F) || (0x73 ≤ n && n ≤ 0x7F) || (0x88 ≤ n && n ≤ 0xEF) || 0xF6 ≤ n

/-- O3. What decodes without a reserved bit set is an instruction that the encoding admits, and never an event of the part. A word that is
no header and whose opcode Table 11.7 leaves reserved is refused by condition 1 of R226, whatever its other bits are, and an instruction
whose opcode is assigned is never refused by condition 1. -/
def Obligations.DecodingSound : Prop :=
  (∀ (w : BitVec 128) (i : Instr), decodeBits w = .ok i → i.wellFormed = true ∧ i.isEvent = false) ∧
  (∀ w : BitVec 128, w.extractLsb' 0 2 ≠ 3#2 → (decodeBits w = .bad 1 ↔ reservedOpcode (w.extractLsb' 2 8).toNat = true))

/-! ## The step -/

/-- O4. Where the fetch block of the selected unit holds an instruction at its program counter, a step is that instruction's effect a clock
later, with the address after the instruction as the unit's next, and with the lanes that wait on words told of what it wrote; the machine
stops where the W1 itself wrote to an address that nothing backs. (That a step is one clock, and what it does, is the model's choice: log 4,
log 5; the lanes' waits are those of log 65.) -/
def Obligations.StepRunsDecoded : Prop :=
  ∀ (s : State) (c : Cur) (b : BitVec 256) (i : Instr) (n : Nat), s.cur = some c → s.l0Block c.u.grp c.g c.e = some b →
    decodeAt b (c.u.pc.toNat % 32) = .instr i n → c.e.target = false →
    ∃ u, Ticked s u ∧
      step s = guardWrite (wakeLanes s.mem (exec i { u with sel := some { c.u with npc := c.u.pc + BitVec.ofNat 64 n } }))

/-- O5. A selected unit at a clause header enters the clause and goes on behind the header: the wait mask joins those entered before it, the
counted flags are the header's, and the header takes no issue slot: nothing is counted, and the port remembers nothing. A unit resumed by
`eret` has the header in place of its saved clause state. A word that is no instruction takes the illegal-encoding trap of the first
condition of R226 that applies: for one with a reserved field, condition 6 where it also breaks a limit of its group or launch, else 7; and
a header whose VA or VB is set over a flag other than 8 and 9 stands for condition 8. A unit to which control was transferred takes
condition 9 where its address holds an instruction in order or a block's tail, and the conditions before it where they apply. An instruction
in order that names a register or a tile outside what its group and its launch have takes condition 6, wherever its unit came from. No
instruction is carried out. (A step is one clock: log 4, log 5; lanes that wait on words are told of writes: log 65.) -/
def Obligations.StepAtHeaders : Prop :=
  (∀ (s : State) (c : Cur) (b : BitVec 256) (h : Header), s.cur = some c → s.l0Block c.u.grp c.g c.e = some b →
    decodeAt b (c.u.pc.toNat % 32) = .header h → s.badWrite = none →
    ∃ u t, Ticked s u ∧ step s = .next t ∧ t = { u with sel := none, groups := t.groups } ∧
      (∀ k, k ≠ c.u.grp → t.group k = u.group k) ∧
      ∃ g es, u.group c.u.grp = some g ∧ t.group c.u.grp = some { g with entries := es } ∧ (∀ j, j ≠ c.u.entry → AMap.get? es j = c.g.entry j) ∧
        AMap.get? es c.u.entry = some { c.e with
          clause := ⟨h.seta, h.setb⟩, wait := if c.e.resumed then h.wait else c.e.wait ||| h.wait, target := false, resumed := false
          pc := c.u.pc + 8 }) ∧
  (∀ (s : State) (c : Cur) (b : BitVec 256), s.cur = some c → s.l0Block c.u.grp c.g c.e = some b →
    let at_ := decodeAt b (c.u.pc.toNat % 32)
    let traps := fun (sub : Nat) (ok : TrapRec → Prop) => ∃ u r, Ticked s u ∧ r.cause = 1 ∧ r.sub = BitVec.ofNat 8 sub ∧ r.pc = c.u.pc ∧ r.late = false ∧ ok r ∧
      step s = guardWrite (wakeLanes s.mem (.next { u.takeTrap c.u.grp c.u.entry r with sel := none }))
    (∀ n, at_ = .bad n → traps n fun _ => True) ∧
    (∀ i n, at_ = .resv i n → traps (if c.encodingOk s i then 7 else 6) fun _ => True) ∧
    (∀ i n, at_ = .instr i n → c.encodingOk s i = false → traps 6 fun _ => True) ∧
    (c.e.target = true →
      (at_ = .tail → traps 9 fun r => r.thr = c.e.mask ∧ r.addr = c.u.pc) ∧
      ∀ i n, at_ = .instr i n → c.encodingOk s i = true → traps 9 fun r => r.thr = c.e.mask ∧ r.addr = c.u.pc)) ∧
  ∀ (b : BitVec 256), b.extractLsb' 0 2 = 3#2 →
    (let off := fun (v lo : Nat) => b.getLsbD v = true ∧ b.extractLsb' lo 4 ≠ 8#4 ∧ b.extractLsb' lo 4 ≠ 9#4
     (off 18 14 ∨ off 23 19 → decodeAt b 0 = .bad 8) ∧
     (¬off 18 14 → ¬off 23 19 → ∃ h, decodeAt b 0 = .header h ∧ h.wait = b.extractLsb' 2 12 ∧
       h.seta = (if b.getLsbD 18 then some (b.extractLsb' 14 4) else none) ∧ h.setb = if b.getLsbD 23 then some (b.extractLsb' 19 4) else none))

/-- O6. After device reset (R21, R22) every BAR 0 register reads 0 but MANVER, which reads 1, and DEVHASH; every entry of the page attribute
table, CLKCNT and every byte of SRAM read 0; nothing is loaded, resident or in flight. (That bytes of main and host memory read 0 before
anything has written them is the model's choice: log 1 and log 2; the fuse counter, the firmware status and digests, and with them DEVHASH,
are those of log 3.) -/
def Obligations.ResetState : Prop :=
  (∀ o, ¬(0x32080 ≤ o ∧ o < 0x320A0) → State.reset.reg o = if o = 0x32000 then 1 else 0) ∧ (∀ n, SMap.get State.reset.pat n = 0) ∧
    State.reset.clk = 0 ∧ (∀ a, SMap.get State.reset.mem a = 0) ∧ State.reset.poison = [] ∧ State.reset.groups = [] ∧
    State.reset.blocks = [] ∧ State.reset.launches = [] ∧ State.reset.taskQueues = [] ∧ State.reset.packets = [] ∧
    State.reset.modules = [] ∧ State.reset.tlb = [] ∧ State.reset.accesses = [] ∧ State.reset.copies = [] ∧
    State.reset.arrays = [] ∧ State.reset.parked = [] ∧ State.reset.sel = none

/-! ## Invariants -/

/-- O7. Every step keeps memory in its canonical form: addresses rising, and no byte listed that an unlisted one reads as. -/
def Obligations.CanonicalMemoryKept : Prop :=
  ∀ s t, Memory.wf s.mem = true → step s = .next t → Memory.wf t.mem = true

/-- O8. Every step keeps the page attribute table as R101 lets it stand. -/
def Obligations.PageTableSoundKept : Prop :=
  ∀ s t, PageTableSound s → step s = .next t → PageTableSound t

/-- O9. Both invariants hold right after reset. -/
def Obligations.ResetInvariants : Prop :=
  Memory.wf State.reset.mem = true ∧ PageTableSound State.reset

/-- O10. No instruction of a program writes the page attribute table: only an event of the part does (R100). -/
def Obligations.ProgramsLeavePageTable : Prop :=
  ∀ (i : Instr) (s t : State), i.isEvent = false → exec i s = .next t → t.pat = s.pat

/-! ## Integer and mask instructions -/

/-- O11. The lane forms of `add`, `sub`, `mul`, `mad`, `min` and `max` complete: each active thread's register holds the exact value of
Table 12.1, clamped under .sat and else modulo 2^w; every other register, every flag and all of memory stay (R228, R229). -/
def Obligations.IntegerArithmetic : Prop :=
  ∀ (s : State) (c : Cur) (p : Pred) (ty : Ty) (sat : Bool) (d a k : Reg) (b : OpB),
    (∀ x, Stands s c (.add false p ty x sat d a b) → CompletesLane s c (.add false p ty x sat d a b) p ty.wide d fun th r =>
      HoldsInt ty sat (c.intA ty th a + (match x with
        | .none => c.intB ty th b
        | .sx => ((c.srcB .b32 th b).extractLsb' 0 32).toInt
        | .zx => ((c.srcB .b32 th b).extractLsb' 0 32).toNat)) r) ∧
    (Stands s c (.sub false p ty sat d a b) → CompletesLane s c (.sub false p ty sat d a b) p ty.wide d fun th r =>
      HoldsInt ty sat (c.intA ty th a - c.intB ty th b) r) ∧
    (Stands s c (.mul false p ty false sat d a b) → CompletesLane s c (.mul false p ty false sat d a b) p ty.wide d fun th r =>
      HoldsInt ty sat (c.intA ty th a * c.intB ty th b) r) ∧
    (Stands s c (.mul false p ty true sat d a b) → CompletesLane s c (.mul false p ty true sat d a b) p ty.wide d fun th r =>
      HoldsInt ty false (c.intA ty th a * c.intB ty th b / 2 ^ Ty.bits32 ty) r) ∧
    (Stands s c (.mad false p ty sat d a b k) → CompletesLane s c (.mad false p ty sat d a b k) p ty.wide d fun th r =>
      HoldsInt ty sat (c.intA ty th a * c.intB ty th b + c.intA ty th k) r) ∧
    (Stands s c (.min false p ty d a b) → CompletesLane s c (.min false p ty d a b) p ty.wide d fun th r =>
      intVal ty r = min (c.intA ty th a) (c.intB ty th b)) ∧
    (Stands s c (.max false p ty d a b) → CompletesLane s c (.max false p ty d a b) p ty.wide d fun th r =>
      intVal ty r = max (c.intA ty th a) (c.intB ty th b))

/-- O12. The lane forms of the shifts complete with a · 2^b and the floor of a / 2^b, modulo 2^w, for every count: a count of w or more
gives 0, or -1 for `shr` of a negative i operand (R228, R229). The lane forms of `and`, `or`, `xor`, `not`, `mov`, `mov.tid`, `sel` and
`cnt` complete, bit by bit as Table 12.1 says. -/
def Obligations.IntegerShiftsAndBits : Prop :=
  (∀ (s : State) (c : Cur) (p : Pred) (ty : Ty) (d a : Reg) (b : OpB),
    (Stands s c (.shl false p ty d a b) → CompletesLane s c (.shl false p ty d a b) p ty.wide d fun th r =>
      HoldsInt ty false (c.intA ty th a * 2 ^ (c.srcB ty th b).toNat) r ∧ (Ty.bits32 ty ≤ (c.srcB ty th b).toNat → r = 0)) ∧
    (Stands s c (.shr false p ty d a b) → CompletesLane s c (.shr false p ty d a b) p ty.wide d fun th r =>
      HoldsInt ty false (c.intA ty th a / 2 ^ (c.srcB ty th b).toNat) r ∧
      (Ty.bits32 ty ≤ (c.srcB ty th b).toNat →
        HoldsInt ty false (if c.intA ty th a < 0 then -1 else 0) r))) ∧
  (∀ (s : State) (c : Cur) (p : Pred) (ty : Ty) (d a m : Reg) (b : OpB),
    (Stands s c (.and false p ty d a b) → CompletesLane s c (.and false p ty d a b) p ty.wide d fun th r =>
      HoldsBits ty (fun i => (c.srcA false ty th a).getLsbD i && (c.srcB ty th b).getLsbD i) r) ∧
    (Stands s c (.or false p ty d a b) → CompletesLane s c (.or false p ty d a b) p ty.wide d fun th r =>
      HoldsBits ty (fun i => (c.srcA false ty th a).getLsbD i || (c.srcB ty th b).getLsbD i) r) ∧
    (Stands s c (.xor false p ty d a b) → CompletesLane s c (.xor false p ty d a b) p ty.wide d fun th r =>
      HoldsBits ty (fun i => (c.srcA false ty th a).getLsbD i != (c.srcB ty th b).getLsbD i) r) ∧
    (Stands s c (.not false p ty d a) → CompletesLane s c (.not false p ty d a) p ty.wide d fun th r =>
      HoldsBits ty (fun i => !(c.srcA false ty th a).getLsbD i) r) ∧
    (Stands s c (.mov false p ty false d b) → CompletesLane s c (.mov false p ty false d b) p ty.wide d fun th r =>
      HoldsBits ty (fun i => (c.srcB ty th b).getLsbD i) r) ∧
    (Stands s c (.mov false p ty true d b) → CompletesLane s c (.mov false p ty true d b) p ty.wide d fun th r => r.toNat = th) ∧
    (Stands s c (.sel false p ty d a b m) → CompletesLane s c (.sel false p ty d a b m) p ty.wide d fun th r =>
      r = if (c.g.mget m.toNat).getLsbD th then c.srcA false ty th a else c.srcB ty th b) ∧
    (∀ op, Stands s c (.cnt false p ty op d a) → CompletesLane s c (.cnt false p ty op d a) p ty.wide d fun th r =>
      CountOf ty op (c.srcA false ty th a) r))

/-- O13. The uniform forms complete with one result for the unit where some thread is active, and with none otherwise: a 32-bit result is
written sign-extended for i32 and zero-extended for n32 and b32; operands are uniform registers (R216, R217, R228, R229, R230). -/
def Obligations.UniformForms : Prop :=
  ∀ (s : State) (c : Cur) (p : Pred) (ty : Ty) (sat : Bool) (d a k m : Reg) (b : OpB),
    let A := fun (n : Reg) => c.srcA true ty 0 n
    let B := c.srcB ty 0 b
    let I := fun (x : Dword) => intVal ty x
    let F := fun (i : Instr) (ok : Dword → Prop) => Stands s c i → CompletesOnce s c i p fun g => UniResult c.g g ty d ok
    F (.add true p ty .none sat d a b) (HoldsInt ty sat (I (A a) + I B)) ∧
    F (.add true p ty .sx sat d a b) (HoldsInt ty sat (I (A a) + ((c.srcB .b32 0 b).extractLsb' 0 32).toInt)) ∧
    F (.add true p ty .zx sat d a b) (HoldsInt ty sat (I (A a) + ((c.srcB .b32 0 b).extractLsb' 0 32).toNat)) ∧
    F (.sub true p ty sat d a b) (HoldsInt ty sat (I (A a) - I B)) ∧
    F (.mul true p ty false sat d a b) (HoldsInt ty sat (I (A a) * I B)) ∧
    F (.mul true p ty true sat d a b) (HoldsInt ty false (I (A a) * I B / 2 ^ Ty.bits32 ty)) ∧
    F (.mad true p ty sat d a b k) (HoldsInt ty sat (I (A a) * I B + I (A k))) ∧
    F (.min true p ty d a b) (HoldsInt ty false (min (I (A a)) (I B))) ∧
    F (.max true p ty d a b) (HoldsInt ty false (max (I (A a)) (I B))) ∧
    F (.shl true p ty d a b) (HoldsInt ty false (I (A a) * 2 ^ B.toNat)) ∧
    F (.shr true p ty d a b) (HoldsInt ty false (I (A a) / 2 ^ B.toNat)) ∧
    F (.and true p ty d a b) (HoldsBits ty fun i => (A a).getLsbD i && B.getLsbD i) ∧
    F (.or true p ty d a b) (HoldsBits ty fun i => (A a).getLsbD i || B.getLsbD i) ∧
    F (.xor true p ty d a b) (HoldsBits ty fun i => (A a).getLsbD i != B.getLsbD i) ∧
    F (.not true p ty d a) (HoldsBits ty fun i => !(A a).getLsbD i) ∧
    F (.mov true p ty false d b) (HoldsBits ty fun i => B.getLsbD i) ∧
    F (.mov true p ty true d b) (fun r => r = 0) ∧
    F (.sel true p ty d a b m) (fun r => r = if c.g.mget m.toNat &&& c.act p ≠ 0 then A a else B) ∧
    ∀ op, F (.cnt true p ty op d a) (CountOf ty op (A a))

/-- O14. `icmp` completes: in the lane form bit t of the mask register becomes the condition of each active thread t; in the uniform form
the one condition is written to every active thread's bit; the other bits stay, or become 0 with .z (R230). `fcmp` completes: bit t of the
mask register becomes the condition of Table 13.4 for each active thread; the other bits stay, or become 0 with .z (R255). `mop`, `mmov` and
`ballot` complete as Table 12.3 and R266 say: the whole mask register, or a uniform register, is written where some thread is active. -/
def Obligations.ComparesAndMasks : Prop :=
  (∀ (s : State) (c : Cur) (u : Bool) (p : Pred) (ty : Ty) (cnd : ICond) (z : Bool) (d a : Reg) (b : OpB),
    Stands s c (.icmp u p ty cnd z d a b) → CompletesOnce s c (.icmp u p ty cnd z d a b) p fun g =>
      ∃ x, MaskWritten c.g g d.toNat x ∧ ∀ t, t < 32 → (x.getLsbD t = true ↔
        if (c.act p).getLsbD t then
          (let v := intVal ty (c.srcA u ty (if u then 0 else t) a)
           let w := intVal ty (c.srcB ty (if u then 0 else t) b)
           match cnd with
           | .eq => v = w | .ne => v ≠ w | .lt => v < w | .le => v ≤ w | .gt => w < v | .ge => w ≤ v)
        else z = false ∧ (c.g.mget d.toNat).getLsbD t = true)) ∧
  (∀ (s : State) (c : Cur) (p : Pred) (ty : Ty) (cnd : FCond) (z : Bool) (d a : Reg) (b : OpB),
    Stands s c (.fcmp p ty cnd z d a b) → CompletesOnce s c (.fcmp p ty cnd z d a b) p fun g =>
      ∃ x, MaskWritten c.g g d.toNat x ∧ ∀ t, t < 32 → (x.getLsbD t = true ↔
        if (c.act p).getLsbD t then
          (let v := c.fa ty t a
           let w := c.fb ty t b
           let nan := v = .nan ∨ w = .nan
           match cnd with
           | .eq => ¬nan ∧ ¬ValueLess v w ∧ ¬ValueLess w v
           | .ne => nan ∨ ValueLess v w ∨ ValueLess w v
           | .lt => ValueLess v w
           | .le => ¬nan ∧ ¬ValueLess w v
           | .gt => ValueLess w v
           | .ge => ¬nan ∧ ¬ValueLess v w
           | .un => nan
           | .or => ¬nan)
        else z = false ∧ (c.g.mget d.toNat).getLsbD t = true)) ∧
  (∀ (s : State) (c : Cur) (p : Pred) (d a b : Reg),
    (∀ op, Stands s c (.mop p op d a b) → CompletesOnce s c (.mop p op d a b) p fun g =>
      ∃ x, MaskWritten c.g g d.toNat x ∧ ∀ t, t < 32 → x.getLsbD t =
        (match op with
        | .and => (c.g.mget a.toNat).getLsbD t && (c.g.mget b.toNat).getLsbD t
        | .or => (c.g.mget a.toNat).getLsbD t || (c.g.mget b.toNat).getLsbD t
        | .xor => (c.g.mget a.toNat).getLsbD t != (c.g.mget b.toNat).getLsbD t
        | .andn => (c.g.mget a.toNat).getLsbD t && !(c.g.mget b.toNat).getLsbD t
        | .not => !(c.g.mget a.toNat).getLsbD t)) ∧
    (Stands s c (.mmov p .m d a) → CompletesOnce s c (.mmov p .m d a) p fun g =>
      MaskWritten c.g g d.toNat ((c.g.kget a.toNat).extractLsb' 0 32)) ∧
    (Stands s c (.mmov p .k d a) → CompletesOnce s c (.mmov p .k d a) p fun g =>
      UniWritten c.g g d.toNat (BitVec.ofNat 64 (c.g.mget a.toNat).toNat)) ∧
    (Stands s c (.mmov p .unit d a) → CompletesOnce s c (.mmov p .unit d a) p fun g => MaskWritten c.g g d.toNat c.e.mask) ∧
    (Stands s c (.ballot p d a) → CompletesOnce s c (.ballot p d a) p fun g =>
      ∃ x, MaskWritten c.g g d.toNat x ∧ ∀ t, t < 32 →
        (x.getLsbD t = true ↔ (c.act p).getLsbD t = true ∧ c.g.vget t a.toNat ≠ 0)))

/-! ## Floating point -/

/-- O15. Results are rounded correctly: `roundAt` gives the multiple of 2^q that the mode of Table 3.3 selects, and RoundToFormat selects,
in the format's precision and with its subnormal spacing, overflows, saturates and gives NaN as R64 says. -/
def Obligations.RoundingCorrect : Prop :=
  (∀ mode neg m e q, RoundsTo mode neg (m * 2 ^ (e - q).toNat) (2 ^ (q - e).toNat) (roundAt mode neg m e q)) ∧
  ∀ (ty : Ty) (mode : RMode) (sat neg : Bool) (m : Nat) (e : Int), ty.isFloat = true → ty ≠ .q4o → m ≠ 0 →
    let f := fmtOf ty
    let infinite := if sat then f.bits neg f.maxMag else if ty = .e4m3 then f.nan else f.bits neg f.infMag
    roundTo f mode sat .nan = f.nan ∧ roundTo f mode sat (.inf neg) = infinite ∧ roundTo f mode sat (.zero neg) = f.bits neg 0 ∧
    let q := max (ilog m e - f.mbits) f.qmin
    ∃ k, RoundsTo mode neg (m * 2 ^ (e - q).toNat) (2 ^ (q - e).toNat) k ∧
      if k * 2 ^ (q - f.qmin).toNat ≤ maxUnits f then
        (k = 0 → decodeF f (roundTo f mode sat (.fin neg m e)) = .zero neg) ∧
        Units f.qmin (decodeF f (roundTo f mode sat (.fin neg m e))) ((if neg then -1 else 1) * (k * 2 ^ (q - f.qmin).toNat : Nat))
      else roundTo f mode sat (.fin neg m e) =
        match mode with
        | .rne | .rna => infinite
        | .rtz => f.bits neg f.maxMag
        | .rup => if neg then f.bits neg f.maxMag else infinite
        | .rdn => if neg then infinite else f.bits neg f.maxMag

/-- O16. The exact values that are rounded (Table 13.3): a product and a sum are exact; a quotient and a square root round, to any multiple
of 2^q that is not more than 60 places below their first bit, as the exact ones do; and zeros, infinities and NaN come out as R58 and R60
say. -/
def Obligations.ExactValues : Prop :=
  (∀ lo lo' x y i j, Units lo x i → Units lo' y j → Units (lo + lo') (fMul x y) (i * j)) ∧
  (∀ mode lo (l : List (FVal × Int)), l ≠ [] → (∀ q ∈ l, Units lo q.1 q.2) →
    Units lo (fSum mode (l.map Prod.fst)) (l.map Prod.snd).sum ∧
    ((l.map Prod.snd).sum = 0 → ∃ n, fSum mode (l.map Prod.fst) = .zero n ∧
      ((∀ q ∈ l, q.1 = .zero false) → n = false) ∧ ((∀ q ∈ l, q.1 = .zero true) → n = true) ∧
      (¬(∀ q ∈ l, q.1 = .zero false) → ¬(∀ q ∈ l, q.1 = .zero true) → n = decide (mode = .rdn)))) ∧
  (∀ mode n m e n' m' e', m ≠ 0 → m' ≠ 0 → ∃ M E, fDiv (.fin n m e) (.fin n' m' e') = .fin (n != n') M E ∧ ∀ q, ilog M E ≤ q + 60 →
    RoundsTo mode (n != n') (m * 2 ^ (e - e' - q).toNat) (m' * 2 ^ (q + e' - e).toNat) (roundAt mode (n != n') M E q)) ∧
  (∀ mode m e, m ≠ 0 → ∃ M E, fSqrt (.fin false m e) = .fin false M E ∧ ∀ q, ilog M E ≤ q + 60 →
    RoundsToRoot mode (m * 2 ^ (e - 2 * q).toNat) (2 ^ (2 * q - e).toNat) (roundAt mode false M E q)) ∧
  (∀ mode (l : List FVal), (.nan ∈ l ∨ .inf false ∈ l ∧ .inf true ∈ l) → fSum mode l = .nan) ∧
  (∀ mode n (l : List FVal), .inf n ∈ l → .inf (!n) ∉ l → .nan ∉ l → fSum mode l = .inf n) ∧
  (∀ x, fMul .nan x = .nan ∧ fMul x .nan = .nan ∧ fDiv .nan x = .nan ∧ fDiv x .nan = .nan) ∧
  (∀ n k, fMul (.inf n) (.zero k) = .nan ∧ fMul (.zero k) (.inf n) = .nan ∧ fDiv (.inf n) (.inf k) = .nan ∧ fDiv (.zero n) (.zero k) = .nan ∧
    fMul (.inf n) (.inf k) = .inf (n != k) ∧ fDiv (.inf n) (.zero k) = .inf (n != k) ∧ fDiv (.zero n) (.inf k) = .zero (n != k) ∧
    fMul (.zero n) (.zero k) = .zero (n != k)) ∧
  (∀ n k m e, fMul (.inf n) (.fin k m e) = .inf (n != k) ∧ fMul (.fin n m e) (.inf k) = .inf (n != k) ∧ fDiv (.inf n) (.fin k m e) = .inf (n != k) ∧
    fDiv (.fin n m e) (.inf k) = .zero (n != k) ∧ fDiv (.zero n) (.fin k m e) = .zero (n != k) ∧ fDiv (.fin n m e) (.zero k) = .inf (n != k) ∧
    fMul (.zero n) (.fin k m e) = .zero (n != k) ∧ fMul (.fin n m e) (.zero k) = .zero (n != k)) ∧
  (∀ n m e, fSqrt .nan = .nan ∧ fSqrt (.inf true) = .nan ∧ fSqrt (.inf false) = .inf false ∧ fSqrt (.zero n) = .zero n ∧
    fSqrt (.fin true m e) = .nan)

/-- O17. `fadd`, `fsub`, `fmul`, `ffma`, `fdiv`, `fsqrt` and `qdiff` complete with one rounding of the exact value, without saturation
(R253, R265); while fewer than 32 entries of the core's escalation buffer are free, one whose result may be an assist is held by its port:
counter 7 counts, the clock is lost to the groups of the port (log 28), and nothing else of the machine but the selection changes (R83). -/
def Obligations.FloatArithmetic : Prop :=
  ∀ (s : State) (c : Cur) (p : Pred) (ty : Ty) (rm : RMode) (d a k : Reg) (b : OpB),
    let F := fun (i : Instr) (x : Nat → FVal) => Stands s c i →
      CompletesFloat s c i p ty.wide d (ty = .f32 || ty = .f64) (fun th r => RoundedFrom ty rm (x th) r) ∧
      ((ty = .f32 ∨ ty = .f64) → s.bufferRoom (coreOf c.u.grp) = false → ∃ t, exec i s = .next t ∧ Withheld s t c .buffer)
    F (.fadd p ty rm d a b) (fun th => fSum rm [c.fa ty th a, c.fb ty th b]) ∧
    F (.fsub p ty rm d a b) (fun th => fSum rm [c.fa ty th a, (c.fb ty th b).negate]) ∧
    F (.fmul p ty rm d a b) (fun th => fMul (c.fa ty th a) (c.fb ty th b)) ∧
    F (.ffma p ty rm d a b k) (fun th => fSum rm [fMul (c.fa ty th a) (c.fb ty th b), c.fa ty th k]) ∧
    F (.fdiv p ty rm d a b) (fun th => fDiv (c.fa ty th a) (c.fb ty th b)) ∧
    F (.fsqrt p ty rm d a) (fun th => fSqrt (c.fa ty th a)) ∧
    F (.qdiff p ty rm false d a) (fun th => fSum rm [c.fa ty (th / 4 * 4 + (th % 4 ||| 1)) a, (c.fa ty (th / 4 * 4 + (th % 4 &&& 2)) a).negate]) ∧
    F (.qdiff p ty rm true d a) (fun th => fSum rm [c.fa ty (th / 4 * 4 + (th % 4 ||| 2)) a, (c.fa ty (th / 4 * 4 + (th % 4 &&& 1)) a).negate])

/-- O18. `cvt` completes with the conversion of R65 and R259 of the operand read in the source type: bits are copied to or from b32 and b64;
a float becomes an integer by rounding and clamping, with NaN and zeros giving 0; an integer is clamped or rounded to the destination; a
float is rounded to another format, saturated under .sat, and returned unchanged in its own, but for NaN and, under .sat, infinities. -/
def Obligations.Conversions : Prop :=
  ∀ (s : State) (c : Cur) (p : Pred) (dt st : Ty) (rm : RMode) (sat : Bool) (d a : Reg), Stands s c (.cvt p dt st rm sat d a) →
    CompletesFloat s c (.cvt p dt st rm sat d a) p dt.wide d ((dt = .f32 || dt = .f64) && dt != st && !st.isBits) fun th r =>
      let x := (c.srcA false st th a).toNat
      let v := decodeF (fmtOf st) x
      r.fast = some false ∧
      if dt.isBits || st.isBits then r.tiny = false ∧ r.bits =
        (if dt = .i8 then ((BitVec.ofNat 8 x).signExtend 32).setWidth 64
         else if dt = .i16 then ((BitVec.ofNat 16 x).signExtend 32).setWidth 64 else BitVec.ofNat 64 (x % 2 ^ (8 * dt.size)))
      else if dt.isFloat then
        if st.isFloat then
          if dt = st then r.tiny = false ∧ r.bits.toNat = (match v with
            | .nan => (fmtOf dt).nan
            | .inf n => if sat then (fmtOf dt).bits n (fmtOf dt).maxMag else x
            | _ => x)
          else r.bits.toNat = roundTo (fmtOf dt) rm sat v ∧ (r.tiny = true ↔ (dt = .f32 ∨ dt = .f64) ∧ tinyIn (fmtOf dt) rm v = true)
        else r.tiny = false ∧ r.bits.toNat = roundTo (fmtOf dt) rm sat (ofInt (intOf st x) 0)
      else r.tiny = false ∧
        if st.isFloat then HoldsNarrow dt (match v with
          | .nan | .zero _ => 0
          | .inf n => if n then intMin dt else intMax dt
          | .fin n m e => max (intMin dt) (min (intMax dt) ((if n then -1 else 1) * (roundAt rm n m e 0 : Nat)))) r.bits
        else HoldsNarrow dt (max (intMin dt) (min (intMax dt) (intOf st x))) r.bits

/-- O19. `fmin` and `fmax` complete with the smaller and the larger operand's bits, with the canonical NaN where an operand is NaN, and with
the zero of R254 where both are zeros. -/
def Obligations.MinimumMaximum : Prop :=
  ∀ (s : State) (c : Cur) (p : Pred) (ty : Ty) (d a : Reg) (b : OpB) (max : Bool),
    let i : Instr := if max then .fmax p ty d a b else .fmin p ty d a b
    Stands s c i → CompletesFloat s c i p ty.wide d (ty = .f32 || ty = .f64) fun th r =>
      let x := c.srcA false ty th a
      let y := c.srcB ty th b
      let v := c.fa ty th a
      let w := c.fb ty th b
      r.fast = some false ∧
      (v = .nan ∨ w = .nan → r.bits.toNat = (fmtOf ty).nan) ∧
      (∀ m n, v = .zero m → w = .zero n → r.bits.toNat = (fmtOf ty).bits (if max then m && n else m || n) 0) ∧
      (ValueLess v w → r.bits = if max then y else x) ∧ (ValueLess w v → r.bits = if max then x else y) ∧
      (v ≠ .nan → w ≠ .nan → ¬((∃ m, v = .zero m) ∧ ∃ n, w = .zero n) → r.bits = x ∨ r.bits = y)

/-! ## Sums, functions, quantisation and exchange -/

/-- The window rule of R78 and R79, over terms that are numbers, leaves their sum undecided in a window of w bits with s significant ones: e
is the exponent of the largest term, the terms are truncated toward −∞ at the floor 2^fl, S is their sum there and k the number of inexact
ones. Where some are inexact, the sum is undecided when fewer than s bits remain, or when numbers a quarter of a unit inside the ends of the
interval from S to S + k round differently: the boundaries of the destination there are whole units. -/
def WindowUndecided (f : Fmt) (mode : RMode) (w s : Nat) (terms : List FVal) : Prop :=
  .nan ∉ terms ∧ .inf false ∉ terms ∧ .inf true ∉ terms ∧ ∃ e fl : Int,
    (∃ n m x, FVal.fin n m x ∈ terms ∧ ilog m x = e) ∧ (∀ n m x, FVal.fin n m x ∈ terms → ilog m x ≤ e) ∧ fl = e + 11 - w ∧
    let whole := fun (n : Bool) (m : Nat) (x : Int) => (if n then -1 else 1) * ((m * 2 ^ (x - fl).toNat : Nat) : Int)
    let S : Int := (terms.map fun t => match t with
      | .fin n m x => whole n m x / 2 ^ (fl - x).toNat
      | _ => 0).sum
    let k := (terms.filter fun t => match t with
      | .fin n m x => whole n m x % 2 ^ (fl - x).toNat != 0
      | _ => false).length
    0 < k ∧ (S.natAbs < 2 ^ (s - 1) ∨
      roundTo f mode false (ofInt (4 * S + 1) (fl - 2)) ≠ roundTo f mode false (ofInt (4 * (S + k) - 1) (fl - 2)))

/-- O20. `fdot4`, `fdot8` and `gsum` complete with one rounding of the exact sum of their terms: the products of the 4 or 8 element pairs of
Table 13.5 with the addend, where there is one, and the operands of the unit's active threads. A result escalates where its window does not
decide it (R78, R79), and else only as an assist. -/
def Obligations.DotProducts : Prop :=
  ∀ (s : State) (c : Cur) (p : Pred) (ty : Ty) (rm : RMode) (d a b k : Reg),
    let elem := fun (th : Nat) (r : Reg) (i : Nat) => decodeF (fmtOf ty) (match ty with
      | .f64 => (c.g.v64get th (r.toNat + 2 * i)).toNat
      | .f32 => (c.g.vget th (r.toNat + i)).toNat
      | .e4m3 | .e5m2 => ((c.g.vget th (r.toNat + i / 4)).extractLsb' (8 * (i % 4)) 8).toNat
      | _ => ((c.g.vget th (r.toNat + i / 2)).extractLsb' (16 * (i % 2)) 16).toNat)
    let rf : Ty := if ty = .f64 then .f64 else .f32
    let S := fun (rf : Ty) (terms : List FVal) (r : LaneRes) =>
      r.bits = BitVec.ofNat 64 (roundTo (fmtOf rf) rm false (fSum rm terms)) ∧
      (∃ b, r.fast = some b ∧ (b = true ↔ WindowUndecided (fmtOf rf) rm (if rf = .f64 then 176 else 96) (if rf = .f64 then 55 else 26) terms)) ∧
      (r.tiny = true ↔ (rf = .f32 ∨ rf = .f64) ∧ tinyIn (fmtOf rf) rm (fSum rm terms) = true)
    let terms := fun (n th : Nat) => (List.range n).map fun i => fMul (elem th a i) (elem th b i)
    (Stands s c (.fdot4 p ty rm false d a b k) → CompletesFloat s c (.fdot4 p ty rm false d a b k) p rf.wide d true fun th r =>
      S rf (terms 4 th ++ [c.fa rf th k]) r) ∧
    (Stands s c (.fdot4 p ty rm true d a b k) → CompletesFloat s c (.fdot4 p ty rm true d a b k) p rf.wide d true fun th r =>
      S rf (terms 4 th) r) ∧
    (Stands s c (.fdot8 p ty rm false d a b k) → CompletesFloat s c (.fdot8 p ty rm false d a b k) p false d true fun th r =>
      S rf (terms 8 th ++ [c.fa rf th k]) r) ∧
    (Stands s c (.fdot8 p ty rm true d a b k) → CompletesFloat s c (.fdot8 p ty rm true d a b k) p false d true fun th r =>
      S rf (terms 8 th) r) ∧
    (Stands s c (.gsum p ty rm d a) → CompletesFloat s c (.gsum p ty rm d a) p ty.wide d true fun _ r =>
      S ty (((List.range 32).filter fun t => (c.act p).getLsbD t).map fun t => c.fa ty t a) r)

/-- The entries of the column "decided by rule" of Table 13.6 hold of the value r that a function has by rule for argument x. -/
def ruleValue (fn : Fn) (x : FVal) (r : Option FVal) : Prop :=
  let isInt := fun (j : Int) => ∃ lo, lo ≤ 0 ∧ Units lo x (j * 2 ^ (-lo).toNat)
  let isHalf := fun (j : Int) => ∃ lo, lo ≤ -1 ∧ Units lo x ((2 * j + 1) * 2 ^ (-lo - 1).toNat)
  let isPow := fun (k : Int) => ∃ lo, lo ≤ k ∧ Units lo x (2 ^ (k - lo).toNat)
  let one : FVal := .fin false 1 0
  (x = .nan → r = some .nan) ∧
  match fn with
  | .exp => (∀ n, x = .zero n → r = some one) ∧ (x = .inf true → r = some (.zero false)) ∧ (x = .inf false → r = some (.inf false))
  | .exp2 => (∀ n, x = .zero n → r = some one) ∧ (x = .inf true → r = some (.zero false)) ∧ (x = .inf false → r = some (.inf false)) ∧
      ∀ j, j ≠ 0 → -2 ^ 15 < j → j < 2 ^ 15 → isInt j → r = some (.fin false 1 j)
  | .expm1 => (∀ n, x = .zero n → r = some (.zero n)) ∧ (x = .inf true → r = some (.fin true 1 0)) ∧ (x = .inf false → r = some (.inf false))
  | .log => (isInt 1 → r = some (.zero false)) ∧ (∀ n, x = .zero n → r = some (.inf true)) ∧ (x = .inf false → r = some (.inf false)) ∧
      (x = .inf true → r = some .nan) ∧ ∀ m e, x = .fin true m e → r = some .nan
  | .log2 => (∀ k, isPow k → r = some (ofInt k 0)) ∧ (∀ n, x = .zero n → r = some (.inf true)) ∧ (x = .inf false → r = some (.inf false)) ∧
      (x = .inf true → r = some .nan) ∧ ∀ m e, x = .fin true m e → r = some .nan
  | .log1p => (∀ n, x = .zero n → r = some (.zero n)) ∧ (isInt (-1) → r = some (.inf true)) ∧ (x = .inf false → r = some (.inf false)) ∧
      (x = .inf true → r = some .nan) ∧ (x ≠ .inf true → ValueLess x (.fin true 1 0) → r = some .nan)
  | .sin => (∀ n, x = .zero n → r = some (.zero n)) ∧ ∀ n, x = .inf n → r = some .nan
  | .cos => (∀ n, x = .zero n → r = some one) ∧ ∀ n, x = .inf n → r = some .nan
  | .sinpi => (∀ n, x = .zero n → r = some (.zero n)) ∧ (∀ n, x = .inf n → r = some .nan) ∧
      (∀ j, j ≠ 0 → isInt j → r = some (.zero (decide (j < 0)))) ∧ ∀ j, isHalf j → r = some (.fin (decide (j % 2 = 1)) 1 0)
  | .cospi => (∀ n, x = .zero n → r = some one) ∧ (∀ n, x = .inf n → r = some .nan) ∧
      (∀ j, j ≠ 0 → isInt j → r = some (.fin (decide (j % 2 = 1)) 1 0)) ∧ ∀ j, isHalf j → r = some (.zero false)
  | .tanh => (∀ n, x = .zero n → r = some (.zero n)) ∧ ∀ n, x = .inf n → r = some (.fin n 1 0)
  | .sigm => (∀ n, x = .zero n → r = some (.fin false 1 (-1))) ∧ (x = .inf true → r = some (.zero false)) ∧ (x = .inf false → r = some one)
  | .rsq => (∀ n, x = .zero n → r = some (.inf n)) ∧ (x = .inf false → r = some (.zero false)) ∧ (x = .inf true → r = some .nan) ∧
      (∀ m e, x = .fin true m e → r = some .nan) ∧ ∀ j, isPow (2 * j) → r = some (.fin false 1 (-j))

/-- O21. The function instructions complete. An argument that Table 13.6 decides by rule gives the value there, rounded once in the fast
unit. For every other argument, the reciprocal square root is one rounding of the exact value: it lies strictly between two numbers that both
round to the result; and the other functions' results are those of the model's evaluation at a fixed precision (log 8), of which the spec
states that they are RoundToFormat of f(a). -/
def Obligations.FunctionInstructions : Prop :=
  (∀ (s : State) (c : Cur) (p : Pred) (ty : Ty) (rm : RMode) (d a : Reg) (fn : Fn) (i : Instr),
    (fn, i) ∈ [(Fn.rsq, Instr.frsq p ty rm d a), (.exp, .fexp p ty rm d a), (.exp2, .fexp2 p ty rm d a), (.expm1, .fexpm1 p ty rm d a),
      (.log, .flog p ty rm d a), (.log2, .flog2 p ty rm d a), (.log1p, .flog1p p ty rm d a), (.sin, .fsin p ty rm d a),
      (.cos, .fcos p ty rm d a), (.sinpi, .fsinpi p ty rm d a), (.cospi, .fcospi p ty rm d a), (.tanh, .ftanh p ty rm d a),
      (.sigm, .fsigm p ty rm d a)] →
    Stands s c i → CompletesFloat s c i p ty.wide d true fun th r =>
      (∀ y, byRule fn (c.fa ty th a) = some y → RoundedFrom ty rm y r) ∧
      (fn = .rsq → ∀ m e, c.fa ty th a = .fin false m e → byRule fn (c.fa ty th a) = none → ∃ (lo hi k : Nat) (q : Int), 0 < lo ∧ 2 * q + e = -(k : Int) ∧
        lo * lo * m < 2 ^ k ∧ 2 ^ k < hi * hi * m ∧
        r.bits = BitVec.ofNat 64 (roundTo (fmtOf ty) rm false (.fin false lo q)) ∧ r.bits = BitVec.ofNat 64 (roundTo (fmtOf ty) rm false (.fin false hi q))) ∧
      (fn ≠ .rsq → byRule fn (c.fa ty th a) = none → ∀ n m e, c.fa ty th a = .fin n m e → ∃ P, P ∈ [256, 1400, 3700] ∧
        r.bits = BitVec.ofNat 64 (roundTo (fmtOf ty) rm false (ofInt (encl fn P n m e).lo (encl fn P n m e).e)))) ∧
  ∀ fn x, ruleValue fn x (byRule fn x)

/-- The 16 codes of a Q4O block with scale byte sb, outlier limit lim and finite elements are as R73 says: y is each element over the scale
in units of 2^-300, o its ordinary code value, b the outlier bits nearest to the pair's even element. A pair is a candidate where the
outlier strictly lowers its error; the lim candidates of greatest magnitude, the lower pair first where two are alike, become outlier pairs. -/
def Q4Codes (sb lim : Nat) (xs : List FVal) (code : Nat → Nat) : Prop :=
  let unit : Int := 2 ^ 300
  let mag := fun (b : Nat) => ((2 + b % 2) * 2 ^ (b / 2 + 2) : Int)
  ∃ (y o : Nat → Int) (b : Nat → Nat),
    (∀ i, i < 16 → ∃ v, xs[i]? = some v ∧ Units ((sb : Int) - 127 - 300) v (y i)) ∧
    (∀ i, i < 16 → ∃ r : Int, (2 * r - 1) * unit ≤ 2 * y i ∧ 2 * y i ≤ (2 * r + 1) * unit ∧
      (2 * y i = (2 * r - 1) * unit ∨ 2 * y i = (2 * r + 1) * unit → r % 2 = 0) ∧ o i = max (-7) (min r 7)) ∧
    let far := fun (k n : Nat) => (((y (2 * k)).natAbs : Int) - mag n * unit).natAbs
    (∀ k, k < 8 → b k < 8 ∧ ∀ n, n < 8 → far k (b k) ≤ far k n ∧ (far k (b k) = far k n → b k % 2 = 1 → n = b k)) ∧
    let cand := fun (k : Nat) => far k (b k) + (y (2 * k + 1)).natAbs <
      (y (2 * k) - o (2 * k) * unit).natAbs + (y (2 * k + 1) - o (2 * k + 1) * unit).natAbs
    ∃ chosen : Nat → Prop,
      (∀ k, k < 8 → (chosen k ↔ cand k ∧ ∃ ahead : List Nat, ahead.Nodup ∧ ahead.length < lim ∧ ∀ j, j ∈ ahead ↔ j < 8 ∧ cand j ∧
        ((y (2 * k)).natAbs < (y (2 * j)).natAbs ∨ ((y (2 * k)).natAbs = (y (2 * j)).natAbs ∧ j < k)))) ∧
      ∀ k, k < 8 →
        (chosen k → code (2 * k) = 8 ∧ code (2 * k + 1) = b k + if y (2 * k) < 0 then 8 else 0) ∧
        (¬chosen k → (code (2 * k) : Int) = o (2 * k) % 16 ∧ (code (2 * k + 1) : Int) = o (2 * k + 1) % 16)

/-- O22. `qblk` completes: the block scale is the smallest power of two that is at least M / fmax, or NaN (R71); every code of an E4M3 or
E5M2 block is RoundToFormat of its element over the scale (R72); the codes of a Q4O block are those of R73 with the form's outlier limit;
the scale entry has zero point 0 (R261). Every other register keeps its value. -/
def Obligations.BlockQuantisation : Prop :=
  ∀ (s : State) (c : Cur) (p : Pred) (dt st : Ty) (rm : RMode) (lim : BitVec 2) (d a : Reg),
    Stands s c (.qblk p dt st rm lim d a) → Completes s c (.qblk p dt st rm lim d a) fun g =>
      ∃ f, RunWritten c.g g (c.act p) (if dt = .q4o then 3 else 5) d.toNat f ∧ ∀ th, th < 32 → (c.act p).getLsbD th = true →
        let xs := (List.range 16).map fun i => decodeF (fmtOf st) (match st with
          | .f32 => (c.g.vget th (a.toNat + i)).toNat
          | _ => ((c.g.vget th (a.toNat + i / 2)).extractLsb' (16 * (i % 2)) 16).toNat)
        let big := fun (t : Int) => match dt with
          | .e4m3 => FVal.fin false 7 (6 + t)
          | .e5m2 => FVal.fin false 7 (13 + t)
          | _ => FVal.fin false 3 (5 + t)
        let mag := fun (x : FVal) => if x.neg then x.negate else x
        ∃ sb : Nat, sb ≤ 255 ∧ (sb = 255 ↔ ∃ x ∈ xs, x = .nan ∨ x = .inf false ∨ x = .inf true) ∧
          (sb ≠ 255 → (∀ x ∈ xs, ¬ValueLess (big (sb - 127)) (mag x)) ∧ (sb ≠ 0 → ∃ x ∈ xs, ValueLess (big (sb - 128)) (mag x))) ∧
          if dt = .q4o then
            f th 2 = BitVec.ofNat 32 sb ∧
              let code := (f th 0).toNat + 2 ^ 32 * (f th 1).toNat
              (sb = 255 → code = 0) ∧ (sb ≠ 255 → Q4Codes sb ([8, 4, 2, 0].getD lim.toNat 0) xs fun i => code / 16 ^ i % 16)
          else f th 4 = BitVec.ofNat 32 sb ∧ ∀ i, i < 16 → ((f th (i / 4)).extractLsb' (8 * (i % 4)) 8).toNat =
            if sb = 255 then 0 else roundTo (fmtOf dt) rm false (match xs.getD i .nan with
              | .fin n m e => .fin n m (e - ((sb : Int) - 127))
              | y => y)

/-- O23. `rngk` completes with the three rounds of R262, from the key and the thread's counter alone. `xsel`, `qswap` and `qbcast` complete:
each active thread takes the register, as it stands, of the thread that R263 or R264 names, in whatever state that thread is, and `xsel`
takes 0 where there is no such thread. -/
def Obligations.CounterAndExchange : Prop :=
  (∀ (s : State) (c : Cur) (p : Pred) (ty : Ty) (d a b : Reg), Stands s c (.rngk p ty d a b) →
    CompletesLane s c (.rngk p ty d a b) p false d fun th r =>
      let k := c.g.kget a.toNat
      let n := c.g.v64get th b.toNat
      let round := fun (x k : Nat) => let y := (x ^^^ k) * 0x9E3779B1 % 2 ^ 32; y ^^^ (y / 2 ^ 16)
      let x := round (round (round ((n.toNat % 2 ^ 32) ^^^ (k.toNat % 2 ^ 32)) (n.toNat / 2 ^ 32)) (k.toNat / 2 ^ 32)) 0x5851F42D
      if ty = .b32 then r.toNat = x
      else r.toNat < 2 ^ 31 ∧ Units (-149) (decodeF (fmtOf .f32) r.toNat) ((x / 2 ^ 8 : Nat) * 2 ^ 125)) ∧
  (∀ (s : State) (c : Cur) (p : Pred) (ty : Ty) (d a : Reg),
    (∀ op b, Stands s c (.xsel p ty op d a b) → CompletesLane s c (.xsel p ty op d a b) p ty.wide d fun th r =>
      let n := (c.srcB .b32 th b).toNat
      let j : Int := match op with
        | .idx => n
        | .xor => (th ^^^ n : Nat)
        | .up => (th : Int) - n
        | .down => th + n
      r = if 0 ≤ j ∧ j ≤ 31 then c.g.vread ty.wide j.toNat a.toNat else 0) ∧
    (∀ dir, Stands s c (.qswap p ty dir d a) → CompletesLane s c (.qswap p ty dir d a) p ty.wide d fun th r =>
      r = c.g.vread ty.wide (th ^^^ (match dir with
        | .h => 1 | .v => 2 | .d => 3)) a.toNat) ∧
    ∀ slot, Stands s c (.qbcast p ty slot d a) → CompletesLane s c (.qbcast p ty slot d a) p ty.wide d fun th r =>
      r = c.g.vread ty.wide (th - th % 4 + slot.toNat) a.toNat)

/-! ## Control flow -/

/-- The address of the next instruction after one that ends at an address: the last four bytes of a block are never executed (R206). -/
def after (a : Dword) : Dword := if a.toNat % 32 > 24 then a - a % 32 + 32 else a

/-- O24. `nop` gives the unit its next instruction and issues nothing; `yield` issues and goes on; `br` whose active threads are all of the
unit, or whose target is the next instruction, takes the whole unit to the target, and with no active thread to the next instruction; `brc`
takes the whole unit to the target where a thread is active and the condition holds on the 64-bit register, else on; `ipf` fills the blocks
of its range that lie in the module into its level and those outside it, and has no other effect: where the caches have room for the range,
they hold it afterwards and keep all that they held; in a full one some block gives way, by a free value (log 12, which with log 63 says what
else of a cache is the model's) (R225, R234, R235, R242, R243). -/
def Obligations.Branches : Prop :=
  ∀ (s : State) (c : Cur) (p : Pred), s.cur = some c →
    (∀ len, ∃ t es, exec (.nop len) s = .next t ∧ t = { s with groups := t.groups, sel := none } ∧ (∀ k, k ≠ c.u.grp → t.group k = s.group k) ∧
      t.group c.u.grp = some { c.g with entries := es } ∧ AMap.get? es c.u.entry = some { c.e with pc := c.u.npc, resumed := false } ∧
      ∀ j, j ≠ c.u.entry → AMap.get? es j = c.g.entry j) ∧
    Completes s c (.yield p) (· = c.g) ∧
    (∀ t : Target,
      let target := c.u.pc - c.u.pc % 32 + 32 * (match t with
        | .off24 o => o.signExtend 64 | .off32 w => w.signExtend 64 | .off64 d => d)
      (c.act p = 0 → Completes s c (.br p t) (· = c.g)) ∧
      (c.act p ≠ 0 → s.inSegment c.g.ctx c.e.mod target = true → (c.act p = c.e.mask ∨ target = after c.u.npc) →
        ∃ t', exec (.br p t) s = .next t' ∧ Issued s t' c c.g (c.goneTo target)) ∧
      ∀ cnd k,
        let x := c.g.kget k.toNat
        let holds := match cnd with
          | .nz => x ≠ 0 | .z => x = 0 | .ltz => x.toInt < 0 | .gez => 0 ≤ x.toInt
        (c.act p = 0 ∨ ¬holds → Completes s c (.brc cnd p k t) (· = c.g)) ∧
        (c.act p ≠ 0 → holds → s.inSegment c.g.ctx c.e.mod target = true →
          ∃ t', exec (.brc cnd p k t) s = .next t' ∧ Issued s t' c c.g (c.goneTo target))) ∧
    ∀ lvl a b, ∃ t u, exec (.ipf p lvl a b) s = .next t ∧ Issued u t c c.g c.goneOn ∧
      u = { s with l0 := u.l0, l1 := u.l1, l2 := u.l2, free := u.free } ∧ (c.act p = 0 → u = s) ∧ (lvl ≠ .l0 → u.l0 = s.l0) ∧
      (lvl = .l2 → u.l1 = s.l1) ∧
      let room := fun (m : AMap (BitVec 256)) (i size : Nat) =>
        (m.filter fun q => q.1 / 2 ^ 60 = i).length + ((c.g.kget a.toNat).toNat % 2 ^ 24 + 31) / 32 ≤ size
      room s.l0 (coreOf c.u.grp) (2 ^ 11) → room s.l1 (coreOf c.u.grp / 8) (2 ^ 15) → room s.l2 (coreOf c.u.grp / 64) (2 ^ 19) →
      (∀ n x, AMap.get? s.l0 n = some x → AMap.get? u.l0 n = some x) ∧ (∀ n x, AMap.get? s.l1 n = some x → AMap.get? u.l1 n = some x) ∧
      (∀ n x, AMap.get? s.l2 n = some x → AMap.get? u.l2 n = some x) ∧
      ∀ i n page, c.act p ≠ 0 → 32 * i < (c.g.kget a.toNat).toNat % 2 ^ 24 →
        let start := match b with
          | .k r => (c.u.pc + c.g.kget r.toNat) - (c.u.pc + c.g.kget r.toNat) % 32
          | .i32 w => c.u.pc - c.u.pc % 32 + 32 * w.signExtend 64
          | .i64 d => c.u.pc - c.u.pc % 32 + 32 * d
        ((List.range i).filter fun j => s.inSegment c.g.ctx c.e.mod (start + BitVec.ofNat 64 (32 * j))).length <
          (match lvl with | .l0 => 2 ^ 11 | .l1 => 2 ^ 15 | .l2 => 2 ^ 19) →
        s.fetchWhere c.g.ctx c.e.mod (start + BitVec.ofNat 64 (32 * i)) = .cell page n → s.poisoned n 32 = false →
          let core := coreOf c.u.grp
          (AMap.get? u.l2 (cacheKey (core / 64) n)).isSome ∧ (lvl ≠ .l2 → (AMap.get? u.l1 (cacheKey (core / 8) n)).isSome) ∧
            (lvl = .l0 → (AMap.get? u.l0 (cacheKey core n)).isSome)

/-- O25. A `br` that only some of the unit's threads take splits the unit (R48, R234): its entry becomes a parent, and the two lowest free
entries hold the part with the lower program counter and the other; the split is counted (counter 17), and nothing else of the group and no
other group changes. -/
def Obligations.BranchSplits : Prop :=
  ∀ (s : State) (c : Cur) (p : Pred) (t : Target) (i j : Nat), s.cur = some c →
    let target := c.u.pc - c.u.pc % 32 + 32 * (match t with
      | .off24 o => o.signExtend 64 | .off32 w => w.signExtend 64 | .off64 d => d)
    c.act p ≠ 0 → c.act p ≠ c.e.mask → target ≠ after c.u.npc → s.splitBarred c = false → s.inSegment c.g.ctx c.e.mod target = true →
    i < j → j < 64 → c.g.entry i = none → c.g.entry j = none → (∀ k, k < j → k ≠ i → (c.g.entry k).isSome) →
    ∃ t' g', exec (.br p t) s = .next t' ∧ t'.group c.u.grp = some g' ∧
      (∀ k, k ≠ c.u.grp → t'.group k = s.group k) ∧
      t' = { s with groups := t'.groups, sel := none, declined := [], known := c.knows s, lastGroup := AMap.set s.lastGroup (c.u.grp / 64) c.u.grp
                    corePmc := t'.corePmc, portHeld := AMap.del s.portHeld (c.u.grp / 64) } ∧
      g' = { c.g with
        entries := g'.entries, pmc := g'.pmc, lastIssue := s.clk.toNat, promoted := false, lastEntry := c.u.entry, first := g'.first
        lost := g'.lost, lostAt := g'.lostAt } ∧
      SMap.get g'.pmc 17 = SMap.get c.g.pmc 17 + 1 ∧
      g'.entry c.u.entry = some { c.e with st := .parent } ∧
      (∀ k, k ≠ c.u.entry → k ≠ i → k ≠ j → g'.entry k = c.g.entry k) ∧
      let taken : Entry := { c.e with pc := target, mask := c.act p, wait := 0, st := .run, target := true, parent := some c.u.entry }
      let other : Entry := { c.e with pc := after c.u.npc, mask := c.e.mask &&& ~~~c.act p, wait := 0, st := .run, parent := some c.u.entry }
      g'.entry i = some (if after c.u.npc < target then other else taken) ∧ g'.entry j = some (if after c.u.npc < target then taken else other)

/-- O26. `call`, `callm`, and `calli` of a unit all of whose threads are active and name one target, push the entry of Table 12.4 and take
the whole unit to the target; `callm` changes the current module (R236, R237, R238). The group's accesses to its spill stack are performed
before the push (R121, R273). With no active thread they go on. -/
def Obligations.Calls : Prop :=
  ∀ (s : State) (c : Cur) (p : Pred), s.cur = some c →
    (∀ t, c.act p = 0 → Completes s c (.call p t) (· = c.g)) ∧
    (∀ a b, c.act p = 0 → Completes s c (.callm p a b) (· = c.g)) ∧
    (∀ a, c.act p = 0 → Stands s c (.calli p a) → Completes s c (.calli p a) (· = c.g)) ∧
    (c.act p ≠ 0 → CallReady c → ∃ u g0, SpillDone s u c.u.grp c.g g0 ∧
      (∀ t : Target,
        let target := c.u.pc - c.u.pc % 32 + 32 * (match t with
          | .off24 o => o.signExtend 64 | .off32 w => w.signExtend 64 | .off64 d => d)
        s.inSegment c.g.ctx c.e.mod target = true → ∃ t' g', exec (.call p t) s = .next t' ∧ Pushed u t' c g0 g' (c.returnEntry 0) ∧
          g'.entry c.u.entry = some (c.goneTo target) ∧ ∀ k, k ≠ c.u.entry → g'.entry k = c.g.entry k) ∧
      (∀ a b m, s.module c.g.ctx ((c.g.kget a.toNat).extractLsb' 0 16) = some m → m.unloading = false →
        let off := ((c.g.kget b.toNat).extractLsb' 0 40).toNat
        off % 32 = 0 → off < m.len → ∃ t' g', exec (.callm p a b) s = .next t' ∧ Pushed u t' c g0 g' (c.returnEntry 2) ∧
          g'.entry c.u.entry = some { c.goneTo (m.seg + BitVec.ofNat 64 off) with mod := (c.g.kget a.toNat).extractLsb' 0 16 } ∧
          ∀ k, k ≠ c.u.entry → g'.entry k = c.g.entry k) ∧
      (∀ a target, Stands s c (.calli p a) → c.act p = c.e.mask →
        (∀ th, th < 32 → (c.act p).getLsbD th = true → c.g.v64get th a.toNat = target) →
        s.inSegment c.g.ctx c.e.mod target = true → ∃ t' g', exec (.calli p a) s = .next t' ∧ Pushed u t' c g0 g' (c.returnEntry 1) ∧
          g'.entry c.u.entry = some (c.goneTo target) ∧ ∀ k, k ≠ c.u.entry → g'.entry k = c.g.entry k))

/-- O27. `calli` otherwise splits its unit by target (R238): the entry becomes a parent; each distinct target has one new entry with its
threads, ready where the target is the smallest, and else held for the threads of the next smaller target; the threads that are not active
wait at RETPC in a new entry of their own. -/
def Obligations.CalliSplits : Prop :=
  ∀ (s : State) (c : Cur) (p : Pred) (a : Reg), Stands s c (.calli p a) → c.act p ≠ 0 → CallReady c →
    let target := fun th => c.g.v64get th a.toNat
    let active := fun th => th < 32 ∧ (c.act p).getLsbD th = true
    (∀ th, active th → s.inSegment c.g.ctx c.e.mod (target th) = true) → s.splitBarred c = false →
    ¬(c.act p = c.e.mask ∧ ∀ th u, active th → active u → target th = target u) →
    ((List.range 32).filter fun th => (c.act p).getLsbD th).length < ((List.range 64).filter fun k => (c.g.entry k).isNone).length →
    ∃ u g0 t g', SpillDone s u c.u.grp c.g g0 ∧ exec (.calli p a) s = .next t ∧ Pushed u t c g0 g' (c.returnEntry 1) ∧
      g'.entry c.u.entry = some { c.e with st := .parent } ∧
      (∀ k, k ≠ c.u.entry → (c.g.entry k).isSome → g'.entry k = c.g.entry k) ∧
      (∀ th, active th → ∃ k e, g'.entry k = some e ∧ c.g.entry k = none ∧ e.pc = target th ∧ e.mask.getLsbD th = true) ∧
      (∀ k e, g'.entry k = some e → c.g.entry k = none → e.parent = some c.u.entry ∧ e.mod = c.e.mod ∧
        ((∃ th, active th ∧ e.pc = target th ∧ e.target = true ∧
            (∀ u, u < 32 → (e.mask.getLsbD u = true ↔ active u ∧ target u = target th)) ∧
            (e.st = .run ∧ (∀ u, active u → ¬target u < target th) ∨
              ∃ v after, active v ∧ target v < target th ∧ (∀ u, active u → target u < target th → ¬target v < target u) ∧
                (∀ u, u < 32 → (after.getLsbD u = true ↔ active u ∧ target u = target v)) ∧ e.st = .held c.e.mask after)) ∨
          e.pc = (c.returnEntry 1).retpc ∧ e.st = .atRet ∧ e.mask = c.e.mask &&& ~~~c.act p ∧ e.mask ≠ 0)) ∧
      (∀ j k d e, j < k → g'.entry j = some d → g'.entry k = some e → c.g.entry j = none → c.g.entry k = none → ¬e.pc < d.pc)

/-- O28. `ret` waits for its matched entry, `join` at its parent, and `exit` ends the active threads of the unit; each issues, and then its
group's units return, fuse and end by one operation, of which the next statement says what it does. With no parent, `join` goes on; with no
active thread, `exit` does. -/
def Obligations.ReturnJoinExit : Prop :=
  ∀ (s : State) (c : Cur), s.cur = some c →
    (∃ u g0, SpillDone s u c.u.grp c.g g0 ∧ ∀ q, matchRas (u.ras c.u.grp g0) c.e.mask = some q → c.g.badReturn q.2 = false →
      ∃ t, exec .ret s = .next (t.afterMove c.u.grp) ∧ Issued u t c g0 { c.e with st := .atRet, wait := 0 }) ∧
    (c.e.parent = none → Completes s c .join (· = c.g)) ∧
    (c.e.parent ≠ none → ∃ t, exec .join s = .next (t.afterMove c.u.grp) ∧ Issued s t c c.g { c.e with st := .atJoin, wait := 0 }) ∧
    ∀ p, (c.act p = 0 → Completes s c (.exit p) (· = c.g)) ∧
      (c.act p ≠ 0 → ∃ t, exec (.exit p) s = .next (t.afterMove c.u.grp) ∧
        Issued s t c c.g { c.goneOn with mask := c.e.mask &&& ~~~c.act p })

/-- O29. What returns, joins and exits lead to (R46, R49, R239, R240, R241). Where an unsplit group returns, the unit resumes at RETPC in the
module of its newest entry, and that entry is gone, whether or not older ones have spilled. Where the units of a split group, in one level or
more, all wait at a `ret` that the newest entry matches, and the last unit gets there or exits, they resume as one unit in the entry of the
call, with the entries descended from it freed. Where the children of a parent all wait at one `join`, they fuse into their parent's entry,
which goes on behind the `join`, also when the last of the others exits; where they wait at several, those at each fuse and go on; the other
entries of the group stay. A return entry whose threads have all exited is removed. A group of which no thread is left has ended; with its
last group a block with nothing in the engines ends too. -/
def Obligations.ReturnsAndJoins : Prop :=
  ∀ (s : State) (c : Cur), s.cur = some c → c.e.mask ≠ 0 → StackReady s c →
    let stack := s.ras c.u.grp c.g
    -- an unsplit group
    (c.g.entries = [(0, c.e)] → c.u.entry = 0 → c.e.parent = none → c.e.st = .run →
      (∀ r l, stack = r :: l → r.entry = 0 → (∀ x ∈ stack, c.e.mask &&& ~~~x.mask = 0) →
        ∃ t g', exec .ret s = .next t ∧ t.group c.u.grp = some g' ∧ t.ras c.u.grp g' = l ∧ g'.ras = l.take 16 ∧
          (∀ a, SMap.get t.mem a = SMap.get s.mem a) ∧
          g'.entries = [(0, { c.e with pc := r.retpc, mod := r.modid, st := .run, target := true, wait := 0 })]) ∧
      (∀ p, c.act p ≠ 0 → c.act p ≠ c.e.mask → ∃ t g', exec (.exit p) s = .next t ∧ t.group c.u.grp = some g' ∧
        g'.entries = [(0, { c.goneOn with mask := c.e.mask &&& ~~~c.act p })] ∧
        t.ras c.u.grp g' = stack.filter fun r => r.mask &&& (c.e.mask &&& ~~~c.act p) != 0) ∧
      (∀ p, c.act p = c.e.mask → c.g.taskOpen = false → s.blockRuns c.g = true →
        ((∃ k x, k ≠ c.u.grp ∧ s.group k = some x ∧ x.block = c.g.block ∧ x.entries ≠ []) →
          ∃ t g', exec (.exit p) s = .next t ∧ t.group c.u.grp = some g' ∧ g'.entries = [] ∧ g'.ras = [] ∧ g'.spilled = 0 ∧ g'.work = .none ∧
            g'.fetch = none ∧ (∀ k, k ≠ c.u.grp → t.group k = s.group k) ∧ t.blocks = s.blocks ∧ t.mem = s.mem ∧
            (∀ n x, AMap.get? t.tiles n = some x → x.holder ≠ some c.u.grp) ∧ ∀ r ∈ t.tokens, r.1 ≠ c.u.grp) ∧
        ((∀ q ∈ s.groups, q.2.block = c.g.block → q.1 = c.u.grp) → (s.blockOf c.g).isSome = true → s.engineBusy c.g.block = false →
          (∀ q ∈ s.parked, q.2.block = c.g.block → q.2.dead = true) → ∃ t, exec (.exit p) s = .next t ∧ AMap.get? t.blocks c.g.block = none ∧
            t.group c.u.grp = none))) ∧
    -- a split one
    ∀ d, SplitGroup c d →
      let others := c.g.units.filter fun q => q.1 != c.u.entry
      let goes := fun (i : Instr) (ok : State → Group → Prop) => ∃ t g', exec i s = .next t ∧ t.group c.u.grp = some g' ∧ ok t g' ∧
        ∀ k, k ≠ c.u.grp → t.group k = s.group k
      (∀ r l, stack = r :: l → r.entry = 0 → (∀ q ∈ others, q.2.st = .atRet) → (∀ x ∈ stack, threadsOf c.g.units &&& ~~~x.mask = 0) →
        let back := fun (m : Word) (t : State) (g' : Group) => t.ras c.u.grp g' = l ∧ ∃ e, g'.entries = [(0, e)] ∧ e.pc = r.retpc ∧ e.mod = r.modid ∧
          e.target = true ∧ e.st = .run ∧ e.parent = none ∧ e.mask = m
        goes .ret (back (threadsOf c.g.units)) ∧
        ∀ p, c.e.st = .run → c.act p = c.e.mask → threadsOf others &&& c.e.mask = 0 → others ≠ [] → goes (.exit p) (back (threadsOf others))) ∧
      (∀ p pe, stack = [] → c.e.parent = some p → c.g.entry p = some pe →
        let kids := c.g.children p
        let rest := kids.filter fun q => q.1 != c.u.entry
        (∀ q ∈ rest, q.2.st = .atJoin) → (∀ q ∈ c.g.units, q.2.parent ≠ some p → q.2.st = .run) →
        let fused := fun (pc : Dword) (m : Word) (_ : State) (g' : Group) => ∃ e,
          g'.entries = AMap.set (c.g.entries.filter fun q => q.2.parent != some p) p e ∧ e.pc = pc ∧ e.st = .run ∧ e.parent = pe.parent ∧ e.mask = m
        ((∀ q ∈ rest, q.2.pc = c.u.pc) → goes .join (fused (c.u.pc + 8) (threadsOf kids))) ∧
        (∀ m q, c.e.st = .run → c.act m = c.e.mask → q ∈ rest → (∀ x ∈ rest, x.2.pc = q.2.pc) →
          goes (.exit m) (fused (q.2.pc + 8) (threadsOf rest))) ∧
        ((∃ q ∈ rest, q.2.pc ≠ c.u.pc) → goes .join fun _ g' =>
          (∀ k e, e.parent ≠ some p → (g'.entry k = some e ↔ c.g.entry k = some e)) ∧
          (∀ q ∈ kids, ∃ k e, g'.entry k = some e ∧ e.pc = q.2.pc + 8 ∧ e.st = .run ∧ e.parent = some p ∧
            e.mask = threadsOf (kids.filter fun x => x.2.pc = q.2.pc)) ∧
          (∀ k e, g'.entry k = some e → e.parent = some p → ∃ q ∈ kids, e.pc = q.2.pc + 8) ∧
          ∀ j k e f, g'.entry j = some e → g'.entry k = some f → e.parent = some p → f.parent = some p → e.pc = f.pc → j = k))

/-! ## Memory -/

/-- O30. `ld.sh`, `st.sh`, `ld.sp`, `st.sp` and `bld` complete their issue where the address of every active thread is a multiple of the
width and within its space (R270, R271, R312): the access is in flight with one lane for each active thread, helper threads left out where
it writes, at the byte of the block's shared memory, of the group's spill stack or of the core's B-plane window, and a store holds the data
of its run as they stand at issue. It is counted on f8 where it writes and its clause names f8. No register and no memory changes at issue. -/
def Obligations.LocalAccessesIssue : Prop :=
  ∀ (s : State) (c : Cur) (p : Pred) (ty : Ty) (n : Cnt) (d a k : Reg) (off : OffB) (l : Launch) (b : Block),
    s.launch c.g.launch = some l → s.blockOf c.g = some b → c.act p ≠ 0 →
    let w : Nat := match ty with
      | .b32 => 4 * n.num | .b64 => 8 * n.num | .i16 | .n16 => 2 | _ => 1
    let addr := fun th => ((c.g.vget th a.toNat).toNat : Int) + c.offset off
    let legal := fun (top : Nat) => ∀ th, th < 32 → (c.act p).getLsbD th = true → 0 ≤ addr th ∧ addr th % w = 0 ∧ addr th + w ≤ top
    let shared := fun th => let x := (addr th).toNat; cellShared (b.core + x / l.shmem) (b.shBase.getD (x / l.shmem) 0 + x % l.shmem)
    let spill := fun th => cellSpill (coreOf c.u.grp) (c.g.spBase + (addr th).toNat)
    let load := fun (i : Instr) cell => ∃ t x, exec i s = .next t ∧ AccessIssued s t c x [] ∧ IssuedBy s c p x .load w ∧ x.ty = ty ∧ x.dst = d ∧
      x.counted = false ∧ x.need = [] ∧ x.scratch = false ∧ LanesAt c p false x cell
    let store := fun (i : Instr) kind cell => ∃ t x, exec i s = .next t ∧ AccessIssued s t c x [] ∧ IssuedBy s c p x kind w ∧
      x.counted = c.e.clause.names 8 ∧ x.need = [] ∧ x.logs = false ∧ x.scratch = false ∧ LanesAt c p true x cell ∧ LanesHold c x k w
    (Stands s c (.ldSh p ty n d a off) → legal (b.span * l.shmem) → load (.ldSh p ty n d a off) shared) ∧
    (Stands s c (.stSh p ty n a off k) → legal (b.span * l.shmem) → store (.stSh p ty n a off k) .store shared) ∧
    (Stands s c (.ldSp p ty n d a off) → legal c.g.spSize → load (.ldSp p ty n d a off) spill) ∧
    (Stands s c (.stSp p ty n a off k) → legal c.g.spSize → store (.stSp p ty n a off k) .store spill) ∧
    (Stands s c (.bld p ty n a off k) → legal (2 ^ 22) →
      (∀ th, th < 32 → (c.act p).getLsbD th = true → addr th % 2 ^ 14 + w ≤ l.bpd) →
      store (.bld p ty n a off k) .bld fun th =>
        cellBplane (coreOf c.u.grp) ((addr th).toNat / 2 ^ 14) ((b.bpBase.getD (coreOf c.u.grp - b.core) 0) + (addr th).toNat % 2 ^ 14))

/-- O31. `sld`, `sst` and `atom` complete their issue where every active thread's bytes are aligned and within the scratchpad, no page of
theirs is refused (R355, R384), and the claims of the launch refuse nothing (R369, R370): the access is in flight, waits for the sets that
its task must acquire (R188), and comes after what its order demands, a release after all of the unit's accesses and the stores of its group
and its core that it may have seen (R126). While an access of the unit to an SC page is in flight, one that touches an SC page does not issue: its unit waits (R129). -/
def Obligations.ScratchpadAccessesIssue : Prop :=
  ∀ (s : State) (c : Cur) (p : Pred) (ty : Ty) (d a k : Reg) (off : OffB) (i : Instr) (w : Nat) (kind : AccessKind) (writes logs : Bool)
    (need words : List Nat), Stands s c i → c.act p ≠ 0 →
    (∃ n : Cnt, (w = match ty with
        | .b32 => 4 * n.num | .b64 => 8 * n.num | .i16 | .n16 => 2 | _ => 1) ∧
      (i = .sld p ty n d a off ∧ kind = .load ∧ writes = false ∧ logs = false ∨
        i = .sst p ty n a off k ∧ kind = .store ∧ writes = true ∧ logs = true)) ∨
      (∃ op o sc, i = .atom p op ty o sc d a off k ∧ kind = .atom op ∧ w = ty.size ∧ writes = true ∧ logs = (op != .ld)) →
    let addr := fun th => ((c.g.vget th a.toNat).toNat : Int) + c.offset off
    let touches : List Touch := ((List.range 32).filter (c.takesPart p writes)).map fun th => ⟨th, (addr th).toNat, w, logs⟩
    (∀ th, th < 32 → (c.act p).getLsbD th = true → 0 ≤ addr th ∧ addr th % w = 0 ∧ addr th + w ≤ 0x1E000000) →
    (∀ q ∈ touches, s.touchIllegal c.g q = false ∧ s.pieceIllegal c.g q.addr w = false ∧ s.pageFault c.g.ctx q.addr w writes = none ∧
      (w = 16 → s.scPage q.addr = false)) →
    (s.claimVerdict c.u.grp c.g touches = .ok need words ∨ s.claimVerdict c.u.grp c.g touches = .none ∧ need = [] ∧ words = []) →
    let onSC := ∃ q ∈ touches, s.scPage q.addr = true
    let scOut := ∃ id q, (id, q) ∈ s.accesses ∧ q.grp = c.u.grp ∧ q.unit &&& c.act p ≠ 0 ∧ q.sc = true
    (onSC → scOut → exec i s = .next { s with sel := none, declined := (c.u.grp, c.u.entry) :: s.declined }) ∧
    (¬(onSC ∧ scOut) → ∃ t x, exec i s = .next t ∧ AccessIssued s t c x words ∧ IssuedBy s c p x kind w ∧ x.ty = ty ∧ (kind ≠ .store → x.dst = d) ∧
      x.need = need ∧ x.scratch = true ∧ x.counted = (writes && c.e.clause.names 8) ∧ x.zero = (if kind = .load ∨ kind = .store then 0 else c.act p &&& c.g.helper) ∧
      LanesAt c p writes x (fun th => s.scrCell (addr th).toNat) ∧ (∀ l ∈ x.lanes, l.addr = (addr l.thr).toNat ∧ l.home = s.homePage l.addr) ∧
      (kind = .store → LanesHold c x k w) ∧
      (∀ op, kind = .atom op → LanesHold c x k (if op = .cas then 2 * w else w)) ∧
      (x.sc = true ↔ onSC) ∧
      (∀ id q, (id, q) ∈ s.accesses → q.grp = c.u.grp → q.unit &&& c.act p ≠ 0 → q.acq = true → id ∈ x.after) ∧
      ∀ op o sc, i = .atom p op ty o sc d a off k → x.acq = (o = .acq || o = .ar) ∧ x.scope = sc ∧ x.cum = (o = .rel || o = .ar) ∧
        (x.near = true ↔ x.cum = true ∧ (sc = .grp ∨ sc = .blk ∧ ∃ b, s.blockOf c.g = some b ∧ b.span = 1)) ∧
        (o = .rel ∨ o = .ar → (∀ id q, (id, q) ∈ s.accesses → q.grp = c.u.grp → q.unit &&& c.act p ≠ 0 ∨ q.kind = .store → id ∈ x.after) ∧
          ∀ id q, id ∈ s.forwarded → AMap.get? s.accesses id = some q → q.core = coreOf c.u.grp → id ∈ x.after))

/-- O32. Where the address of some active thread of `ld.sh`, `st.sh`, `ld.sp`, `st.sp`, `sld`, `sst`, `bld` or `atom` is misaligned or
outside its space, the unit takes the illegal-use trap, whose record names the address of the instruction; no access is made. Where the
addresses of `sld`, `sst` or `atom` are in order and their claims refuse nothing, the lowest thread whose page may not be used takes a memory
fault with that thread's address: SUB 1 where the page is not valid, 2 where the context may not use it, 3 where an `sst` or an `atom` meets
a read-only page or an owner array (Table 20.2, R384). -/
def Obligations.IllegalAddressTraps : Prop :=
  ∀ (s : State) (c : Cur) (p : Pred) (ty : Ty) (n : Cnt) (d a k : Reg) (off : OffB) (l : Launch) (b : Block) (th : Nat),
    s.launch c.g.launch = some l → s.blockOf c.g = some b → th < 32 → (c.act p).getLsbD th = true →
    let w : Nat := match ty with
      | .b32 => 4 * n.num | .b64 => 8 * n.num | .i16 | .n16 => 2 | _ => 1
    let addr := fun th => ((c.g.vget th a.toNat).toNat : Int) + c.offset off
    let x := addr th
    let bad := fun (w top : Nat) => x < 0 ∨ x % w ≠ 0 ∨ top < x + w
    let traps := fun (i : Instr) => Stands s c i → ∃ r : TrapRec, exec i s = .next { s.takeTrap c.u.grp c.u.entry r with sel := none } ∧
      r.cause = 2 ∧ r.sub = 0 ∧ r.code = 0 ∧ r.pc = c.u.pc ∧ r.thr.getLsbD th = true ∧ r.thr &&& ~~~c.act p = 0 ∧ r.late = false
    (bad w (b.span * l.shmem) → traps (.ldSh p ty n d a off) ∧ traps (.stSh p ty n a off k)) ∧
    (bad w c.g.spSize → traps (.ldSp p ty n d a off) ∧ traps (.stSp p ty n a off k)) ∧
    (bad w 0x1E000000 → traps (.sld p ty n d a off) ∧ traps (.sst p ty n a off k)) ∧
    (bad ty.size 0x1E000000 → ∀ op o sc, traps (.atom p op ty o sc d a off k)) ∧
    (bad w (2 ^ 22) ∨ 0 ≤ x ∧ (l.bpd : Int) < x % 2 ^ 14 + w → traps (.bld p ty n a off k)) ∧
    -- pages
    (let ends := fun (i : Instr) (w : Nat) (writes logs : Bool) =>
       let touches : List Touch := ((List.range 32).filter (c.takesPart p writes)).map fun u => ⟨u, (addr u).toNat, w, logs⟩
       let e := fun (u : Nat) => s.attr (addr u).toNat
       let held := fun (u : Nat) => patRO (e u) = true ∨ s.inOwnerArray (addr u).toNat w = true
       let passes := fun (u : Nat) => patValid (e u) = true ∧ patPermits (e u) c.g.ctx = true ∧ (writes = true → ¬held u)
       Stands s c i → (∀ u, u < 32 → (c.act p).getLsbD u = true → 0 ≤ addr u ∧ addr u % w = 0 ∧ addr u + w ≤ 0x1E000000) →
       (∀ q ∈ touches, s.touchIllegal c.g q = false ∧ s.pieceIllegal c.g q.addr w = false ∧ (w = 16 → s.scPage q.addr = false)) →
       (s.claimVerdict c.u.grp c.g touches = .none ∨ ∃ x y, s.claimVerdict c.u.grp c.g touches = .ok x y) →
       c.takesPart p writes th = true → ¬passes th → (∀ u, u < th → c.takesPart p writes u = true → passes u) →
       ∃ r : TrapRec, exec i s = .next { s.takeTrap c.u.grp c.u.entry r with sel := none } ∧ r.cause = 3 ∧ r.pc = c.u.pc ∧
         r.sub = (if patValid (e th) = false then 1 else if patPermits (e th) c.g.ctx = false then 2 else 3) ∧ r.addr = BitVec.ofInt 64 x ∧
         r.thr.getLsbD th = true ∧ r.thr &&& ~~~c.act p = 0 ∧ r.late = false
     ends (.sld p ty n d a off) w false false ∧ ends (.sst p ty n a off k) w true true ∧
     ∀ op o sc, ends (.atom p op ty o sc d a off k) ty.size true (op != .ld))

/-- O33. A fence issues, and its unit waits for exactly those accesses in flight that it orders before later ones (log 9): for `.acq` the
unit's loads and atomics; for the other kinds all of the unit's accesses, and the stores of its group and those that its core's agents have
come to see (R125, R278). A fence whose scope lies on its core, `.grp`, or `.blk` for a block of one core, waits for stores only until they
are visible there (R118, R122). A fence of kind `.ar` orders no earlier store before a later load: it acquires as soon as its loads and
atomics are performed. With no active thread, the unit goes on. -/
def Obligations.FencesWait : Prop :=
  ∀ (s : State) (c : Cur) (p : Pred) (kind : FenceKind) (sc : Scope), Stands s c (.fence p kind sc) →
    (c.act p = 0 → Completes s c (.fence p kind sc) (· = c.g)) ∧
    (c.act p ≠ 0 → ∃ t ids near, exec (.fence p kind sc) s = .next (t.acquireEarly c.u.grp) ∧
      Issued s t c c.g { c.goneOn with st := .atFence ids near (kind != .acq) (if kind = .rel then none else some sc) (kind = .ar) } ∧
      (near = true ↔ sc = .grp ∨ sc = .blk ∧ ∃ b, s.blockOf c.g = some b ∧ b.span = 1) ∧
      (∀ id, id ∈ ids ↔ (∃ q, (id, q) ∈ s.accesses ∧ q.grp = c.u.grp ∧ q.unit &&& c.act p ≠ 0 ∧ (kind = .acq → q.kind = .load ∨ ∃ op, q.kind = .atom op)) ∨
        kind ≠ .acq ∧ ((∃ q, (id, q) ∈ s.accesses ∧ q.grp = c.u.grp ∧ q.kind = .store) ∨
          id ∈ s.forwarded ∧ ∃ q, AMap.get? s.accesses id = some q ∧ q.core = coreOf c.u.grp)) ∧
      ∀ (u : State) g e cum acq early, e.st = .atFence ids near cum acq early → (u.waitOver c.u.grp g e = true ↔
        ∀ id ∈ ids, AMap.get? u.accesses id = none ∨
          near = true ∧ id ∈ u.forwarded ∧ ∃ q, AMap.get? u.accesses id = some q ∧ ∀ l ∈ q.lanes, l.home = false)) ∧
    ∀ grp g, s.group grp = some g → (g.entries.map Prod.fst).Nodup → ∃ t g', t = s.acquireEarly grp ∧
      t = { s with groups := t.groups, known := t.known } ∧ (∀ k, k ≠ grp → t.group k = s.group k) ∧ t.group grp = some g' ∧
      g' = { g with entries := g'.entries } ∧ (∀ j, g'.entry j = (g.entry j).map (Entry.early s)) ∧
      ∀ j e ids near cum th, g.entry j = some e → e.st = .atFence ids near cum (some sc) true → (e.early s).st ≠ e.st → sc = .dev ∨ sc = .sys →
        th < 32 → e.mask.getLsbD th = true → s.past ≠ [] → ∃ k, AMap.get? t.known (32 * grp + th) = some k ∧ s.past.length ≤ k.dev

/-- O34. LOAD_REPLY: a load that nothing holds back binds, in every lane whose thread has not ended, the bytes of its lane, little-endian
and extended to its registers (R271); every other register and all memory stay, and the load leaves flight; what waits for it as a release
waits also for the stores that it may have seen (R126). A lane at its home reads memory. Elsewhere it reads memory where no store that its
group sees meets it, and a store that meets it alone and covers it gives it its bytes (R122); where the orders of 06 allow it (log 9), each
of its 8-byte units (R119) may read the bytes that the newest write replaced. A spawn's read pushes its record onto the queue (R291). -/
def Obligations.LoadsBind : Prop :=
  ∀ (s : State) (id : Nat) (a : Access) (g : Group), AMap.get? s.accesses id = some a → s.mayPerform id a = true →
    s.accessPoisoned id a = false → s.group a.grp = some g → g.entries ≠ [] → s.blockRuns g = true →
    -- the stores that the load's group sees
    let seen := fun (k : Nat) (q : Access) => (k, q) ∈ s.accesses ∧
      ((k ∈ s.forwarded ∧ q.core = a.core) ∨ (k ∉ s.forwarded ∧ q.kind = .store ∧ q.grp = a.grp ∧ k < id))
    let clear := fun (l : LaneAccess) => ∀ k q, seen k q → ∀ w ∈ q.lanes, w.home = false → overlap w.cell q.n l.cell a.n = false
    (∀ back, a.kind = .load → s.mayMiss back a = true → a.counted = false → a.dst.toNat + max 1 (a.n / 4) ≤ 256 → (a.lanes.map (·.thr)).Nodup →
      (∀ l ∈ a.lanes, l.thr < 32) → (g.entries.map Prod.fst).Nodup →
      ∃ t g' obs, exec (.loadReply ⟨id, back⟩) s = .next t ∧
        t = { s with groups := t.groups, accesses := t.accesses, launches := t.launches, known := t.known, forwarded := s.forwarded.filter (· != id) } ∧
        (∀ i, i ∈ obs ↔ (∃ q, (i, q) ∈ s.accesses ∧ q.grp = a.grp ∧ q.kind = .store) ∨
          i ∈ s.forwarded ∧ ∃ q, AMap.get? s.accesses i = some q ∧ q.core = coreOf a.grp) ∧ AMap.get? t.accesses id = none ∧
        (∀ k, k ≠ id → AMap.get? t.accesses k = (AMap.get? s.accesses k).map fun x =>
          if x.cum = true ∧ id ∈ x.after then { x with after := x.after ++ obs } else x) ∧
        (∀ k, t.launch k = (s.launch k).map fun l => { l with
          releases := l.releases.map fun r => (r.1, r.2.1, (if id ∈ r.2.2 then r.2.2 ++ obs else r.2.2).filter (· != id)) }) ∧
        (∀ k, k ≠ a.grp → t.group k = s.group k) ∧ t.group a.grp = some g' ∧ g' = { g with v := g'.v, entries := g'.entries } ∧
        (∀ j, g'.entry j = (g.entry j).map fun e => Entry.early t (match e.st with
          | .atFence ids near true acq early => if id ∈ ids then { e with st := .atFence (ids ++ obs) near true acq early } else e
          | _ => e)) ∧
        (∀ th m, th < 32 → m < 256 → ¬((∃ l ∈ a.lanes, l.thr = th) ∧ g.ended.getLsbD th = false ∧ a.dst.toNat ≤ m ∧
          m < a.dst.toNat + max 1 (a.n / 4)) → g'.vget th m = g.vget th m) ∧
        ∀ i l, a.lanes[i]? = some l → g.ended.getLsbD l.thr = false → ∃ bs : List Byte, bs.length = a.n ∧
          -- unit number u of the load, m bytes from o on
          (∀ u o m, (a.n ≠ 16 ∧ u = 2 * i ∧ o = 0 ∧ m = a.n) ∨ (a.n = 16 ∧ m = 8 ∧ (u = 2 * i ∧ o = 0 ∨ u = 2 * i + 1 ∧ o = 8)) →
            let part := (bs.drop o).take m
            (l.home = true → part = Memory.read s.mem (l.cell + o) m) ∧
            (l.home = false → clear l → back.getD u 0 = 0 → part = Memory.read s.mem (l.cell + o) m) ∧
            (l.home = false → clear l → back.getD u 0 = 1 → 0 < m → ∀ w r, s.past = w :: r → w.cell = l.cell + o → w.len = m → part = w.old) ∧
            (l.home = false → ∀ k q, seen k q → AMap.get? s.accesses k = some q → ∀ w ∈ q.lanes, w.home = false → w.cell = l.cell → q.n = a.n →
              a.n ≤ 16 → (∀ k' q', seen k' q' → ∀ w' ∈ q'.lanes, w'.home = false →
                (k', q', w') = (k, q, w) ∨ overlap w'.cell q'.n l.cell a.n = false) →
              part = (List.range m).map fun i => w.data.extractLsb' (8 * (o + i)) 8)) ∧
          let x := leNat bs
          match a.ty with
          | .i8 => g'.vget l.thr a.dst.toNat = (BitVec.ofNat 8 x).signExtend 32
          | .i16 => g'.vget l.thr a.dst.toNat = (BitVec.ofNat 16 x).signExtend 32
          | .n8 | .n16 => g'.vget l.thr a.dst.toNat = BitVec.ofNat 32 x
          | _ => ∀ i, i < a.n / 4 → g'.vget l.thr (a.dst.toNat + i) = BitVec.ofNat 32 (x / 2 ^ (32 * i))) ∧
    (∀ back, a.kind = .load → s.mayMiss back a = false → exec (.loadReply ⟨id, back⟩) s = .next s) ∧
    (∀ back q tq l, a.kind = .spawn q → a.counted = false → AMap.get? s.taskQueues q = some tq → a.lanes = [l] → l.home = true ∨ clear l →
      ∃ t, exec (.loadReply ⟨id, back⟩) s = .next t ∧ LeftFlight s t id ∧
        t = { s with taskQueues := t.taskQueues, age := s.age + 1, groups := t.groups, accesses := t.accesses, launches := t.launches
                     forwarded := t.forwarded } ∧
        (∀ k, t.group k = s.group k) ∧ (∀ k, k ≠ q → AMap.get? t.taskQueues k = AMap.get? s.taskQueues k) ∧
        AMap.get? t.taskQueues q = some { tq with
          recs := tq.recs ++ [recStamp (BitVec.ofNat 256 (leNat (Memory.read s.mem l.cell a.n))) s.age false false] })

/-- O35. STORE_PERFORM and BLD_PERFORM: a store that nothing holds back writes the bytes of each lane, the highest lane last, and no other
byte of memory; it leaves flight, and f8 counts it off (R211, R271, R312); what it replaced in shared memory or on an ordinary scratchpad
page is noted, since threads of other groups may go on reading it (log 9). A scratchpad store may become visible on its core first (R122). (A
store to claim-tracked words of its task or to a watched page also logs: it is not of this statement.) -/
def Obligations.StoresPerform : Prop :=
  ∀ (s : State) (id : Nat) (a : Access) (g : Group), AMap.get? s.accesses id = some a →
    (s.mayPerform id a = true → s.group a.grp = some g → g.entries ≠ [] → s.blockRuns g = true → a.logs = false →
      (a.scratch = true → ∀ l ∈ a.lanes, patWatch (s.attr l.addr) = false) →
      ∀ i, a.kind = .store ∧ i = .storePerform ⟨id, true⟩ ∨ a.kind = .bld ∧ s.mmaAhead id a.grp = false ∧ i = .bldPerform id →
      ∃ t, exec i s = .next t ∧ LeftFlight s t id ∧
        t = { s with groups := t.groups, accesses := t.accesses, launches := t.launches, mem := t.mem, poison := t.poison, past := t.past
                     forwarded := s.forwarded.filter (· != id) } ∧
        (∀ k, k ≠ a.grp → t.group k = s.group k) ∧
        t.group a.grp = some (if a.counted then g.countDown 8 else g) ∧
        (∀ x, (∀ l ∈ a.lanes, ¬(l.cell ≤ x ∧ x < l.cell + a.n)) → SMap.get t.mem x = SMap.get s.mem x) ∧
        (∀ u l v, a.lanes = u ++ l :: v → (∀ m ∈ v, overlap l.cell a.n m.cell a.n = false) →
          CellsHold t l.cell a.n fun j => l.data.extractLsb' (8 * j) 8) ∧
        -- each 8-byte unit is noted by itself
        let note := fun (x n : Nat) => if 2 * 2 ^ 56 ≤ x ∧ x < 4 * 2 ^ 56 then
          [{ cell := x, len := n, old := Memory.read s.mem x n, core := coreOf a.grp, grp := a.grp, block := g.block, near := s.forwarded.contains id :
              PastWrite }] else []
        ∀ l, a.lanes = [l] → t.past = (if l.home = true then [] else if a.n = 16 then note (l.cell + 8) 8 ++ note l.cell 8 else note l.cell a.n) ++
          s.past) ∧
    (a.kind = .store → a.scratch = true → a.need = [] → id ∉ s.forwarded → (∀ k ∈ a.after, s.over a.near k = true) →
      (∀ k q, (k, q) ∈ s.accesses → k < id → q.grp = a.grp → k ∉ s.forwarded → q.meets a = false) →
      exec (.storePerform ⟨id, false⟩) s = .next { s with forwarded := s.forwarded ++ [id] })

/-- O36. ATOMIC_AT_HOME: the threads that name one location take their places in the order of their lanes (R276): the first receives the old
value, each other one the value that the place before it left, and the location is left with the last; an integer place is Table 14.2's new
value, and a place of a float sum is the one rounding of the exact sum of all before it. A helper thread receives 0 (R38). `.ld` writes
nothing; no other byte of memory and no other register changes. -/
def Obligations.AtomicsAtHome : Prop :=
  ∀ (s : State) (id : Nat) (a : Access) (g : Group) (op : AtomOp), AMap.get? s.accesses id = some a → s.mayPerform id a = true →
    s.accessPoisoned id a = false → s.group a.grp = some g → g.entries ≠ [] → s.blockRuns g = true → a.kind = .atom op → a.logs = false →
    a.n = a.ty.size →
    a.ty ∈ [Ty.i32, .n32, .i64, .n64, .b32, .b64, .f32, .f64] → (a.ty ∈ [Ty.f32, .f64] → op = .add) →
    (a.scratch = true → ∀ l ∈ a.lanes, patWatch (s.attr l.addr) = false) → a.dst.toNat + (if a.ty.wide then 2 else 1) ≤ 256 →
    (a.lanes.map (·.thr)).Nodup → (∀ l ∈ a.lanes, l.thr < 32 ∧ a.zero.getLsbD l.thr = false) → (g.entries.map Prod.fst).Nodup →
    (∀ l ∈ a.lanes, ∀ m ∈ a.lanes, l.cell = m.cell ∨ overlap l.cell a.n m.cell a.n = false) →
    ∃ t g', exec (.atomicAtHome id) s = .next t ∧ LeftFlight s t id ∧
      t = { s with groups := t.groups, accesses := t.accesses, launches := t.launches, mem := t.mem, poison := t.poison, past := t.past
                   known := t.known, forwarded := s.forwarded.filter (· != id) } ∧
      (a.acq = true → a.scope = .dev ∨ a.scope = .sys → t.past ≠ [] → ∀ th, th < 32 → a.unit.getLsbD th = true →
        ∃ k, AMap.get? t.known (32 * a.grp + th) = some k ∧ t.past.length ≤ k.dev) ∧
      (∀ k, k ≠ a.grp → t.group k = s.group k) ∧ t.group a.grp = some g' ∧
      g' = { (if a.counted then g.countDown 8 else g) with v := g'.v, entries := g'.entries } ∧
      (∀ j, g'.entry j = (g.entry j).map (Entry.early t)) ∧
      (∀ x, (∀ l ∈ a.lanes, ¬(l.cell ≤ x ∧ x < l.cell + a.n)) → SMap.get t.mem x = SMap.get s.mem x) ∧
      (∀ th m, th < 32 → m < 256 → ¬(((∃ l ∈ a.lanes, l.thr = th) ∨ a.zero.getLsbD th = true) ∧ g.ended.getLsbD th = false ∧
        a.dst.toNat ≤ m ∧ m < a.dst.toNat + (if a.ty.wide then 2 else 1)) → g'.vget th m = g.vget th m) ∧
      (∀ th, th < 32 → a.zero.getLsbD th = true → g.ended.getLsbD th = false → g'.vread a.ty.wide th a.dst.toNat = 0) ∧
      ∀ cell, (∃ l ∈ a.lanes, l.cell = cell) →
        let ls := a.lanes.filter fun l => l.cell = cell
        let val := fun (x : Nat) => intVal a.ty (BitVec.ofNat 64 x)
        ∃ v : Nat → Nat, v 0 = leNat (Memory.read s.mem cell a.n) ∧
          (∀ j l, ls[j]? = some l →
            let x := l.data.toNat % 2 ^ (8 * a.n)
            v (j + 1) = match op with
              | .add => if a.ty = .f32 ∨ a.ty = .f64 then
                  roundTo (fmtOf a.ty) .rne false (fSum .rne (decodeF (fmtOf a.ty) (v 0) ::
                    (ls.take (j + 1)).map fun l => decodeF (fmtOf a.ty) l.data.toNat))
                else (v j + x) % 2 ^ (8 * a.n)
              | .min => if val x < val (v j) then x else v j
              | .max => if val x < val (v j) then v j else x
              | .and => v j &&& x
              | .or => v j ||| x
              | .xor => v j ^^^ x
              | .xch => x
              | .cas => if v j = x then l.data.toNat / 2 ^ (8 * a.n) % 2 ^ (8 * a.n) else v j
              | .ld => v j) ∧
          leNat (Memory.read t.mem cell a.n) = v ls.length ∧
          ∀ j l, ls[j]? = some l → g.ended.getLsbD l.thr = false → (g'.vread a.ty.wide l.thr a.dst.toNat).toNat = v j

/-! ## Copies -/

/-- A landing barrier after n more bytes (R286, R288): where all have arrived and as many bytes as expected have landed, the phase ends. -/
def barrierAfter (x : Barrier) (n : Nat) : Barrier :=
  if x.na.toNat ≤ x.arr.toNat ∧ x.expb ≤ x.landb + BitVec.ofNat 64 n then
    { x with ovf := x.landb + BitVec.ofNat 64 n - x.expb, phase := x.phase + 1, arr := 0, expb := 0, landb := 0 }
  else { x with landb := x.landb + BitVec.ofNat 64 n }

/-- O37. The five copy instructions complete their issue where their operand words and ranges are in order (R280, Table 14.8) and their
claims are not refused: the copy is with the engine of the core, before pre-flight, with the operands as they stand, and its token's flag
clears and counts one more (R211, R281). A unit of helper threads moves nothing (R285); with 256 copies unfinished on its core, the port
withholds it (log 28). -/
def Obligations.CopiesIssue : Prop :=
  ∀ (s : State) (c : Cur) (p : Pred) (i : Instr) (kind : CopyKind) (o : Ord) (sc : Scope) (f a b w : Reg) (opt : Option Word)
    (need words : List Nat), Stands s c i → c.act p ≠ 0 →
    (∃ x, i = .cpin p x o sc f a b w opt ∧ kind = .cpin x ∨ i = .cpout p x o sc f a b w opt ∧ kind = .cpout x ∨
      i = .cpgat p x o sc f a b w opt ∧ kind = .cpgat x ∨ i = .cpbp p o sc f a b w opt ∧ kind = .cpbp ∨
      i = .cppeer p x o sc f a b w opt ∧ kind = if x then .peerGet else .peerPut) →
    let dst := c.g.kget a.toNat
    let src := c.g.kget b.toNat
    let word := c.g.kget w.toNat
    let im := opt.getD 0
    let touches := copyTouches kind dst.toNat src.toNat word
    s.copyLegal c.g kind dst src word im = true →
    (c.act p &&& ~~~c.g.helper = 0 → Completes s c i fun g => g = (c.g.countUp f.toNat).countDown f.toNat) ∧
    (c.act p &&& ~~~c.g.helper ≠ 0 → (∀ t ∈ touches, s.touchIllegal c.g t = false) → s.copyIllegalAt c.g touches = none →
      (s.claimVerdict c.u.grp c.g touches = .ok need words ∨ s.claimVerdict c.u.grp c.g touches = .none ∧ need = [] ∧ words = []) →
      (s.copiesOn (coreOf c.u.grp) < 256 → ∃ t x, exec i s = .next t ∧
        Issued { s with copies := AMap.set s.copies s.nextId x, nextId := s.nextId + 1 } t c
          { c.g with
            flags := c.g.flags &&& ~~~BitVec.ofNat 12 (2 ^ f.toNat), cnts := AMap.set c.g.cnts f.toNat (c.g.cnt f.toNat + 1)
            allotted := c.g.allotted ++ words } c.goneOn ∧
        x.kind = kind ∧ x.grp = c.u.grp ∧ x.ctx = c.g.ctx ∧ x.block = c.g.block ∧ x.core = coreOf c.u.grp ∧ x.unit = c.e.mask ∧
        x.act = c.act p ∧ x.pc = c.u.pc ∧ x.dst = dst ∧ x.src = src ∧ x.word = word ∧ x.ord = o ∧ x.scope = sc ∧ x.token = f.toNat ∧
        x.bar = (if im.getLsbD 6 then some (im.extractLsb' 0 6).toNat else none) ∧
        x.rem = (if im.getLsbD 7 then some (im.extractLsb' 8 8) else none) ∧ x.stage = .preflight ∧ x.illegal = none ∧ x.need = need ∧
        x.words = words ∧ x.num = s.nextId ∧ x.seen = [] ∧ x.moves = [] ∧ x.resumed = false ∧
        ∀ id q, (id, q) ∈ s.accesses → q.grp = c.u.grp → id ∈ x.after) ∧
      (256 ≤ s.copiesOn (coreOf c.u.grp) → ∃ t, exec i s = .next t ∧ Withheld s t c .copies))

/-- What Table 21.1 makes of one page of a local side, named by the copy's lowest byte on it: for a virtual page the walk, the leaf's right
and the readiness of the memory behind it (R20, R381); for a scratchpad page its entry, and the owner arrays on a page that is written. -/
def PageOutcome (s : State) (ctx : Nat) (q : Place × Bool × Nat) (r : PreResult) : Prop :=
  let write := q.2.1
  let a := q.2.2
  match q.1 with
  | .virt => match s.translate ctx (BitVec.ofNat 64 a) with
    | .nonCanonical => r = .fail 3 5 a
    | .absent => r = .absent a
    | .poisoned => r = .poison a
    | .page p =>
      let right := if write then p.w else p.r
      let dark := ∃ b, memReadyBit (p.phys + (a - p.va)) = some b ∧ s.ready b = false
      (right = false → r = .fail 3 4 a) ∧ (right = true → dark → r = .wait a) ∧ (right = true → ¬dark → r = .pass)
  | .scr =>
    let e := s.attr (a / 2 ^ 16 * 2 ^ 16)
    let held := write = true ∧ (patRO e = true ∨ s.inOwnerArray (a / 2 ^ 16 * 2 ^ 16) (2 ^ 16) = true)
    (patValid e = false → r = .fail 3 1 a) ∧ (patValid e = true → patPermits e ctx = false → r = .fail 3 2 a) ∧
      (patValid e = true → patPermits e ctx = true → held → r = .fail 3 3 a) ∧
      (patValid e = true → patPermits e ctx = true → ¬held → r = .pass)
  | _ => r = .pass

/-- The local pages of a copy in the order of R379: the index list's, the source's, the destination's. -/
def copyPages (s : State) (x : Copy) : List (Place × Bool × Nat) :=
  let side := fun (d : Side) (write : Bool) => (match d.place with
    | .virt => (s.virtPages x.ctx d.runs).map Prod.snd
    | .scr => (d.runs.flatMap fun (r : Nat × Nat) => pagePieces r.1 r.2).map Prod.fst
    | _ => []).map fun a => (d.place, write, a)
  (match x.kind.indexList x.word with
    | some (a, n) => (pagePieces a n).map fun q => (Place.scr, false, q.1)
    | none => []) ++ side (s.sidesOf x).1 false ++ side (s.sidesOf x).2 true

/-- O38. COPY_PREFLIGHT checks the pages of a copy in the order of R379 and stops at the first that does not pass Table 21.1; for `cppeer`
the peer's port and the peer's answer come last. Where all pass, the copy begins, or waits for the sets that its task does not hold, with
its bytes paired as R282 says. A page that is not present holds the copy and, where the core serves no other fault, makes a serviceable
fault of it, with its KIND 2 report (R348, R381); poison ends the block; a clear readiness bit waits, and PREFLIGHT_READINESS_TIMEOUT makes
SUB 6 of it. Any other page, and an illegal use found at issue, removes the copy, counts its token off, gives up the undo entries allotted to
it that no other write shares, and leaves a trap, with the copy's own address, mask and token, to the unit that holds the lowest thread of the
issuing unit that has not exited; where all of them have exited, no trap is taken and the W1 writes a KIND 3 report (R345, R380, R409). -/
def Obligations.CopyPreflights : Prop :=
  ∀ (s : State) (id : Nat) (x : Copy) (remote : RemoteCheck) (b : Block), AMap.get? s.copies id = some x → AMap.get? s.blocks x.block = some b →
    b.dying = none → s.launchRuns b.launch = true → x.stage = .preflight → s.indexHeld x = false → s.behindResumed x = false →
    let i : Instr := .copyPreflight id remote
    let put := fun (y : Copy) => AMap.set s.copies id y
    let failed := fun (cause sub addr : Nat) (t : State) => ∀ g, s.group x.grp = some g → g.block = x.block →
      let allotted := g.allotted.filter fun w => !x.words.contains w || { s with copies := t.copies }.writesWord x.grp w
      (∀ th, g.entries ≠ [] →
        th < 32 → (x.unit &&& g.unexited).getLsbD th = true → (∀ u, u < th → (x.unit &&& g.unexited).getLsbD u = false) →
        AMap.get? t.copies id = none ∧ (∀ k, k ≠ id → AMap.get? t.copies k = AMap.get? s.copies k) ∧
        t = { s with copies := t.copies, groups := t.groups } ∧ (∀ k, k ≠ x.grp → t.group k = s.group k) ∧
        ∃ g', t.group x.grp = some g' ∧ g' = { g.countDown x.token with entries := g'.entries, allotted := allotted } ∧
          ∀ j e, g.entry j = some e → g'.entry j = some (if e.st ≠ .parent ∧ e.mask.getLsbD th = true then
            { e with trap := e.trap ++ [{
                cause := BitVec.ofNat 8 cause, sub := BitVec.ofNat 8 sub, pc := x.pc, thr := x.act, addr := BitVec.ofNat 64 addr
                info := BitVec.ofNat 8 x.token, late := true }] } else e)) ∧
      -- no thread of the issuing unit is left (R409)
      (x.unit &&& g.unexited = 0 → (∃ k y, s.group k = some y ∧ y.block = x.block ∧ y.entries ≠ []) →
        AMap.get? t.copies id = none ∧ (∀ k, k ≠ id → AMap.get? t.copies k = AMap.get? s.copies k) ∧ t.blocks = s.blocks ∧
        t.launches = s.launches ∧ (∀ k, k ≠ x.grp → t.group k = s.group k) ∧
        t.group x.grp = some { g.countDown x.token with allotted := allotted } ∧
        Reported s t g.ctx (reportOf s x.grp g 3 cause sub x.pc.toNat (addr % 2 ^ 64)))
    let fails := fun (i : Instr) (cause sub addr : Nat) => ∃ t, exec i s = .next t ∧ failed cause sub addr t
    (∀ a, x.illegal = some a → fails i 2 0 a) ∧
    (s.preIllegal x = .pass → s.sidePages x.ctx (s.sidesOf x).1 ≤ 64 →
      (∀ a n, x.kind.indexList x.word = some (a, n) → ∀ k, 4 * k < n → s.copyPoison x (s.scrCell (a + 4 * k)) 4 = false) →
      -- the first page that does not pass
      (∀ u q v r, copyPages s x = u ++ q :: v → (∀ y ∈ u, PageOutcome s x.ctx y .pass) → PageOutcome s x.ctx q r →
        (∀ cause sub a, r = .fail cause sub a → fails i cause sub a) ∧
        (∀ a, r = .wait a → exec i s = .next { s with copies := put { x with resumed := false } } ∧
          fails (.preflightReadinessTimeout (.copy id)) 3 6 a) ∧
        (∀ a, r = .poison a → exec i s = .next (s.terminateAt x.grp .poison 0 x.pc (BitVec.ofNat 64 a))) ∧
        (∀ a g, r = .absent a → AMap.get? s.svc x.core = none → s.group x.grp = some g → g.ctx < 32 → ∃ t, exec i s = .next t ∧
          AMap.get? t.copies id = some { x with stage := .held, resumed := false } ∧ AMap.get? t.svc x.core = some (false, g.ctx, id, a) ∧
          t.reg (0x33400 + 8 * x.core) = BitVec.ofNat 32 (2 ^ 31 + g.ctx) ∧ t.groups = s.groups ∧
          Reported s t g.ctx (reportOf s x.grp g 2 0x20 0 x.pc.toNat (a % 2 ^ 64))) ∧
        ∀ a, r = .absent a → AMap.get? s.svc x.core ≠ none →
          exec i s = .next { s with copies := put { x with stage := .held, resumed := false } }) ∧
      -- every local page passes
      ((∀ y ∈ copyPages s x, PageOutcome s x.ctx y .pass) →
        let begins := ∃ t need ms, exec i s = .next t ∧
          AMap.get? t.copies id = some { x with resumed := false, moves := ms, need := need, stage := if need = [] then .begun else .claims } ∧
          (∀ k, k ≠ id → AMap.get? t.copies k = AMap.get? s.copies k) ∧ t = { s with copies := t.copies, tlb := t.tlb } ∧
          (∀ n, n ∈ need → n ∈ x.need) ∧ (∀ g l f, s.group x.grp = some g → s.claimFrame g = some (l, f) →
            ∀ n ∈ x.need, n ∈ need ∨ n ∈ s.heldSets f) ∧
          ms.length = x.kind.len x.word ∧ ∀ (j : Nat) (m : Move), ms[j]? = some m → match x.kind with
            | .cpgat _ => let e := 2 ^ wfield x.word 48 3
              m.daddr = x.dst.toNat + j ∧ m.saddr = x.src.toNat + e * (s.indices x).getD (j / e) 0 + j % e
            | .cpbp => let rb := wfield x.word 0 15
              m.daddr = x.dst.toNat + 2 ^ 14 * (j / rb) + j % rb ∧
                m.saddr = x.src.toNat + (if wfield x.word 32 32 = 0 then rb else wfield x.word 32 32) * (j / rb) + j % rb
            | _ => m.daddr = x.dst.toNat + j ∧ m.saddr = x.src.toNat + j
        (x.kind ≠ .peerPut → x.kind ≠ .peerGet → begins) ∧
        ((x.kind = .peerPut ∨ x.kind = .peerGet) →
          let first := if x.kind = .peerPut then x.dst.toNat else x.src.toNat
          let up := s.ready (52 + Config.peerPort (wfield x.word 24 6) % 12)
          (up = false → exec i s = .next { s with copies := put { x with resumed := false } } ∧
            fails (.preflightReadinessTimeout (.copy id)) 3 6 first) ∧
          (up = true → (∀ q ∈ s.virtPages 32 [(first, x.kind.len x.word)], canonical (BitVec.ofNat 64 q.2) = true) →
            (remote = .pass → begins) ∧ (∀ a, remote = .notPresent a → fails i 3 5 a.toNat) ∧ (∀ a, remote = .denied a → fails i 3 4 a.toNat) ∧
            (remote = .tooMany → fails i 2 0 first)))))

/-- O39. COPY_BYTES_LANDED: of a copy that has begun, the bytes of the 8-byte units that the event names, or all that are left, become
visible, in any order of the units (R119, log 10): each is written with what its source held before, in the order of R282, with the stores
that its engine sees laid over it (R122), and no other byte is. On ordinary scratchpad pages they may be visible on the core first. With the
last of them, all the copy's bytes are counted on its barrier in one update (R281, R288, R363). (A copy that logs or writes watched pages
writes more: R189, R203.) A get's bytes come from the peer, and a put's go to it at once (R283, log 39); where bytes are poisoned as the engine
reads them, their units are poisoned at the destination, the copy is gone, and its block ends with the lowest such source unit for its address
(R382). COPY_COMPLETE counts the token off once what the copy's release observed is visible at its scope (R130). -/
def Obligations.CopiesLand : Prop :=
  ∀ (s : State) (id : Nat) (x : Copy) (units : Option (List Nat)) (home : Bool) (data : List (Option Byte)), AMap.get? s.copies id = some x →
    let ms := x.moves.filter fun m => match units with
      | some l => l.contains (m.dst / 8)
      | none => true
    let rest := x.moves.filter fun m => match units with
      | some l => !l.contains (m.dst / 8)
      | none => false
    let i : Instr := .copyBytesLanded id ⟨units, home, data⟩
    let copyLeft := fun (t : State) => ∃ seen, AMap.get? t.copies id = some { x with
        moves := rest, seen := x.seen ++ seen, stage := if rest = [] then .landed else .begun } ∧
      (∀ k, k ∈ seen ↔ (x.ord = .rel ∨ x.ord = .ar) ∧ x.scope ≠ .grp ∧
        (k ∈ x.after ∨ k ∈ s.forwarded ∧ ∃ q, AMap.get? s.accesses k = some q ∧ q.core = x.core)) ∧
      ∀ k, k ≠ id → AMap.get? t.copies k = AMap.get? s.copies k
    -- the moves whose bytes are poisoned, here or on the peer
    let bad := fun (m : Move) => if x.kind = .peerGet then ∃ j : Nat, ms[j]? = some m ∧ data[j]? = some none else m ∈ ms ∧ s.copyPoison x m.src 1 = true
    let barriers := fun (t : State) => t.blocks = s.blocks ∧ (rest ≠ [] ∨ x.bar = none ∨ x.rem ≠ none ∨ AMap.get? s.blocks x.block = none) ∨
      ∃ n b, rest = [] ∧ x.bar = some n ∧ x.rem = none ∧ AMap.get? s.blocks x.block = some b ∧
        (∀ k, k ≠ x.block → AMap.get? t.blocks k = AMap.get? s.blocks k) ∧
        AMap.get? t.blocks x.block = some { b with bars := match b.bars[n]? with
          | some y => b.bars.set n (barrierAfter y (x.kind.len x.word))
          | none => b.bars }
    -- no store that the engine sees lies over the source
    let plain := ∀ k q, (k, q) ∈ s.accesses → (k ∈ s.forwarded ∧ q.core = x.core) ∨ (k ∉ s.forwarded ∧ q.kind = .store ∧ q.grp = x.grp ∧ k < x.num) →
      ∀ w ∈ q.lanes, w.home = false → ∀ m ∈ ms, overlap w.cell q.n m.src 1 = false
    (x.stage = .begun → s.copyHeld x ms = false → ms ≠ [] →
      (x.kind ≠ .peerPut → x.kind ≠ .peerGet → (∀ m ∈ ms, s.copyPoison x m.src 1 = false) → home = true → x.logs = false →
        (∀ n, patWatch (SMap.get s.pat n) = false) →
        ∃ t, exec i s = .next t ∧ t = { s with copies := t.copies, blocks := t.blocks, mem := t.mem, poison := t.poison, past := t.past } ∧ copyLeft t ∧
          (∀ a, (∀ m ∈ ms, m.dst ≠ a) → SMap.get t.mem a = SMap.get s.mem a) ∧
          (plain → ∀ u m v, ms = u ++ m :: v → (∀ q ∈ v, q.dst ≠ m.dst) → SMap.get t.mem m.dst = SMap.get s.mem m.src) ∧ barriers t) ∧
      (x.kind ≠ .peerPut → x.kind ≠ .peerGet → (∀ m ∈ ms, s.copyPoison x m.src 1 = false) → home = false → s.mayLandNear x ms = true →
        ∃ t l, exec i s = .next t ∧ t = { s with copies := t.copies, accesses := t.accesses, nextId := t.nextId, forwarded := s.forwarded ++ l } ∧ copyLeft t ∧
          (∀ k, k < s.nextId → AMap.get? t.accesses k = AMap.get? s.accesses k) ∧
          ∀ k ∈ l, s.nextId ≤ k ∧ ∃ q, AMap.get? t.accesses k = some q ∧ q.kind = .store ∧ q.core = x.core ∧ q.grp = x.grp ∧ ∀ w ∈ q.lanes, w.home = false) ∧
      (x.kind = .peerGet → data.length = ms.length → home = true → x.logs = false → (∀ n, patWatch (SMap.get s.pat n) = false) → none ∉ data →
        ∃ t, exec i s = .next t ∧ copyLeft t ∧ (∀ a, (∀ m ∈ ms, m.dst ≠ a) → SMap.get t.mem a = SMap.get s.mem a) ∧
          (∀ (j : Nat) (m : Move) (d : Byte), ms[j]? = some m → data[j]? = some (some d) →
            (∀ (k : Nat) (q : Move), j < k → ms[k]? = some q → q.dst ≠ m.dst) → SMap.get t.mem m.dst = d) ∧ barriers t) ∧
      (x.kind ≠ .peerPut → (x.kind = .peerGet → data.length = ms.length) → home = true → x.logs = false →
        (∀ n, patWatch (SMap.get s.pat n) = false) → (∃ m, bad m) → ∀ g, s.group x.grp = some g → g.block = x.block →
        ∃ (u : State) (a : Nat), exec i s = .next (u.terminateAt x.grp .poison 0 x.pc (BitVec.ofNat 64 a)) ∧
          (∃ m, bad m ∧ a = m.saddr / 8 * 8) ∧ (∀ m, bad m → a ≤ m.saddr / 8 * 8) ∧
          u = { s with copies := u.copies, mem := u.mem, poison := u.poison, past := u.past } ∧ AMap.get? u.copies id = none ∧
          (∀ k, k ≠ id → AMap.get? u.copies k = AMap.get? s.copies k) ∧ (∀ m, bad m → u.poisoned m.dst 1 = true) ∧
          ∀ b, (∀ m ∈ ms, m.dst ≠ b) → SMap.get u.mem b = SMap.get s.mem b) ∧
      (x.kind = .peerPut → rest = [] → home = true → (∃ m, bad m) → ∀ g, s.group x.grp = some g → g.block = x.block →
        ∃ (u : State) (a : Nat) (o : PeerMsg), exec i s = .next (u.terminateAt x.grp .poison 0 x.pc (BitVec.ofNat 64 a)) ∧
          u = { s with copies := u.copies, outbox := s.outbox ++ [o] } ∧ AMap.get? u.copies id = none ∧ o.count = none ∧
          ∀ (j : Nat) (m : Move), ms[j]? = some m → bad m → o.data[j]? = some none) ∧
      (x.kind = .peerPut → rest = [] → home = true → (∀ m ∈ ms, s.copyPoison x m.src 1 = false) → ∃ t o, exec i s = .next t ∧
        t = { s with copies := t.copies, blocks := t.blocks, outbox := s.outbox ++ [o] } ∧ copyLeft t ∧ barriers t ∧
        o.peer = some (x.word.extractLsb' 24 6).toNat ∧ o.ctx = x.ctx ∧ o.addr = x.dst ∧ (plain → o.data = ms.map fun m => some (SMap.get s.mem m.src)) ∧
        ∀ r n b l, x.rem = some r → x.bar = some n → AMap.get? s.blocks x.block = some b → s.launch b.launch = some l →
          o.count = some (l.queue, r.toNat, n))) ∧
    (∀ g near, x.stage = .landed → s.group x.grp = some g → g.block = x.block → g.entries ≠ [] → s.blockRuns g = true →
      -- the copy's release reaches no further than its core
      (near = true ↔ ¬(x.ord = .rel ∨ x.ord = .ar) ∨ x.scope = .grp ∨ x.scope = .blk ∧ ∃ b, s.blockOf g = some b ∧ b.span = 1) →
      ((∀ k ∈ x.seen, s.over near k = true) → ∃ t, exec (.copyComplete id) s = .next t ∧
        t = { s with copies := t.copies, groups := t.groups } ∧ AMap.get? t.copies id = none ∧
        (∀ k, k ≠ id → AMap.get? t.copies k = AMap.get? s.copies k) ∧ (∀ k, k ≠ x.grp → t.group k = s.group k) ∧
        t.group x.grp = some (g.countDown x.token)) ∧
      ((∃ k ∈ x.seen, s.over near k = false) → exec (.copyComplete id) s = .next s))

/-- O40. PEER_COUNT_ARRIVAL, the last flit of a peer's put with its count, completes in every state. Its flit is written through the page
tables of its context, and the count meets the barrier of the block of the earliest accepted placed launch of the named context and queue: at
once where that block is resident, and where it is saved when the block stands again (R138); with no such launch the count is held, and an
existing entry of its name afterwards holds the sum of the two byte counts; where a 257th entry of the context would be needed, flit and count
wait (R284, R336). PEER_COPY_REQUEST writes a put's bytes through the context's page tables, or answers a get with the bytes there, poison
carried as poison (log 39); a request whose pages are not all present with the right it needs changes nothing. -/
def Obligations.PeerRequests : Prop :=
  ∀ (s : State) (ctx : BitVec 5) (queue : BitVec 6) (block : Byte) (bar : BitVec 6) (bytes : Nat) (addr : Dword) (flit : List Byte),
    let i : Instr := .peerCountArrival ctx queue block bar ⟨bytes, addr, flit⟩
    let e : PeerCount := { ctx := ctx.toNat, queue := queue.toNat, block := block.toNat, bar := bar.toNat, bytes := bytes }
    let named := fun (x : PeerCount) => x.ctx = ctx.toNat ∧ x.queue = queue.toNat ∧ x.block = block.toNat ∧ x.bar = bar.toNat
    let arrives := fun (k : Nat) (l : Launch) => (k, l) ∈ s.launches ∧ l.stage = .placed ∧ l.ctx = ctx.toNat ∧ l.queue = queue.toNat
    let held := (s.peerCounts.filter fun x => x.ctx = ctx.toNat).length
    let written := fun (u : State) => VaWritten s u ctx.toNat addr flit.length fun j => flit.getD j 0
    (∃ t, exec i s = .next t) ∧
    ((∀ k l, ¬arrives k l) →
      ((∀ x ∈ s.peerCounts, ¬named x) → held < 256 → ∃ u, written u ∧ exec i s = .next { u with peerCounts := s.peerCounts ++ [e] }) ∧
      ((∀ x ∈ s.peerCounts, ¬named x) → 256 ≤ held →
        exec i s = .next { s with peerHeld := s.peerHeld ++ [{ e with addr := addr, flit := flit }] }) ∧
      ((∃ x ∈ s.peerCounts, named x) → ∃ t u, exec i s = .next t ∧ written u ∧ t = { u with peerCounts := t.peerCounts } ∧
        t.peerCounts.length = s.peerCounts.length ∧ ∀ (j : Nat) (x : PeerCount), s.peerCounts[j]? = some x →
          (named x → t.peerCounts[j]? = some { x with bytes := x.bytes + bytes }) ∧ (¬named x → t.peerCounts[j]? = some x))) ∧
    (∀ k l, arrives k l → (∀ k' l', arrives k' l' → l.stamp < l'.stamp ∨ k' = k ∧ l' = l) →
      let meets := fun (b : Block) => decide (b.launch = k) && decide (b.num = block.toNat)
      let counted := fun (b : Block) => if meets b = true then { b with bars := match b.bars[bar.toNat]? with
        | some y => b.bars.set bar.toNat (barrierAfter y bytes)
        | none => b.bars } else b
      ∃ t u, exec i s = .next t ∧ written u ∧ t = { u with blocks := t.blocks, contexts := t.contexts } ∧
        (∀ n, AMap.get? t.blocks n = (AMap.get? s.blocks n).map counted) ∧
        ∀ n, AMap.get? t.contexts n = (AMap.get? s.contexts n).map fun x => { x with
          saved := x.saved.map fun v => { v with
            counts := v.counts ++ (v.blocks.filter fun q => meets q.2).map fun q => (q.1, bar.toNat, bytes) } }) ∧
    ∀ (get : Bool) (data : List (Option Byte)),
      let cell := fun (i : Nat) (write : Bool) => s.vaCell ctx.toNat (addr + BitVec.ofNat 64 i) write
      (s.ctxValid ctx.toNat = false ∨ s.vaOk ctx.toNat addr data.length (!get) = false →
        exec (.peerCopyRequest ctx get addr data) s = .next s) ∧
      (s.ctxValid ctx.toNat = true → s.vaOk ctx.toNat addr data.length (!get) = true →
        (get = false → ∃ t, exec (.peerCopyRequest ctx get addr data) s = .next t ∧ t = { s with mem := t.mem, poison := t.poison } ∧
          (∀ i a b, data[i]? = some (some b) → cell i true = some a → (∀ j d, i < j → data[j]? = some (some d) → cell j true ≠ some a) →
            SMap.get t.mem a = b) ∧
          (∀ a, (∀ i b, data[i]? = some (some b) → cell i true ≠ some a) → SMap.get t.mem a = SMap.get s.mem a) ∧
          ∀ i a, data[i]? = some none → cell i true = some a → t.poisoned a 1 = true) ∧
        (get = true → ∃ o, o.peer = none ∧ o.ctx = ctx.toNat ∧ o.addr = addr ∧ o.count = none ∧ o.data.length = data.length ∧
          (∀ i, i < data.length → o.data[i]? = some (match cell i false with
            | none => none
            | some a => if s.poisoned a 1 = true then none else some (SMap.get s.mem a))) ∧
          exec (.peerCopyRequest ctx get addr data) s = .next { s with outbox := s.outbox ++ [o] }))

/-! ## Barriers, work and tasks -/

/-- O41. The landing-barrier instructions complete once each for a unit with an active thread (R286 to R288): `barv`, when nothing that it
releases is outstanding (log 9), arrives and reads the phase that was current; `barx.exp` adds expected bytes; `barx.cfg` of a barrier at
rest sets its arrival count and scope; `barx.ph` reads the phase; `barw` goes on where the ticket's phase has completed and waits where it
has not. What `barx.ph` and a completed `barw` show is acquired by the unit's threads, at the barrier's scope (R133). A number that the block does not have is an illegal use, whose TINFO
holds the number modulo 256 (the model's choice where that is more than the number's six bits, log 28), and `barw` of a barrier that
received too much traps with the excess and clears it (R364). -/
def Obligations.BarrierInstructions : Prop :=
  ∀ (s : State) (c : Cur) (p : Pred) (d k : Reg) (b : KI) (blk : Block) (x : Barrier), s.blockOf c.g = some blk →
    let num := (match b with
      | .k r => c.g.kget r.toNat
      | .i w => w.setWidth 64).toNat
    let v := c.g.kget k.toNat
    let ticket := c.g.kget d.toNat
    let test := fun (y : Barrier) => if y.na.toNat ≤ y.arr.toNat ∧ y.expb ≤ y.landb then
      { y with ovf := y.landb - y.expb, phase := y.phase + 1, arr := 0, expb := 0, landb := 0 } else y
    let upd := fun (t : State) (y : Barrier) =>
      AMap.get? t.blocks c.g.block = some { blk with bars := blk.bars.set num y } ∧
      ∀ j, j ≠ c.g.block → AMap.get? t.blocks j = AMap.get? s.blocks j
    let is := [Instr.barv p d b, .barxExp p b k, .barxCfg p b k, .barxPh p d b, .barw p d b]
    (∀ i ∈ is, Stands s c i → c.act p = 0 → Completes s c i (· = c.g)) ∧
    (∀ i ∈ is, Stands s c i → c.act p ≠ 0 → (64 ≤ num ∨ blk.bars.length ≤ num) → ∃ r : TrapRec,
      exec i s = .next { s.takeTrap c.u.grp c.u.entry r with sel := none } ∧ r.cause = 2 ∧ r.pc = c.u.pc ∧ r.info = BitVec.ofNat 8 (num % 256)) ∧
    (c.act p ≠ 0 → num < 64 → blk.bars[num]? = some x →
      (∀ near, (near = true ↔ x.scope = 1 ∧ blk.span = 1) → Stands s c (.barv p d b) → (∀ id ∈ s.releaseWaits c.u.grp (c.act p), s.over near id = true) → ∃ t bs, exec (.barv p d b) s = .next t ∧
        (∃ g', UniWritten c.g g' d.toNat x.phase ∧ Issued { s with blocks := bs } t c g' c.goneOn) ∧ upd t (test { x with arr := x.arr + 1 })) ∧
      (∀ near, (near = true ↔ x.scope = 1 ∧ blk.span = 1) → Stands s c (.barv p d b) → (∃ id ∈ s.releaseWaits c.u.grp (c.act p), s.over near id = false) →
        exec (.barv p d b) s = .next { s with sel := none, declined := (c.u.grp, c.u.entry) :: s.declined }) ∧
      (Stands s c (.barxExp p b k) → v.extractLsb' 32 32 = 0 → ∃ t bs, exec (.barxExp p b k) s = .next t ∧
        Issued { s with blocks := bs } t c c.g c.goneOn ∧ upd t (test { x with expb := x.expb + v })) ∧
      (Stands s c (.barxCfg p b k) → v.extractLsb' 15 49 = 0 → x.arr = 0 → x.expb = 0 → x.landb = 0 → v.extractLsb' 0 12 ≠ 0 →
        1 ≤ (v.extractLsb' 12 3).toNat → (v.extractLsb' 12 3).toNat ≤ 3 → ∃ t bs, exec (.barxCfg p b k) s = .next t ∧
        Issued { s with blocks := bs } t c c.g c.goneOn ∧ upd t { x with na := v.extractLsb' 0 12, scope := v.extractLsb' 12 3 }) ∧
      (∀ sc : Scope, (x.scope = 1 → sc = .blk) → (x.scope = 2 → sc = .clu) → (x.scope ≠ 1 → x.scope ≠ 2 → sc = .dev) →
        (Stands s c (.barxPh p d b) → ∃ t g', exec (.barxPh p d b) s = .next t ∧ Issued (s.acquireAt c.u.grp c.e.mask sc) t c g' c.goneOn ∧
          UniWritten c.g g' d.toNat x.phase) ∧
        (Stands s c (.barw p d b) → x.ovf = 0 → ticket < x.phase → ∃ t, exec (.barw p d b) s = .next t ∧
          Issued (s.acquireAt c.u.grp c.e.mask sc) t c c.g c.goneOn)) ∧
      (Stands s c (.barw p d b) → x.ovf = 0 → ¬ticket < x.phase → ∃ t, exec (.barw p d b) s = .next t ∧
        Issued s t c c.g { c.goneOn with st := .atBarrier num ticket }) ∧
      (Stands s c (.barw p d b) → x.ovf ≠ 0 → ∃ t' t r, exec (.barw p d b) s = .next { t.takeTrap c.u.grp c.u.entry r with sel := none } ∧
        t = { s with blocks := t' } ∧ upd t { x with ovf := 0 } ∧ (r : TrapRec).cause = 7 ∧ r.ovf = x.ovf ∧ r.info = BitVec.ofNat 8 num))

/-- O42. `fetchw` of the whole group completes: the group's request joins those that wait for the turntable, its destination is pending
(R290), and what a rollback needs is kept, the return-address stack among it (log 34). `spawn` of a producer takes a slot of its queue and
issues the read of its 32-byte record, which comes after every access that its release covers (R291, log 28); of helper threads only, it
does nothing; with no free slot it is not ready, in a unit of helpers too (R44). `tend` of the whole group, when nothing that it waits for is outstanding, ends the task: its claim sets are free where no
request waits for them, the join word counts down, the parent is pushed when it reaches 0, and otherwise the slot is returned (R43, R192,
R292). -/
def Obligations.WorkInstructions : Prop :=
  ∀ (s : State) (c : Cur) (p : Pred) (l : Launch), s.launch c.g.launch = some l →
    (∀ d, Stands s c (.fetchw p d) → c.act p = 0 → Completes s c (.fetchw p d) (· = c.g)) ∧
    (∀ d, Stands s c (.fetchw p d) → c.act p ≠ 0 → c.g.aliveMask = c.e.mask → (l.isTask = true → c.g.taskOpen = false) → c.g.fetch = none →
      ∃ t g', exec (.fetchw p d) s = .next t ∧ t.group c.u.grp = some g' ∧ (∀ k, k ≠ c.u.grp → t.group k = s.group k) ∧
        t = { s with
          groups := t.groups, launches := t.launches, sel := none, declined := []
          known := c.knows s, lastGroup := AMap.set s.lastGroup (c.u.grp / 64) c.u.grp, corePmc := t.corePmc
          portHeld := AMap.del s.portHeld (c.u.grp / 64) } ∧
        g' = { c.g with
          work := .none, fetch := some (c.act p, d), fetchPc := c.u.pc, fetchMod := c.e.mod, fetchDepth := c.g.ras.length + c.g.spilled
          fetchRas := s.ras c.u.grp c.g, fetchClause := c.e.clause, entries := g'.entries, pmc := g'.pmc, lastIssue := s.clk.toNat, promoted := false
          lastEntry := c.u.entry, first := g'.first, lost := g'.lost, lostAt := g'.lostAt } ∧
        g'.entry c.u.entry = some c.goneOn ∧ (∀ j, j ≠ c.u.entry → g'.entry j = c.g.entry j) ∧
        ∃ l', t.launch c.g.launch = some l' ∧ l'.waits = l.waits ++ [c.u.grp] ∧
          l' = { l with waits := l'.waits, complete := l'.complete, releases := l'.releases, recs := l'.recs } ∧
          ∀ n, c.g.work = .tile n → n ∈ l'.complete ∨ ∃ ids, (c.u.grp, n, ids) ∈ l'.releases) ∧
    (∀ a b, Stands s c (.spawn p a b) → c.act p = 0 → Completes s c (.spawn p a b) (· = c.g)) ∧
    (∀ a b q, Stands s c (.spawn p a b) → c.act p ≠ 0 →
      let n := (c.g.kget a.toNat).toNat
      let addr := (c.g.kget b.toNat).toNat
      n < 64 → AMap.get? s.taskQueues n = some q → l.prodq.getLsbD n = true → q.ctx = c.g.ctx → addr % 32 = 0 → addr + 32 ≤ 0x1E000000 →
      (c.act p &&& ~~~c.g.helper = 0 → 0 < q.free → Completes s c (.spawn p a b) (· = c.g)) ∧
      (c.act p &&& ~~~c.g.helper = 0 → q.free = 0 →
        exec (.spawn p a b) s = .next { s with sel := none, declined := (c.u.grp, c.u.entry) :: s.declined }) ∧
      (c.act p &&& ~~~c.g.helper ≠ 0 → s.touchIllegal c.g ⟨0, addr, 32, false⟩ = false → s.pieceIllegal c.g addr 32 = false →
      s.claimVerdict c.u.grp c.g [⟨0, addr, 32, false⟩] = .none → s.pageFault c.g.ctx addr 32 false = none →
      (q.free = 0 → exec (.spawn p a b) s = .next { s with sel := none, declined := (c.u.grp, c.u.entry) :: s.declined }) ∧
      (0 < q.free → ∃ t x, exec (.spawn p a b) s = .next t ∧
        AccessIssued { s with taskQueues := AMap.set s.taskQueues n { q with free := q.free - 1 } } t c x [] ∧
        IssuedBy s c p x (.spawn n) 32 ∧ x.lanes.map (·.cell) = [s.scrCell addr] ∧ x.cum = true ∧
        (∀ id y, (id, y) ∈ s.accesses → y.grp = c.u.grp → y.unit &&& c.act p ≠ 0 ∨ y.kind = .store → id ∈ x.after) ∧
        ∀ id y, id ∈ s.forwarded → AMap.get? s.accesses id = some y → y.core = coreOf c.u.grp → id ∈ x.after))) ∧
    let quiet := (∀ q ∈ s.copies, q.2.grp = c.u.grp → q.2.logs = true → q.2.stage.unbegun = true) ∧
      (∀ q ∈ s.accesses, q.2.grp = c.u.grp → q.2.unit = 0 ∧ q.2.kind ≠ .store) ∧
      ∀ id y, id ∈ s.forwarded → AMap.get? s.accesses id = some y → y.core ≠ coreOf c.u.grp
    (∀ r q f, s.cur = some c → c.g.work = .task r → l.isTask = true → c.g.aliveMask = c.e.mask → c.g.taskOpen = true → s.claimFrame c.g = some (l, f) →
      quiet → AMap.get? s.taskQueues l.tq = some q → recNoJoin r = true → (∀ y ∈ s.heldSets f, s.claimWaiters c.g.launch y = []) →
      ∃ t g' q', exec .tend s = .next t ∧ t.group c.u.grp = some g' ∧ AMap.get? t.taskQueues l.tq = some q' ∧ g'.taskOpen = false ∧ g'.work = .none ∧
        g'.entry c.u.entry = some c.goneOn ∧ q' = { q with running := q.running - 1, free := q.free + 1 } ∧
        (∀ y ∈ s.heldSets f, t.scrNat (l.ownerAddr y) 16 = 0) ∧
        ∀ n, (∀ y ∈ s.heldSets f, ¬(s.scrCell (l.ownerAddr y) ≤ n ∧ n < s.scrCell (l.ownerAddr y) + 16)) → SMap.get t.mem n = SMap.get s.mem n) ∧
    (∀ r q, s.cur = some c → c.g.work = .task r → l.isTask = true → c.g.aliveMask = c.e.mask → c.g.taskOpen = true → s.claimFrame c.g = none →
      quiet → AMap.get? s.taskQueues l.tq = some q →
      let a := recJoin r
      let n := leNat (s.scrRead a 4)
      (recNoJoin r = true ∨ s.joinOk c.g.ctx a = true ∧ s.joinPoisoned r = false) →
      ∃ t g' q', exec .tend s = .next t ∧ t.group c.u.grp = some g' ∧ AMap.get? t.taskQueues l.tq = some q' ∧
        g'.taskOpen = false ∧ g'.work = .none ∧ g'.entry c.u.entry = some c.goneOn ∧ g'.v = c.g.v ∧ g'.k = c.g.k ∧ g'.m = c.g.m ∧
        q'.running = q.running - 1 ∧
        (recNoJoin r = true → t.mem = s.mem ∧ q'.free = q.free + 1 ∧ q'.recs = q.recs) ∧
        (recNoJoin r = false → n = 0 → t.mem = s.mem ∧ q'.free = q.free + 1 ∧ q'.recs = q.recs ∧
          ∃ l', t.launch c.g.launch = some l' ∧ l'.status.getLsbD 6 = true) ∧
        (recNoJoin r = false → 1 < n → leNat (Memory.read t.mem (s.scrCell a) 4) = n - 1 ∧ q'.free = q.free + 1 ∧ q'.recs = q.recs) ∧
        (recNoJoin r = false → n = 1 → leNat (Memory.read t.mem (s.scrCell a) 4) = 0 ∧ q'.free = q.free ∧
          q'.recs = q.recs ++ [recStamp (BitVec.ofNat 256 (leNat (s.scrRead (a + 32) 32))) s.age false true])) ∧
    (∀ r, s.cur = some c → c.g.work = .task r → l.isTask = true → c.g.aliveMask = c.e.mask → c.g.taskOpen = true →
      (recNoJoin r = true ∨ s.joinOk c.g.ctx (recJoin r) = true) → ¬quiet →
      ∃ t g', exec .tend s = .next t ∧ t.group c.u.grp = some g' ∧ g'.entry c.u.entry = some { c.e with st := .atTend } ∧ t.mem = s.mem ∧
        t = { s with groups := t.groups, sel := none, declined := (c.u.grp, c.u.entry) :: s.declined })

/-- O43. FETCHW_ANSWER answers the first waiting group of a launch whose context and queue run: a task launch hands out the record with the
smallest AGE, or the exhausted indication once no task runs and every producer has completed; the 64 bytes of the claim-area header of a task
whose launch has a claim table become 0 (Table 9.3, Table 20.1, log 72), and a claim area that may not be used leaves an illegal use to the group (R185, R373). A tile launch
hands out the next tile of its order, or another that the turntable picks where the order is open (R39), with its live and helper threads,
which every unit of the group then has, or the exhausted indication when every tile is out (R35 to R42). TILE_COMPLETE completes a finished
tile once every access that its release covers is complete (R173). -/
def Obligations.TurntableEvents : Prop :=
  ∀ (s : State) (i pick grp : Nat) (l : Launch) (rest : List Nat) (g : Group) (act : Word) (d : Reg),
    s.launch i = some l → d.toNat + 3 < 256 →
    let answered := fun (t : State) (a b cc dd : Dword) (g' : Group) =>
      t.group grp = some g' ∧ g'.fetch = none ∧ (∀ k, k ≠ grp → t.group k = s.group k) ∧
      g'.kget d.toNat = a ∧ g'.kget (d.toNat + 1) = b ∧ g'.kget (d.toNat + 2) = cc ∧ g'.kget (d.toNat + 3) = dd ∧
      (∀ r, ¬(d.toNat ≤ r ∧ r ≤ d.toNat + 3) → g'.kget r = g.kget r) ∧ g'.v = g.v ∧ g'.m = g.m ∧ g'.flags = g.flags ∧
      ∃ l', t.launch i = some l' ∧ grp ∉ l'.waits
    (l.waits = grp :: rest → s.ctxRuns l.ctx = true → s.launchRuns i = true → s.group grp = some g → g.fetch = some (act, d) →
      (l.isTask = true → ∀ q, AMap.get? s.taskQueues l.tq = some q →
        (∀ r, oldestRec q.recs = some r → ∃ t g' q', exec (.fetchwAnswer i pick) s = .next t ∧
          answered t (r.extractLsb' 0 64) (r.extractLsb' 64 64) (r.extractLsb' 128 64) (r.extractLsb' 192 64) g' ∧
          (∀ x ∈ q.recs, ¬recAge x < recAge r) ∧ r ∈ q.recs ∧
          g'.work = .task r ∧ g'.taskOpen = true ∧ g'.live = 0xFFFFFFFF ∧ g'.helper = 0 ∧
          (l.hasClaims = false → g'.entries = g.entries ∧ t.mem = s.mem) ∧
          (l.hasClaims = true → s.claimAreaOk g.ctx (recFrame r) = true → g'.entries = g.entries ∧ g'.claimBad = false ∧
            CellsHold t (s.scrCell (recFrame r)) 64 (fun _ => 0) ∧
            ∀ n, ¬(s.scrCell (recFrame r) ≤ n ∧ n < s.scrCell (recFrame r) + 64) → SMap.get t.mem n = SMap.get s.mem n) ∧
          (l.hasClaims = true → s.claimAreaOk g.ctx (recFrame r) = false → t.mem = s.mem ∧ g'.claimBad = true ∧
            ∀ th, th < 32 → g.aliveMask.getLsbD th = true → (∀ u, u < th → g.aliveMask.getLsbD u = false) → ∀ j e, g.entry j = some e →
              g'.entry j = some (if e.st ≠ .parent ∧ e.mask.getLsbD th = true then
                { e with trap := e.trap ++ [{ cause := 2, pc := g.fetchPc, thr := act, addr := BitVec.ofNat 64 (recFrame r), late := true }] } else e)) ∧
          AMap.get? t.taskQueues l.tq = some q' ∧ q'.recs = q.recs.erase r ∧ q'.running = q.running + 1) ∧
        (q.recs = [] → q.running = 0 → l.nprod ≤ l.producers → ∃ t g', exec (.fetchwAnswer i pick) s = .next t ∧
          answered t 0 0 0 0x8000000000000000 g' ∧ g'.entries = g.entries ∧ t.mem = s.mem) ∧
        (q.recs = [] → (0 < q.running ∨ l.producers < l.nprod) → exec (.fetchwAnswer i pick) s = .next s)) ∧
      (l.isTask = false →
        (∀ first tile, l.nextTile = some first → tile = first ∧ (l.isDet = true ∨ pick = first) ∨
            tile = pick ∧ l.isDet = false ∧ pick < l.openTiles ∧ pick ∉ l.handed ∧ l.handsOut pick = true → ∃ t g' l', exec (.fetchwAnswer i pick) s = .next t ∧
          answered t (BitVec.ofNat 64 tile) (BitVec.ofNat 64 (l.origin tile).x) (BitVec.ofNat 64 (l.origin tile).y)
            (BitVec.ofNat 64 (l.origin tile).z) g' ∧
          t.mem = s.mem ∧ g'.work = .tile tile ∧ g'.live = l.liveMask tile ∧ g'.helper = l.helperMask tile ∧ g'.ended = g.ended &&& ~~~l.liveMask tile ∧
          (∀ j, g'.entry j = (g.entry j).map fun e => if e.st = .parent then e else { e with mask := l.liveMask tile }) ∧ t.launch i = some l' ∧ tile ∈ l'.handed ∧ l'.work = l.work + 1) ∧
        (l.nextTile = none → l.openTiles = l.tiles → ∃ t g', exec (.fetchwAnswer i pick) s = .next t ∧
          answered t 0 0 0 0x8000000000000000 g' ∧ g'.entries = g.entries ∧ t.mem = s.mem))) ∧
    ∀ tile r, r ∈ l.releases → r.2.1 = tile → (∀ a ∈ r.2.2, AMap.get? s.accesses a = none) →
      ∃ t l', exec (.tileComplete i tile) s = .next t ∧ t = { s with launches := t.launches } ∧ t.launch i = some l' ∧ tile ∈ l'.complete ∧
        (∀ x ∈ l.complete, x ∈ l'.complete) ∧ l'.releases.length + 1 = l.releases.length ∧ ∀ j, j ≠ i → t.launch j = s.launch j

/-- O44. The infill unit writes, in one event (log 10), the record of one skipped point whose tile and stencil are complete (R172, R174): under the nearest kernel
the stencil point's record, under the others each element as the weighted sum of the stencil's elements, rounded once. The controller takes
its new work quantum at each update instant, records it, and below HISTLEN writes its history byte (R176, R177). The records read are those
that stood at their tiles' completion (R179). A write that the page does not admit is not performed, and STATUS says so (R386), as it does where
an instant's work quantum comes from poisoned records (R388). Once every
tile is complete and every skipped point written, f10 is set in every group of the launch that has not exited (R175). -/
def Obligations.CoverageEvents : Prop :=
  ∀ (s : State) (i : Nat) (l : Launch), s.launch i = some l → l.stage = .placed → s.ctxStat l.ctx = 1 → s.launchRuns i = true →
    let ty := covTy l.covType
    let whole := decide (ty = .i32 ∨ ty = .n32)
    let stored := fun p => (AMap.get? l.recs (l.pindex p)).getD (s.scrRead (l.recAddr p) l.recSize)
    let elem := fun p j => leNat (((stored p).drop (ty.size * j)).take ty.size)
    let formed := fun (p : Point) (j n : Nat) =>
      let ws := (l.stencil p).1.map fun q => (covVal ty (elem q.1 j), q.2)
      let d := (l.stencil p).2
      let sum := (ws.map fun x => x.1.scaled 0 * (x.2 : Int)).sum
      if l.covKern = 0 then ∀ q r, (l.stencil p).1 = q :: r → n = elem q.1 j
      else if whole then ∃ z : Int, 2 * (z * d - sum).natAbs ≤ d ∧ (2 * (z * d - sum).natAbs = d → z % 2 = 0) ∧ n = wrapNat 32 z
      else n = roundTo (fmtOf ty) .rne false (fDiv (fSum .rne (ws.map fun x => fMul (ofInt x.2 0) x.1)) (ofInt d 0))
    (∀ k, l.f10 = false → l.infillReady k = true → 0 < (l.stencil (l.ofIndex k)).2 →
      let p := l.ofIndex k
      let cell := s.scrCell (l.recAddr p)
      let bytes := s.infillRecord l p
      (s.pageFault l.ctx (l.recAddr p) bytes.length true = none → s.recsPoisoned l ((l.stencil p).1.map Prod.fst) = false →
        ∃ t, exec (.infillWrite i k) s = .next t ∧ t = { s with launches := t.launches, mem := t.mem, poison := t.poison } ∧
          CellsHold t cell bytes.length (fun j => bytes.getD j 0) ∧
          (∀ q r, l.covKern = 0 → (l.stencil p).1 = q :: r → bytes = stored q.1) ∧
          (l.covKern ≠ 0 → bytes.length = l.recSize / ty.size * ty.size) ∧
          (∀ j, l.covKern ≠ 0 → j < l.recSize / ty.size → ∃ n, formed p j n ∧ (bytes.drop (ty.size * j)).take ty.size = leBytes ty.size n) ∧
          (∀ a, ¬(cell ≤ a ∧ a < cell + bytes.length) → SMap.get t.mem a = SMap.get s.mem a) ∧
          t.launch i = some { l with infilled := insertNat k l.infilled }) ∧
      ((s.pageFault l.ctx (l.recAddr p) bytes.length true).isSome = true → ∃ t, exec (.infillWrite i k) s = .next t ∧
        t = { s with launches := t.launches } ∧ t.launch i = some { l with infilled := insertNat k l.infilled, status := l.status ||| 4 })) ∧
    (∀ q, l.ut ≠ 0 → l.instant * l.ut < l.tiles → (∀ n, n < l.instant * l.ut → l.tileDone n = true) →
      let ps := l.samplesAt l.instant
      let hist := l.qHist + l.instant
      let after := { l with qs := q :: l.qs, instant := l.instant + 1 }
      ∀ error : Point → Nat,
      (∀ p ∈ ps, ∃ v, v = s.infillElem l p l.errIdx ∧ (0 < (l.stencil p).2 → formed p l.errIdx v) ∧
        let c := elem p l.errIdx
        let x := covVal ty c
        let y := covVal ty v
        let finite := fun (f : FVal) => f.isNan = false ∧ f.isInf = none
        (c = v → error p = 0) ∧ (c ≠ v → ¬(finite x ∧ finite y) → error p = 255) ∧
        (c ≠ v → finite x ∧ finite y → error p = match fSum .rne [x, y.negate] with
          | .fin _ k e => min (if l.tolExp ≤ e then k * 2 ^ (e - l.tolExp).toNat else k / 2 ^ (l.tolExp - e).toNat) 255
          | _ => 0)) →
      let old := l.qs.headD l.qInit
      let m := 16 * (ps.map error).sum / ps.length
      q = (if ps = [] then old else if l.hiThr < m then min (old + l.qUp) l.qMax else if m < l.loThr then max (old - l.qDn) l.qMin else old) →
      ∃ t, exec (.updateInstant i) s = .next t ∧ t = { s with launches := t.launches, mem := t.mem, poison := t.poison } ∧
        (∀ j, j ≠ i → t.launch j = s.launch j) ∧
        let bad := s.recsPoisoned l (ps.flatMap fun p => p :: (l.stencil p).1.map Prod.fst)
        (l.histLen ≤ l.instant → t.mem = s.mem ∧ t.poison = s.poison ∧
          t.launch i = some (if bad = true then { after with status := l.status ||| 4 } else after)) ∧
        (l.instant < l.histLen → s.pageFault l.ctx hist 1 true = none → bad = true →
          t.poisoned (s.scrCell hist) 1 = true ∧ t.launch i = some { after with status := l.status ||| 4 }) ∧
        (l.instant < l.histLen → s.pageFault l.ctx hist 1 true = none → bad = false →
          t.launch i = some after ∧ SMap.get t.mem (s.scrCell hist) = BitVec.ofNat 8 (q - 1) ∧
            ∀ a, a ≠ s.scrCell hist → SMap.get t.mem a = SMap.get s.mem a) ∧
        (l.instant < l.histLen → (s.pageFault l.ctx hist 1 true).isSome = true →
          t.mem = s.mem ∧ t.poison = s.poison ∧ t.launch i = some { after with status := l.status ||| 4 })) ∧
    (l.isCov = true → l.f10 = false → (∀ n, n < l.tiles → l.known n = true ∧ l.tileDone n = true ∧
        ∀ p ∈ l.infillPoints n, l.pindex p ∈ l.infilled) →
      ∃ t, exec (.coverageDone i) s = .next t ∧ t = { s with launches := t.launches, groups := t.groups } ∧
        t.launch i = some { l with f10 := true } ∧ ∀ k g, s.group k = some g → t.group k = some (
          if g.launch = i ∧ g.entries ≠ [] then { g with flags := g.flags ||| 1024 } else g))

/-! ## Matrix unit and siding -/

/-- O45. The matrix instructions complete for a unit with an active thread: `msetf` sets the format register (R299); `mma`, `mzero` and
`mld`, when the unit holds a power token and the array queue has room, enter the queue with the operands as they stand, an `mma` only where
its shape and tile are legal and the escalation buffer has room; without either room the port withholds it (R297, R301, R315, R83, log 28); an
`mma` comes after the `bld`s of its group, an `mld` after its group's accesses (R130, R303); without a token, the unit asks for one (R158);
`macq` takes an unheld tile or joins those who wait, `mrel` passes it on (R307, R308); and `mdrn` writes the elements of its thread's row,
rounded toward zero or clamped to its type (R311). -/
def Obligations.MatrixInstructions : Prop :=
  ∀ (s : State) (c : Cur) (p : Pred) (t a : Reg) (b : KI) (l : Launch) (w : Word), s.launch c.g.launch = some l → c.act p ≠ 0 →
    let core := coreOf c.u.grp
    let queue := (AMap.get? s.arrays core).getD []
    let tile := (s.tileOfName c.u.grp t.toNat).getD 0
    let tl := (AMap.get? s.tiles tile).getD {}
    let v : Dword := ((match b with
      | .k r => c.g.kget r.toNat
      | .i x => x.setWidth 64).extractLsb' 0 32).setWidth 64
    let unit := (c.u.grp, c.u.entry)
    let queued := fun (i : Instr) (tiles : AMap Tile) (g : Group) (ok : ArrayCmd → Prop) =>
      (unit ∈ s.tokens → queue.length < 8 → ∃ t' x, exec i s = .next t' ∧ ok x ∧ x.id = s.nextId ∧ x.grp = c.u.grp ∧ x.tile = tile ∧ x.act = c.act p ∧
        x.pc = c.u.pc ∧ x.started = false ∧
        Issued { s with
          arrays := AMap.set s.arrays core (queue ++ [x]), nextId := s.nextId + 1, tokens := s.tokens.filter (· != unit), tiles := tiles }
          t' c g c.goneOn) ∧
      (unit ∈ s.tokens → 8 ≤ queue.length → ∃ t', exec i s = .next t' ∧ Withheld s t' c .array) ∧
      (unit ∉ s.tokens → ∃ t', exec i s = .next t' ∧ t' = { s with sel := none, declined := unit :: s.declined, tokenReqs := t'.tokenReqs } ∧
        (∀ r, r ∈ t'.tokenReqs ↔ r = unit ∨ r ∈ s.tokenReqs))
    (Stands s c (.msetf p b) → (mmaForm v).isSome → Completes s c (.msetf p b) fun g => g = { c.g with mfmt := v }) ∧
    (∀ rm f, Stands s c (.mma p rm t a b) → mmaForm c.g.mfmt = some f → c.shape b 0xE0 = some w → tl.holder = none → tl.isInt = f.isInt →
      f.shapeOk w l.bpd = true →
      (s.bufferRoom core = true → queued (.mma p rm t a b) s.tiles c.g fun x => x.op = .mma rm c.g.mfmt w ∧ x.counted = false ∧
        (∀ id q, (id, q) ∈ s.accesses → q.grp = c.u.grp → q.kind = .bld → id ∈ x.after) ∧
        ∀ th i, th < 32 → i < (if f.asc then 34 else 32) → SMap.get x.a (256 * th + i) = c.g.vget th (a.toNat + i)) ∧
      (s.bufferRoom core = false → unit ∈ s.tokens → ∃ t', exec (.mma p rm t a b) s = .next t' ∧ Withheld s t' c .buffer)) ∧
    (∀ ty, Stands s c (.mzero p ty t) → tl.holder = none →
      queued (.mzero p ty t) (AMap.set s.tiles tile { tl with isInt := ty = .i32 }) c.g fun x => x.op = .mzero (ty = .i32) ∧ x.counted = false) ∧
    (∀ scr ty flag sc, Stands s c (.mldIn p scr ty flag sc t a b) → c.shape b 0 = some w → tl.holder = none → mldC0 w + mldNc w ≤ 256 →
      s.mldAddrOk c.g scr (c.g.kget a.toNat).toNat w = true →
      queued (.mldIn p scr ty flag sc t a b) (AMap.set s.tiles tile { tl with isInt := ty = .i32 }) c.g fun x =>
        x.op = .mldIn scr (ty = .i32) tl.isInt (c.g.kget a.toNat) w ∧ x.counted = false ∧ x.ord = flag ∧ x.scope = sc ∧
        ∀ id q, (id, q) ∈ s.accesses → q.grp = c.u.grp → id ∈ x.after) ∧
    (∀ scr ty flag sc, Stands s c (.mldOut p scr ty flag sc t a b) → c.shape b 0 = some w → tl.holder = none → mldC0 w + mldNc w ≤ 256 →
      tl.isInt = decide (ty = .i32) → s.mldAddrOk c.g scr (c.g.kget a.toNat).toNat w = true → c.act p &&& ~~~c.g.helper ≠ 0 →
      queued (.mldOut p scr ty flag sc t a b) s.tiles (if c.e.clause.names 9 then c.g.countUp 9 else c.g) fun x =>
        x.op = .mldOut scr (c.g.kget a.toNat) w ∧ x.counted = c.e.clause.names 9 ∧ x.ord = flag ∧ x.scope = sc ∧
        ∀ id q, (id, q) ∈ s.accesses → q.grp = c.u.grp → id ∈ x.after) ∧
    (Stands s c (.macq p t) →
      (tl.holder = some c.u.grp → Completes s c (.macq p t) (· = c.g)) ∧
      (tl.holder = none → ∃ t', exec (.macq p t) s = .next t' ∧ Issued { s with tiles := AMap.set s.tiles tile { tl with holder := some c.u.grp } } t' c c.g
        { c.goneOn with st := .atMacq tile s.nextId }) ∧
      (∀ h, tl.holder = some h → h ≠ c.u.grp → ∃ t', exec (.macq p t) s = .next t' ∧
        Issued { s with tiles := AMap.set s.tiles tile { tl with waiters := if c.u.grp ∈ tl.waiters then tl.waiters else tl.waiters ++ [c.u.grp] } }
          t' c c.g { c.goneOn with st := .atMacq tile s.nextId })) ∧
    (Stands s c (.mrel p t) → tl.holder = some c.u.grp → ∃ t', exec (.mrel p t) s = .next t' ∧
      Issued { s with tiles := AMap.set s.tiles tile { tl with holder := tl.waiters.head?, waiters := tl.waiters.tail } } t' c c.g c.goneOn) ∧
    ∀ ty sat, Stands s c (.mdrn p ty sat a t b) → c.shape b 0xFFFFC000 = some w → tl.holder = some c.u.grp →
      let j := (w.extractLsb' 8 6).toNat + 1
      let c0 := (w.extractLsb' 0 8).toNat
      (if tl.isInt then ty ∈ [Ty.i32, .i16, .i8] else ty ∈ [Ty.f32, .f16, .bf16, .e4m3, .e5m2]) → c0 + 4 * j ≤ 256 →
      let n := (ty.size * j + 3) / 4
      a.toNat + n ≤ c.g.nregs → c.g.nregs ≤ 256 → Completes s c (.mdrn p ty sat a t b) fun g => ∃ f, RunWritten c.g g (c.act p) n a.toNat f ∧
        ∀ th i, th < 32 → i < j →
          let el := SMap.get tl.el (256 * (th / 4) + (c0 + th % 4 * j + i))
          ((f th (ty.size * i / 4)).extractLsb' (8 * (ty.size * i % 4)) (8 * ty.size)).toNat =
            if tl.isInt then wrapNat (8 * ty.size) (max (intMin ty) (min el.toInt (intMax ty)))
            else if ty = .f32 then el.toNat else roundTo (fmtOf ty) .rtz sat (decodeF (fmtOf .f32) el.toNat)

/-- O46. An array command starts when it heads its core's queue, its tile has no element pending and what it follows is complete, and reads
what it needs then (R297, R303, R310), an `mld` with the stores that its engine sees (R122): each element of an `mma` is the one rounding of
the exact sum of its products and its old value, or the exact integer sum, clamped (R304). A started command that parks nothing leaves its
elements, or writes them to storage, and its queue. -/
def Obligations.ArrayCommands : Prop :=
  ∀ (s : State) (core : Nat) (q : ArrayCmd) (l : List ArrayCmd), AMap.get? s.arrays core = some (q :: l) →
    let heads := fun (t : State) (x : ArrayCmd) => t = { s with arrays := t.arrays, groups := t.groups, corePmc := t.corePmc } ∧
      AMap.get? t.arrays core = some (x :: l) ∧ (∀ k, k ≠ core → AMap.get? t.arrays k = AMap.get? s.arrays k) ∧
      ∀ k g, s.group k = some g → ∃ m, t.group k = some { g with pmc := m }
    let tl := (AMap.get? s.tiles q.tile).getD {}
    (q.started = false → s.pendTile q.tile = false → (∀ k ∈ q.after, AMap.get? s.accesses k = none) →
      (∀ z, q.op = .mzero z → ∃ t, exec (.arrayCommandStart core) s = .next t ∧ heads t { q with started := true }) ∧
      (∀ scr a w, q.op = .mldOut scr a w → s.mldFault q scr true a.toNat w = none →
        ∃ t, exec (.arrayCommandStart core) s = .next t ∧ heads t { q with started := true }) ∧
      (∀ scr z was a w, q.op = .mldIn scr z was a w → s.mldFault q scr false a.toNat w = none →
        (∀ x ∈ s.mldCells q scr a.toNat w, s.poisoned x.2.2 4 = false) →
        -- no store that the engine sees lies over the bytes read
        (∀ k y, (k, y) ∈ s.accesses → (k ∈ s.forwarded ∧ y.core = core) ∨ (k ∉ s.forwarded ∧ y.kind = .store ∧ y.grp = q.grp ∧ k < q.id) →
          ∀ v ∈ y.lanes, v.home = false → ∀ x ∈ s.mldCells q scr a.toNat w, overlap v.cell y.n x.2.2 4 = false) → ∃ t out, exec (.arrayCommandStart core) s = .next t ∧
          heads t { q with started := true, out := out } ∧
          out.map (fun e => (e.el, e.bits)) = (s.mldCells q scr a.toNat w).map (fun x => (x.1, BitVec.ofNat 32 (leNat (Memory.read s.mem x.2.2 4)))) ∧
          ∀ e ∈ out, e.parks = false) ∧
      (∀ rm m w f, q.op = .mma rm m w → mmaForm m = some f → s.mmaPoison q m w = none → ∃ t out, exec (.arrayCommandStart core) s = .next t ∧
        heads t { q with started := true, out := out } ∧
        (∀ e ∈ out, ∃ r i, r < 8 ∧ i < mmaN w ∧ e.el = 256 * r + (mmaC0 w + i) ∧ q.act.extractLsb' (4 * r) 4 ≠ 0 ∧
          let old := SMap.get tl.el e.el
          let row := q.aRow f w r
          let col := s.bColumn q f w (mmaC0 w + i)
          if f.isInt then e.parks = false ∧ e.bits.toInt = max (-2 ^ 31) (min
            (((row.2.1.zip col.codes).map fun x => (BitVec.ofNat 8 x.1).toInt * (BitVec.ofNat 8 x.2).toInt).sum + old.toInt) (2 ^ 31 - 1))
          else
            let terms := (row.1.zip col.vals).map (fun x => fMul x.1 x.2) ++ [decodeF (fmtOf .f32) old.toNat]
            e.bits = BitVec.ofNat 32 (roundTo (fmtOf .f32) rm false (fSum rm terms)) ∧
            e.escalates = windowEscalates (fmtOf .f32) rm false terms ∧ e.tiny = tinyIn (fmtOf .f32) rm (fSum rm terms)) ∧
        ∀ r i, r < 8 → i < mmaN w → q.act.extractLsb' (4 * r) 4 ≠ 0 → ∃ e ∈ out, e.el = 256 * r + (mmaC0 w + i))) ∧
    (q.started = true → (∀ e ∈ q.out, e.parks = false) → s.tileBuffered q.tile = false →
      (∃ g, s.group q.grp = some g ∧ g.block = q.block ∧ g.entries ≠ [] ∧ s.blockRuns g = true) →
      ∃ t, exec (.arrayCommandComplete core) s = .next t ∧
        t = { s with arrays := t.arrays, groups := t.groups, tiles := t.tiles, mem := t.mem, poison := t.poison, past := t.past } ∧
        AMap.get? t.arrays core = (if l = [] then none else some l) ∧
        (∀ k g, s.group k = some g → t.group k = some (if k = q.grp ∧ q.counted = true then g.countDown 9 else g)) ∧
        ((∀ scr a w, q.op ≠ .mldOut scr a w) → t.mem = s.mem ∧ t.past = s.past) ∧
        ((∃ z, q.op = .mzero z) → AMap.get? t.tiles q.tile = some { tl with el := [] }) ∧
        ((∃ scr z was a w, q.op = .mldIn scr z was a w) ∨ (∃ rm m w, q.op = .mma rm m w) → ∃ tl', AMap.get? t.tiles q.tile = some tl' ∧
          tl' = { tl with el := tl'.el } ∧ (∀ n, (∀ e ∈ q.out, e.el ≠ n) → SMap.get tl'.el n = SMap.get tl.el n) ∧
          ∀ u e v, q.out = u ++ e :: v → (∀ d ∈ v, d.el ≠ e.el) → SMap.get tl'.el e.el = e.bits) ∧
        (∀ scr a w, q.op = .mldOut scr a w → t.tiles = s.tiles ∧
          (∀ n, (∀ x ∈ s.mldCells q scr a.toNat w, ¬(x.2.2 ≤ n ∧ n < x.2.2 + 4)) → SMap.get t.mem n = SMap.get s.mem n) ∧
          ∀ u x v, s.mldCells q scr a.toNat w = u ++ x :: v → (∀ y ∈ v, overlap x.2.2 4 y.2.2 4 = false) →
            BitVec.ofNat 32 (leNat (Memory.read t.mem x.2.2 4)) = SMap.get tl.el x.1))

/-- O47. The first token request is granted while fewer tokens are held than the pool of the current power state has (R158). The siding
takes the oldest entry of the first core, in turn, that has one, while there is room for entries and for operand records, numbers it, and
puts its bytes into a free place of the siding region (R80 to R83). The wide unit serves the entry with the smallest SEQ: what it decides
and is not tiny lands, and the rest passes to the exact stage with a value of FASTV that the wide unit may deliver (its rounding: log 7),
or, where the result is tiny, with the result (R84, R62). The exact stage lands every entry with its exact bits (R85, R88): a lane register
of a thread that has not ended, or an element of a tile; an entry of a block that is gone is discarded on landing (R361). -/
def Obligations.SidingAndTokens : Prop :=
  ∀ (s : State) (k : Nat),
    let region := cellScr k 240 0
    let outside := fun (t : State) => ∀ a, ¬(region ≤ a ∧ a < region + 2 ^ 20) → SMap.get t.mem a = SMap.get s.mem a
    let counted := fun (t : State) => ∀ j g, s.group j = some g → ∃ m, t.group j = some { g with pmc := m }
    (∀ r rest, s.tokenReqs = r :: rest →
      s.tokens.length + (s.arrays.map fun q => q.2.length).sum < tokenPool ((s.reg 0x20).extractLsb' 8 3).toNat →
      exec .tokenGrant s = .next { s with tokens := s.tokens ++ [r], tokenReqs := rest }) ∧
    (∀ u core v id x, s.sidingOrder k = u ++ core :: v → (∀ j ∈ u, s.bufferHead j = none) → s.bufferHead core = some (id, x) → x.core / 8 = k →
      (s.sidingEntries k).length < 4096 → ((s.sidingEntries k).filter fun q => q.2.oprec.isSome).length < 512 →
      ((s.sidingEntries k).filter fun q => q.2.ext.isSome).length < 512 →
      ∃ t y, exec (.sidingAccept k) s = .next t ∧
        t = { s with
          parked := t.parked, seqs := t.seqs, sideLast := t.sideLast, groups := t.groups, corePmc := t.corePmc, mem := t.mem, poison := t.poison } ∧
        y = { x with buffered := false, seq := SMap.get s.seqs k, slot := y.slot, ext := y.ext } ∧ y.slot < 4096 ∧ y.ext.isSome = x.oprec.isSome ∧
        (∀ j z, (j, z) ∈ s.sidingEntries k → z.slot ≠ y.slot) ∧ AMap.get? t.parked id = some y ∧
        (∀ j, j ≠ id → AMap.get? t.parked j = AMap.get? s.parked j) ∧ SMap.get t.seqs k = SMap.get s.seqs k + 1 ∧ counted t ∧ outside t ∧
        ∀ q ∈ [(16, y.seq), (24, y.opa), (32, y.opb), (40, y.opcv), (48, y.fast)],
          leNat (Memory.read t.mem (region + 64 * y.slot + q.1) 8) = q.2.toNat) ∧
    ∀ id x exact, (id, x) ∈ s.sidingEntries k → x.exact = exact → x.slot < 4096 →
      (∀ j y, (j, y) ∈ s.sidingEntries k → y.exact = exact → (j, y) = (id, x) ∨ x.seq < y.seq) →
      let i : Instr := if exact then .exactStageServe k else .wideUnitServe k
      let left := fun (t : State) => AMap.get? t.parked id = none ∧ (∀ j, j ≠ id → AMap.get? t.parked j = AMap.get? s.parked j) ∧ outside t
      let passed := fun (t : State) (y : Parked) => t = { s with
          parked := t.parked, groups := t.groups, corePmc := t.corePmc, mem := t.mem, poison := t.poison, free := t.free } ∧
        AMap.get? t.parked id = some y ∧ (∀ j, j ≠ id → AMap.get? t.parked j = AMap.get? s.parked j) ∧ counted t ∧ outside t
      (exact = false → x.wideFails = some true → ∃ t v, exec i s = .next t ∧ passed t { x with exact := true, fast := v } ∧
        (v ∈ x.widev ∨ x.widev = [] ∧ v = 0)) ∧
      (exact = false → x.wideFails = some false → x.tiny = true → ∃ t, exec i s = .next t ∧
        passed t { x with exact := true, fast := x.value, assist := true }) ∧
      ((exact = false → x.wideFails = some false ∧ x.tiny = false) → x.dead = true → (∀ g, s.group x.grp = some g → g.entries ≠ []) →
        ∃ t, exec i s = .next t ∧ t = { s with parked := t.parked, mem := t.mem, poison := t.poison } ∧ left t) ∧
      ((exact = false → x.wideFails = some false ∧ x.tiny = false) → x.dead = false → (∃ g, s.group x.grp = some g ∧ g.entries ≠ []) →
        ∃ t, exec i s = .next t ∧ t = { s with parked := t.parked, groups := t.groups, tiles := t.tiles, mem := t.mem, poison := t.poison } ∧ left t ∧
        (∀ tile el, x.dest = .elem tile el → t.groups = s.groups ∧ (∀ j, j ≠ tile → AMap.get? t.tiles j = AMap.get? s.tiles j) ∧
          ∀ tl, AMap.get? s.tiles tile = some tl → ∃ tl', AMap.get? t.tiles tile = some tl' ∧ tl' = { tl with el := tl'.el } ∧
            ∀ n, SMap.get tl'.el n = if n = el then x.value.extractLsb' 0 32 else SMap.get tl.el n) ∧
        ∀ grp th d wide g, x.dest = .reg grp th d wide → s.group grp = some g → th < 32 → d.toNat + (if wide then 1 else 0) < 256 →
          t.tiles = s.tiles ∧ (∀ j, j ≠ grp → t.group j = s.group j) ∧ ∃ g', t.group grp = some g' ∧ g' = { g with v := g'.v } ∧
            (g.ended.getLsbD th = true → g' = g) ∧
            (g.ended.getLsbD th = false → Landed g' wide th d.toNat x.value ∧
              ∀ j n, n < 256 → ¬(j = th ∧ (n = d.toNat ∨ (wide = true ∧ n = d.toNat + 1))) → g'.vget j n = g.vget j n))

/-! ## System registers, traps, fetch -/

/-- O48. `sread` writes the value of Table 12.5 to its destination, and the trap state only in a handler; `swrite` writes TRESUME in a
handler, and CLMSTAT, where a 1 in SEALED seals the task at the home of every set it holds (R194) or, where a set is being rolled back,
starts the rollback, with SEALED set at the homes where none is; `pmc` reads the counter that its selector names, counter 0 of a group being
the counted clocks since its first issue (R53, logs 4 and 67) and counter 8 including up to 7 clocks for each access that went to the network
(R107; how many is free: log 45), and SUBOP 1 clears a group's, so that counter 8 then counts later accesses only (R246). The read of
DETDONE in a deterministic launch is an acquire at `.dev` (R201). Every other register number, and a
selector beyond Table 12.6, is an illegal use. An instruction with no active thread has no effect. (CLMSTAT reads 0, and a write of it has no
effect, in a group that runs no task of a launch with claims: log 71.) -/
def Obligations.SystemRegisters : Prop :=
  ∀ (s : State) (c : Cur) (p : Pred) (d : Reg) (b : KI) (clear : Bool) (num : Half) (l : Launch), s.launch c.g.launch = some l →
    let reads := fun (n : Half) (ok : Dword → Prop) => Stands s c (.sread p d n) → CompletesOnce s c (.sread p d n) p fun g =>
      ∃ v, ok v ∧ UniWritten c.g g d.toNat v
    let traps := fun (i : Instr) => c.act p ≠ 0 → exec i s = .next (c.illegalUse s p)
    reads 0 (· = c.g.live.setWidth 64) ∧ reads 1 (· = c.g.helper.setWidth 64) ∧ reads 2 (· = c.e.mask.setWidth 64) ∧
    (∀ blk, s.blockOf c.g = some blk → blk.num < 2 ^ 16 → 1 ≤ l.gcount → l.gcount ≤ 128 → c.g.g < 128 → c.u.entry < 64 → c.u.grp < 2 ^ 17 →
      reads 3 fun v => v.extractLsb' 0 8 = BitVec.ofNat 8 (c.u.grp / 512) ∧ v.extractLsb' 8 9 = BitVec.ofNat 9 (c.u.grp % 512) ∧
        v.extractLsb' 17 6 = BitVec.ofNat 6 c.u.entry ∧ v.extractLsb' 24 7 = BitVec.ofNat 7 c.g.g ∧
        v.extractLsb' 32 7 = BitVec.ofNat 7 (l.gcount - 1) ∧ v.extractLsb' 48 16 = BitVec.ofNat 16 blk.num ∧ v &&& 0x0000FF80_80800000 = 0) ∧
    (∀ k, k < 8 → l.span = 2 ^ k → c.g.ctx < 32 → l.queue < 64 → reads 4 fun v => v.extractLsb' 0 5 = BitVec.ofNat 5 c.g.ctx ∧
        v.extractLsb' 5 6 = BitVec.ofNat 6 l.queue ∧ v.extractLsb' 11 3 = BitVec.ofNat 3 k ∧ v.extractLsb' 14 2 = l.desc.extractLsb' 8 2 ∧
        v.extractLsb' 16 8 = l.desc.extractLsb' 0 8 ∧ v.extractLsb' 24 16 = c.e.mod ∧ v.extractLsb' 40 24 = 0) ∧
    reads 5 (· = s.clk) ∧
    (l.isDet = false → reads 6 (· = 0)) ∧
    -- in a deterministic launch the read of DETDONE acquires (R201)
    (l.isDet = true → Stands s c (.sread p d 6) → (c.act p = 0 → Completes s c (.sread p d 6) (· = c.g)) ∧
      (c.act p ≠ 0 → ∃ t g n, exec (.sread p d 6) s = .next t ∧ Issued (s.acquireAt c.u.grp c.e.mask .dev) t c g c.goneOn ∧
        UniWritten c.g g d.toNat (BitVec.ofNat 64 n) ∧ n ≤ l.tiles ∧ (∀ i, i < n → l.tileDone i = true) ∧ (n < l.tiles → l.tileDone n = false))) ∧
    (s.claimFrame c.g = none → reads 7 (· = 0)) ∧
    (∀ l' f, s.claimFrame c.g = some (l', f) → reads 7 fun v => v.extractLsb' 0 5 = BitVec.ofNat 5 (s.nset f) ∧
      v.extractLsb' 16 9 = BitVec.ofNat 9 (s.nlog f) ∧ v.getLsbD 31 = s.sealed f ∧ v &&& 0xFFFFFFFF_7E00FFE0 = 0) ∧
    reads 8 (· = c.g.mfmt) ∧ reads 9 (· = c.g.flags.setWidth 64) ∧
    (c.g.ras.length ≤ 16 → c.g.spilled < 2 ^ 16 → reads 10 fun v => v.extractLsb' 0 5 = BitVec.ofNat 5 c.g.ras.length ∧
      v.extractLsb' 16 16 = BitVec.ofNat 16 c.g.spilled ∧ v &&& 0xFFFFFFFF_0000FFE0 = 0) ∧
    reads 11 (· = BitVec.ofNat 64 c.g.spSize) ∧
    (c.e.inHandler = true →
      reads 0x100 (· = c.g.trap.tcause) ∧ reads 0x101 (· = c.g.trap.tpc) ∧ reads 0x102 (· = c.g.trap.tresume) ∧ reads 0x103 (· = c.g.trap.tmask) ∧
      reads 0x104 (· = c.g.trap.taddr) ∧ reads 0x105 (· = c.g.trap.tinfo) ∧
      (∀ j, j < 4 → reads (BitVec.ofNat 16 (0x106 + j)) (· = c.g.trap.tpend.extractLsb' (64 * j) 64)) ∧
      reads 0x10A (· = c.g.trap.tpendt) ∧ reads 0x10B (· = c.g.trap.tovf)) ∧
    (Stands s c (.sread p d num) → 12 ≤ num.toNat → (c.e.inHandler = true → num.toNat < 0x100 ∨ 0x10B < num.toNat) → traps (.sread p d num)) ∧
    (let i : Instr := .swrite p d num
     Stands s c i →
      let x := c.g.kget d.toNat
      (c.act p = 0 → Completes s c i (· = c.g)) ∧
      (num ≠ 7 → ¬(num = 0x102 ∧ c.e.inHandler = true) → traps i) ∧
      (num = 0x102 → c.e.inHandler = true → CompletesOnce s c i p (· = { c.g with trap := { c.g.trap with tresume := x } })) ∧
      (num = 7 → x.getLsbD 31 = false ∨ s.claimFrame c.g = none → Completes s c i (· = c.g)) ∧
      (num = 7 → x.getLsbD 31 = true → c.act p ≠ 0 → ∀ l' f, s.claimFrame c.g = some (l', f) →
        (∀ y ∈ s.heldSets f, s.poisoned (s.scrCell (l'.ownerAddr y)) 16 = false) →
        (s.sealVoid c.g l' f = (c.g.wounded || (s.heldSets f).any fun y => s.scrNat (l'.ownerAddr y + 8) 1 / 2 % 2 == 1)) ∧
        (s.sealVoid c.g l' f = true → ∃ t, exec i s = .next t ∧
          Issued { s with mem := t.mem, poison := t.poison } t c { c.g with wounded := true } c.goneOn ∧
          (∀ y ∈ s.heldSets f, s.scrNat (l'.ownerAddr y + 8) 1 / 2 % 2 = 0 → t.scrNat (l'.ownerAddr y + 8) 1 % 2 = 1) ∧
          ∀ a, (∀ y ∈ s.heldSets f, s.scrNat (l'.ownerAddr y + 8) 1 / 2 % 2 = 0 → a ≠ s.scrCell (l'.ownerAddr y + 8)) →
            SMap.get t.mem a = SMap.get s.mem a) ∧
        (s.sealVoid c.g l' f = false → ∃ t, exec i s = .next t ∧ Issued { s with mem := t.mem, poison := t.poison } t c c.g c.goneOn ∧
          t.scrNat (f + 3) 1 % 2 = 1 ∧ (∀ y ∈ s.heldSets f, t.scrNat (l'.ownerAddr y + 8) 1 % 2 = 1) ∧
          ∀ a, a ≠ s.scrCell (f + 3) → (∀ y ∈ s.heldSets f, a ≠ s.scrCell (l'.ownerAddr y + 8)) → SMap.get t.mem a = SMap.get s.mem a))) ∧
    (let i : Instr := .pmc p clear d b
     Stands s c i →
      let x : Dword := match b with
        | .k r => c.g.kget r.toNat
        | .i w => w.setWidth 64
      let n := (x.extractLsb' 0 8).toNat
      (c.act p = 0 → Completes s c i (· = c.g)) ∧
      (x.extractLsb' 9 55 ≠ 0 ∨ 18 < n → traps i) ∧
      (x.extractLsb' 9 55 = 0 → n ≤ 18 → c.act p ≠ 0 →
        -- entries 19 and 20 hold how many accesses went to the network, now and when counter 8 was cleared last
        let slots := fun (m : SMap 64) (base w : Nat) =>
          if n = 8 then w ≤ 7 * ((SMap.get m (base + 19)).toNat - (SMap.get m (base + 20)).toNat) else w = 0
        let core := 32 * (c.u.grp / 512)
        (x.getLsbD 8 = true → ∃ t g w, exec i s = .next t ∧ Issued s t c g c.goneOn ∧ slots s.corePmc core w ∧
          UniWritten c.g g d.toNat (if n = 0 then s.clk else SMap.get s.corePmc (core + n) + BitVec.ofNat 64 w)) ∧
        (x.getLsbD 8 = false → ∃ t g w, exec i s = .next t ∧ Issued s t c g c.goneOn ∧ slots c.g.pmc 0 w ∧
          let clocks := match c.g.first with
            | none => 0
            | some t => BitVec.ofNat 64 (s.clk.toNat - t - c.g.lost)
          g = { c.g with k := g.k, pmc := g.pmc, first := g.first, lost := g.lost } ∧
          (∀ r, g.kget r = if r = d.toNat then
            (if n = 0 then clocks else if n = 7 then 0 else SMap.get c.g.pmc n + BitVec.ofNat 64 w) else c.g.kget r) ∧
          (clear = false ∨ n ≠ 0 → g.first = c.g.first ∧ g.lost = c.g.lost) ∧ (clear = false ∨ n = 0 → g.pmc = c.g.pmc) ∧
          (clear = true → n = 0 → g.first = some s.clk.toNat ∧ g.lost = 0) ∧
          (clear = true → n ≠ 0 → ∀ j, SMap.get g.pmc j = if j = n then 0 else SMap.get c.g.pmc (if n = 8 ∧ j = 20 then 19 else j)))))

/-- O49. A trap of the selected unit is taken as R346 says: the unit enters the handler of its launch with the trap state of Table 19.3, or
it waits for the handler of another unit, or its block ends. `trap` and `bkpt` retire, and their trap is taken at the next instruction
(R345); `bkpt` under a debugger halts the context instead (R245, R401). `eret` resumes at TRESUME, in the module of TINFO, with the clause
state saved there, and is an illegal use outside a handler or in a unit that does not hold every thread that entered it (R347, R360).
TRAP_ENTRY lets a unit that holds a trap and need not wait any more take it. -/
def Obligations.TrapsAndReturns : Prop :=
  ∀ (s : State) (c : Cur) (p : Pred) (b : KI) (l : Launch), s.launch c.g.launch = some l →
    let grp := c.u.grp
    let n := c.u.entry
    -- the address behind the selected instruction holds an instruction that issues
    let next := ∃ blk j w, s.l0Block grp c.g c.goneOn = some blk ∧ decodeAt blk (c.u.npc.toNat % 32) = .instr j w ∧ ∀ x, j ≠ .nop x
    let late := fun (i : Instr) (r : TrapRec) => c.act p ≠ 0 → c.e.trap = [] → c.e.st = .run → next →
      ∃ t t1 g1, exec i s = .next t ∧ Issued s t1 c c.g { c.goneOn with trap := [r] } ∧ t1.group grp = some g1 ∧
        (c.g.otherHandler n = true → t = t1) ∧ (c.g.otherHandler n = false → TrapTaken t1 t grp n g1 { c.goneOn with trap := [r] } l r)
    (s.cur = some c → ∀ info, TrapTaken s (c.illegalUse s p info) grp n c.g c.e l
        { cause := 2, pc := c.u.pc, thr := c.act p, info := BitVec.ofNat 8 info } ∧ (c.illegalUse s p info).sel = none) ∧
    (Stands s c (.trap p b) →
      (c.act p = 0 → Completes s c (.trap p b) (· = c.g)) ∧
      late (.trap p b) { cause := 5, pc := c.u.pc, thr := c.act p, late := true
                         code := match b with
                           | .k r => (c.g.kget r.toNat).extractLsb' 0 16
                           | .i w => w.extractLsb' 0 16 }) ∧
    (Stands s c (.bkpt p) →
      (c.act p = 0 → Completes s c (.bkpt p) (· = c.g)) ∧
      ((s.reg (0x34000 + 32 * c.g.ctx)).getLsbD 31 = false → late (.bkpt p) { cause := 6, pc := c.u.pc, thr := c.act p, late := true }) ∧
      ((s.reg (0x34000 + 32 * c.g.ctx)).getLsbD 31 = true → c.act p ≠ 0 → ∃ t, exec (.bkpt p) s = .next t ∧
        Issued { s with bar0 := t.bar0 } t c { c.g with bkpt := true } c.goneOn ∧ t.reg (0x34004 + 32 * c.g.ctx) = 9 ∧
        ∀ o, o ≠ 0x34004 + 32 * c.g.ctx → t.reg o = s.reg o)) ∧
    (Stands s c (.eret p) →
      let ts := c.g.trap
      let may := c.e.inHandler = true ∧ ts.tmask.extractLsb' 32 32 &&& c.g.unexited = c.e.mask
      (c.act p = 0 → Completes s c (.eret p) (· = c.g)) ∧
      (c.act p ≠ 0 → ¬may → exec (.eret p) s = .next (c.illegalUse s p)) ∧
      (c.act p ≠ 0 → may → ∃ t, exec (.eret p) s = .next t ∧ Issued s t c c.g { c.e with
        pc := ts.tresume, mod := ts.tinfo.extractLsb' 8 16, st := .run, target := false, resumed := true, inHandler := false
        wait := ts.tinfo.extractLsb' 34 12
        clause := ⟨if ts.tinfo.getLsbD 24 then some (ts.tinfo.extractLsb' 25 4) else none,
                   if ts.tinfo.getLsbD 29 then some (ts.tinfo.extractLsb' 30 4) else none⟩ })) ∧
    ∀ core slot j g e r rest, s.group (512 * core + slot) = some g → g.entry j = some e → s.launch g.launch = some l →
      s.coreRuns core = true → s.ctxRuns g.ctx = true → s.launchRuns g.launch = true → s.blockRuns g = true → e.trap = r :: rest →
      s.waitOver (512 * core + slot) g e = true → g.otherHandler j = false →
      (r.late = true → ∃ blk i w, s.l0Block (512 * core + slot) g e = some blk ∧ decodeAt blk (e.pc.toNat % 32) = .instr i w ∧ ∀ x, i ≠ .nop x) →
      ∃ t, exec (.trapEntry core slot j) s = .next t ∧ TrapTaken s t (512 * core + slot) j g e l r

/-- O50. A block that a stalled unit lacks comes from the nearest level that holds it, else from memory, to L0 (R115, R116), with some of
the blocks that follow it (log 63); L0 holds no more than its 2,048 blocks (Table 5.7, log 12). The page's translation is cached (log 11),
and the module, by its number and hash, enters the launch's set beside those that stand there (R199), as it does whenever a unit of its group
is selected. A translation that is not present stalls the core and is reported (R348, R351), poison ends the block (R388), and a fetch outside
the segment or from a page that may not be executed is the fetch fault (R390); a unit to which a trap is due takes that instead (R407). A port
that holds no unit's instruction selects, among the groups with a ready unit, one of the highest class, next in turn, and in it the next
ready unit in turn (R52; the turn is the model's: log 74); one that holds an instruction selects its unit or none (log 28). A fence that
acquires does so there, for its unit's threads (R126). A group with a ready unit that has issued nothing for 4,096 counted
clocks moves to class 0, and no other does (R52, R53, log 4). -/
def Obligations.FetchAndSelect : Prop :=
  ∀ (s : State) (core slot j port : Nat) (g : Group) (e : Entry) (l : Launch), slot < 512 →
    let grp := 512 * core + slot
    s.group grp = some g → g.entry j = some e → s.launch g.launch = some l →
    let fill := fun (ahead : Nat) => Instr.instructionFetchFill core slot ⟨j, ahead⟩
    let noted := fun (t : State) (g : Group) (mod : Half) => ∀ i x, s.launch i = some x → ∃ m, t.launch i = some { x with mods := m } ∧
      ∀ q, q ∈ m ↔ q ∈ x.mods ∨ i = g.launch ∧ ∃ y, s.module g.ctx mod = some y ∧ q = (mod.toNat, y.hash)
    let mine := fun (m : AMap (BitVec 256)) => (m.filter fun q => q.1 / 2 ^ 60 = core).length
    (∀ ahead, s.fetchStalled grp j = true →
      (∀ pg k, s.fetchWhere g.ctx e.mod e.pc = .cell pg k → s.poisoned k 32 = false → ∃ t, exec (fill ahead) s = .next t ∧
        t = { s with tlb := t.tlb, l0 := t.l0, l1 := t.l1, l2 := t.l2, groups := t.groups, corePmc := t.corePmc, launches := t.launches
                     free := t.free } ∧
        (ahead = 0 → AMap.get? t.l0 (core * 2 ^ 60 + k) =
          some (match AMap.get? s.l1 (core / 8 * 2 ^ 60 + k), AMap.get? s.l2 (core / 64 * 2 ^ 60 + k) with
            | some x, _ => x
            | none, some x => x
            | none, none => BitVec.ofNat 256 (leNat (Memory.read s.mem k 32)))) ∧
        ((s.l0.map Prod.fst).Pairwise (· < ·) → mine s.l0 ≤ 2048 → mine t.l0 ≤ 2048) ∧
        ⟨g.ctx, pg⟩ ∈ t.tlb ∧ (∀ i x, s.group i = some x → ∃ m, t.group i = some { x with pmc := m }) ∧ noted t g e.mod) ∧
      (s.fetchWhere g.ctx e.mod e.pc = .absent → e.trap = [] → g.ctx < 32 → ∃ t, exec (fill ahead) s = .next t ∧
        t = { s with bar0 := t.bar0, mem := t.mem, poison := t.poison, msix := t.msix, badWrite := t.badWrite
                     svc := AMap.set s.svc core (true, g.ctx, grp, j) } ∧
        t.reg (0x33400 + 8 * core) = BitVec.ofNat 32 (2 ^ 31 + 2 ^ 29 + g.ctx) ∧
        Reported s t g.ctx (reportOf s grp g 2 0x21 0 e.pc.toNat (32 * (e.pc.toNat / 32)))) ∧
      (s.fetchWhere g.ctx e.mod e.pc = .poisoned ∨ (∃ pg k, s.fetchWhere g.ctx e.mod e.pc = .cell pg k ∧ s.poisoned k 32 = true) →
        exec (fill ahead) s = .next (s.terminateAt grp .poison 0 e.pc e.pc)) ∧
      (s.fetchWhere g.ctx e.mod e.pc = .absent ∨ (∃ sub, s.fetchWhere g.ctx e.mod e.pc = .fault sub) → e.trap ≠ [] → exec (fill ahead) s = .next s) ∧
      (∀ sub, s.fetchWhere g.ctx e.mod e.pc = .fault sub → e.trap = [] → ∃ t, exec (fill ahead) s = .next t ∧
        TrapTaken s t grp j g e l { cause := 4, sub := BitVec.ofNat 8 sub, pc := e.pc, thr := e.mask, addr := e.pc })) ∧
    (s.sel = none →
      let last := ((AMap.get? s.lastGroup (8 * core + port)).getD 63) % 64
      let turn := fun (k : Nat) => (k % 64 + 63 - last) % 64
      let ready := fun (k i : Nat) => k / 64 = 8 * core + port ∧ s.unitReady k i = true
      let selected := fun (t : State) (k i : Nat) (g' : Group) (e' : Entry) => s.group k = some g' ∧ g'.entry i = some e' ∧
        t = { s with groups := t.groups, sel := some { grp := k, entry := i, pc := e'.pc, npc := e'.pc }, launches := t.launches
                     known := t.known } ∧
        (∀ k', k' ≠ k → t.group k' = s.group k') ∧ noted t g' e'.mod ∧ (e'.st = .run → t.known = s.known) ∧
        (∀ ids near cum early th, e'.st = .atFence ids near cum (some .dev) early → s.past ≠ [] → th < 32 → e'.mask.getLsbD th = true →
          ∃ x, AMap.get? t.known (32 * k + th) = some x ∧ s.past.length ≤ x.dev) ∧
        (∃ es, t.group k = some { g' with entries := es } ∧ AMap.get? es i = some { e' with st := .run } ∧
          ∀ i', i' ≠ i → AMap.get? es i' = g'.entry i')
      (∀ k i h, s.heldUnit (8 * core + port) = some (k, i, h) → k / 64 = 8 * core + port →
        (s.unitReady k i = true → ∃ t g' e', exec (.issueSelect core port) s = .next t ∧ selected t k i g' e') ∧
        (s.unitReady k i = false → exec (.issueSelect core port) s = .next s)) ∧
      (s.heldUnit (8 * core + port) = none → (∃ k i, ready k i) → ∃ t k i g' e', exec (.issueSelect core port) s = .next t ∧ ready k i ∧
        selected t k i g' e' ∧
        (∀ k' i' x, ready k' i' → s.group k' = some x → s.classOf g' < s.classOf x ∨ s.classOf g' = s.classOf x ∧ turn k ≤ turn k') ∧
        ∀ i', ready k i' → (i + 63 - g'.lastEntry) % 64 ≤ (i' + 63 - g'.lastEntry) % 64) ∧
      (s.heldUnit (8 * core + port) = none → (∀ k i, ¬ready k i) → exec (.issueSelect core port) s = .next s)) ∧
    (let counted := s.clk.toNat - g.lastIssue - (g.lost - g.lostAt)
     (s.unitReady grp j = true → 4096 ≤ counted → ∃ t, exec (.priorityPromotion core slot) s = .next t ∧
      t = { s with groups := t.groups } ∧ t.group grp = some { g with promoted := true } ∧ ∀ k, k ≠ grp → t.group k = s.group k) ∧
     (counted < 4096 ∨ (∀ i, s.unitReady grp i = false) → exec (.priorityPromotion core slot) s = .next s))

/-! ## Claims, faults, heat -/

/-- Two runs of cells have no cell in common. -/
def apart (a n b m : Nat) : Prop := a + n ≤ b ∨ b + m ≤ a

/-- The claim area of a task at f lies apart from the owner entries of its sets, from the words that it logged, and from the claim areas of
the groups that wait for its sets; the owner entries are aligned, and each of those groups has a task that may take one set more. -/
structure AreasApart (s : State) (g : Group) (l : Launch) (f : Nat) : Prop where
  aligned : f % 64 = 0
  log : ∀ x ∈ s.undoLog f, x.1 % 4 = 0 ∧ ∀ m k, m < 128 → k < 4 → s.scrCell (x.1 + k) ≠ s.scrCell (f + m)
  owners : ∀ y ∈ s.heldSets f, l.ownerAddr y % 16 = 0 ∧ ∀ m k, m < 128 → k < 16 → s.scrCell (l.ownerAddr y + k) ≠ s.scrCell (f + m)
  once : (s.heldSets f).Nodup
  distinct : ∀ y ∈ s.heldSets f, ∀ z ∈ s.heldSets f, y ≠ z → ∀ k j, k < 16 → j < 16 → s.scrCell (l.ownerAddr y + k) ≠ s.scrCell (l.ownerAddr z + j)
  waiters : ∀ y ∈ s.heldSets f, ∀ q ∈ s.claimWaiters g.launch y, ∃ e, s.claimFrame q.2 = some (l, e) ∧ e % 64 = 0 ∧
    s.nset e + (s.heldSets f).length ≤ 16 ∧ (∀ m k, m < 128 → k < 128 → s.scrCell (e + m) ≠ s.scrCell (f + k)) ∧
    (∀ m k, m < 128 → k < 128 → m ≠ k → s.scrCell (e + m) ≠ s.scrCell (e + k)) ∧
    (∀ z ∈ s.heldSets f, ∀ m k, m < 128 → k < 16 → s.scrCell (e + m) ≠ s.scrCell (l.ownerAddr z + k)) ∧
    ∀ x ∈ s.undoLog f, ∀ m k, m < 128 → k < 4 → s.scrCell (e + m) ≠ s.scrCell (x.1 + k)

/-- What steps 4 and 5 of R190 leave of a task's claims: each word that it logged holds the value of the oldest entry that names it; each set
that it held is free, or belongs, without SEALED and ROLLBACK, to the group that asks for it and whose age is the smallest (R187); and FLAGS,
NSET and NLOG are 0. -/
structure TaskUndone (s t : State) (g : Group) (l : Launch) (f : Nat) : Prop where
  words : ∀ (j : Nat) (u : Nat × Word), (s.undoLog f)[j]? = some u →
    (∀ (n : Nat) (x : Nat × Word), n < j → (s.undoLog f)[n]? = some x → apart (s.scrCell x.1) 4 (s.scrCell u.1) 4) →
    (∀ y ∈ s.heldSets f, apart (s.scrCell (l.ownerAddr y)) 16 (s.scrCell u.1) 4) →
    BitVec.ofNat 32 (leNat (Memory.read t.mem (s.scrCell u.1) 4)) = u.2
  freed : ∀ y ∈ s.heldSets f, s.claimWaiters g.launch y = [] → t.scrNat (l.ownerAddr y) 8 = 0 ∧ t.scrNat (l.ownerAddr y + 8) 1 = 0
  passed : ∀ y ∈ s.heldSets f, s.claimWaiters g.launch y ≠ [] → ∃ k x, (k, x) ∈ s.claimWaiters g.launch y ∧
    (∀ q ∈ s.claimWaiters g.launch y, x.age ≤ q.2.age) ∧ t.scrNat (l.ownerAddr y) 8 = x.age.toNat ∧ t.scrNat (l.ownerAddr y + 8) 1 = 0 ∧
    t.scrNat (l.ownerAddr y + 9) 1 = k / 512 % 256 ∧ t.scrNat (l.ownerAddr y + 10) 2 = k % 512 ∧
    ∀ i a, AMap.get? s.accesses i = some a → a.grp = k → ∃ b, AMap.get? t.accesses i = some b ∧ y ∉ b.need
  header : t.scrNat f 4 = 0

/-- O51. The home of a claim set decides a request on its owner entry as it stands (R186): a free set is granted, its entry then names the
task's age and group, the set joins those that the task holds, and its threads acquire (R135, R187); an older task wounds the holder of a set
that is neither sealed nor wounded, and waits, a wound being ignored by a group at its `tend` or whose threads have all exited (R372); any
other request waits. A wound takes effect once no unit of its group is in a handler: the group's waits are
withdrawn (R190, R371). ROLLBACK then writes back what the task wrote first to each word, releases its sets, clears the claim-area header,
returns the record with RST set, and stands the group's threads at the `fetchw`, the return-address stack as deep as it was there (R190;
what refills it is log 35's); TASK_ABANDON undoes and releases the same and returns the slot of a task whose group has exited (R372). Both
wait for what the task has in the engines and for the stores visible on its core (R136). -/
def Obligations.ClaimsAndTasks : Prop :=
  ∀ (s : State) (grp : Nat) (g : Group) (l : Launch), s.group grp = some g → s.launch g.launch = some l →
    let core := grp / 512
    let slot := grp % 512
    (∀ id set pc f, s.requester id set = some (grp, pc) → s.claimFrame g = some (l, f) →
      let a := l.ownerAddr set
      let i : Instr := .claimAcquireRequest id set
      a % 16 = 0 → s.poisoned (s.scrCell a) 16 = false →
      (s.scrNat a 8 = 0 → set ∉ s.heldSets f → set < 2 ^ 32 → f % 64 = 0 → s.nset f < 16 → 0 < g.age.toNat →
        (∀ m, m < 128 → ∀ k, k < 16 → s.scrCell (a + k) ≠ s.scrCell (f + m)) → (∀ m k, m < 128 → k < 128 → m ≠ k → s.scrCell (f + m) ≠ s.scrCell (f + k)) →
        ∃ t, exec i s = .next t ∧
          t = { s with mem := t.mem, poison := t.poison, accesses := t.accesses, copies := t.copies, known := t.known } ∧
          t.scrNat a 8 = g.age.toNat ∧ t.scrNat (a + 8) 1 = 0 ∧ t.scrNat (a + 9) 1 = core % 256 ∧ t.scrNat (a + 10) 2 = slot ∧
          t.nset f = s.nset f + 1 ∧ t.scrNat (f + 64 + 4 * s.nset f) 4 = set ∧ (∀ n, n < s.nset f → t.scrNat (f + 64 + 4 * n) 4 = s.scrNat (f + 64 + 4 * n) 4) ∧
          (∀ k x, AMap.get? s.accesses k = some x →
            AMap.get? t.accesses k = some (if x.grp = grp then { x with need := x.need.filter (· != set) } else x)) ∧
          (∀ k x, AMap.get? s.copies k = some x → AMap.get? t.copies k = some (if x.grp = grp then { x with need := x.need.filter (· != set) } else x)) ∧
          (s.past ≠ [] → ∀ th, th < 32 → ∃ x, AMap.get? t.known (32 * grp + th) = some x ∧ s.past.length ≤ x.dev)) ∧
      (s.scrNat a 8 ≠ 0 → set ∉ s.heldSets f → (s.scrNat (a + 8) 1) % 4 = 0 → g.age < BitVec.ofNat 64 (s.scrNat a 8) →
        ∃ t, exec i s = .next t ∧ t = { s with mem := t.mem, poison := t.poison, groups := t.groups, corePmc := t.corePmc } ∧
          (t.scrNat (a + 8) 1) % 4 = 2 ∧ (∀ n, n ≠ s.scrCell (a + 8) → SMap.get t.mem n = SMap.get s.mem n) ∧
          ∀ k x, s.group k = some x → ∃ m, t.group k = some { x with
            pmc := m
            wounded := x.wounded || (decide (k = 512 * s.scrNat (a + 9) 1 + s.scrNat (a + 10) 2 % 512) && x.taskOpen &&
              !x.entries.isEmpty && !x.entries.any fun q => q.2.st = .atTend) }) ∧
      (s.scrNat a 8 ≠ 0 → set ∉ s.heldSets f → (s.scrNat (a + 8) 1) % 4 ≠ 0 ∨ ¬g.age < BitVec.ofNat 64 (s.scrNat a 8) → exec i s = .next s)) ∧
    (g.wounded = true → g.rolling = false → g.taskOpen = true → g.entries ≠ [] → (∀ q ∈ g.entries, q.2.inHandler = true → q.2.st = .parent) → s.ctxRuns g.ctx = true →
      s.blockRuns g = true → ∃ t g', exec (.woundTakesEffect core slot) s = .next t ∧ t.group grp = some g' ∧
        g' = { g with rolling := true, wounded := false, flags := g'.flags, cnts := g'.cnts, pmc := g'.pmc } ∧ t.mem = s.mem ∧
        (∀ k, k ≠ grp → t.group k = s.group k) ∧ (∀ k x, AMap.get? t.copies k = some x → x.grp = grp → x.stage = .begun ∨ x.stage = .landed) ∧
        (∀ k x, AMap.get? t.accesses k = some x → x.grp = grp → x.need = []) ∧ (∀ r ∈ t.tokenReqs, r.1 ≠ grp) ∧ ∀ r ∈ t.tokens, r.1 ≠ grp) ∧
    let still := (∀ x ∈ s.accesses, x.2.grp ≠ grp) ∧ ∀ k ∈ s.forwarded, ∀ x, AMap.get? s.accesses k = some x → x.core ≠ core
    (∀ r q, g.rolling = true → s.blockRuns g = true → still → (∀ x ∈ s.copies, x.2.grp = grp → x.2.logs = false) → g.work = .task r →
      s.undoPoison g = none → AMap.get? s.taskQueues l.tq = some q → ∃ t g', exec (.rollback core slot) s = .next t ∧ t.group grp = some g' ∧
        g'.v = g.v ∧ g'.k = g.k ∧ g'.m = g.m ∧ g'.work = .none ∧ g'.taskOpen = false ∧ g'.wounded = false ∧ g'.rolling = false ∧
        (∃ e, g'.entries = [(0, e)] ∧ e.pc = g.fetchPc ∧ e.mod = g.fetchMod ∧ e.mask = g.aliveMask ∧ e.st = .run ∧ e.clause = g.fetchClause) ∧
        AMap.get? t.taskQueues l.tq = some { q with recs := q.recs ++ [r ||| BitVec.ofNat 256 (2 ^ 241)], running := q.running - 1 } ∧
        (let old := s.ras grp g
         let again := g.fetchRas.take (g.fetchDepth - old.length) ++ old.drop (old.length - g.fetchDepth)
         g'.ras = again.take 16 ∧ g'.spilled = again.length - 16) ∧
        (s.claimFrame g = none → ∀ n, n < 4 * 2 ^ 56 → SMap.get t.mem n = SMap.get s.mem n) ∧
        ∀ l' f, s.claimFrame g = some (l', f) → AreasApart s g l' f → TaskUndone s t g l' f) ∧
    (∀ q, g.entries = [] → g.taskOpen = true → s.blockRuns g = true → still → (∀ x ∈ s.copies, x.2.grp ≠ grp) → s.undoPoison g = none →
      AMap.get? s.taskQueues l.tq = some q → (∃ k x, s.group k = some x ∧ x.block = g.block ∧ x.entries ≠ []) →
      ∃ t g', exec (.taskAbandon core slot) s = .next t ∧ t.group grp = some g' ∧ g'.taskOpen = false ∧ g'.work = .none ∧ g'.entries = [] ∧
        AMap.get? t.taskQueues l.tq = some { q with free := q.free + 1, running := q.running - 1 } ∧
        (∃ l', t.launch g.launch = some l' ∧ l'.status = l.status ||| 2) ∧
        (∀ k x, k ≠ grp → s.group k = some x → ∃ m, t.group k = some { x with pmc := m }) ∧ (s.claimFrame g = none → t.mem = s.mem) ∧
        ∀ l' f, s.claimFrame g = some (l', f) → AreasApart s g l' f → TaskUndone s t g l' f) ∧
    (g.rolling = true → s.blockRuns g = true → ¬still → exec (.rollback core slot) s = .next s)

/-- O52. A block that terminates is gone, where it has nothing in the engines, with its groups and sets BLKTERM of its launch, and no other
block goes with it; where something that it has begun is still in the engines, none of its units issues from then on and it stays until that
is done (R349, log 29). Retry of a serviceable fault lets the core's pre-flights walk again; Fail makes of it a memory fault with SUB 5, or
a fetch fault with SUB 3 (R348). A corrected error is counted, saturating (R387); an uncorrectable one poisons its unit, is recorded where
none is, and sets its bit of DEVERR, and has the effect of Table 21.3 where it lies in other SRAM; an instruction cache only loses the block, which
the caches outside it lose too, so that it comes from main memory again (R388, R389). -/
def Obligations.FaultService : Prop :=
  ∀ (s : State) (core : Nat),
    let gone := fun (t : State) (b : Nat) (x : Block) => AMap.get? t.blocks b = none ∧ (∀ k, k ≠ b → AMap.get? t.blocks k = AMap.get? s.blocks k) ∧
      (∀ k g, s.group k = some g → g.block = b → t.group k = none) ∧
      ∀ l, s.launch x.launch = some l → ∃ l', t.launch x.launch = some l' ∧ l'.status.getLsbD 0 = true
    -- an access, a copy or an array command of the block is in the engines for good
    let begun := fun (b : Nat) => ((s.accesses.map Prod.fst).Nodup ∧ ∃ q ∈ s.accesses, q.2.need = [] ∧ ∃ g, s.group q.2.grp = some g ∧ g.block = b) ∨
      (∃ q ∈ s.copies, q.2.block = b ∧ (q.2.stage = .begun ∨ q.2.stage = .landed)) ∨ ∃ q ∈ s.arrays, ∃ c ∈ q.2, c.block = b ∧ c.started = true
    let ends := fun (i : Instr) (b : Nat) (x : Block) => ∃ t, exec i s = .next t ∧ (s.engineBusy b = false → gone t b x) ∧
      (begun b → (∃ d, AMap.get? t.blocks b = some { x with dying := some d }) ∧ (∀ k, k ≠ b → AMap.get? t.blocks k = AMap.get? s.blocks k) ∧
        ∀ k g n, t.group k = some g → g.block = b → t.unitReady k n = false)
    let recorded := fun (t : State) (kind unit addr bit : Nat) => t.reg 0x33C00 = s.reg 0x33C00 ||| BitVec.ofNat 32 (2 ^ bit) ∧
      ((s.reg 0x33C18).getLsbD 31 = true → t.reg 0x33C10 = s.reg 0x33C10 ∧ t.reg 0x33C14 = s.reg 0x33C14 ∧ t.reg 0x33C18 = s.reg 0x33C18) ∧
      ((s.reg 0x33C18).getLsbD 31 = false → t.reg 0x33C10 = BitVec.ofNat 32 addr ∧ t.reg 0x33C14 = BitVec.ofNat 32 (addr / 2 ^ 32) ∧
        t.reg 0x33C18 = BitVec.ofNat 32 (2 ^ 31 + kind * 2 ^ 28 + unit % 256)) ∧
      (∀ o, o ∉ [0x33C00, 0x33C10, 0x33C14, 0x33C18] → t.reg o = s.reg o) ∧
      t.msix = if (s.reg 0x33C04).getLsbD 31 then (true, (s.reg 0x33C04).extractLsb' 8 8) :: (false, (s.reg 0x33C04).extractLsb' 0 8) :: s.msix else s.msix
    (∀ b cause x, AMap.get? s.blocks b = some x → ends (.blockTerminate b cause) b x) ∧
    (AMap.get? s.svc core ≠ none → ∃ t, exec (.svcRetry core) s = .next t ∧ t = { s with bar0 := t.bar0, svc := AMap.del s.svc core, copies := t.copies } ∧
      t.reg (0x33400 + 8 * core) = 0 ∧ (∀ o, o ≠ 0x33400 + 8 * core → t.reg o = s.reg o) ∧
      ∀ k x, AMap.get? s.copies k = some x →
        AMap.get? t.copies k = some (if x.core = core ∧ x.stage = .held then { x with stage := .preflight, resumed := true } else x)) ∧
    (∀ ctx a b g e l, AMap.get? s.svc core = some (true, ctx, a, b) → s.group a = some g → g.entry b = some e → s.launch g.launch = some l →
      e.trap = [] → e.inHandler = false → l.trapOff ≠ 0xFFFFFFFF → g.otherHandler b = false → ∃ t, exec (.svcFail core) s = .next t ∧
        HandlerEntered { s with bar0 := t.bar0, svc := AMap.del s.svc core, copies := t.copies } t a b g e l
          { cause := 4, sub := 3, pc := e.pc, thr := e.mask, addr := e.pc } ∧
        t.reg (0x33400 + 8 * core) = 0 ∧ ∀ o, o ≠ 0x33400 + 8 * core → t.reg o = s.reg o) ∧
    (∀ ctx id a x g th, AMap.get? s.svc core = some (false, ctx, id, a) → AMap.get? s.copies id = some x → s.group x.grp = some g →
      g.block = x.block → g.entries ≠ [] → s.blockRuns g = true → th < 32 → (x.unit &&& g.unexited).getLsbD th = true →
      (∀ u, u < th → (x.unit &&& g.unexited).getLsbD u = false) → ∃ t g', exec (.svcFail core) s = .next t ∧
        AMap.get? t.svc core = none ∧ AMap.get? t.copies id = none ∧ t.mem = s.mem ∧ t.group x.grp = some g' ∧
        g' = { g.countDown x.token with entries := g'.entries, allotted := g'.allotted } ∧
        ∀ j e, g.entry j = some e → g'.entry j = some (if e.st ≠ .parent ∧ e.mask.getLsbD th = true then
          { e with trap := e.trap ++ [{ cause := 3, sub := 5, pc := x.pc, thr := x.act, addr := BitVec.ofNat 64 a
                                        info := BitVec.ofNat 8 x.token, late := true }] } else e)) ∧
    (∀ mainMem, ∃ t, exec (.correctedError mainMem) s = .next t ∧
      let r := if mainMem then 0x33C0C else 0x33C08
      OnlyRegs s t [r] ∧ t.reg r = if s.reg r = 0xFFFFFFFF then 0xFFFFFFFF else s.reg r + 1) ∧
    (∀ a : BitVec 52, mainBacked a.toNat = true → ∃ t, exec (.uncorrectableError (.mainMem a)) s = .next t ∧
      t = { s with poison := t.poison, bar0 := t.bar0, msix := t.msix } ∧ (∀ n, n ∈ t.poison ↔ n ∈ s.poison ∨ n = a.toNat / 64 * 64) ∧
      recorded t (if a.toNat < 0x6000000000 then 0 else 1)
        (if a.toNat < 0x6000000000 then a.toNat / (48 * 2 ^ 30) else (a.toNat - 0x40000000000) / 2 ^ 38) a.toNat 4) ∧
    (∀ (port : Bool) (a : BitVec 51), ∃ t, exec (.uncorrectableError (.hostMem port a)) s = .next t ∧
      t = { s with poison := t.poison, bar0 := t.bar0, msix := t.msix } ∧
      (∀ n, n ∈ t.poison ↔ n ∈ s.poison ∨ n = 2 ^ 56 + (if port then 2 ^ 55 else 0) + a.toNat / 64 * 64) ∧
      recorded t 4 (if port then 1 else 0) (2 ^ 51 + a.toNat) 4) ∧
    (∀ a : BitVec 29, patValid (s.attr a.toNat) = true → ∃ t, exec (.uncorrectableError (.scratch a)) s = .next t ∧
      t = { s with poison := t.poison, bar0 := t.bar0, msix := t.msix } ∧ (∀ n, n ∈ t.poison ↔ n ∈ s.poison ∨ n = s.scrCell a.toNat / 8 * 8) ∧
      recorded t 2 (patHome (s.attr a.toNat)) a.toNat 1) ∧
    (∀ b x, AMap.get? s.blocks b = some x → ends (.uncorrectableError (.blockState b)) b x ∧ ∃ t, exec (.uncorrectableError (.blockState b)) s = .next t ∧
      ((∀ q ∈ s.svc, q.1 < 256) → (s.reg 0x33C18).getLsbD 31 = false →
        t.reg 0x33C18 = BitVec.ofNat 32 (2 ^ 31 + 3 * 2 ^ 28 + x.core / 8 % 256))) ∧
    (∀ level n cell, ∃ t, exec (.uncorrectableError (.icache level n cell)) s = .next t ∧
      t = { s with bar0 := t.bar0, l0 := t.l0, l1 := t.l1, l2 := t.l2 } ∧ (∀ o, o ≠ 0x33C08 → t.reg o = s.reg o) ∧
      (let lost := fun (i : Nat) (m m' : AMap (BitVec 256)) => ∀ k, AMap.get? m' k = if k = i * 2 ^ 60 + cell then none else AMap.get? m k
       match level with
         | .l0 => lost n s.l0 t.l0 ∧ lost (n / 8) s.l1 t.l1 ∧ lost (n / 64) s.l2 t.l2
         | .l1 => t.l0 = s.l0 ∧ lost n s.l1 t.l1 ∧ lost (n / 8) s.l2 t.l2
         | .l2 => t.l0 = s.l0 ∧ t.l1 = s.l1 ∧ lost n s.l2 t.l2) ∧
      t.reg 0x33C08 = if s.reg 0x33C08 = 0xFFFFFFFF then 0xFFFFFFFF else s.reg 0x33C08 + 1) ∧
    (∀ k : BitVec 5, ∃ t, exec (.uncorrectableError (.cluster k)) s = .next t ∧ t.ready k.toNat = false ∧ k.toNat ∈ t.deadBits ∧
      (t.reg 0x33C00).getLsbD 1 = true ∧ ∀ j x b, AMap.get? s.parked j = some x → x.core / 8 = k.toNat → x.buffered = false →
        AMap.get? s.blocks x.block = some b → s.engineBusy x.block = false → AMap.get? t.blocks x.block = none) ∧
    (∀ j : BitVec 2, ∃ t, exec (.uncorrectableError (.firmware j)) s = .next t ∧ (t.reg 0x33C00).getLsbD 2 = true) ∧
    ∀ i l, s.launch i = some l → ∃ t l', exec (.uncorrectableError (.deviceState [i])) s = .next t ∧ (t.reg 0x33C00).getLsbD 1 = true ∧
      t.launch i = some l' ∧ (l.stage = .placed → l'.status.getLsbD 5 = true ∧ ∀ b x, AMap.get? s.blocks b = some x → x.launch = i →
        s.engineBusy b = false → AMap.get? t.blocks b = none) ∧
      (l.stage ≠ .placed → l' = { l with code := 12 })

/-- O53. A peer port whose link goes down loses its readiness bit and sets LINK; each copy whose flits were moving on it is gone, and its
block ends (R382, R391); training of a port that is down sets its bit again. A thermal trip sets THERM and begins the change to P5, or
follows the change in progress, whatever is written meanwhile (R375, R376, log 43); below 95 °C a held request is applied (R377). A thermal
halt at P5 ends every block and launch; from then on firmware accepts no packet, and no unit issues (R378). -/
def Obligations.PeersAndHeat : Prop :=
  ∀ (s : State) (port : BitVec 4) (moved : List (Nat × List Byte)),
    let down := (s.reg 0x20 &&& ~~~0x8007#32)
    (port.toNat < 12 → s.ready (52 + port.toNat) = true → ∃ t, exec (.peerLinkDown port moved) s = .next t ∧
      t.ready (52 + port.toNat) = false ∧ ((∀ q ∈ s.svc, q.1 < 256) → (t.reg 0x33C00).getLsbD 3 = true) ∧
      (∀ id x, AMap.get? s.copies id = some x → x.onPort port.toNat = true → AMap.get? t.copies id = none ∧
        ∀ g, (∀ q ∈ s.copies, q.2.block = x.block → q = (id, x)) → s.group x.grp = some g → g.block = x.block →
          (∀ q ∈ s.accesses, ∀ y, s.group q.2.grp = some y → y.block ≠ x.block) → (∀ q ∈ s.arrays, ∀ c ∈ q.2, c.block ≠ x.block) →
          AMap.get? t.blocks x.block = none) ∧
      ((∀ q ∈ s.copies, q.2.onPort port.toNat = false) → t = { s with bar0 := t.bar0, msix := t.msix })) ∧
    (port.toNat < 12 → ∃ t, exec (.peerRetrain port true) s = .next t ∧ t.ready (52 + port.toNat) = true ∧ OnlyRegs s t [0x14, 0x18] ∧
      (∀ n, n < 71 → n ≠ 52 + port.toNat → t.ready n = s.ready n)) ∧
    (∃ t, exec .thermalTrip s = .next t ∧
      t = { s with hot := true, bar0 := t.bar0, msix := t.msix, psChange := t.psChange, psHeld := t.psHeld, psTrip := t.psTrip } ∧
      t.reg 0x33C00 = s.reg 0x33C00 ||| 1 ∧ (∀ o, o ≠ 0x20 → o ≠ 0x33C00 → t.reg o = s.reg o) ∧
      (s.psChange = none → (s.reg 0x20).extractLsb' 8 3 ≠ 5 → t.psChange = some (5, true) ∧ t.psHeld = none ∧ t.psTrip = s.psTrip ∧
        t.reg 0x20 = down ||| 0x8005) ∧
      (s.psChange = none → (s.reg 0x20).extractLsb' 8 3 = 5 → t.psChange = none ∧ t.psHeld = s.psHeld ∧ t.psTrip = s.psTrip ∧ t.reg 0x20 = s.reg 0x20) ∧
      (s.psChange ≠ none → t.psChange = s.psChange ∧ t.psHeld = none ∧ t.psTrip = true ∧ t.reg 0x20 = s.reg 0x20 ||| 0x8000)) ∧
    (∃ t, exec .thermalCooldown s = .next t ∧ t = { s with hot := false, bar0 := t.bar0, psChange := t.psChange, psHeld := t.psHeld } ∧
      (∀ r, s.psHeld = some r → s.psChange = none → t.psChange = some (r, false) ∧ t.psHeld = none ∧
        t.reg 0x20 = down ||| 0x8000 ||| r.setWidth 32 ∧ OnlyRegs { s with hot := false, psChange := t.psChange, psHeld := none } t [0x20]) ∧
      (s.psHeld = none ∨ s.psChange ≠ none → t = { s with hot := false })) ∧
    ((s.reg 0x20).extractLsb' 8 3 = 5 → s.psChange = none → ∃ t, exec .thermalHalt s = .next t ∧ t.halted = true ∧ t.sel = none ∧
      (∀ b x, AMap.get? s.blocks b = some x → s.engineBusy b = false → AMap.get? t.blocks b = none) ∧ (t.reg 0x33C00).getLsbD 0 = true ∧
      ∀ i l, s.launch i = some l → ∃ l', t.launch i = some l' ∧ (l.stage = .placed → l'.status.getLsbD 4 = true) ∧ (l.stage ≠ .placed → l'.code = 11)) ∧
    (s.halted = true → (∀ q : BitVec 6, exec (.seqwPoll q) s = .next s ∧ exec (.seqwRetryTimer q) s = .next s) ∧
      (∀ ctx : BitVec 5, s.ctxStat ctx.toNat ≠ 4 → exec (.contextResume ctx) s = .next s) ∧ ∀ grp i, s.unitReady grp i = false)

/-! ## The module and its registers -/

/-- The bank with which a component starts (R28, R404): the one marked for the reset, else the active one, and the other where that one fails
its checks or where every component is to fall back. -/
def bootBank (c : FwComp) (fuse : Nat) (all : Bool) : Bool :=
  let b := c.marked.getD c.active
  let x := if b then c.bank1 else c.bank0
  if !all && x.verified && decide (fuse ≤ x.secver) then b else !b

/-- A device reset has taken place (R21, R22, R28, R197, R404): all work is gone, the registers hold their reset values, the SRAMs are zero, host
memory is as it was, and each component runs from its bank. A transfer of the update agent that it cut off has failed (R403). -/
def WasReset (s : State) (all : Bool) (t : State) : Prop :=
  let fuse := (s.reg 0x33E14).toNat
  let b0 := bootBank s.firmware fuse all
  let b1 := bootBank s.microcode fuse all
  let b2 := bootBank s.translator fuse all
  let f0 := b0 != s.firmware.marked.getD s.firmware.active
  let f1 := b1 != s.microcode.marked.getD s.microcode.active
  let f2 := b2 != s.translator.marked.getD s.translator.active
  t.groups = [] ∧ t.blocks = [] ∧ t.tiles = [] ∧ t.launches = [] ∧ t.taskQueues = [] ∧ t.packets = [] ∧ t.modules = [] ∧ t.contexts = [] ∧
  t.accesses = [] ∧ t.copies = [] ∧ t.arrays = [] ∧ t.parked = [] ∧ t.tlb = [] ∧ t.l0 = [] ∧ t.l1 = [] ∧ t.l2 = [] ∧ t.transCache = [] ∧
  t.sel = none ∧ t.portHeld = [] ∧ t.svc = [] ∧ t.clk = 0 ∧ t.pat = [] ∧ t.deadBits = [] ∧ t.psChange = none ∧ t.psHeld = none ∧ t.psTrip = false ∧
  t.halted = false ∧ t.hot = false ∧ t.forwarded = [] ∧ t.past = [] ∧ t.known = [] ∧ t.peerCounts = [] ∧ t.peerHeld = [] ∧ t.watch = [] ∧
  t.tokens = [] ∧ t.tokenReqs = [] ∧ t.polls = [] ∧ t.invWait = [] ∧ t.msix = [] ∧ t.transfer = none ∧ t.semWin = {} ∧
  t.fwReport = (if s.transfer = none then s.fwReport else .transferFailed :: s.fwReport) ∧
  (∀ n, 2 ^ 56 ≤ n → n < 2 * 2 ^ 56 → SMap.get t.mem n = SMap.get s.mem n) ∧ (∀ n, 2 * 2 ^ 56 ≤ n → SMap.get t.mem n = 0) ∧
  (∀ o, ¬(0x32000 ≤ o ∧ o < 0x320A0) → o ≠ 0x33E18 → t.reg o = if o = 0x33E14 then s.reg o else 0) ∧
  t.reg 0x32000 = 1 ∧ t.reg 0x33E18 = BitVec.ofNat 32 ((if f0 || f1 || f2 then 2 ^ 31 else 0) + 32 * f2.toNat + 16 * f1.toNat + 8 * f0.toNat +
    4 * b2.toNat + 2 * b1.toNat + b0.toNat) ∧
  (t.firmware = { s.firmware with active := b0, marked := none, ready := false } ∧
    t.microcode = { s.microcode with active := b1, marked := none, ready := false } ∧
    t.translator = { s.translator with active := b2, marked := none, ready := false }) ∧
  let x0 := if b0 then s.firmware.bank1 else s.firmware.bank0
  let x1 := if b1 then s.microcode.bank1 else s.microcode.bank0
  let x2 := if b2 then s.translator.bank1 else s.translator.bank0
  t.reg 0x32004 = x1.version ∧ t.reg 0x32008 = x2.version ∧ t.reg 0x3200C = x0.version ∧
  ∀ i, i < 8 → t.reg (0x32020 + 4 * i) = x0.digest.extractLsb' (32 * i) 32 ∧ t.reg (0x32040 + 4 * i) = x1.digest.extractLsb' (32 * i) 32 ∧
    t.reg (0x32060 + 4 * i) = x2.digest.extractLsb' (32 * i) 32

/-- What a transfer in progress that stops leaves (R403): a report of its failure, and an inactive bank of its component that holds nothing
verified and is not marked; with no transfer, nothing changes. -/
def TransferStopped (s u : State) : Prop :=
  let failed := fun (c : FwComp) => { c with
    marked := none, ready := false
    bank0 := if c.active = true then { verified := false } else c.bank0, bank1 := if c.active = true then c.bank1 else { verified := false } }
  (s.transfer = none → u = s) ∧
  ∀ k bs, s.transfer = some (k, bs) → u = { s with
    transfer := none, fwReport := .transferFailed :: s.fwReport
    firmware := if k = 0 then failed s.firmware else s.firmware, microcode := if k = 1 then failed s.microcode else s.microcode
    translator := if k = 0 ∨ k = 1 then s.translator else failed s.translator }

/-- O54. A device reset ends all work and leaves the registers of R21 (FUSECNT stays), the SRAMs zero and host memory as it is, while HBM4
and DDR-5 hold anything (log 44); each component starts from its bank, and FWSTAT and the manifest registers say which (R22, R28, R197,
R404). A function that completes its training sets its bit (R19). What a host port or the management binding held is released with it
(R406), and a transfer of the update agent stops with the binding and has failed (R403). -/
def Obligations.ResetEvents : Prop :=
  ∀ (s : State) (a : Agent) (value : Word) (port : Bool),
    let unheld := fun (bit : Nat) (t : State) => OnlyRegs s t [0x33E10] ∧ t.reg 0x33E10 =
      if (s.reg 0x33E10).getLsbD 31 then s.reg 0x33E10 else BitVec.ofNat 32 (2 ^ 31 + 2 ^ bit + ownerCode a)
    let owner := fun (u : State) (o : Nat) => ((u.reg o).extractLsb' 0 2).toNat
    -- every semaphore that an owner holds is released, and GEN of each rises
    let released := fun (k : Nat) (t : State) => ∀ o ∈ [0, 4, 8, 12], t.reg o =
      if owner s o = k then ((0 : Half) ++ ((s.reg o).extractLsb' 8 8 + 1)) ++ (0 : Byte) else s.reg o
    (∀ bit : BitVec 7, bit.toNat < 71 → unfitted bit.toNat = false → bit.toNat ∉ s.deadBits → ∃ t, exec (.functionReady bit) s = .next t ∧
      OnlyRegs s t [0x10, 0x14, 0x18] ∧ t.ready bit.toNat = true ∧ ∀ n, n < 71 → n ≠ bit.toNat → t.ready n = s.ready n) ∧
    (∀ bit : BitVec 7, 71 ≤ bit.toNat ∨ unfitted bit.toNat = true ∨ bit.toNat ∈ s.deadBits → exec (.functionReady bit) s = .next s) ∧
    (∃ t, exec .powerOn s = .next t ∧ WasReset s false t) ∧
    (∃ t, exec (.deviceReset a value) s = .next t ∧ (owner s 0xC ≠ ownerCode a → unheld 7 t) ∧
      (owner s 0xC = ownerCode a → value = 1 → WasReset s false t) ∧ (owner s 0xC = ownerCode a → value ≠ 1 → t = s)) ∧
    ((∃ n, 64 ≤ n ∧ n < 68 ∧ s.ready n = false ∧ n ∉ s.deadBits) → (s.reg 0x33E18).getLsbD 31 = false →
      ∃ t, exec .bootReadyTimeout s = .next t ∧ WasReset s true t) ∧
    (∃ t, exec (.hostPortReset port) s = .next t ∧ OnlyRegs s t [0, 4, 8, 12] ∧ released (if port then 2 else 1) t) ∧
    (∃ t, exec (.hostPortLinkDown port) s = .next t ∧ OnlyRegs s t [0, 4, 8, 12] ∧ released (if port then 2 else 1) t) ∧
    ∃ u t, exec .mgmtBindingDown s = .next t ∧ TransferStopped s u ∧ OnlyRegs u t [0, 4, 8, 12, 0x18] ∧ released 3 t ∧ t.ready 68 = false ∧
      ∀ n, 64 ≤ n → n < 71 → n ≠ 68 → t.ready n = s.ready n

/-- O55. A free semaphore goes to an agent that asks; of several in one clock, to the one next in the cyclic order after the recorded
winner, who is recorded (R14, R15); only its owner releases it; GEN counts each change of owner. PSTATE, FUSECNT and RSTCTL take effect only
for the owner of their semaphore, and SEMERR records another's write (R25, R405, R406, log 59). A change of state ends once what has been
issued is done as far as it goes (log 73); a trip made meanwhile follows it (R375), else the request held, where the heat allows it. The
management path reads and writes the registers that it reaches, with the effect that each write has (R17); whether a sensor reads 95 °C or
more at a write of PSTATE comes with the write (R377). -/
def Obligations.ModuleControl : Prop :=
  ∀ (s : State) (a : Agent) (value : Word) (m : Sem) (agents : List Agent) (req : MgmtReq),
    let o := semReg m
    let owner := fun (u : State) (r : Nat) => ((u.reg r).extractLsb' 0 2).toNat
    let owned := fun (k : Nat) => ((0 : Half) ++ ((s.reg o).extractLsb' 8 8 + 1)) ++ BitVec.ofNat 8 k
    let last := match s.semWin.get m with
      | some x => ownerCode x
      | none => 3
    let turn := fun (x : Agent) => (ownerCode x + 2 + 3 - last) % 3
    let unheld := fun (s : State) (a : Agent) (bit : Nat) (t : State) => OnlyRegs s t [0x33E10] ∧ t.reg 0x33E10 =
      if (s.reg 0x33E10).getLsbD 31 then s.reg 0x33E10 else BitVec.ofNat 32 (2 ^ 31 + 2 ^ bit + ownerCode a)
    let down := s.reg 0x20 &&& ~~~0x8007#32
    -- what a write of PSTATE, by an agent and with the sensors as they are then, and one of FUSECNT leave
    let pstateWritten := fun (a : Agent) (hot : Bool) (value : Word) (t : State) =>
      let r := value.extractLsb' 0 3
      let s' := { s with hot := s.hot || hot }
      (owner s 0 ≠ ownerCode a → unheld s' a 4 t) ∧
      (owner s 0 = ownerCode a →
        (6 ≤ r.toNat → t = s') ∧
        (r.toNat < 6 → s.psChange ≠ none ∨ (s'.hot = true ∧ r ≠ 5) → OnlyRegs { s' with psHeld := some r } t [0x20] ∧
          t.reg 0x20 = s.reg 0x20 ||| 0x8000) ∧
        (r.toNat < 6 → s.psChange = none → s'.hot = false ∨ r = 5 → OnlyRegs { s' with psHeld := none, psChange := some (r, false) } t [0x20] ∧
          t.reg 0x20 = down ||| 0x8000 ||| r.setWidth 32))
    let fuseWritten := fun (a : Agent) (value : Word) (t : State) =>
      (value.getLsbD 0 = false → t = s) ∧ (value.getLsbD 0 = true → owner s 8 ≠ ownerCode a → unheld s a 6 t) ∧
      (value.getLsbD 0 = true → owner s 8 = ownerCode a → OnlyRegs { s with transCache := t.transCache } t [0x33E14] ∧
        (t.reg 0x33E14).toNat = min 64 ((s.reg 0x33E14).toNat + 1) ∧
        ∀ e, e ∈ t.transCache ↔ e ∈ s.transCache ∧ (t.reg 0x33E14).toNat ≤ e.secver)
    (owner s o ≠ 0 ∨ agents = [] → exec (.semaphoreAcquire m agents) s = .next s) ∧
    (owner s o = 0 → agents ≠ [] → ∃ t w, exec (.semaphoreAcquire m agents) s = .next t ∧ w ∈ agents ∧ (∀ x ∈ agents, turn w ≤ turn x) ∧
      t = { s with bar0 := t.bar0, semWin := t.semWin } ∧ t.reg o = owned (ownerCode w) ∧ (∀ r, r ≠ o → t.reg r = s.reg r) ∧
      t.semWin.get m = (if ∀ x ∈ agents, x = w then s.semWin.get m else some w) ∧ ∀ k, k ≠ m → t.semWin.get k = s.semWin.get k) ∧
    (∃ t, exec (.semaphoreRelease m a) s = .next t ∧ OnlyRegs s t [o] ∧ t.reg o = if owner s o = ownerCode a then owned 0 else s.reg o) ∧
    (∀ hot, ∃ t, exec (.pstateWrite ⟨a, hot⟩ value) s = .next t ∧ pstateWritten a hot value t) ∧
    (∀ r trip, s.psChange = some (r, trip) → s.sel = none → (∀ q ∈ s.accesses, s.mayPerform q.1 q.2 = false) →
      (∀ q ∈ s.arrays, ∀ x ∈ q.2, x.started = false) → ∃ t, exec .powerStateChangeDone s = .next t ∧
      let tripped := trip || ((s.reg 0x20).getLsbD 14 && (s.reg 0x20).extractLsb' 8 3 == 5 && r == 5)
      (t.reg 0x20).extractLsb' 8 3 = r ∧ (t.reg 0x20).getLsbD 14 = tripped ∧
      (s.psTrip = true → OnlyRegs { s with psChange := some (5, true), psTrip := false } t [0x20] ∧ (t.reg 0x20).extractLsb' 0 3 = 5 ∧
        (t.reg 0x20).getLsbD 15 = true) ∧
      (s.psTrip = false → s.psHeld = none → OnlyRegs { s with psChange := none } t [0x20] ∧ (t.reg 0x20).getLsbD 15 = false) ∧
      (∀ q, s.psTrip = false → s.psHeld = some q → s.hot = false ∨ q = 5 → OnlyRegs { s with psChange := some (q, false), psHeld := none } t [0x20] ∧
        (t.reg 0x20).extractLsb' 0 3 = q ∧ (t.reg 0x20).getLsbD 15 = true) ∧
      (∀ q, s.psTrip = false → s.psHeld = some q → s.hot = true → q ≠ 5 → OnlyRegs { s with psChange := none } t [0x20])) ∧
    ((∃ q ∈ s.accesses, s.mayPerform q.1 q.2 = true) ∨ (∃ q ∈ s.arrays, ∃ x ∈ q.2, x.started = true) →
      exec .powerStateChangeDone s = .next s) ∧
    (∃ t, exec (.fuseAdvance a value) s = .next t ∧ fuseWritten a value t) ∧
    (let off := req.offset.toNat
     let formed := req.resv = 0 ∧ off % 4 = 0
     let reaches := off < 0x100 ∨ off = 0x33C00 ∨ off = 0x33E14 ∨ off = 0x33E18
     (req.cmd = 1 → formed → req.data = 0 → reaches → exec (.mgmtRegisterRead req) s =
        .next { s with mgmtAnswer := (if off = 0x28 then (0 : Word) else s.reg off) ++ (0 : Word) }) ∧
     (req.cmd = 1 → formed → req.data = 0 → ¬reaches → exec (.mgmtRegisterRead req) s = .next { s with mgmtAnswer := (0 : Word) ++ (1 : Word) }) ∧
     ((req.cmd ≠ 1 ∧ req.cmd ≠ 2) ∨ (req.cmd = 1 ∧ ¬(formed ∧ req.data = 0)) →
       exec (.mgmtRegisterRead req) s = .next { s with mgmtAnswer := (0 : Word) ++ (2 : Word) }) ∧
     (req.cmd = 2 → ¬formed → exec (.mgmtRegisterWrite req) s = .next { s with mgmtAnswer := (0 : Word) ++ (2 : Word) }) ∧
     (req.cmd = 2 → formed → ¬reaches → exec (.mgmtRegisterWrite req) s = .next { s with mgmtAnswer := (0 : Word) ++ (1 : Word) }) ∧
     (req.cmd = 2 → formed → reaches →
       let v := req.data
       let writes := fun (ok : State → Prop) => ∃ t, exec (.mgmtRegisterWrite req) s = .next { t with mgmtAnswer := 0 } ∧ ok t
       (off = o → writes fun t => OnlyRegs s t [o] ∧ t.reg o =
         if v.getLsbD 0 = true ∧ owner s o = 0 then owned 3 else if v.getLsbD 0 = false ∧ owner s o = 3 then owned 0 else s.reg o) ∧
       (off = 0x20 → writes (pstateWritten .mgmt req.hot v)) ∧
       (off = 0x28 → writes fun t => (owner s 0xC ≠ 3 → unheld s .mgmt 7 t) ∧ (owner s 0xC = 3 → v = 1 → WasReset s false t) ∧
         (owner s 0xC = 3 → v ≠ 1 → t = s)) ∧
       (off = 0x33C00 → writes fun t => OnlyRegs s t [0x33C00] ∧ t.reg 0x33C00 = s.reg 0x33C00 &&& ~~~v) ∧
       (off = 0x33E14 → writes (fuseWritten .mgmt v)) ∧
       (off = 0x24 → writes fun t => OnlyRegs s t [0x24] ∧ t.reg 0x24 = v &&& 0x3F) ∧
       (off ∉ [0, 4, 8, 0xC, 0x20, 0x24, 0x28, 0x33C00, 0x33E14] → exec (.mgmtRegisterWrite req) s = .next { s with mgmtAnswer := 0 })))

/-- O56. Writes of BAR 0: a 1 clears a bit of DEVERR, and VALID of an error register (R353, R388, R399, R406); an entry of the page
attribute table is written whole, with its reserved bits 0 (log 56), unless R101 refuses it, and what has not reached the page's home goes
to the new one (log 51); an invalidation drops the cached translations in its scope, is busy, and is done once the copies that had
translated have landed, and one with SCOPE 3 is ignored (R111, R112, log 38); QCFG, QNOTIFY and WLCFG act as R143, R394 and R203 say (a write of EN = 1 over 1: log 66);
CTXCFG of an idle context takes VALID, and a VALID of 0 discards its held counts (R141, R284); DBGCTL takes ATTACH, and its command acts as
the event of that name (R400, R401); another register takes the bits that are writable, and a write that its table locks out, or to no
register, changes nothing. -/
def Obligations.RegisterWrites : Prop :=
  ∀ (s : State) (value : Word) (e : Dword) (page : BitVec 13) (part : PatPart) (set : Bool) (ctx : BitVec 5) (q : BitVec 6) (offset : Word),
    let clears := fun (i : Instr) (r : Nat) => ∃ t, exec i s = .next t ∧ OnlyRegs s t [r] ∧
      t.reg r = if value.getLsbD 31 then s.reg r &&& 0x7FFFFFFF else s.reg r
    (∃ t, exec (.deverrClear value) s = .next t ∧ OnlyRegs s t [0x33C00] ∧ t.reg 0x33C00 = s.reg 0x33C00 &&& ~~~value) ∧
    clears (.uesrcClear value) 0x33C18 ∧ clears (.stoperrClear value) 0x33E0C ∧ clears (.semerrClear value) 0x33E10 ∧
    (let x := e &&& 0xFFE01FFF#64
     let bad := 240 ≤ (x.extractLsb' 0 8).toNat ∨ (x.getLsbD 29 = true ∧ x.getLsbD 28 = true) ∨ (x.getLsbD 31 = true ∧
       ∃ n y, (n, y) ∈ s.pat ∧ n ≠ page.toNat ∧ y.getLsbD 31 = true ∧ y.extractLsb' 8 5 = x.extractLsb' 8 5 ∧ y.extractLsb' 0 8 = x.extractLsb' 0 8)
     (bad ∨ part = .hi → exec (.pageAttributeWrite page part e) s = .next s) ∧
     (¬bad → part ≠ .hi → ∃ t, exec (.pageAttributeWrite page part e) s = .next t ∧
       t = { s with pat := t.pat, accesses := t.accesses, copies := t.copies } ∧
       (∀ n, SMap.get t.pat n = if n = page.toNat then x else SMap.get s.pat n) ∧
       (∀ id a, AMap.get? s.accesses id = some a → AMap.get? t.accesses id = some (if x.getLsbD 31 = true ∧ a.scratch = true then
         { a with lanes := a.lanes.map fun l => if l.addr / 2 ^ 16 = page.toNat then
           { l with cell := cellScr (x.extractLsb' 8 5).toNat (x.extractLsb' 0 8).toNat (l.addr % 2 ^ 16), home := x.getLsbD 29 || x.getLsbD 28 }
           else l } else a)) ∧
       ∀ id y, AMap.get? s.copies id = some y → ∃ ms, AMap.get? t.copies id = some { y with moves := ms } ∧
         (x.getLsbD 31 = false → ms = y.moves) ∧
         (x.getLsbD 31 = true → y.kind = .cpin true → ms = y.moves.map fun m => if m.daddr / 2 ^ 16 = page.toNat then
           { m with dst := cellScr (x.extractLsb' 8 5).toNat (x.extractLsb' 0 8).toNat (m.daddr % 2 ^ 16) } else m) ∧
         (x.getLsbD 31 = true → y.kind = .cpout true → ms = y.moves.map fun m => if m.saddr / 2 ^ 16 = page.toNat then
           { m with src := cellScr (x.extractLsb' 8 5).toNat (x.extractLsb' 0 8).toNat (m.saddr % 2 ^ 16) } else m))) ∧
    (let o := 0x20008 + if set then 16 else 0
     let a := (s.reg (0x20004 + if set then 16 else 0)).toNat * 2 ^ 32 + (s.reg (0x20000 + if set then 16 else 0)).toNat
     let starts := fun (i : Instr) (cmd : Nat) (hit : TlbEntry → Prop) (waits : Copy → Prop) =>
       ((s.reg o).getLsbD 31 = true → exec i s = .next s) ∧
       ((s.reg o).getLsbD 31 = false → ∃ t ids, exec i s = .next t ∧
         OnlyRegs { s with tlb := t.tlb, invWait := AMap.set s.invWait (if set then 1 else 0) ids } t [o] ∧
         t.reg o = BitVec.ofNat 32 (2 ^ 31 + cmd) ∧ (∀ y, y ∈ t.tlb ↔ y ∈ s.tlb ∧ ¬hit y) ∧
         ∀ id x, (id, x) ∈ s.copies → x.stage = .begun ∨ x.stage = .claims → waits x → id ∈ ids)
     starts (.invalidatePage set ctx) ctx.toNat (fun y => y.ctx = ctx.toNat ∧ y.page.va ≤ a ∧ a < y.page.va + y.page.size) (·.ctx = ctx.toNat) ∧
     starts (.invalidateContext set ctx) (256 + ctx.toNat) (·.ctx = ctx.toNat) (·.ctx = ctx.toNat) ∧
     starts (.invalidateAll ⟨set, ctx⟩) (512 + ctx.toNat) (fun _ => True) (fun _ => True) ∧
     ((s.reg o).getLsbD 31 = true → (∀ id ∈ (AMap.get? s.invWait (if set then 1 else 0)).getD [], ∀ x, AMap.get? s.copies id = some x →
         x.stage ≠ .begun ∧ x.stage ≠ .claims) →
       ∃ t, exec (.invalidateDone set) s = .next t ∧ OnlyRegs { s with invWait := AMap.del s.invWait (if set then 1 else 0) } t [o] ∧
         t.reg o = s.reg o &&& 0x7FFFFFFF)) ∧
    (let r := fun (k : Nat) => 0x30000 + 32 * q.toNat + k
     let log2 := (value.extractLsb' 0 5).toNat
     let valid := (s.reg (0x31010 + 32 * (value.extractLsb' 24 5).toNat)).getLsbD 31
     let size := 2 ^ ((s.reg (r 8)).extractLsb' 0 5).toNat
     let stat := (s.reg (r 0x14)).extractLsb' 0 3
     let err := 0x33E00 + 4 * (q.toNat / 32)
     ((s.reg (r 8)).getLsbD 31 = true ∨ log2 < 4 ∨ 16 < log2 ∨ (value.getLsbD 31 = true ∧ valid = false) →
       exec (.queueEnable q value) s = .next s) ∧
     ((s.reg (r 8)).getLsbD 31 = false → 4 ≤ log2 → log2 ≤ 16 → value.getLsbD 31 = true → valid = true → ∃ t, exec (.queueEnable q value) s = .next t ∧
       OnlyRegs { s with polls := AMap.del s.polls q.toNat, laps := AMap.del s.laps q.toNat } t [r 8, r 0xC, r 0x10, r 0x14] ∧
       t.reg (r 8) = value &&& 0xDF00001F ∧ t.reg (r 0xC) = 0 ∧ t.reg (r 0x10) = 0 ∧ t.reg (r 0x14) = 1) ∧
     ((s.reg (r 8)).getLsbD 31 = false → 4 ≤ log2 → log2 ≤ 16 → value.getLsbD 31 = false → ∃ t, exec (.queueEnable q value) s = .next t ∧
       OnlyRegs s t [r 8] ∧ t.reg (r 8) = value &&& 0xDF00001F) ∧
     ∃ t, exec (.queueNotify q value) s = .next t ∧ t.reg (r 0xC) = value ∧
       (stat ≠ 1 → stat ≠ 2 → OnlyRegs s t [r 0xC]) ∧
       (stat = 1 → (value - s.reg (r 0x10)).toNat ≤ size → OnlyRegs s t [r 0xC]) ∧
       (stat = 2 → (value - s.reg (r 0x10)).toNat ≤ size → OnlyRegs { s with polls := AMap.del s.polls q.toNat } t [r 0xC, r 0x14, err] ∧
         t.reg (r 0x14) = 1 ∧ t.reg err = s.reg err &&& ~~~(BitVec.ofNat 32 (2 ^ (q.toNat % 32)))) ∧
       (stat = 1 ∨ stat = 2 → size < (value - s.reg (r 0x10)).toNat → OnlyRegs { s with msix := t.msix } t [r 0xC, r 0x14, err, 0x33F00 + 4 * q.toNat] ∧
         t.reg (r 0x14) = 2 ∧ t.reg err = s.reg err ||| BitVec.ofNat 32 (2 ^ (q.toNat % 32)) ∧ t.reg (0x33F00 + 4 * q.toNat) = s.reg (r 0x10) ∧
         t.msix = if (s.reg 0x33E08).getLsbD 31 then (true, (s.reg 0x33E08).extractLsb' 8 8) :: (false, (s.reg 0x33E08).extractLsb' 0 8) :: s.msix
           else s.msix)) ∧
    (let log2 := (value.extractLsb' 0 5).toNat
     ∃ t, exec (.watchLogEnable value) s = .next t ∧
       (log2 < 8 ∨ 20 < log2 → t = s) ∧
       (8 ≤ log2 → log2 ≤ 20 → (s.reg 0x32108).getLsbD 31 = true → OnlyRegs s t [0x32108] ∧
         t.reg 0x32108 = (s.reg 0x32108 &&& 0x1F) ||| (value &&& 0x80000000)) ∧
       (8 ≤ log2 → log2 ≤ 20 → (s.reg 0x32108).getLsbD 31 = false → t.reg 0x32108 = value &&& 0x8000001F ∧
         (value.getLsbD 31 = false → OnlyRegs s t [0x32108]) ∧
         (value.getLsbD 31 = true → OnlyRegs s t [0x32108, 0x3210C, 0x32110, 0x32114] ∧ t.reg 0x3210C = 0 ∧ t.reg 0x32110 = 0 ∧ t.reg 0x32114 = 0))) ∧
    (let o := offset.toNat
     let takes := fun (mask : Word) => ∃ t, exec (.registerWrite offset value) s = .next t ∧ OnlyRegs s t [o] ∧ t.reg o = value &&& mask
     let keeps := exec (.registerWrite offset value) s = .next s
     let idle := fun (c : Nat) => (s.reg (0x31014 + 32 * c)).extractLsb' 0 3 = 0
     (o = 0x24 → takes 0x3F) ∧ (o = 0x20000 ∨ o = 0x20004 ∨ o = 0x20010 ∨ o = 0x20014 → takes 0xFFFFFFFF) ∧
     (o = 0x20008 ∨ o = 0x20018 → value.extractLsb' 8 2 = 3 → keeps) ∧
     (o = 0x33C04 ∨ o = 0x33E08 → takes 0x8000FFFF) ∧
     (∀ k, k < 64 → (s.reg (0x30008 + 32 * k)).getLsbD 31 = false → (o = 0x30000 + 32 * k → takes 0xFFFFF000) ∧ (o = 0x30004 + 32 * k → takes 0xFFFFFFFF)) ∧
     (∀ k, k < 64 → (s.reg (0x30008 + 32 * k)).getLsbD 31 = true → o = 0x30000 + 32 * k ∨ o = 0x30004 + 32 * k → keeps) ∧
     (∀ k, k < 64 → o = 0x30010 + 32 * k ∨ o = 0x30014 + 32 * k → keeps) ∧
     (∀ c, c < 32 → idle c → (o = 0x31000 + 32 * c → takes 0xFFFFF000) ∧ (o = 0x31004 + 32 * c → takes 0xFFFFF) ∧
       (o = 0x31008 + 32 * c → takes 0xFFFF0000) ∧ (o = 0x3100C + 32 * c → takes 0xFFFFF) ∧
       (o = 0x31010 + 32 * c → ∃ t, exec (.registerWrite offset value) s = .next t ∧ t.reg o = value &&& 0x8000FFFF ∧
         (value.getLsbD 31 = true → OnlyRegs s t [o]) ∧
         (value.getLsbD 31 = false → s.peerHeld = [] → OnlyRegs { s with peerCounts := s.peerCounts.filter fun y => y.ctx != c } t [o]))) ∧
     (∀ c, c < 32 → ¬idle c → (o = 0x31000 + 32 * c ∨ o = 0x31004 + 32 * c ∨ o = 0x31008 + 32 * c ∨ o = 0x3100C + 32 * c → keeps) ∧
       (o = 0x31010 + 32 * c → ∃ t, exec (.registerWrite offset value) s = .next t ∧ OnlyRegs s t [o] ∧
         t.reg o = (s.reg o &&& 0x80000000) ||| (value &&& 0xFFFF))) ∧
     (∀ c, c < 32 → o = 0x31014 + 32 * c → keeps) ∧
     ((s.reg 0x32108).getLsbD 31 = false → (o = 0x32100 → takes 0xFFFFFFE0) ∧ (o = 0x32104 → takes 0xFFFFF)) ∧
     ((s.reg 0x32108).getLsbD 31 = true → o = 0x32100 ∨ o = 0x32104 → keeps) ∧ (o = 0x32110 → takes 0xFFFFFFFF) ∧
     (0x32000 ≤ o → o < 0x32100 → keeps) ∧
     (∀ c, c < 32 → (o = 0x33000 + 32 * c → takes 0xFFFFFFC0) ∧ (o = 0x33004 + 32 * c → takes 0xFFFFF) ∧
       (o = 0x33008 + 32 * c → 4 ≤ (value.extractLsb' 0 5).toNat → (value.extractLsb' 0 5).toNat ≤ 12 → takes 0xC000FF1F) ∧
       (o = 0x33008 + 32 * c → (value.extractLsb' 0 5).toNat < 4 ∨ 12 < (value.extractLsb' 0 5).toNat → keeps) ∧
       (o = 0x33010 + 32 * c → takes 0xFFFFFFFF) ∧ (o = 0x3300C + 32 * c ∨ o = 0x33014 + 32 * c → keeps)) ∧
     (∀ c : BitVec 5, o = 0x34000 + 32 * c.toNat → ∃ u, OnlyRegs s u [o] ∧ u.reg o = value &&& 0x80000000 ∧
       let cmd := value.extractLsb' 0 2
       (cmd = 0 → exec (.registerWrite offset value) s = .next u) ∧ (cmd = 1 → exec (.registerWrite offset value) s = exec (.debugHalt c) u) ∧
       (cmd = 2 → exec (.registerWrite offset value) s = exec (.debugHaltDrain c) u) ∧
       (cmd = 3 → exec (.registerWrite offset value) s = exec (.debugResume c) u) ∧
       (value.getLsbD 31 = true → (s.reg (0x34004 + 32 * c.toNat)).extractLsb' 0 3 = 0 → cmd = 1 ∨ cmd = 2 → ∃ t,
         exec (.registerWrite offset value) s = .next t ∧ (t.reg (0x34004 + 32 * c.toNat)).extractLsb' 0 3 = 1)) ∧
     (∀ c, c < 32 → (o = 0x34008 + 32 * c → takes 0xFFFFFFC0) ∧ (o = 0x3400C + 32 * c → takes 0xFFFFF) ∧ (o = 0x34004 + 32 * c → keeps)) ∧
     (o % 4 ≠ 0 ∨ 0x34400 ≤ o → keeps))

/-! ## Firmware and packets -/

/-- O57. Firmware reads the sequence word of packet RIDX (R145, R394; its lap: log 47): a current packet is accepted, a launch with the
structures that it names, and a malformed one puts its queue into STATE 4 (R395 to R397); the 64th reading in a row that finds none makes
the queue stale. A step of a firmware core selects the type of the packet that has waited longest, at least 16 steps, else the type that
stands highest in Table 7.4 (R148; ties: log 40); every lane with a packet of that type takes one stage, and the others wait. Each type then
does what Table 7.5 and R153 (pieces: log 53), R328 to R332 (signatures: log 15, log 16; the translator: log 17), R392 and R398 (which of
what a destroy ends waits for what: log 42) give it; a packet completes with its CODE, its record where that is not 0, and its signal. That
the end of an unload empties the three caches whole is the model's choice (log 12): R116 and R151 ask only that the module's blocks go. -/
def Obligations.Packets : Prop :=
  ∀ (s : State) (q : BitVec 6) (p : Packet),
    let n := q.toNat
    let ctx := s.qCtx n
    let opc := p.bytes.extractLsb' 0 8
    let word := fun (k : Nat) => (p.bytes.extractLsb' (8 * k) 64 : Dword)
    -- packet p of u becomes x
    let becomes := fun (u : State) (x : Packet) => u.packets.map fun y => if y.queue = p.queue ∧ y.idx = p.idx then x else y
    let marked := fun (u v : State) => v.packets = becomes u { p with stage := .begun, waited := 0 }
    -- reading the sequence word
    (let ridx := s.reg (0x30010 + 32 * n)
     let d := (s.reg (0x3000C + 32 * n) - ridx).toNat
     let cell := s.slotCell n ridx.toNat
     let current := leNat (Memory.read s.mem (cell + 56) 8) = s.currentSeqw n (s.packetCount n)
     let bytes := BitVec.ofNat 512 (leNat (Memory.read s.mem cell 64))
     let x : Packet := { queue := n, idx := ridx.toNat, bytes := bytes }
     let launches := bytes.extractLsb' 0 8 = 1 ∨ bytes.extractLsb' 0 8 = 2
     let read := (s.passPacket n).readLaunch n ridx.toNat (bytes.extractLsb' 0 8 = 1) (bytes.extractLsb' 64 64)
     let tries := (AMap.get? s.polls n).getD 0
     let stat := (s.reg (0x30014 + 32 * n)).extractLsb' 0 3
     let i : Instr := if (AMap.get? s.polls n).isNone then .seqwPoll q else .seqwRetryTimer q
     let err := 0x33E00 + 4 * (n / 32)
     stat = 1 → s.firmwareUp = true → 0 < d → d ≤ s.qSize n →
      (¬current → tries < 63 → exec i s = .next { s with polls := AMap.set s.polls n (tries + 1) }) ∧
      (¬current → 63 ≤ tries → ∃ t, exec i s = .next t ∧ OnlyRegs { s with polls := AMap.del s.polls n, msix := t.msix } t
          [0x30014 + 32 * n, err, 0x33F00 + 4 * n] ∧
        t.reg (0x30014 + 32 * n) = 2 ∧ t.reg err = s.reg err ||| BitVec.ofNat 32 (2 ^ (n % 32)) ∧ t.reg (0x33F00 + 4 * n) = ridx) ∧
      (current → ∃ t, exec i s = .next t ∧ t.reg (0x30010 + 32 * n) = ridx + 1 ∧ AMap.get? t.polls n = none ∧
        (x.badForm = true ∨ s.sigOk ctx x = false ∨ (launches ∧ read = .malformed) →
          t.packets = s.packets ++ [{ x with malformed := true, code := 1 }] ∧ t.launches = s.launches ∧
          t.reg (0x30014 + 32 * n) = 4 ∧ t.reg err = s.reg err ||| BitVec.ofNat 32 (2 ^ (n % 32)) ∧ t.reg (0x33F00 + 4 * n) = ridx) ∧
        (x.badForm = false → s.sigOk ctx x = true → ¬launches → t.packets = s.packets ++ [x] ∧
          t.launches = s.launches ∧ t.mem = s.mem ∧ ∀ o, o ≠ 0x30010 + 32 * n → t.reg o = s.reg o) ∧
        (x.badForm = false → s.sigOk ctx x = true → launches →
          (s.vaRead ctx (bytes.extractLsb' 64 64) 256 = none → read = .unread) ∧
          (read = .unread → t.packets = s.packets ++ [{ x with code := 2 }] ∧ t.launches = s.launches) ∧
          ∀ l b, read = .ok l → s.vaRead ctx (bytes.extractLsb' 64 64) 256 = some b →
            t.packets = s.packets ++ [{ x with launch := some s.nextId }] ∧ t.nextId = s.nextId + 1 ∧
            (∃ st, t.launch s.nextId = some { l with status := st }) ∧ (∀ k, k ≠ s.nextId → t.launch k = s.launch k) ∧
            l.queue = n ∧ l.ctx = ctx ∧ l.pkt = ridx.toNat ∧ l.stage = .accepted ∧ l.desc = BitVec.ofNat 2048 (leNat b) ∧
            l.isTask = decide (bytes.extractLsb' 0 8 = 2) ∧ (ctx < 32 → s.ctxStat ctx = 0 → t.ctxStat ctx = 1)))) ∧
    -- a step of a firmware core
    (∀ j : BitVec 2, (s.reg 0x18).getLsbD j.toNat = true →
      -- a packet that waits for no stage counts no steps
      let s0 := { s with
        packets := s.packets.map fun x => if s.server (x.queue / 16) = some j.toNat ∧ s.waitsStage x = false then { x with waited := 0 } else x }
      let lanes := s0.lanes j.toNat
      let rank := fun (x : Packet) => [0, 9, 4, 3, 8, 7, 1, 2, 6, 5].idxOf x.opc
      ((∀ m, m < 4 → (s.reg 0x18).getLsbD m = true) → ∀ k, k < 16 → s0.laneHead j.toNat k = s0.waiting (16 * j.toNat + k)) ∧
      (lanes = [] → exec (.firmwareStep j) s = .next s0) ∧
      (lanes ≠ [] → ∃ k x, (k, x) ∈ lanes ∧ selectType (lanes.map Prod.snd) = some x.opc ∧
        ((16 ≤ x.waited ∧ ∀ y ∈ lanes, y.2.waited < x.waited ∨ y.2.waited = x.waited ∧ k ≤ y.1) ∨
          ((∀ y ∈ lanes, y.2.waited < 16) ∧ ∀ y ∈ lanes, rank x ≤ rank y.2)) ∧
        exec (.firmwareStep j) s = .next (lanes.foldl (fun a y => if y.2.opc = x.opc then a.laneStage j.toNat y.1 y.2 else a.laneWait y.2) s0)) ∧
      (selectType (lanes.map Prod.snd) = some 0 → (∀ y ∈ lanes, y.2.malformed = false) →
        ∃ t, exec (.firmwareStep j) s = .next t ∧ t = { s with packets := t.packets, laneLast := t.laneLast } ∧
          ∀ k x, (k, x) ∈ lanes →
            (x.opc = 0 → (∀ y ∈ t.packets, ¬(y.queue = x.queue ∧ y.idx = x.idx)) ∧
              (x.stage = .accepted → AMap.get? t.laneLast (16 * j.toNat + k) = some x.queue)) ∧
            (x.opc ≠ 0 → { x with waited := x.waited + 1 } ∈ t.packets))) ∧
    -- the stage that a packet waits for
    (∀ j k, Turn s j k p → p.queue = n →
      let begins := p.stage = .accepted ∧ p.malformed = false
      let stage := fun (is : List Instr) (ok : State → State → Prop) => StageTaken s j k p is ok
      (p.stage = .accepted → p.malformed = true → stage [] fun u v => PacketEnded u v p 1) ∧
      (begins → opc = 0 → stage [.noOp q] fun u v => PacketEnded u v p 0) ∧
      (begins → opc = 1 → ∀ i l, p.launch = some i → s.launch i = some l → l.code = 0 → l.status.getLsbD 5 = false → l.isTask = false →
        (s.launchModule l).isSome = true → stage [.tileLaunch q] fun u v =>
          v = { u with launches := v.launches, taskQueues := v.taskQueues, packets := v.packets } ∧ marked u v ∧
          v.launch i = some { l with stage := .ordered } ∧ (∀ m, m ≠ i → v.launch m = s.launch m) ∧
          ∀ m x, AMap.get? s.taskQueues m = some x → AMap.get? v.taskQueues m = some
            (if l.prodq.getLsbD m = true ∧ x.ctx = l.ctx ∧ x.launch ≠ i then { x with prods := x.prods ++ [i] } else x)) ∧
      (begins → opc = 1 ∨ opc = 2 → p.launch = none → stage [if opc = 1 then .tileLaunch q else .taskLaunch q] fun u v => PacketEnded u v p p.code.toNat) ∧
      -- a launch that ends as it begins has begun, and so is a producer that has completed (R45)
      (begins → opc = 1 ∨ opc = 2 → ∀ i l code, p.launch = some i → s.launch i = some l →
        (if l.code ≠ 0 then code = l.code else if l.status.getLsbD 5 = true then code = 0 else if s.launchModule l = none then code = 4
          else code = 2 ∧ l.isTask = true ∧ ¬(s.vaOk l.ctx l.tqBase (32 * l.cap) false = true ∧ s.vaOk l.ctx l.tqBase (32 * l.cap) true = true)) →
        stage [if opc = 1 then .tileLaunch q else .taskLaunch q] fun u v => v.launch i = none ∧
          (∀ y ∈ v.packets, ¬(y.queue = l.queue ∧ y.idx = l.pkt)) ∧
          (∀ m x, m ≠ i → s.launch m = some x → v.launch m = some
            { x with producers := x.producers +
                if ∃ q ∈ s.taskQueues, q.2.launch = m ∧ (i ∈ q.2.prods ∨ l.prodq.getLsbD q.1 = true ∧ q.2.ctx = l.ctx) then 1 else 0 }) ∧
          (l.queue = p.queue → l.pkt = p.idx → LaunchRecord u v p l.ctx code l.status (l.manifest 0) 0)) ∧
      (begins → opc = 2 → ∀ i l, p.launch = some i → s.launch i = some l → l.code = 0 → l.status.getLsbD 5 = false → l.isTask = true →
        (s.launchModule l).isSome = true → s.vaOk l.ctx l.tqBase (32 * l.cap) false = true → s.vaOk l.ctx l.tqBase (32 * l.cap) true = true →
        stage [.taskLaunch q] fun u v => ∃ x, marked u v ∧ v.launch i = some { l with stage := .ordered } ∧
          v.age = s.age + BitVec.ofNat 64 l.ninit ∧ AMap.get? v.taskQueues l.tq = some x ∧ x.launch = i ∧ x.ctx = l.ctx ∧ x.cap = l.cap ∧
          x.free = l.cap - l.ninit ∧ x.running = 0 ∧ x.recs.length = l.ninit ∧
          ∀ (m : Nat) (r : BitVec 256), x.recs[m]? = some r → recAge r = s.age + BitVec.ofNat 64 m) ∧
      (begins → opc = 3 → s.vaOk ctx (word 8) 8 true = true → stage [.writeThenSignal q] fun u v => ∃ w,
        VaWritten u w ctx (word 8) 8 (byteOf (word 16).toNat) ∧ PacketEnded w v p 0) ∧
      (begins → opc = 3 → s.vaOk ctx (word 8) 8 true = false → stage [.writeThenSignal q] fun u v => PacketEnded u v p 2) ∧
      (begins → opc = 4 → stage [.waitSignal q] fun u v => v = { u with packets := v.packets } ∧ marked u v) ∧
      (begins → opc = 5 → stage [.hostCopy q] fun u v => v = { u with packets := v.packets } ∧ marked u v) ∧
      -- a wait or a host copy whose event has come
      (p.stage = .begun → opc = 4 ∨ opc = 5 → stage [] fun u v => PacketEnded u v p p.code.toNat) ∧
      (begins → opc = 6 → stage [.moduleLoad q] fun u v => v = { u with packets := v.packets, groups := v.groups } ∧ marked u v ∧
        ∀ m g, s.group m = some g → v.group m = some (if g.launch ∈ s.requesters p.queue then { g with flags := g.flags &&& ~~~2048 } else g)) ∧
      (p.malformed = false → opc = 6 → p.stage = .begun →
        let seg := word 8
        let len := (word 16).toNat
        let id := p.bytes.extractLsb' 192 16
        -- the load completes with a CODE, from a state that holds what it has written
        let loads := fun (code : Nat) (written : State → State → Prop) => stage [.moduleLoad q] fun u v => ∃ w x, written u w ∧
          x = { w with groups := x.groups } ∧ PacketEnded x v p code ∧
          ∀ m g, s.group m = some g → x.group m = some (
            if g.launch ∈ s.requesters n ∧ g.entries ≠ [] then { g with flags := g.flags ||| 2048 } else g)
        let fails := fun (code : Nat) => loads code fun u w => w = { u with transCache := w.transCache }
        (seg.toNat % 2 ^ 16 ≠ 0 ∨ len % 32 ≠ 0 ∨ id = 0 → fails 5) ∧
        (seg.toNat % 2 ^ 16 = 0 → len % 32 = 0 → id ≠ 0 →
          (s.vaRead ctx (word 48) 256 = none → fails 2) ∧
          ∀ b, s.vaRead ctx (word 48) 256 = some b →
            let field := fun (lo n : Nat) => leNat ((b.drop lo).take n)
            let formed := field 96 64 = 0 ∧ field 21 43 = 0 ∧
              ((field 20 1 = 0 ∧ field 0 16 = 0) ∨ (field 20 1 = 1 ∧ field 0 8 % 2 ^ 16 = 0 ∧ field 8 8 % 2 ^ 16 = 0))
            (¬formed → fails 6) ∧ (formed → s.vaRead ctx seg len = none → fails 2) ∧
            ∀ obj, formed → s.vaRead ctx seg len = some obj →
              let hash := sha256Bits obj
              let good := bytesOf 32 hash = (b.drop 64).take 32 ∧ s.signatureOk b = true
              let secver := field 16 4
              let mod := fun (seg : Dword) (len : Nat) (hash : BitVec 256) =>
                ({ ctx := ctx, id := id, seg := seg, len := len, hash := hash, secver := secver } : Module)
              (¬good → fails 7) ∧ (good → secver < (s.reg 0x33E14).toNat → fails 8) ∧
              (good → (s.reg 0x33E14).toNat ≤ secver → field 20 1 = 0 →
                loads 0 fun u w => w = { u with modules := s.modules ++ [mod seg len hash] }) ∧
              -- the bytes of the cached translation stand where they were written
              let cached := s.transCache.find? fun y => y.key = hash ∧ y.xlver = s.reg 0x32008
              let stands := fun (e : TransEntry) (code : List Byte) => s.vaRead e.ctx e.addr e.len = some code ∧
                BitVec.ofNat 256 (leNat (hmacSha256 Config.deviceKey code)) = e.hmac
              (good → (s.reg 0x33E14).toNat ≤ secver → field 20 1 = 1 → ∀ e code, cached = some e → stands e code →
                let area := BitVec.ofNat 64 (field 0 8)
                (field 8 8 < code.length → fails 9) ∧
                (code.length ≤ field 8 8 → s.vaOk ctx area code.length true = false → fails 2) ∧
                (code.length ≤ field 8 8 → s.vaOk ctx area code.length true = true →
                  loads 0 fun u w => ∃ y, VaWritten u y ctx area code.length (fun m => code.getD m 0) ∧
                    w = { y with
                      modules := s.modules ++ [mod area code.length (sha256Bits code)]
                      transCache := e :: s.transCache.filter fun x => x ≠ e })) ∧
              (good → (s.reg 0x33E14).toNat ≤ secver → field 20 1 = 1 → (∀ e code, cached = some e → ¬stands e code) →
                let area := BitVec.ofNat 64 (field 0 8)
                (Config.translate obj (s.reg 0x32008) = none → fails 9) ∧
                ∀ code, Config.translate obj (s.reg 0x32008) = some code →
                  (field 8 8 < code.length → fails 9) ∧
                  (code.length ≤ field 8 8 → s.vaOk ctx area code.length true = false → fails 2) ∧
                  (code.length ≤ field 8 8 → s.vaOk ctx area code.length true = true →
                    loads 0 fun u w => ∃ y, VaWritten u y ctx area code.length (fun m => code.getD m 0) ∧
                      w = { y with modules := s.modules ++ [mod area code.length (sha256Bits code)], transCache := w.transCache } ∧
                      w.transCache.length ≤ 1024 ∧ ∃ e, w.transCache.head? = some e ∧ e.key = hash ∧ e.addr = area ∧ e.len = code.length)))) ∧
      (begins → opc = 7 →
        let m := s.module ctx (p.bytes.extractLsb' 64 16)
        (m = none ∨ (∃ x, m = some x ∧ x.unloading = true) → stage [.moduleUnload q] fun u v => PacketEnded u v p 4) ∧
        (∀ x, m = some x → x.unloading = false → stage [.moduleUnload q] fun u v => v = { u with packets := v.packets, modules := v.modules } ∧
          marked u v ∧ v.modules = s.modules.map fun y => if y = x then { x with unloading := true } else y)) ∧
      (p.malformed = false → p.stage = .begun → opc = 7 →
        let id := p.bytes.extractLsb' 64 16
        (∀ x ∈ s.groups, s.inModule x.1 x.2 ctx id = false) ∧
        (∀ x ∈ ((s.context ctx).saved.map (·.groups)).getD [], s.inModule x.1 x.2 ctx id = false) ∧
        stage [.moduleUnloadDone q] fun u v => ∃ w, PacketEnded w v p 0 ∧
          w = { u with modules := w.modules, l0 := [], l1 := [], l2 := [] } ∧ ∀ m, m ∈ w.modules ↔ m ∈ s.modules ∧ ¬(m.ctx = ctx ∧ m.id = id)) ∧
      (begins → opc = 8 →
        (s.vaOk ctx (word 8) 256 true = false → stage [.manifestSnapshot q] fun u v => PacketEnded u v p 2) ∧
        (s.vaOk ctx (word 8) 256 true = true → stage [.manifestSnapshot q] fun u v => ∃ w,
          VaWritten u w ctx (word 8) 256 (fun i => (s.reg (0x32000 + 4 * (i / 4))).extractLsb' (8 * (i % 4)) 8) ∧ PacketEnded w v p 0)) ∧
      (opc = 9 →
        let m := (p.bytes.extractLsb' 64 8).toNat
        let stat := (s.reg (0x30014 + 32 * m)).extractLsb' 0 3
        let off := fun (u w : State) => OnlyRegs u w [0x30008 + 32 * m, 0x30014 + 32 * m, 0x33E00, 0x33E04] ∧ w.reg (0x30014 + 32 * m) = 0 ∧
          w.reg (0x30008 + 32 * m) = s.reg (0x30008 + 32 * m) &&& 0x7FFFFFFF
        let alone := ∀ y ∈ s.packets, y.queue = m → y.queue = p.queue ∧ y.idx = p.idx
        m < 64 →
        (begins → stat = 0 → stage [.queueDestroy q] fun u v => PacketEnded u v p 0) ∧
        (begins → stat = 3 → stage [.queueDestroy q] fun u v => v = { u with packets := v.packets } ∧ marked u v) ∧
        (begins → stat ≠ 0 → stat ≠ 3 → alone → stage [.queueDestroy q] fun u v => ∃ w, off u w ∧ PacketEnded w v p 0) ∧
        (begins → stat ≠ 0 → stat ≠ 3 → ¬alone → stage [.queueDestroy q] fun _ v => v.reg (0x30014 + 32 * m) = 3) ∧
        -- its other packets: those not begun and a wait-signal end, a launch that has begun is stopped, the others run on
        (begins → stat ≠ 0 → stat ≠ 3 → ¬alone → (∀ y ∈ s.packets, ∀ z ∈ s.packets, y.queue = m → z.queue = m → y.idx = z.idx → y = z) →
          (∀ y ∈ s.packets, y.queue = m → ∀ i l, y.launch = some i → s.launch i = some l → l.queue = m ∧ l.pkt = y.idx) →
          stage [.queueDestroy q] fun u v => { p with stage := .begun, waited := 0 } ∈ v.packets ∧
            ∀ y ∈ u.packets, y.queue = m → ¬(y.queue = p.queue ∧ y.idx = p.idx) →
              (y.stage = .accepted ∨ y.opc = 4 → ∀ z ∈ v.packets, ¬(z.queue = m ∧ z.idx = y.idx)) ∧
              (y.stage = .accepted → y.malformed = false → ∀ i, y.launch = some i → v.launch i = none) ∧
              (y.stage ≠ .accepted → y.opc ≠ 4 → y ∈ v.packets ∧ ∀ i l, y.launch = some i → s.launch i = some l →
                ∃ n, v.launch i = some { l with status := l.status ||| 8, producers := n })) ∧
        (begins → stat ≠ 0 → stat ≠ 3 → ∀ y, (s.packets.filter fun x => x.queue = m ∧ ¬(x.queue = p.queue ∧ x.idx = p.idx)) = [y] →
          y.stage = .accepted →
          (y.launch = none → stage [.queueDestroy q] fun u v => ∃ w x, OnlyRegs u w [0x30014 + 32 * m] ∧ w.reg (0x30014 + 32 * m) = 3 ∧
            PacketEnded w x y (if y.malformed then 1 else 3) ∧ v = { x with packets := v.packets } ∧ marked x v) ∧
          (∀ i l, y.malformed = false → y.launch = some i → s.launch i = some l → l.queue = y.queue → l.pkt = y.idx →
            stage [.queueDestroy q] fun u v => LaunchRecord u v y l.ctx 3 l.status [] 0)) ∧
        (p.malformed = false → p.stage = .begun → stat = 0 → stage [.queueDestroyDone q] fun u v => PacketEnded u v p 0) ∧
        (p.malformed = false → p.stage = .begun → stat ≠ 0 → alone ∧ stage [.queueDestroyDone q] fun u v => ∃ w, off u w ∧ PacketEnded w v p 0))) ∧
    -- what packets that have begun await
    (let awaits := fun (k : Nat) => (s.packets.filter fun x => x.queue = n).find? (fun x => x.opc = k && x.stage = .begun && !x.met) = some p
     let met := fun (i : Instr) (code : Byte) => exec i s = .next { s with packets := becomes s { p with met := true, code := code } }
     (s.server (n / 16)).isSome = true → p.queue = n →
     (awaits 4 → s.lanesRun n = true →
       (s.vaRead ctx (word 8) 8 = none → met (.waitSignalPoll q) 2) ∧
       ∀ b, s.vaRead ctx (word 8) 8 = some b →
         let v := (word 16).toNat
         let cmp := (p.bytes.extractLsb' 192 8).toNat
         let holds := (cmp = 0 ∧ v ≤ leNat b) ∨ (cmp = 1 ∧ leNat b = v) ∨ (cmp = 2 ∧ leNat b ≠ v) ∨ (3 ≤ cmp ∧ leNat b < v)
         (holds → met (.waitSignalPoll q) 0) ∧ (¬holds → exec (.waitSignalPoll q) s = .next s)) ∧
     (awaits 5 →
       let src := p.hostSrc.at p.moved
       let dst := p.hostDst.at p.moved
       let len := (p.bytes.extractLsb' 192 32).toNat
       let k := min (min (2 ^ 22) (len - p.moved)) (min (s.sideSpan ctx src) (s.sideSpan ctx dst))
       let pre := firstBad [s.hostCheck ctx false src k, s.hostCheck ctx true dst k]
       (pre = .pass → ∃ t, exec (.hostCopyPieceDone q) s = .next t ∧
         t = { s with mem := t.mem, poison := t.poison, packets := t.packets } ∧
         (∀ i, i < k → (∀ j, i < j → j < k → s.hostCell ctx dst j ≠ s.hostCell ctx dst i) →
           SMap.get t.mem (s.hostCell ctx dst i) = SMap.get s.mem (s.hostCell ctx src i)) ∧
         (∀ a, (∀ i, i < k → s.hostCell ctx dst i ≠ a) → SMap.get t.mem a = SMap.get s.mem a) ∧
         -- poison in the source is written with its bytes, and ends the copy
         (∀ i, i < k → s.poisoned (s.hostCell ctx src i) 1 = true → t.poisoned (s.hostCell ctx dst i) 1 = true) ∧
         t.packets = becomes s (if ∃ i, i < k ∧ s.poisoned (s.hostCell ctx src i) 1 = true then { p with met := true, code := 10 }
           else if p.moved + k = len then { p with met := true, code := 0 } else { p with moved := p.moved + k })) ∧
       ((∃ a, pre = .wait a) → exec (.hostCopyPieceDone q) s = .next s ∧ met (.preflightReadinessTimeout (.piece n)) 2) ∧
       ((∃ a, pre = .poison a) → met (.hostCopyPieceDone q) 10) ∧
       ((∃ a, pre = .absent a) ∨ (∃ x y z, pre = .fail x y z) → met (.hostCopyPieceDone q) 2)))

/-! ## Placement, contexts, debug, update -/

/-- O58. The launch that is placed next is ordered, fits, and waits for no page of claims; no launch that stands before it in the order could
be placed (R156, R182; a cluster that is not ready: R20).
LAUNCH_PLACE places it whole: a block on each of its spans in order, with its barriers (R32, R33, R286) and the counts held for them (R284),
storage, tiles and registers that no resident block holds (R34, R103; in one run each: log 41), its shared memory zero (R98), and groups on
the cores and ports of R32 whose registers, flags and single unit stand as R96, R281 and R324 say (which slot of its port a group gets: log
5). A launch's packet waits for its finish stage when the launch may end and its lane runs, or has yet to acknowledge a stop (R160, R402).
LAUNCH_COMPLETE, or the core's step, is that stage: with CODE 0 its manifest record is written (WORK: log
70), then its completion record, then its signal, where SIGADDR can be written (R46, R148, R151, R198, R392); its task queue is gone and
each launch that it was a producer of counts it (R45). ARGHASH leaves out the priority, the module number and the addresses alone (R199). -/
def Obligations.LaunchEvents : Prop :=
  ∀ (s : State) (i : Nat) (l : Launch),
    let clear := fun (taken : List (Nat × Nat)) (base n room : Nat) =>
      n = 0 ∨ (base + n ≤ room ∧ ∀ r ∈ taken, r.2 = 0 ∨ base + n ≤ r.1 ∨ r.1 + r.2 ≤ base)
    (s.nextLaunch = some (i, l) → s.launch i = some l ∧ l.stage = .ordered ∧ l.code = 0 ∧ l.status.getLsbD 3 = false ∧ l.status.getLsbD 5 = false ∧
      s.clustersReady l = true ∧ (s.fits l fun _ => true) = true ∧
      (l.hasClaims = true → ∀ q ∈ s.launches, q.2.stage = .placed → q.2.hasClaims = true → ∀ pg ∈ l.claimPages, q.2.claimsPage pg = false) ∧
      ((s.launches.map Prod.fst).Nodup → ∀ k x, k < 2 ^ 32 → s.launch k = some x → x.stage = .ordered → x.code = 0 → x.status = 0 →
        x.cls < l.cls ∨ (x.cls = l.cls ∧ (x.stamp < l.stamp ∨ x.stamp = l.stamp ∧ k < i)) → s.clustersReady x = true →
        (s.fits x fun _ => true) = true → s.claimsHeld x = false → ∃ f, firstEntry s.orderEntries = some f ∧ f.id ≠ k ∧ f.mask &&& x.cmask ≠ 0)) ∧
    (∀ m, s.nextLaunch = some (i, l) → s.launchModule l = some m →
      let spans := ((List.range (256 / l.span)).map (l.span * ·)).filter fun c => (List.range l.span).all fun k => l.cmask.getLsbD (c + k)
      let use := fun (core : Nat) => s.coreUse core fun _ => true
      let mine := fun (e : PeerCount) => e.ctx = l.ctx && e.queue = l.queue
      ∃ t, exec .launchPlace s = .next t ∧
        t.launch i = some { l with stage := .placed, nblk := spans.length, firstBlock := s.nextId, f10 := false } ∧
        (∀ k, k ≠ i → t.launch k = s.launch k) ∧ t.nextId = s.nextId + spans.length ∧ (t.context l.ctx).expired = false ∧
        (s.peerHeld = [] → t.peerCounts = s.peerCounts.filter fun e => !mine e) ∧
        (∀ (j core : Nat), spans[j]? = some core → ∃ b, AMap.get? t.blocks (s.nextId + j) = some b ∧ b.launch = i ∧ b.num = j ∧ b.core = core ∧
          b.span = l.span ∧ b.dying = none ∧ b.bars.length = l.bars ∧ b.barNums.length = l.bars ∧ b.barNums.Nodup ∧
          (∀ n ∈ b.barNums, n < 64 ∧ n ∉ (use core).bars) ∧
          (s.peerHeld = [] → 0 < l.gcount → ∀ (n : Nat) (x : Barrier), b.bars[n]? = some x → x =
            { na := BitVec.ofNat 12 l.gcount
              landb := BitVec.ofNat 64 ((s.peerCounts.filter fun e => mine e && e.block = j && e.bar = n).map (·.bytes)).sum }) ∧
          (∀ x, x < l.span →
            clear (use (core + x)).shared (b.shBase.getD x 0) l.shmem (512 * 1024) ∧ clear (use (core + x)).bplane (b.bpBase.getD x 0) l.bpd 16384 ∧
            (b.tiles.getD x []).length = l.acc ∧ (b.tiles.getD x []).Nodup ∧ (∀ n ∈ b.tiles.getD x [], n < 32 ∧ n ∉ (use (core + x)).tiles) ∧
            (s.peerCounts = [] → s.peerHeld = [] → ∀ o, o < l.shmem →
              SMap.get t.mem (3 * 2 ^ 56 + (core + x) * 2 ^ 20 + (b.shBase.getD x 0 + o)) = 0)) ∧
          ∀ n, n < l.gcount → ∃ k g, t.group k = some g ∧ s.group k = none ∧ k / 512 = core + n % l.span ∧ k % 512 / 64 = n / l.span % 8 ∧
            g.block = s.nextId + j ∧ g.g = n ∧ clear (use (core + n % l.span)).spill g.spBase l.spill (512 * 1024) ∧
            clear ((use (core + n % l.span)).portRegs (n / l.span % 8)) g.vBase l.regs 2048) ∧
        (∀ k g, s.group k = some g → t.group k = some g) ∧
        ∀ k g, t.group k = some g → s.group k = some g ∨ (g.launch = i ∧ g.ctx = l.ctx ∧ g.g < l.gcount ∧ g.nregs = l.regs ∧ g.spSize = l.spill ∧
          (∀ th n, n < 256 → g.vget th n = 0) ∧ (∀ n, g.kget n = if 8 ≤ n ∧ n < 16 then l.kinit (n - 8) else 0) ∧ (∀ n, 0 < n → g.mget n = 0) ∧
          g.flags = (if l.isCov then 0x3FF else 0x7FF) ∧ g.ras = [] ∧ g.spilled = 0 ∧ g.mfmt = 0x63 ∧
          ∃ e, g.entries = [(0, e)] ∧ e.pc = m.seg + BitVec.ofNat 64 l.codeOff ∧ e.mask = 0xFFFFFFFF ∧ e.mod = l.modid ∧ e.target = true)) ∧
    (s.nextLaunch = some (i, l) → s.launchModule l = none → ∃ t, exec .launchPlace s = .next t ∧
      t = { s with launches := t.launches } ∧ t.launch i = some { l with code := 4 }) ∧
    (s.nextLaunch = none → exec .launchPlace s = .next s) ∧
    -- a launch's packet waits for its finish stage when the launch may end
    (∀ j k p, (k, p) ∈ (s.resetWaits j).lanes j → p.launch = some i → s.launch i = some l → p.opc = 1 ∨ p.opc = 2 → p.stage ≠ .accepted → l.stage = .placed →
      l.status.getLsbD 3 = false → l.status.getLsbD 4 = false → l.status.getLsbD 5 = false →
      ((s.ctxStat (s.qCtx p.queue) ≤ 1 ∧ s.dbgState (s.qCtx p.queue) ≠ 3 ∧ s.dbgState (s.qCtx p.queue) ≠ 4) ∨
        (s.ctxStat (s.qCtx p.queue) = 2 ∧ .lane p.queue ∈ (s.context (s.qCtx p.queue)).acks)) ∧
      (∀ q ∈ s.blocks, q.2.launch ≠ i) ∧ s.savedOf i l = [] ∧ (∀ q ∈ s.copies, ¬(l.firstBlock ≤ q.2.block ∧ q.2.block < l.firstBlock + l.nblk)) ∧
      l.releases = [] ∧ (l.isCov = true → l.f10 = true) ∧
      (l.isTask = true → ∀ x, AMap.get? s.taskQueues l.tq = some x → x.recs = [] ∧ x.running = 0 ∧ l.nprod ≤ l.producers)) ∧
    ((∀ j, ∀ q ∈ (s.resetWaits j).lanes j, q.2.launch ≠ some i) → exec (.launchComplete i) s = .next s) ∧
    (∀ j k p, Turn s j k p → p.opc = 1 ∨ p.opc = 2 → p.stage ≠ .accepted → p.launch = some i → s.launch i = some l → l.queue = p.queue →
      l.pkt = p.idx → (∀ q ∈ s.blocks, q.2.launch ≠ i) → (s.context l.ctx).saved = none → s.peerHeld = [] →
      StageTaken s j k p [.launchComplete i] fun u v => v.launch i = none ∧ (∀ x ∈ v.packets, ¬(x.queue = p.queue ∧ x.idx = p.idx)) ∧
        (∀ m g, s.group m = some g → g.launch ≠ i → v.group m = some g) ∧ (∀ m x, AMap.get? v.taskQueues m = some x → x.launch ≠ i) ∧
        (∀ m x, m ≠ i → s.launch m = some x → v.launch m = some
          { x with producers := x.producers + if ∃ q ∈ s.taskQueues, i ∈ q.2.prods ∧ q.2.launch = m then 1 else 0 }) ∧
        (l.ctx < 32 → s.ctxStat l.ctx = 1 → (∀ q ∈ s.launches, q.1 ≠ i → q.2.ctx ≠ l.ctx) → v.ctxStat l.ctx = 0) ∧
        let work := if l.status.getLsbD 3 then (if l.isTask then l.ended else (l.complete.filter l.handed.contains).length) else l.work
        LaunchRecord u v p l.ctx l.code l.status (l.manifest work) work) ∧
    (∀ n, let m := l.manifest n
      let field := fun (lo k : Nat) => leNat ((m.drop lo).take k)
      m.length = 192 ∧ field 0 4 = 1 ∧ field 4 1 = l.mode % 256 ∧ field 5 1 = l.span % 256 ∧ field 6 2 = l.nblk % 2 ^ 16 ∧ field 8 8 = n % 2 ^ 64 ∧
      field 16 16 = 0 ∧ (m.drop 32).take 32 = l.covHash ∧ (m.drop 64).take 32 = l.argHash ∧ (m.drop 96).take 32 = l.modSet ∧
      field 128 32 = l.devhash.toNat ∧ m.drop 160 = sha256 (m.take 160)) ∧
    ∀ x : Launch, (∀ n, n < 8 → x.kinit n = l.kinit n) →
      (∀ n, n < 84 → n ≠ 1 → n ≠ 10 → n ≠ 11 → ¬(48 ≤ n ∧ n ≤ 71) → fieldNat x.desc n 1 = fieldNat l.desc n 1) → x.argHash = l.argHash

/-- O59. The slice of a context that holds blocks runs out (R159). The context that keeps the first entry of the placement order from its
cores (of several, log 69) is stopped: every engine of Table 7.7 is to acknowledge, and its units issue nothing more (R160, R161); with the
last acknowledgement it is saved and leaves the cores (R162), and is idle where no launch of it is left (R141); an engine that stays silent is
recorded, its readiness bit is cleared for good, and the launches of the stop end with DEVE, those of a context or those that a queue destroy
stops (R399; a destroy: log 42). After the silent engine's late acknowledgement CTXSTAT becomes 0, as R399 says, but 1 where launches of the
context have been accepted since the stop timed out: that is the model's reading of R141 beside R399 (log 75). A context whose turn it is comes back from its save area to the places it had, with CTXSTAT 4, and in a second step it issues again (R163; the
save area: log 19). A debugger halts, drains and resumes a context as R400 to R402 say; a command that comes while STATE is 1 or 3 is held
(several of them: log 49). -/
def Obligations.ContextEvents : Prop :=
  ∀ (s : State) (ctx : BitVec 5),
    let c := ctx.toNat
    let stat := fun (u : State) => (u.reg (0x31014 + 32 * c)).extractLsb' 0 3
    let dbg := fun (u : State) => (u.reg (0x34004 + 32 * c)).extractLsb' 0 3
    let attached := (s.reg (0x34000 + 32 * c)).getLsbD 31
    let x := s.context c
    let hasLaunch := ∃ q ∈ s.launches, q.2.ctx = c
    let others := fun (t : State) => ∀ k, k ≠ c → t.context k = s.context k
    let stopped := fun (k : StopKind) (t : State) => stat t = 2 ∧ (t.context c).stop = some k ∧ (t.context c).acks = s.enginesOf c ∧
      (∀ u, t.sel = some u → s.ofCtx u.grp c = false) ∧ (∀ r ∈ t.tokens, s.ofCtx r.1 c = false) ∧ (∀ r ∈ t.tokenReqs, s.ofCtx r.1 c = false) ∧
      (∀ i l, t.launch i = some l → l.ctx = c → l.waits = []) ∧ others t
    let noBkpt := fun (t : State) => ∀ k g, s.group k = some g → t.group k = some (if g.ctx = c then { g with bkpt := false } else g)
    (stat s = 1 → s.ctxBlocks c ≠ [] → x.expired = false → dbg s = 0 → ∃ t, exec (.timeSliceExpiry ctx) s = .next t ∧
      t = { s with contexts := t.contexts } ∧ t.context c = { x with expired := true, expiredAt := s.clk.toNat } ∧ others t) ∧
    (stat s ≠ 1 ∨ s.ctxBlocks c = [] ∨ x.expired = true ∨ dbg s ≠ 0 → exec (.timeSliceExpiry ctx) s = .next s) ∧
    (∀ e, firstEntry s.orderEntries = some e → s.entryFits e (fun _ => true) = false → (∀ k, k < 32 → s.ctxStat k = 2 → (s.context k).silent ≠ none) → s.victim e = some c →
      ∃ t, exec (.preemptContext ctx) s = .next t ∧ stopped .preempt t ∧ t.mem = s.mem) ∧
    (∀ e, stat s = 2 → e ∈ x.acks → s.mayAck c e = true →
      (x.acks.erase e ≠ [] → ∃ t, exec (.stopAck ctx e) s = .next t ∧ t = { s with contexts := t.contexts } ∧
        t.context c = { x with acks := x.acks.erase e } ∧ others t) ∧
      (x.acks.erase e = [] → x.silent = none → hasLaunch → ∃ t v, exec (.stopAck ctx e) s = .next t ∧ stat t = 3 ∧ (t.context c).saved = some v ∧
        (t.context c).stop = x.stop ∧ (t.context c).stoppedAt = (if x.savedBlocks = [] then s.clk.toNat else x.stoppedAt) ∧
        (∀ k g, t.group k = some g → g.ctx ≠ c) ∧ (∀ k g, s.group k = some g → g.ctx ≠ c → t.group k = some g) ∧
        (x.saved = none ∨ (s.groups.map Prod.fst).Nodup → ∀ k g, s.group k = some g → g.ctx = c → AMap.get? v.groups k = some g) ∧
        (∀ k b, AMap.get? (s.ctxBlocks c) k = some b → AMap.get? t.blocks k = none ∧ (x.saved = none → AMap.get? v.blocks k = some b)) ∧
        -- what was saved before, where blocks have been placed since
        ∀ w, x.saved = some w →
          (∀ k g, AMap.get? w.groups k = some g → (∀ q ∈ s.groups, q.1 = k → q.2.ctx ≠ c) → AMap.get? v.groups k = some g) ∧
          ∀ k b, AMap.get? w.blocks k = some b → AMap.get? (s.ctxBlocks c) k = none → AMap.get? v.blocks k = some b) ∧
      (x.acks.erase e = [] → x.silent = none → ¬hasLaunch → ∃ t, exec (.stopAck ctx e) s = .next t ∧ stat t = 0 ∧
        t.context c = { heldCmd := x.heldCmd, toDrain := x.toDrain }) ∧
      -- the late acknowledgement
      (x.acks.erase e = [] → x.silent ≠ none → ∃ t, exec (.stopAck ctx e) s = .next t ∧
        t.context c = { heldCmd := x.heldCmd, toDrain := x.toDrain } ∧
        stat t = if ∃ q ∈ s.launches, q.2.ctx = c ∧ q.2.status.getLsbD 5 = false then 1 else 0)) ∧
    ((∀ q ∈ s.svc, q.1 ∉ blockCores (s.ctxBlocks c)) →
      -- the launches that end, and what is noted of the engine
      let ends := fun (e : Engine) (which : Launch → Prop) (t : State) =>
        (∀ b ∈ s.ctxBlocks c, ∀ l, s.launch b.2.launch = some l → which l → AMap.get? t.blocks b.1 = none) ∧
        (∀ n, s.engineBit e = some n → t.ready n = false ∧ n ∈ t.deadBits) ∧
        ((s.reg 0x33E0C).getLsbD 31 = false → (∀ n, s.engineBit e = some n → n < 96) →
          t.reg 0x33E0C = BitVec.ofNat 32 (2 ^ 31 + c * 2 ^ 16 + engineRow e * 2 ^ 12 + s.enginePlace e)) ∧
        ((s.launches.map Prod.fst).Nodup → ∀ i l, s.launch i = some l → which l →
          (l.stage = .placed → ∃ l', t.launch i = some l' ∧ l'.status.getLsbD 5 = true) ∧
          -- one that has placed no block completes at once
          (l.stage ≠ .placed → t.launch i = none ∧ ∀ y ∈ t.packets, ¬(y.queue = l.queue ∧ y.idx = l.pkt)))
      (∀ e r, stat s = 2 → x.acks = e :: r → x.silent = none → ∃ t, exec (.stopTimeout ctx) s = .next t ∧
        (t.context c).acks = [e] ∧ (t.context c).silent = some e ∧ ends e (fun l => l.ctx = c) t) ∧
      (stat s ≠ 2 → s.stoppingLaunches c = [] → exec (.stopTimeout ctx) s = .next s) ∧
      ∀ e, stat s ≠ 2 → s.silentEngine c = some e → ∃ t, exec (.stopTimeout ctx) s = .next t ∧
        ends e (fun l => l.ctx = c ∧ l.stage = .placed ∧ l.status.getLsbD 3 = true) t) ∧
    (s.halted = true → stat s ≠ 4 → exec (.contextResume ctx) s = .next s) ∧
    (∀ e v, s.halted = false → stat s = 3 → s.orderEntries.find? (fun q => q.ctx = some c) = some e → x.saved = some v → s.mayPlace e = true →
      s.entryFits e (fun _ => true) = true → (∀ k ∈ blockCores v.blocks, s.ready (k / 8) = true) → (∀ q ∈ v.groups, s.poisonedRecord c q.1 = false) →
      (v.groups.map Prod.fst).Nodup → (v.blocks.map Prod.fst).Nodup →
      let runs := (blockCores v.blocks).flatMap fun k => (s.savedRuns k (groupsAt k v.groups) (blocksAt k v.blocks)).map fun r => (k, r)
      ∃ t, exec (.contextResume ctx) s = .next t ∧ stat t = 4 ∧ t.context c = { x with saved := none, stop := none } ∧ others t ∧
        (∀ k g, AMap.get? v.groups k = some g → ∃ g', t.group k = some g' ∧
          g' = { g with
            entries := g'.entries, ras := g'.ras, work := g'.work, k := g'.k, m := g'.m, v := g'.v, trap := g'.trap, fetch := g.refetch, refetch := none
            pmc := [], lost := 0, lostAt := 0, lastIssue := s.clk.toNat - g.waited x.stoppedAt, first := g.first.map fun _ => s.clk.toNat } ∧
          -- split entries, return-address entries and the work unit as the record has them
          (let bytes := fun (off n : Nat) => s.savedBytes c (k / 512) (0x2000 + 2048 * (k % 512) + off) n
           g'.entries.length = g.entries.length ∧ g'.ras.length = g.ras.length ∧
           (∀ (j n : Nat) (q : Entry), g.entries[j]? = some (n, q) →
             let rec_ := bytes (if n < 32 then 0x240 + 16 * n else 0x600 + 16 * (n - 32)) 16
             g'.entries[j]? = some (n, { q with
               pc := BitVec.ofNat 64 (leNat (rec_.take 8)), mask := BitVec.ofNat 32 (leNat ((rec_.drop 8).take 4))
               inHandler := q.inHandler && leNat (bytes 0x57F 1) % 2 = 1 })) ∧
           (∀ j, j < g.ras.length → g'.ras[j]? = some (rasOf (bytes (0x440 + 16 * j) 16))) ∧
           (g.work = .none → g'.work = .none) ∧ (∀ n, g.work = .tile n → g'.work = .tile (leNat ((bytes 0x580 32).take 8))) ∧
           ∀ r, g.work = .task r → g'.work = .task (BitVec.ofNat 256 (leNat (bytes 0x580 32)))) ∧
          (∀ n, n < 64 → SMap.get g'.k n = BitVec.ofNat 64 (leNat (((s.savedBytes c (k / 512) (0x2000 + 2048 * (k % 512)) 512).drop (8 * n)).take 8))) ∧
          (∀ n, n < 16 → SMap.get g'.m n = BitVec.ofNat 32 (leNat (((s.savedBytes c (k / 512) (0x2200 + 2048 * (k % 512)) 64).drop (4 * n)).take 4))) ∧
          (g.nregs ≤ 256 → ∀ n th, n < g.nregs → th < 32 → SMap.get g'.v (256 * th + n) = BitVec.ofNat 32 (leNat
            (((s.savedBytes c (k / 512) (0x102000 + 2 ^ 18 * (k % 512 / 64) + 128 * (g.vBase + n)) 128).drop (4 * th)).take 4)))) ∧
        (∀ k, AMap.get? v.groups k = none → t.group k = s.group k) ∧
        -- barriers from the record, with the counts that have arrived for the block since
        (∀ k b, AMap.get? v.blocks k = some b → ∃ l, AMap.get? t.blocks k = some { b with bars := l } ∧ l.length = b.barNums.length ∧
          l = ((v.counts.filter fun q => q.1 = k).foldl (fun (a : Block) q => a.landBytes q.2.1 q.2.2) { b with
            bars := b.barNums.map fun n => barrierOf (s.savedBytes c b.core (0x1000 + 64 * n) 64) }).bars) ∧
        (∀ a, (∀ r ∈ runs, a < r.2.2.1 ∨ r.2.2.1 + r.2.2.2 ≤ a) → SMap.get t.mem a = SMap.get s.mem a) ∧
        (runs.Pairwise (fun a b => a.2.2.1 + a.2.2.2 ≤ b.2.2.1 ∨ b.2.2.1 + b.2.2.2 ≤ a.2.2.1) → ∀ r ∈ runs, ∀ o b, o < r.2.2.2 →
          (s.savedBytes c r.1 r.2.1 r.2.2.2)[o]? = some b → SMap.get t.mem (r.2.2.1 + o) = b)) ∧
    (stat s = 4 → hasLaunch → ∃ t, exec (.contextResume ctx) s = .next t ∧ t = { s with bar0 := t.bar0, contexts := t.contexts, groups := t.groups } ∧
      stat t = 1 ∧ t.context c = { heldCmd := x.heldCmd, toDrain := x.toDrain } ∧ others t ∧
      (dbg s = 4 → t.reg (0x34004 + 32 * c) = 0 ∧ noBkpt t) ∧ (dbg s ≠ 4 → dbg t = dbg s ∧ t.groups = s.groups)) ∧
    (attached = false → exec (.debugHalt ctx) s = .next s ∧ exec (.debugHaltDrain ctx) s = .next s ∧ exec (.debugResume ctx) s = .next s) ∧
    (attached = true →
      (dbg s = 0 → exec (.debugResume ctx) s = .next s ∧ ∀ drain : Bool, ∃ t, exec (if drain then .debugHaltDrain ctx else .debugHalt ctx) s = .next t ∧
        t = { s with bar0 := t.bar0, contexts := t.contexts } ∧ dbg t = 1 ∧ (∀ o, o ≠ 0x34004 + 32 * c → t.reg o = s.reg o) ∧
        t.context c = { x with heldCmd := none, toDrain := drain } ∧ others t) ∧
      (dbg s = 1 ∨ dbg s = 3 → ∀ cmd : BitVec 2, cmd ≠ 0 → ∃ t, exec (if cmd = 1 then .debugHalt ctx else if cmd = 2 then .debugHaltDrain ctx else .debugResume ctx) s =
          .next t ∧ t = { s with contexts := t.contexts } ∧ t.context c = { x with heldCmd := some cmd } ∧ others t) ∧
      (dbg s = 2 → exec (.debugHalt ctx) s = .next s ∧
        (stat s = 1 → ∃ t, exec (.debugHaltDrain ctx) s = .next t ∧ dbg t = 3 ∧ stopped .drain t ∧ t.mem = s.mem) ∧
        -- an idle context has nothing to save
        (stat s = 0 → ∃ t, exec (.debugHaltDrain ctx) s = .next t ∧ t = { s with bar0 := t.bar0 } ∧ dbg t = 3 ∧
          ∀ o, o ≠ 0x34004 + 32 * c → t.reg o = s.reg o) ∧
        (stat s ≠ 0 → stat s ≠ 1 → ∃ t, exec (.debugHaltDrain ctx) s = .next t ∧ t = { s with bar0 := t.bar0, contexts := t.contexts } ∧ dbg t = 3 ∧
          stat t = stat s ∧ t.context c = { x with stop := some .drain } ∧ others t) ∧
        ∃ t, exec (.debugResume ctx) s = .next t ∧ t = { s with bar0 := t.bar0, groups := t.groups, contexts := t.contexts } ∧
          t.reg (0x34004 + 32 * c) = 0 ∧ (∀ o, o ≠ 0x34004 + 32 * c → t.reg o = s.reg o) ∧ noBkpt t ∧ others t ∧ (x.saved = none → t.context c = x)) ∧
      (dbg s = 4 → exec (.debugHalt ctx) s = .next s ∧ exec (.debugHaltDrain ctx) s = .next s ∧
        (stat s = 3 → ∃ t, exec (.debugResume ctx) s = .next t ∧ t = { s with contexts := t.contexts } ∧ t.context c = { x with stop := some .preempt } ∧
          others t) ∧
        (stat s ≠ 3 → ∃ t, exec (.debugResume ctx) s = .next t ∧ t = { s with bar0 := t.bar0, groups := t.groups } ∧ t.reg (0x34004 + 32 * c) = 0 ∧
          (∀ o, o ≠ 0x34004 + 32 * c → t.reg o = s.reg o) ∧ noBkpt t))) ∧
    (dbg s = 3 → stat s ≠ 3 → stat s ≠ 0 ∧ stat s ≠ 1 ∨ (∃ e ∈ s.enginesOf c, s.mayAck c e = false) → exec (.debugHaltDone ctx) s = .next s) ∧
    ((dbg s = 1 ∧ stat s ≠ 4 ∧ (∀ u, s.sel = some u → s.ofCtx u.grp c = false)) ∨
      (dbg s = 3 ∧ (stat s = 3 ∨ ((stat s = 0 ∨ stat s = 1) ∧ ∀ e ∈ s.enginesOf c, s.mayAck c e = true))) → ∃ u t, exec (.debugHaltDone ctx) s = .next t ∧
      u = { s with mem := u.mem, poison := u.poison, badWrite := u.badWrite, bar0 := u.bar0 } ∧ dbg u = (if dbg s = 1 then 2 else 4) ∧
      (∀ o, o ≠ 0x34004 + 32 * c → u.reg o = s.reg o) ∧
      (x.toDrain = false → x.heldCmd = none → t = u) ∧
      (∀ cmd, x.toDrain = false → x.heldCmd = some cmd → cmd ≠ 0 → exec (if cmd = 1 then .debugHalt ctx else if cmd = 2 then .debugHaltDrain ctx else .debugResume ctx)
        (u.setContext c { x with heldCmd := none }) = .next t) ∧
      (x.toDrain = true → dbg t = 3 ∧ (t.context c).toDrain = false ∧ (stat s ≠ 0 → (t.context c).stop = some .drain)) ∧
      ∀ k, cellPhys false (((s.reg (0x3400C + 32 * c)).extractLsb' 0 20).toNat * 2 ^ 32 + ((s.reg (0x34008 + 32 * c)).extractLsb' 6 26).toNat * 64) = some k →
        leNat (Memory.read u.mem k 8) = s.clk.toNat ∧ leNat (Memory.read u.mem (k + 8) 4) = (s.dbgGroups c).length % 2 ^ 32 ∧
        ∀ (j n : Nat) (g : Group), (s.dbgGroups c)[j]? = some (n, g) →
          let field := fun (o len : Nat) => leNat (Memory.read u.mem (k + 64 + 16 * j + o) len)
          field 0 2 = s.blockNum c g % 2 ^ 16 ∧ field 2 1 = n / 512 % 256 ∧ field 3 2 = n % 512 ∧ field 6 1 / 8 % 2 = g.bkpt.toNat ∧
          ∀ q, g.entries.find? (fun q => q.2.st ≠ .parent) = some q → field 8 8 = q.2.pc.toNat)

/-- O60. The update agent takes the pieces of a component in order into its inactive bank (R27, R403); the last piece has it verified, its
signature, and its security version against the fuse counter (R28). A transfer that another piece breaks off has failed, and is reported. A
bank that is being rewritten is no longer marked for the next reset (log 68). ActivateFirmware, which ends a transfer in progress as failed, marks,
as the owner of SEMFWU, every verified
bank for the next reset, and gives the semaphore back; while another agent owns it, it waits, and after 1 s reports it (R403). What the agent
reports is a list, the last first (log 57). -/
def Obligations.UpdateAgent : Prop :=
  ∀ (s : State) (comp : BitVec 2) (offset : Nat) (data : List Byte),
    let i : Instr := .requestFirmwareData comp offset data
    let get := fun (u : State) (k : BitVec 2) => if k = 0 then u.firmware else if k = 1 then u.microcode else u.translator
    let rest := fun (t : State) => t = { s with firmware := t.firmware, microcode := t.microcode, translator := t.translator, transfer := t.transfer, fwReport := t.fwReport }
    let inactive := fun (x : FwComp) => if x.active then x.bank0 else x.bank1
    let kept := fun (x y : FwComp) => y.active = x.active ∧ y.marked = none ∧ (if x.active then y.bank1 = x.bank1 else y.bank0 = x.bank0)
    -- the transfer in progress, where this piece goes on with it; else it is broken off
    let goesOn := s.transfer.elim false fun q => q.1 = comp && offset ≠ 0
    let broken := s.transfer.isSome && !goesOn
    let got := match s.transfer with
      | some (k, bs) => if k = comp ∧ offset ≠ 0 then bs else []
      | none => []
    let before := if broken then .transferFailed :: s.fwReport else s.fwReport
    let inOrder := got.length = offset ∧ offset + data.length ≤ Config.firmwareBankSize
    let owner := (s.reg 4).extractLsb' 0 2
    (comp = 3 ∨ 4096 < data.length → exec i s = .next s) ∧
    (comp ≠ 3 → data.length ≤ 4096 → ∃ t, exec i s = .next t ∧ rest t ∧ kept (get s comp) (get t comp) ∧
      (∀ k, k ≠ 3 → k ≠ comp → (∀ j bs, s.transfer = some (j, bs) → j ≠ k ∧ j ≠ 3) → get t k = get s k) ∧
      (∀ k bs, k ≠ 3 → k ≠ comp → s.transfer = some (k, bs) → (get t k).ready = false ∧ (inactive (get t k)).verified = false) ∧
      (¬inOrder → t.transfer = none ∧ t.fwReport = .transferFailed :: before ∧ (inactive (get t comp)).verified = false ∧ (get t comp).ready = false) ∧
      (inOrder → data.length = 4096 → t.transfer = some (comp, got ++ data) ∧ t.fwReport = .received :: before ∧ (get t comp).ready = false) ∧
      (inOrder → data.length < 4096 →
        let all := got ++ data
        let good := Config.firmwareSignatureValid all && decide ((s.reg 0x33E14).toNat ≤ Config.firmwareSecurityVersion all)
        let b := inactive (get t comp)
        t.transfer = none ∧ t.fwReport = (if good then .verified else .verifyFailed) :: before ∧ (get t comp).ready = good ∧ b.verified = good ∧
        b.bytes = all ∧ b.secver = Config.firmwareSecurityVersion all ∧ b.version = Config.firmwareVersion all ∧ b.digest = sha256Bits all)) ∧
    (∃ u t, TransferStopped s u ∧ exec .activateFirmware s = .next t ∧
      (owner = 1 ∨ owner = 2 → t = { u with activating := true }) ∧
      (owner = 0 ∨ owner = 3 → t = { u with firmware := t.firmware, microcode := t.microcode, translator := t.translator, bar0 := t.bar0, fwReport := .activationPending :: u.fwReport, activating := false } ∧ (t.reg 4).extractLsb' 0 8 = 0 ∧
        (∀ o, o ≠ 4 → t.reg o = s.reg o) ∧
        ∀ k, k ≠ 3 → get t k = if (get u k).ready then { get u k with marked := some (!(get u k).active), ready := false } else get u k)) ∧
    (s.activating = true → exec .activateSemfwuTimeout s = .next { s with activating := false, fwReport := .invalidState :: s.fwReport }) ∧
    (s.activating = false → exec .activateSemfwuTimeout s = .next s)
end

