-- ==== Sys2Proof/Laws/Maps.lean ====
section
/-! SUPPORT. Reading after writing in the sparse tables, and their canonical form, which every operation over memory keeps. -/

namespace Sys2Proof.Machine

/-! ## Words by number -/

theorem SMap.get_filter_ne {w : Nat} (m : SMap w) (k j : Nat) (h : j ≠ k) :
    SMap.get (m.filter fun p => p.1 != k) j = SMap.get m j := by
  induction m with
  | nil => rfl
  | cons p r ih =>
    obtain ⟨a, x⟩ := p
    by_cases ha : a = k
    · subst ha
      simp [SMap.get, ih, Ne.symm h]
    · simp [SMap.get, ha, ih]

theorem SMap.get_filter_same {w : Nat} (m : SMap w) (k : Nat) : SMap.get (m.filter fun p => p.1 != k) k = 0 := by
  induction m with
  | nil => rfl
  | cons p r ih =>
    obtain ⟨a, x⟩ := p
    by_cases ha : a = k
    · subst ha; simpa using ih
    · simp [SMap.get, ha, ih]

theorem SMap.get_put {w : Nat} (m : SMap w) (k j : Nat) (x : BitVec w) :
    SMap.get (SMap.put m k x) j = if j = k then x else SMap.get m j := by
  induction m with
  | nil =>
    simp only [SMap.put, SMap.get]
    by_cases h : k = j
    · simp [h]
    · simp [h, Ne.symm h]
  | cons p r ih =>
    obtain ⟨a, y⟩ := p
    simp only [SMap.put]
    split
    · simp only [SMap.get]
      by_cases h : k = j
      · simp [h]
      · simp [h, Ne.symm h]
    · split
      · rename_i _ h
        subst h
        simp only [SMap.get]
        by_cases h : k = j
        · simp [h]
        · simp [h, Ne.symm h]
      · simp only [SMap.get, ih]
        by_cases h : a = j
        · subst h; simp [Ne.symm ‹¬k = a›]
        · simp [h]

/-- Reading a table after a write. -/
theorem SMap.get_set {w : Nat} (m : SMap w) (k j : Nat) (x : BitVec w) :
    SMap.get (SMap.set m k x) j = if j = k then x else SMap.get m j := by
  unfold SMap.set
  split
  · rename_i h
    split
    · rename_i hj
      subst hj
      rw [SMap.get_filter_same, h]
    · rw [SMap.get_filter_ne _ _ _ ‹_›]
  · exact SMap.get_put m k j x

@[simp] theorem SMap.get_set_same {w : Nat} (m : SMap w) (k : Nat) (x : BitVec w) : SMap.get (SMap.set m k x) k = x := by
  simp [SMap.get_set]

theorem SMap.get_set_ne {w : Nat} (m : SMap w) (k j : Nat) (x : BitVec w) (h : j ≠ k) :
    SMap.get (SMap.set m k x) j = SMap.get m j := by
  simp [SMap.get_set, h]

/-! ## The canonical form -/

theorem SMap.rising_mono {w : Nat} (m : SMap w) (a b : Nat) (h : a ≤ b) (hm : SMap.rising b m) : SMap.rising a m := by
  cases m with
  | nil => rfl
  | cons p r =>
    obtain ⟨k, x⟩ := p
    simp only [SMap.rising, Bool.and_eq_true, decide_eq_true_eq] at hm ⊢
    exact ⟨⟨by omega, hm.1.2⟩, hm.2⟩

theorem SMap.rising_filter {w : Nat} (m : SMap w) (f : Nat × BitVec w → Bool) (a : Nat) (hm : SMap.rising a m) :
    SMap.rising a (m.filter f) := by
  induction m generalizing a with
  | nil => rfl
  | cons p r ih =>
    obtain ⟨k, x⟩ := p
    simp only [SMap.rising, Bool.and_eq_true, decide_eq_true_eq] at hm
    simp only [List.filter]
    split
    · simp only [SMap.rising, Bool.and_eq_true, decide_eq_true_eq]
      exact ⟨hm.1, ih (k + 1) hm.2⟩
    · exact ih a (SMap.rising_mono r a (k + 1) (by omega) hm.2)

theorem SMap.rising_put {w : Nat} (m : SMap w) (k : Nat) (x : BitVec w) (a : Nat) (ha : a ≤ k) (hx : x ≠ 0) (hm : SMap.rising a m) :
    SMap.rising a (SMap.put m k x) := by
  induction m generalizing a with
  | nil => simpa [SMap.put, SMap.rising, ha] using hx
  | cons p r ih =>
    obtain ⟨j, y⟩ := p
    simp only [SMap.rising, Bool.and_eq_true, decide_eq_true_eq] at hm
    simp only [SMap.put]
    split
    · simp only [SMap.rising, Bool.and_eq_true, decide_eq_true_eq, bne_iff_ne]
      exact ⟨⟨ha, hx⟩, ⟨by omega, by simpa using hm.1.2⟩, hm.2⟩
    · split
      · rename_i h
        subst h
        simp only [SMap.rising, Bool.and_eq_true, decide_eq_true_eq, bne_iff_ne]
        exact ⟨⟨ha, hx⟩, hm.2⟩
      · simp only [SMap.rising, Bool.and_eq_true, decide_eq_true_eq]
        exact ⟨hm.1, ih (j + 1) (by omega) hm.2⟩

/-- A write keeps the canonical form. -/
theorem SMap.wf_set {w : Nat} (m : SMap w) (k : Nat) (x : BitVec w) (hm : SMap.wf m) : SMap.wf (SMap.set m k x) := by
  unfold SMap.set
  split
  · exact SMap.rising_filter m _ 0 hm
  · exact SMap.rising_put m k x 0 (Nat.zero_le k) ‹_› hm

/-- Dropping entries keeps the canonical form. -/
theorem SMap.wf_filter {w : Nat} (m : SMap w) (f : Nat × BitVec w → Bool) (hm : SMap.wf m) : SMap.wf (m.filter f) :=
  SMap.rising_filter m f 0 hm

/-- Writing bytes keeps the canonical form. -/
theorem Memory.wf_write (m : Memory) (a : Nat) (bs : List Byte) (hm : Memory.wf m) : Memory.wf (Memory.write m a bs) := by
  induction bs generalizing m a with
  | nil => exact hm
  | cons b r ih => exact ih _ _ (SMap.wf_set m a b hm)

/-- Zeroing a run keeps the canonical form. -/
theorem Memory.wf_clear (m : Memory) (a n : Nat) (hm : Memory.wf m) : Memory.wf (Memory.clear m a n) := SMap.wf_filter m _ hm

theorem Memory.wf_write32 (m : Memory) (a : Nat) (x : Word) (hm : Memory.wf m) : Memory.wf (Memory.write32 m a x) :=
  Memory.wf_write m a _ hm

theorem Memory.wf_write64 (m : Memory) (a : Nat) (x : Dword) (hm : Memory.wf m) : Memory.wf (Memory.write64 m a x) :=
  Memory.wf_write m a _ hm

/-- Reading one byte after a write of bytes. -/
theorem Memory.get_write (m : Memory) (a : Nat) (bs : List Byte) (j : Nat) :
    SMap.get (Memory.write m a bs) j = if a ≤ j ∧ j < a + bs.length then bs.getD (j - a) 0 else SMap.get m j := by
  induction bs generalizing m a with
  | nil => simp [Memory.write, show ¬(a ≤ j ∧ j < a) by omega]
  | cons b r ih =>
    rw [Memory.write, ih, SMap.get_set]
    by_cases h1 : j = a
    · subst h1
      simp [show ¬(j + 1 ≤ j ∧ j < j + 1 + r.length) by omega]
    · by_cases h2 : a + 1 ≤ j ∧ j < a + 1 + r.length
      · have h3 : a ≤ j ∧ j < a + (b :: r).length := by simp; omega
        rw [if_pos h2, if_pos h3, show j - a = (j - (a + 1)) + 1 by omega]
        rfl
      · have h3 : ¬(a ≤ j ∧ j < a + (b :: r).length) := by simp; omega
        rw [if_neg h2, if_neg h3, if_neg h1]

/-! ## Entries by number -/

/-- Reading a table of entries after a write. -/
theorem AMap.get?_set {α : Type} (m : AMap α) (k j : Nat) (x : α) :
    AMap.get? (AMap.set m k x) j = if j = k then some x else AMap.get? m j := by
  induction m with
  | nil =>
    simp only [AMap.set, AMap.get?]
    by_cases h : k = j
    · simp [h]
    · simp [h, Ne.symm h]
  | cons p r ih =>
    obtain ⟨a, y⟩ := p
    simp only [AMap.set]
    split
    · simp only [AMap.get?]
      by_cases h : k = j
      · simp [h]
      · simp [h, Ne.symm h]
    · split
      · rename_i _ h
        subst h
        simp only [AMap.get?]
        by_cases h : k = j
        · simp [h]
        · simp [h, Ne.symm h]
      · simp only [AMap.get?, ih]
        by_cases h : a = j
        · subst h; simp [Ne.symm ‹¬k = a›]
        · simp [h]

@[simp] theorem AMap.get?_set_same {α : Type} (m : AMap α) (k : Nat) (x : α) : AMap.get? (AMap.set m k x) k = some x := by
  simp [AMap.get?_set]

theorem AMap.get?_set_ne {α : Type} (m : AMap α) (k j : Nat) (x : α) (h : j ≠ k) :
    AMap.get? (AMap.set m k x) j = AMap.get? m j := by
  simp [AMap.get?_set, h]

/-- Reading after an entry has been changed by a function. -/
theorem AMap.get?_upd {α : Type} (m : AMap α) (k j : Nat) (f : α → α) :
    AMap.get? (AMap.upd m k f) j = if j = k then (AMap.get? m k).map f else AMap.get? m j := by
  unfold AMap.upd
  split
  · rename_i x hx
    rw [AMap.get?_set, hx]
    rfl
  · rename_i hx
    by_cases h : j = k
    · subst h; simp [hx]
    · simp [h]

theorem AMap.get?_mapV {α : Type} (m : AMap α) (f : Nat → α → α) (j : Nat) :
    AMap.get? (AMap.mapV m f) j = (AMap.get? m j).map (f j) := by
  induction m with
  | nil => rfl
  | cons p r ih =>
    obtain ⟨a, y⟩ := p
    simp only [AMap.mapV, List.map, AMap.get?] at ih ⊢
    split
    · rename_i h; subst h; rfl
    · exact ih

theorem AMap.get?_del {α : Type} (m : AMap α) (k j : Nat) :
    AMap.get? (AMap.del m k) j = if j = k then none else AMap.get? m j := by
  induction m with
  | nil => simp [AMap.del, AMap.get?]
  | cons p r ih =>
    obtain ⟨a, y⟩ := p
    simp only [AMap.del] at ih
    simp only [AMap.del, List.filter]
    by_cases h : a = k
    · subst h
      simp only [bne_self_eq_false, ih, AMap.get?]
      by_cases hj : j = a
      · simp [hj]
      · simp [hj, Ne.symm hj]
    · simp only [bne_iff_ne.mpr h, AMap.get?, ih]
      by_cases hj : a = j
      · subst hj; simp [h]
      · simp [hj]

/-! ## Memory operations of the state keep the canonical form -/

theorem State.writeCells_wf (s : State) (a : Nat) (bs : List Byte) (h : Memory.wf s.mem) : Memory.wf (s.writeCells a bs).mem :=
  Memory.wf_write s.mem a bs h

theorem State.scrWrite_wf (s : State) (a : Nat) (bs : List Byte) (h : Memory.wf s.mem) : Memory.wf (s.scrWrite a bs).mem :=
  s.writeCells_wf _ bs h

theorem State.physWrite_wf (s : State) (hp : Bool) (a : Nat) (bs : List Byte) (h : Memory.wf s.mem) :
    Memory.wf (s.physWrite hp a bs).mem := by
  unfold State.physWrite
  split
  · exact s.writeCells_wf _ bs h
  · exact h

theorem State.writeBytes_wf (s : State) (l : List (Nat × Byte)) (h : Memory.wf s.mem) : Memory.wf (s.writeBytes l).mem := by
  unfold State.writeBytes
  generalize mergeRuns l = rs
  induction rs generalizing s with
  | nil => exact h
  | cons q r ih => exact ih _ (s.writeCells_wf q.1 q.2 h)

theorem State.vaWrite_wf (s : State) (ctx : Nat) (va : Dword) (bs : List Byte) (h : Memory.wf s.mem) :
    Memory.wf (s.vaWrite ctx va bs).mem :=
  s.writeBytes_wf _ h

end Sys2Proof.Machine
end

