-- ==== Sys2Proof/Laws/Issue.lean ====
section
/-! SUPPORT. What the issue of an instruction does, once for every instruction: the selected unit, the counters and the slot, and the group
of the unit after it. -/

namespace Sys2Proof.Machine

/-- The selected unit's group and entry are those of the state. -/
theorem cur_group {s : State} {c : Cur} (h : s.cur = some c) : s.group c.u.grp = some c.g ∧ c.g.entry c.u.entry = some c.e := by
  simp only [State.cur, Option.bind_eq_some_iff, Option.map_eq_some_iff] at h
  obtain ⟨u, -, g, hg, e, he, rfl⟩ := h
  exact ⟨hg, he⟩

theorem issue_of_cur {s : State} {c : Cur} (h : s.cur = some c) (f : Cur → State) : s.issue f = .next (f c) := by
  simp [State.issue, h]

/-- An instruction that may be executed is carried out. -/
theorem issueI_of_stands {s : State} {c : Cur} {i : Instr} (h : Stands s c i) (p : Pred) (f : Cur → State) :
    s.issueI i p f = .next (f c) := by
  simp [State.issueI, issue_of_cur h.cur, h.enc]

/-! ## Groups -/

theorem group_setGroup (s : State) (k j : Nat) (g : Group) : (s.setGroup k g).group j = if j = k then some g else s.group j :=
  AMap.get?_set s.groups k j g

theorem group_updGroup (s : State) (k j : Nat) (f : Group → Group) :
    (s.updGroup k f).group j = if j = k then (s.group k).map f else s.group j :=
  AMap.get?_upd s.groups k j f

@[simp] theorem group_setGroup_same (s : State) (k : Nat) (g : Group) : (s.setGroup k g).group k = some g := by
  simp [group_setGroup]

/-- The group of a unit after its issue. -/
def Cur.issuedGroup (c : Cur) (clk : Nat) (g : Group) : Group :=
  { g with
    pmc := SMap.set g.pmc 1 (SMap.get g.pmc 1 + 1), lastIssue := clk, promoted := false, lastEntry := c.u.entry
    first := some (g.first.getD clk), lost := if g.first.isNone then 0 else g.lost, lostAt := if g.first.isNone then 0 else g.lost }

/-- An acquire changes what is known of past writes, and nothing else. -/
theorem acquireAt_rest (s : State) (k : Nat) (m : Word) (sc : Scope) : s.acquireAt k m sc = { s with known := (s.acquireAt k m sc).known } := by
  simp only [State.acquireAt]
  split <;> rfl

/-- What is known after an issue depends on no other field. -/
theorem knows_eq {s t : State} (c : Cur) (hk : t.known = s.known) (hp : t.past = s.past) : c.knows t = c.knows s := by
  simp only [Cur.knows, State.acquireAt, State.acquired, hp]
  split <;> (try split) <;> (try split) <;> simp only [hk]

theorem group_count (s : State) (k n j : Nat) : (s.count k n).group j = if j = k then (s.group k).map (·.count n 1) else s.group j :=
  group_updGroup s k j _

theorem group_issued (s : State) (c : Cur) (k : Nat) :
    (s.issued c).group k = if k = c.u.grp then (s.group c.u.grp).map (c.issuedGroup s.clk.toNat) else s.group k := by
  have h : (s.issued c).group k = ((s.count c.u.grp 1).updGroup c.u.grp fun g =>
    g.startCounting s.clk.toNat |>.noteIssue s.clk.toNat c.u.entry).group k := rfl
  rw [h, group_updGroup, group_count, group_count]
  by_cases hk : k = c.u.grp
  · simp only [hk, if_true, Option.map_map]
    rfl
  · simp only [hk, if_false]

theorem issued_rest (s : State) (c : Cur) : s.issued c = { s with
    groups := (s.issued c).groups, sel := none, declined := [], lastGroup := AMap.set s.lastGroup (c.u.grp / 64) c.u.grp, known := c.knows s
    portHeld := AMap.del s.portHeld (c.u.grp / 64)
    corePmc := SMap.set s.corePmc (32 * coreOf c.u.grp + 1) (SMap.get s.corePmc (32 * coreOf c.u.grp + 1) + 1) } := by
  unfold State.issued State.count State.countN State.updGroup
  rfl

/-- The counters and the slot of an issue, and the group of its unit, whose entry f changes. -/
theorem issued_upd {s : State} {c : Cur} {g : Group} {e : Entry} (hg : s.group c.u.grp = some g) (he : g.entry c.u.entry = some e)
    (f : Entry → Entry) :
    Issued s ((s.issued c).updGroup c.u.grp fun g => g.updEntry c.u.entry f) c g (f e) := by
  constructor
  · unfold State.issued State.count State.countN State.updGroup
    rfl
  · intro k hk
    rw [group_updGroup, if_neg hk, group_issued, if_neg hk]
  · refine ⟨AMap.upd g.entries c.u.entry f, ?_, ?_, ?_⟩
    · rw [group_updGroup, if_pos rfl, group_issued, if_pos rfl, hg]
      rfl
    · have h2 : AMap.get? g.entries c.u.entry = some e := he
      rw [AMap.get?_upd, if_pos rfl, h2]
      rfl
    · intro j hj
      rw [AMap.get?_upd, if_neg hj]
      rfl

theorem issued_retire {s : State} {c : Cur} {g : Group} (hg : s.group c.u.grp = some g) (he : g.entry c.u.entry = some c.e) :
    Issued s (s.retire c) c g c.goneOn :=
  issued_upd hg he fun e => { e with pc := c.u.npc, wait := 0, resumed := false }

/-- An instruction that leaves its group as g. -/
theorem issued_finish {s : State} {c : Cur} {g : Group} (he : g.entry c.u.entry = some c.e) : Issued s (s.finish c g) c g c.goneOn := by
  have h := issued_retire (s := s.setGroup c.u.grp g) (c := c) (group_setGroup_same s c.u.grp g) he
  refine ⟨?_, fun k hk => ?_, h.own⟩
  · have hr := h.rest
    rw [knows_eq (s := s) (t := s.setGroup c.u.grp g) c rfl rfl] at hr
    exact hr
  rw [State.finish, h.others k hk, group_setGroup]
  simp [hk]

/-- An instruction whose unit has no effect goes on. -/
theorem issued_cur {s : State} {c : Cur} (h : s.cur = some c) : Issued s (s.retire c) c c.g c.goneOn :=
  issued_retire (cur_group h).1 (cur_group h).2

/-! ## Threads of a mask -/

theorem mem_threads (m : Word) (t : Nat) : t ∈ threads m ↔ t < 32 ∧ m.getLsbD t = true := by
  simp [threads]

theorem threads_nodup (m : Word) : (threads m).Nodup := List.Pairwise.filter _ List.nodup_range

theorem threads_zero : threads 0 = [] := by decide

/-! ## Lane registers -/

theorem vget_vset (g : Group) (t n x : Nat) (w : Word) (j : Nat) (hx : x < 256) (hn : n < 256) :
    (g.vset t n w).vget j x = if j = t ∧ x = n then w else g.vget j x := by
  simp only [Group.vget, Group.vset, SMap.get_set]
  by_cases h : 256 * j + x = 256 * t + n
  · rw [if_pos h, if_pos ⟨by omega, by omega⟩]
  · rw [if_neg h, if_neg (by rintro ⟨rfl, rfl⟩; exact h rfl)]

/-- Registers of a thread after a lane write of a width. -/
theorem vget_vwrite (g : Group) (w : Bool) (t n : Nat) (x : Dword) (j m : Nat) (hm : m < 256) (hn : n + (if w then 1 else 0) < 256) :
    (g.vwrite w t n x).vget j m =
      if j = t ∧ m = n then x.extractLsb' 0 32 else if j = t ∧ w = true ∧ m = n + 1 then x.extractLsb' 32 32 else g.vget j m := by
  cases w with
  | false =>
    simp only [Bool.false_eq_true, if_false] at hn
    simp only [Group.vwrite, Bool.false_eq_true, if_false, false_and, and_false]
    rw [vget_vset _ _ _ _ _ _ hm (by omega)]
    have : x.setWidth 32 = x.extractLsb' 0 32 := by
      apply BitVec.eq_of_getLsbD_eq; intro i hi; simp [hi]
    rw [this]
  | true =>
    simp only [if_true] at hn
    simp only [Group.vwrite, if_true, Group.v64set, true_and]
    rw [vget_vset _ _ _ _ _ _ hm (by omega), vget_vset _ _ _ _ _ _ hm (by omega)]
    by_cases h1 : j = t ∧ m = n
    · rw [if_pos h1, if_neg (by omega), if_pos h1]
    · rw [if_neg h1, if_neg h1]

theorem vwrite_rest (g : Group) (w : Bool) (t n : Nat) (x : Dword) : g.vwrite w t n x = { g with v := (g.vwrite w t n x).v } := by
  cases w <;> rfl

/-- A fold of lane writes over threads without repeats. -/
theorem lanes_fold (l : List Nat) (hl : l.Nodup) (w : Bool) (d : Nat) (f : Nat → Dword) (hd : d + (if w then 1 else 0) < 256) (g : Group) :
    let g' := l.foldl (fun g t => g.vwrite w t d (f t)) g
    g' = { g with v := g'.v } ∧ ∀ t n, n < 256 → g'.vget t n =
      if t ∈ l ∧ n = d then (f t).extractLsb' 0 32 else if t ∈ l ∧ w = true ∧ n = d + 1 then (f t).extractLsb' 32 32 else g.vget t n := by
  induction l generalizing g with
  | nil => exact ⟨rfl, fun t n _ => by simp⟩
  | cons a r ih =>
    obtain ⟨ha, hr⟩ := List.nodup_cons.mp hl
    obtain ⟨h1, h2⟩ := ih hr (g.vwrite w a d (f a))
    refine ⟨?_, fun t n hn => ?_⟩
    · simp only [List.foldl_cons]
      generalize List.foldl (fun g t => g.vwrite w t d (f t)) (g.vwrite w a d (f a)) r = g' at h1
      rw [h1, vwrite_rest g w a d (f a)]
    · simp only [List.foldl_cons]
      rw [h2 t n hn, vget_vwrite _ _ _ _ _ _ _ hn hd]
      by_cases hta : t = a
      · subst hta
        simp [ha]
      · simp [hta]

/-- Writing each active thread's value. -/
theorem mapThreads_written (c : Cur) (p : Pred) (w : Bool) (d : Nat) (f : Nat → Dword) (hd : d + (if w then 1 else 0) < 256) :
    LaneWritten c.g (c.mapThreads p fun t g => g.vwrite w t d (f t)) (c.act p) w d f := by
  obtain ⟨h1, h2⟩ := lanes_fold (threads (c.act p)) (threads_nodup _) w d f hd c.g
  refine ⟨h1, fun t ht ha => ?_, fun hw t ht ha => ?_, fun t n ht hn hno => ?_⟩
  · have hd' : d < 256 := by omega
    rw [Cur.mapThreads, h2 t d hd']
    simp [mem_threads, ht, ha]
  · have hd' : d + 1 < 256 := by simpa [hw] using hd
    rw [Cur.mapThreads, h2 t (d + 1) hd']
    simp [mem_threads, ht, ha, hw]
  · rw [Cur.mapThreads, h2 t n hn]
    simp only [mem_threads]
    rw [if_neg, if_neg]
    · rintro ⟨⟨_, h⟩, h'⟩; exact hno ⟨h, .inr h'⟩
    · rintro ⟨⟨_, h⟩, h'⟩; exact hno ⟨h, .inl h'⟩

/-- A destination that the encoding admits lies within the 256 registers, a pair with both its halves. -/
theorem okV_lt {w : Bool} {d : Reg} (h : okV w d = true) : d.toNat + (if w then 1 else 0) < 256 := by
  have := d.isLt
  cases w with
  | false => simpa using this
  | true => simp [okV] at h; simp; omega

theorem entry_mapThreads (c : Cur) (p : Pred) (w : Bool) (d : Nat) (f : Nat → Dword) (hd : d + (if w then 1 else 0) < 256) :
    (c.mapThreads p fun t g => g.vwrite w t d (f t)).entry = c.g.entry := by
  rw [(mapThreads_written c p w d f hd).rest]
  rfl

/-- A lane instruction whose result is computed for each active thread completes with it. -/
theorem completesLane_of {s : State} {c : Cur} {i : Instr} {p : Pred} {w : Bool} {d : Reg} (f : Nat → Dword) (ok : Nat → Dword → Prop)
    (hc : s.cur = some c) (he : exec i s = .next (s.finish c (c.mapThreads p fun t g => g.vwrite w t d.toNat (f t))))
    (hd : okV w d = true) (hok : ∀ th, th < 32 → (c.act p).getLsbD th = true → ok th (f th)) : CompletesLane s c i p w d ok := by
  have hd' := okV_lt hd
  refine ⟨_, _, he, issued_finish ?_, f, mapThreads_written c p w d.toNat f hd', hok⟩
  rw [entry_mapThreads c p w d.toNat f hd']
  exact (cur_group hc).2

/-- An instruction with one effect for the unit. -/
theorem any_of_act {c : Cur} {p : Pred} (h : c.act p ≠ 0) : c.any p = true := by
  simpa [Cur.any] using h

theorem completesOnce_of {s : State} {c : Cur} {i : Instr} {p : Pred} (g : Group) (ok : Group → Prop) (hc : s.cur = some c)
    (he : exec i s = .next (s.finish c (if c.any p then g else c.g))) (hg : g.entry = c.g.entry) (hok : ok g) :
    CompletesOnce s c i p ok := by
  have h2 := (cur_group hc).2
  by_cases h : c.act p = 0
  · have ha : c.any p = false := by simp [Cur.any, h]
    rw [ha, if_neg (by decide)] at he
    exact ⟨_, _, he, issued_finish h2, by simp [h]⟩
  · have ha : c.any p = true := any_of_act h
    rw [ha, if_pos rfl] at he
    exact ⟨_, _, he, issued_finish (by rw [hg]; exact h2), (if_neg h).mpr hok⟩

/-- A unit with no effect, or none active, goes on. -/
theorem completes_retire {s : State} {c : Cur} {i : Instr} (g : Group → Prop) (hc : s.cur = some c) (he : exec i s = .next (s.retire c))
    (hg : g c.g) : Completes s c i g := ⟨_, _, he, issued_cur hc, hg⟩

/-! ## Uniform and mask registers -/

theorem uniWritten_kset (g : Group) (d : Nat) (x : Dword) : UniWritten g (g.kset d x) d x :=
  ⟨rfl, fun n => by simp [Group.kget, Group.kset, SMap.get_set]⟩

theorem maskWritten_mset (g : Group) (d : Nat) (x : Word) (hd : d ≠ 0) : MaskWritten g (g.mset d x) d x := by
  refine ⟨by simp [Group.mset, hd], fun n => ?_⟩
  by_cases h : n = 0
  · subst h; simp [Group.mget, Ne.symm hd]
  · simp [Group.mget, Group.mset, SMap.get_set, h, hd]

theorem entry_kset (g : Group) (d : Nat) (x : Dword) : (g.kset d x).entry = g.entry := rfl

theorem entry_mset (g : Group) (d : Nat) (x : Word) : (g.mset d x).entry = g.entry := by
  unfold Group.mset; split <;> rfl

theorem okM_ne {d : Reg} (h : okM true d = true) : d.toNat ≠ 0 := by
  simp [okM] at h
  omega

end Sys2Proof.Machine
end

