-- ==== Sys2Proof/Laws/Float.lean ====
section
/-! SUPPORT. Lane results that may escalate: what landing or parking one thread's result does, and all threads' together. -/

namespace Sys2Proof.Machine

/-- What landing or parking the results of some threads of the selected unit has done. -/
structure Landing (s t : State) (c : Cur) (h : LaneOp) (d : Reg) (l : List Nat) (r : Nat → LaneRes) (g : Group) : Prop where
  rest : t = { s with groups := t.groups, parked := t.parked, nextId := t.nextId, free := t.free, corePmc := t.corePmc }
  ids : s.nextId ≤ t.nextId
  others : ∀ k, k ≠ c.u.grp → t.group k = s.group k
  kept : ∀ id, id < s.nextId → AMap.get? t.parked id = AMap.get? s.parked id
  own : ∃ g', t.group c.u.grp = some g' ∧ g' = { g with v := g'.v, pmc := g'.pmc } ∧
    (∀ th, th ∈ l →
      (Landed g' h.ty.wide th d.toNat (r th).bits ∧ (r th).tiny = false ∧ (r th).fast ≠ some true) ∨
        (Escalated s t c h.ty.wide th d (r th).bits ∧ ((r th).tiny = true ∨ (r th).fast ≠ some false) ∧
          g'.vget th d.toNat = g.vget th d.toNat ∧ (h.ty.wide = true → g'.vget th (d.toNat + 1) = g.vget th (d.toNat + 1)))) ∧
    ∀ th n, n < 256 → ¬(th ∈ l ∧ (n = d.toNat ∨ (h.ty.wide = true ∧ n = d.toNat + 1))) → g'.vget th n = g.vget th n

/-- One thread's result. -/
theorem landLane_one (s : State) (c : Cur) (h : LaneOp) (d : Reg) (th : Nat) (r : Nat → LaneRes) (g : Group)
    (hg : s.group c.u.grp = some g) (hd : d.toNat + (if h.ty.wide then 1 else 0) < 256) :
    Landing s (s.landLane c h d th (r th)) c h d [th] r g := by
  have hd1 : d.toNat < 256 := by omega
  generalize hesc : (r th).fast.getD (Config.freeEscalates s.free) = esc
  generalize hs1 : (if (r th).fast.isNone then { s with free := s.free + 1 } else s : State) = s1
  have e1 : s1 = { s with free := s1.free } := by rw [← hs1]; split <;> rfl
  have hg1 : s1.group c.u.grp = some g := by rw [e1]; exact hg
  have hfast : esc = true → (r th).fast ≠ some false := by
    intro h1 h2; rw [h2] at hesc; simp at hesc; simp [h1] at hesc
  have hslow : esc = false → (r th).fast ≠ some true := by
    intro h1 h2; rw [h2] at hesc; simp at hesc; simp [h1] at hesc
  by_cases hland : (!esc && !(r th).tiny) = true
  · have he : s.landLane c h d th (r th) = s1.updGroup c.u.grp fun g => g.vwrite h.ty.wide th d.toNat (r th).bits := by
      unfold State.landLane
      rw [hesc, hs1]
      simp only [hland, if_true]
    rw [he, e1]
    simp only [Bool.and_eq_true, Bool.not_eq_true'] at hland
    refine ⟨rfl, Nat.le_refl _, fun k hk => ?_, fun _ _ => rfl, g.vwrite h.ty.wide th d.toNat (r th).bits, ?_, ?_, ?_, ?_⟩
    · rw [group_updGroup, if_neg hk]; rfl
    · rw [group_updGroup, if_pos rfl]
      show (s.group c.u.grp).map _ = _
      rw [hg]; rfl
    · rw [vwrite_rest]
    · intro t ht
      rw [List.mem_singleton] at ht
      subst ht
      refine .inl ⟨⟨?_, fun hw => ?_⟩, hland.2, hslow hland.1⟩
      · rw [vget_vwrite _ _ _ _ _ _ _ hd1 hd]; simp
      · have hd2 : d.toNat + 1 < 256 := by simpa [hw] using hd
        rw [vget_vwrite _ _ _ _ _ _ _ hd2 hd]; simp [hw]
    · intro t n hn hno
      rw [vget_vwrite _ _ _ _ _ _ _ hn hd, if_neg, if_neg]
      · rintro ⟨rfl, h1⟩; exact hno ⟨List.mem_singleton_self _, .inr h1⟩
      · rintro ⟨rfl, h1⟩; exact hno ⟨List.mem_singleton_self _, .inl h1⟩
  · generalize hs2 : (if esc && 1 < (r th).fastv.length then { s1 with free := s1.free + 1 } else s1 : State) = s2
    have e2 : s2 = { s with free := s2.free } := by rw [← hs2, e1]; split <;> rfl
    have he : ∃ x : Parked, s.landLane c h d th (r th) = (s2.park x).count c.u.grp 4 ∧ x.dest = .reg c.u.grp th d h.ty.wide ∧
        x.value = (r th).bits ∧ x.grp = c.u.grp ∧ x.block = c.g.block ∧ x.core = coreOf c.u.grp ∧ x.buffered = true := by
      exact ⟨_, by
        unfold State.landLane
        rw [hesc, hs1, if_neg hland]
        simp only []
        rw [hs2], rfl, rfl, rfl, rfl, rfl, rfl⟩
    obtain ⟨x, he, hx⟩ := he
    have hpark : AMap.get? (s2.park x).parked s.nextId = some { x with ctx := ((s2.group x.grp).map (·.ctx)).getD 0 } := by
      rw [e2]; exact AMap.get?_set_same _ _ _
    rw [he]
    have hcond : (r th).tiny = true ∨ (r th).fast ≠ some false := by
      cases ht : (r th).tiny with
      | true => exact .inl rfl
      | false =>
        right
        apply hfast
        cases he : esc with
        | true => rfl
        | false => simp [ht, he] at hland
    refine ⟨?_, ?_, fun k hk => ?_, fun id hid => ?_, g.count 4 1, ?_, rfl, ?_, fun _ _ _ _ => rfl⟩
    · rw [e2]; rfl
    · rw [e2]; exact Nat.le_succ _
    · rw [group_count, if_neg hk, e2]; rfl
    · rw [e2]
      show AMap.get? (AMap.set s.parked s.nextId _) id = _
      rw [AMap.get?_set_ne _ _ _ _ (by omega)]
    · rw [group_count, if_pos rfl]
      have : (s2.park x).group c.u.grp = s.group c.u.grp := by rw [e2]; rfl
      rw [this, hg]; rfl
    · intro t ht
      rw [List.mem_singleton] at ht
      subst ht
      refine .inr ⟨⟨s.nextId, _, Nat.le_refl _, ?_, hpark, hx.1, hx.2.1, hx.2.2.1, hx.2.2.2.1, hx.2.2.2.2.1, hx.2.2.2.2.2⟩, hcond, rfl, fun _ => rfl⟩
      rw [e2]; exact Nat.lt_succ_self _

/-- One thread's result and then those of other threads. -/
theorem Landing.then {s t u : State} {c : Cur} {h : LaneOp} {d : Reg} {a : Nat} {l : List Nat} {r : Nat → LaneRes} {g g1 : Group}
    (hd : d.toNat + (if h.ty.wide then 1 else 0) < 256) (h1 : Landing s t c h d [a] r g) (hg1 : t.group c.u.grp = some g1)
    (h2 : Landing t u c h d l r g1) (ha : a ∉ l) : Landing s u c h d (a :: l) r g := by
  obtain ⟨g1', e1, f1, p1, o1⟩ := h1.own
  rw [hg1] at e1
  obtain rfl := Option.some.inj e1
  obtain ⟨g2, e2, f2, p2, o2⟩ := h2.own
  have hd1 : d.toNat < 256 := by omega
  have hd2 : h.ty.wide = true → d.toNat + 1 < 256 := fun hw => by simpa [hw] using hd
  refine ⟨?_, Nat.le_trans h1.ids h2.ids, fun k hk => ?_, fun id hid => ?_, g2, e2, ?_, fun th hth => ?_, fun th n hn hno => ?_⟩
  · rw [h2.rest, h1.rest]
  · rw [h2.others k hk, h1.others k hk]
  · rw [h2.kept id (Nat.lt_of_lt_of_le hid h1.ids), h1.kept id hid]
  · rw [f2, f1]
  · rcases List.mem_cons.mp hth with rfl | hm
    · have k1 := o2 th d.toNat hd1 (fun x => ha x.1)
      have k2 := fun hw => o2 th (d.toNat + 1) (hd2 hw) (fun x => ha x.1)
      rcases p1 th (List.mem_singleton_self _) with ⟨⟨l1, l2⟩, x⟩ | ⟨⟨id, q, i1, i2, i3, i4⟩, x, v1, v2⟩
      · exact .inl ⟨⟨k1.trans l1, fun hw => (k2 hw).trans (l2 hw)⟩, x⟩
      · exact .inr ⟨⟨id, q, i1, Nat.lt_of_lt_of_le i2 h2.ids, (h2.kept id i2).trans i3, i4⟩, x, k1.trans v1,
          fun hw => (k2 hw).trans (v2 hw)⟩
    · have hne : th ≠ a := fun e => ha (e ▸ hm)
      have k1 := o1 th d.toNat hd1 (fun x => hne (List.mem_singleton.mp x.1))
      have k2 := fun hw => o1 th (d.toNat + 1) (hd2 hw) (fun x => hne (List.mem_singleton.mp x.1))
      rcases p2 th hm with x | ⟨⟨id, q, i1, i2, i3⟩, x, v1, v2⟩
      · exact .inl x
      · exact .inr ⟨⟨id, q, Nat.le_trans h1.ids i1, i2, i3⟩, x, v1.trans k1, fun hw => (v2 hw).trans (k2 hw)⟩
  · rw [o2 th n hn (fun x => hno ⟨List.mem_cons_of_mem _ x.1, x.2⟩), o1 th n hn]
    exact fun x => hno ⟨List.mem_cons.mpr (.inl (List.mem_singleton.mp x.1)), x.2⟩

/-- All active threads' results. -/
theorem landLanes (c : Cur) (h : LaneOp) (d : Reg) (r : Nat → LaneRes) (hd : d.toNat + (if h.ty.wide then 1 else 0) < 256) (l : List Nat)
    (hl : l.Nodup) (s : State) (g : Group) (hg : s.group c.u.grp = some g) :
    Landing s (l.foldl (fun s t => s.landLane c h d t (r t)) s) c h d l r g := by
  induction l generalizing s g with
  | nil => exact ⟨rfl, Nat.le_refl _, fun _ _ => rfl, fun _ _ => rfl, g, hg, rfl, fun _ h => absurd h (by simp), fun _ _ _ _ => rfl⟩
  | cons a l ih =>
    obtain ⟨ha, hl⟩ := List.nodup_cons.mp hl
    have h1 := landLane_one s c h d a r g hg hd
    obtain ⟨g1, e1, -⟩ := h1.own
    exact h1.then hd e1 (ih hl _ g1 e1) ha

theorem retire_rest (s : State) (c : Cur) : s.retire c = { s with
    groups := (s.retire c).groups, sel := none, declined := [], lastGroup := AMap.set s.lastGroup (c.u.grp / 64) c.u.grp
    known := c.knows s, portHeld := AMap.del s.portHeld (c.u.grp / 64), corePmc := (s.retire c).corePmc } := by
  unfold State.retire State.issued State.count State.countN State.updGroup
  rfl

/-- An instruction whose results may escalate completes with its results. -/
theorem completesFloat_of {s : State} {c : Cur} {i : Instr} {p : Pred} {h : LaneOp} {may : Bool} {d : Reg} (f : Cur → Nat → LaneRes)
    (ok : Nat → LaneRes → Prop) (hs : Stands s c i) (he : exec i s = execLaneF i p h may d f s) (hd : okV h.ty.wide d = true)
    (hok : ∀ th, th < 32 → (c.act p).getLsbD th = true → ok th (f c th)) : CompletesFloat s c i p h.ty.wide d may ok := by
  intro hb
  have hcur := cur_group hs.cur
  have hx : exec i s = .next (((threads (c.act p)).foldl (fun s t => s.landLane c h d t (f c t)) s).retire c) := by
    rw [he, execLaneF, issueI_of_stands hs, if_neg]
    cases may <;> simp_all [State.holdStands]
  have hl := landLanes c h d (f c) (okV_lt hd) (threads (c.act p)) (threads_nodup _) s c.g hcur.1
  generalize List.foldl (fun s t => s.landLane c h d t (f c t)) s (threads (c.act p)) = t at hx hl
  obtain ⟨g', e1, e2, e3, e4⟩ := hl.own
  have hent : g'.entry c.u.entry = some c.e := by rw [e2]; exact hcur.2
  have hi := issued_retire e1 hent
  have hr := retire_rest t c
  generalize t.retire c = u at hx hi hr
  have hp : u.parked = t.parked := by rw [hr]
  have hn : u.nextId = t.nextId := by rw [hr]
  have hk : t.clk = s.clk := by rw [hl.rest]
  refine ⟨_, f c, hx, ?_, hok⟩
  obtain ⟨es, o1, o2, o3⟩ := hi.own
  refine ⟨?_, fun k hk => (hi.others k hk).trans (hl.others k hk), fun id hid => (congrArg (AMap.get? · id) hp).trans (hl.kept id hid), _, o1, ?_, o2, fun j hj => ?_, fun th hth ha => ?_, fun th n ht hn' hno => ?_⟩
  · have hkn : c.knows t = c.knows s := knows_eq c (by rw [hl.rest]) (by rw [hl.rest])
    rw [hr, hkn, hl.rest]
  · rw [e2, hk]
  · rw [show g'.entry = c.g.entry by rw [e2]; rfl] at o3
    exact o3 j hj
  · rcases e3 th ((mem_threads _ _).mpr ⟨hth, ha⟩) with x | ⟨⟨id, q, i1, i2, i3, i4⟩, x⟩
    · exact .inl x
    · refine .inr ⟨⟨id, q, i1, ?_, ?_, i4⟩, x⟩
      · rw [hn]; exact i2
      · rw [hp]; exact i3
  · exact e4 th n hn' (fun x => hno ⟨((mem_threads _ _).mp x.1).2, x.2⟩)

end Sys2Proof.Machine
end

