-- ==== Sys2Proof/Laws/Integer.lean ====
section
/-! SUPPORT. Integer results: what the result of an exact value holds, and what the two's-complement reading of a word is. -/

namespace Sys2Proof.Machine

theorem bits32_cases (ty : Ty) : Ty.bits32 ty = 32 ∧ ty.wide = false ∨ Ty.bits32 ty = 64 ∧ ty.wide = true := by
  cases ty <;> simp [Ty.bits32, Ty.wide]

theorem bits32_le (ty : Ty) : Ty.bits32 ty ≤ 64 := by
  rcases bits32_cases ty with h | h <;> omega

theorem wrapNat_lt (w : Nat) (x : Int) : wrapNat w x < 2 ^ w := by
  have h : (0 : Int) < 2 ^ w := Int.pow_pos (by decide)
  have h1 := Int.emod_nonneg x (Int.ne_of_gt h)
  have h2 := Int.emod_lt_of_pos x h
  have h3 : ((2 ^ w : Nat) : Int) = 2 ^ w := by simp
  unfold wrapNat
  omega

theorem toNat_intResult (ty : Ty) (sat : Bool) (x : Int) :
    (intResult ty sat x).toNat = wrapNat (Ty.bits32 ty) (if sat then clampInt (intMin ty) (intMax ty) x else x) := by
  unfold intResult
  rw [BitVec.toNat_ofNat]
  apply Nat.mod_eq_of_lt
  exact Nat.lt_of_lt_of_le (wrapNat_lt _ _) (Nat.pow_le_pow_right (by decide) (bits32_le ty))

theorem wrapNat_emod (w : Nat) (x : Int) : ((wrapNat w x : Nat) : Int) = x % 2 ^ w := by
  unfold wrapNat
  rw [Int.toNat_of_nonneg]
  exact Int.emod_nonneg x (Int.ne_of_gt (Int.pow_pos (by decide)))

/-- The types of the integer instructions (Table 12.1). -/
def isWordTy (ty : Ty) : Bool := ty.isInt4 || ty.isBits

theorem word_cases {ty : Ty} (h : isWordTy ty = true) :
    ty = .i32 ∨ ty = .n32 ∨ ty = .b32 ∨ ty = .i64 ∨ ty = .n64 ∨ ty = .b64 := by
  cases ty <;> simp_all [isWordTy, Ty.isInt4, Ty.isBits]

/-- The integer that a result's bits stand for is the exact value, where the type has it. -/
theorem intVal_intResult (ty : Ty) (x : Int) (h : isWordTy ty = true) (h1 : intMin ty ≤ x) (h2 : x ≤ intMax ty) :
    intVal ty (intResult ty false x) = x := by
  have hn := toNat_intResult ty false x
  have he := wrapNat_emod (Ty.bits32 ty) x
  simp only [Bool.false_eq_true, if_false] at hn
  rw [← hn] at he
  generalize intResult ty false x = r at he
  rcases word_cases h with rfl | rfl | rfl | rfl | rfl | rfl <;>
    simp [intVal, intMin, intMax, Ty.bits32, Ty.wide, Ty.size, BitVec.toInt_eq_toNat_cond] at * <;> omega

theorem clampInt_range (ty : Ty) (x : Int) (h : isWordTy ty = true) :
    intMin ty ≤ clampInt (intMin ty) (intMax ty) x ∧ clampInt (intMin ty) (intMax ty) x ≤ intMax ty := by
  rcases word_cases h with rfl | rfl | rfl | rfl | rfl | rfl <;>
    simp [clampInt, intMin, intMax, Ty.size] <;> omega

/-- The result of an exact value holds it in the form of its type (R229). -/
theorem holdsInt_intResult (ty : Ty) (sat : Bool) (x : Int) (h : isWordTy ty = true) : HoldsInt ty sat x (intResult ty sat x) := by
  refine ⟨by rw [toNat_intResult]; exact wrapNat_lt _ _, ?_⟩
  cases sat with
  | false =>
    simp only [Bool.false_eq_true, if_false]
    rw [toNat_intResult, wrapNat_emod]
    simp
  | true =>
    simp only [if_true]
    have h1 := clampInt_range ty x h
    have h2 : intResult ty true x = intResult ty false (clampInt (intMin ty) (intMax ty) x) := by simp [intResult]
    rw [h2, intVal_intResult ty _ h h1.1 h1.2, clampInt, Int.min_comm]

theorem isInt4_isWord {ty : Ty} (h : ty.isInt4 = true) : isWordTy ty = true := by simp [isWordTy, h]
theorem isBits_isWord {ty : Ty} (h : ty.isBits = true) : isWordTy ty = true := by simp [isWordTy, h]

/-- The integer that the bits of a type stand for lies in its range. -/
theorem intVal_range (ty : Ty) (x : Dword) (h : isWordTy ty = true) : intMin ty ≤ intVal ty x ∧ intVal ty x ≤ intMax ty := by
  rcases word_cases h with rfl | rfl | rfl | rfl | rfl | rfl <;>
    simp [intVal, intMin, intMax, Ty.size, BitVec.toInt_eq_toNat_cond] <;> omega

/-- Shifting by the width or more leaves the sign. -/
theorem ediv_pow_big (x : Int) (w n : Nat) (h1 : -(2 ^ w : Int) ≤ x) (h2 : x < 2 ^ w) (hn : w ≤ n) : x / 2 ^ n = if x < 0 then -1 else 0 := by
  have hp : (2 : Int) ^ w ≤ 2 ^ n := by
    have := Nat.pow_le_pow_right (show 0 < 2 by decide) hn
    exact_mod_cast this
  have hpos : (0 : Int) < 2 ^ n := Int.pow_pos (by decide)
  split
  · rename_i hx
    rw [Int.ediv_eq_iff_of_pos hpos]
    omega
  · exact Int.ediv_eq_zero_of_lt (by omega) (by omega)

theorem holdsInt_congr {ty : Ty} {x y : Int} {r : Dword} (h : HoldsInt ty false x r) (hxy : (x - y) % 2 ^ Ty.bits32 ty = 0) :
    HoldsInt ty false y r := by
  refine ⟨h.1, ?_⟩
  have h2 := h.2
  simp only [Bool.false_eq_true, if_false] at h2 ⊢
  have : (r.toNat : Int) - y = ((r.toNat : Int) - x) + (x - y) := by omega
  rw [this]
  exact Int.emod_eq_zero_of_dvd (Int.dvd_add (Int.dvd_of_emod_eq_zero h2) (Int.dvd_of_emod_eq_zero hxy))

/-! ## Bits -/

theorem lowBits_getLsbD (ty : Ty) (x : Dword) (i : Nat) (h : isWordTy ty = true) :
    (lowBits ty x).getLsbD i = (decide (i < Ty.bits32 ty) && x.getLsbD i) := by
  rcases word_cases h with rfl | rfl | rfl | rfl | rfl | rfl <;> simp [lowBits, Ty.size, Ty.bits32, Ty.wide] <;>
    intros <;> first | omega | exact BitVec.lt_of_getLsbD (by assumption)

/-- Operand bits beyond the width are 0. -/
theorem lowBits_high (ty : Ty) (x : Dword) (i : Nat) (h : isWordTy ty = true) (hi : Ty.bits32 ty ≤ i) : (lowBits ty x).getLsbD i = false := by
  rw [lowBits_getLsbD ty x i h]
  simp [show ¬ i < Ty.bits32 ty by omega]

theorem srcA_high (c : Cur) (u : Bool) (ty : Ty) (t : Nat) (n : Reg) (i : Nat) (h : isWordTy ty = true) (hi : Ty.bits32 ty ≤ i) :
    (c.srcA u ty t n).getLsbD i = false := lowBits_high ty _ i h hi

theorem srcB_high (c : Cur) (ty : Ty) (t : Nat) (b : OpB) (i : Nat) (h : isWordTy ty = true) (hi : Ty.bits32 ty ≤ i) :
    (c.srcB ty t b).getLsbD i = false := by
  cases b <;> exact lowBits_high ty _ i h hi

/-- A word with no bit beyond the width. -/
theorem holdsBits_of {ty : Ty} {b : Nat → Bool} {r : Dword} (h1 : ∀ i, i < Ty.bits32 ty → r.getLsbD i = b i)
    (h2 : ∀ i, Ty.bits32 ty ≤ i → r.getLsbD i = false) : HoldsBits ty b r := by
  intro i
  by_cases h : i < Ty.bits32 ty
  · simp [h, h1 i h]
  · simp [h, h2 i (by omega)]

/-- A number below 2^w has no bit from w on. -/
theorem getLsbD_high {x : Dword} {w j : Nat} (h : x.toNat < 2 ^ w) (hj : w ≤ j) : x.getLsbD j = false := by
  rw [← BitVec.testBit_toNat]
  exact Nat.testBit_lt_two_pow (Nat.lt_of_lt_of_le h (Nat.pow_le_pow_right (by decide) hj))

theorem intResult_high (ty : Ty) (sat : Bool) (x : Int) (j : Nat) (hj : Ty.bits32 ty ≤ j) : (intResult ty sat x).getLsbD j = false :=
  getLsbD_high (by rw [toNat_intResult]; exact wrapNat_lt _ _) hj

/-! ## Completion of integer instructions -/

/-- The lane form of an integer instruction. -/
theorem execInt_lane {s : State} {c : Cur} {i : Instr} {p : Pred} {ty : Ty} {d : Reg} {f : Cur → Nat → Dword} (hs : Stands s c i)
    (he : exec i s = execInt i false p ty d f s) (hd : okV ty.wide d = true) (ok : Nat → Dword → Prop)
    (hok : ∀ th, th < 32 → (c.act p).getLsbD th = true → ok th (f c th)) : CompletesLane s c i p ty.wide d ok := by
  apply completesLane_of (f c) ok hs.cur _ hd hok
  rw [he, execInt, issueI_of_stands hs]
  rfl

/-- The uniform register value of a result (R217, R228). -/
def uniValue (ty : Ty) (x : Dword) : Dword := if ty = .i32 then (x.extractLsb' 0 32).signExtend 64 else lowBits ty x

theorem writeResult_uni (c : Cur) (p : Pred) (ty : Ty) (d : Reg) (f : Nat → Dword) :
    c.writeResult true p ty d f = if c.any p then c.g.kset d.toNat (uniValue ty (f 0)) else c.g := by
  cases ty <;> rfl

/-- The uniform form of an integer instruction. -/
theorem execInt_uni {s : State} {c : Cur} {i : Instr} {p : Pred} {ty : Ty} {d : Reg} {f : Cur → Nat → Dword} (hs : Stands s c i)
    (he : exec i s = execInt i true p ty d f s) (ok : Dword → Prop) (hw : isWordTy ty = true)
    (hh : ∀ j, Ty.bits32 ty ≤ j → (f c 0).getLsbD j = false) (hok : ok (f c 0)) :
    CompletesOnce s c i p fun g => UniResult c.g g ty d ok := by
  refine completesOnce_of (c.g.kset d.toNat (uniValue ty (f c 0))) _ hs.cur ?_ (entry_kset _ _ _)
    ⟨f c 0, _, hok, ?_, uniWritten_kset _ _ _⟩
  · rw [he, execInt, issueI_of_stands hs, writeResult_uni]
  · unfold UniForm uniValue
    split
    · rfl
    · apply BitVec.eq_of_getLsbD_eq
      intro j _
      rw [lowBits_getLsbD _ _ _ hw]
      by_cases hj : j < Ty.bits32 ty
      · simp [hj]
      · simp [hj, hh j (by omega)]

/-! ## Masks -/

theorem getLsbD_bit32 (t i : Nat) (ht : t < 32) : (bit32 t).getLsbD i = decide (i = t) := by
  unfold bit32
  rw [BitVec.getLsbD_ofNat, Nat.testBit_two_pow]
  by_cases h : i = t
  · simp [h, ht]
  · simp [h, Ne.symm h]

theorem maskFold_getLsbD (f : Nat → Bool) (l : List Nat) (hl : ∀ t, t ∈ l → t < 32) (m : Word) (i : Nat) :
    (l.foldl (fun m t => if f t then m ||| bit32 t else m) m).getLsbD i = (m.getLsbD i || (decide (i ∈ l) && f i)) := by
  induction l generalizing m with
  | nil => simp
  | cons t r ih =>
    rw [List.foldl_cons, ih fun x hx => hl x (List.mem_cons_of_mem t hx)]
    have ht := hl t List.mem_cons_self
    by_cases hf : f t = true
    · rw [if_pos hf, BitVec.getLsbD_or, getLsbD_bit32 t i ht]
      by_cases hi : i = t
      · subst hi; simp [hf]
      · simp [hi]
    · rw [if_neg hf]
      by_cases hi : i = t
      · subst hi; simp [hf]
      · simp [hi]

/-- Bits of the mask of the threads for which a condition holds. -/
theorem getLsbD_maskOf (f : Nat → Bool) (i : Nat) : (maskOf f).getLsbD i = (decide (i < 32) && f i) := by
  unfold maskOf
  rw [maskFold_getLsbD _ _ (fun t ht => List.mem_range.mp ht)]
  simp

theorem getLsbD_condMask (old act cond : Word) (z : Bool) (t : Nat) (ht : t < 32) :
    (condMask old act cond z).getLsbD t = if act.getLsbD t then cond.getLsbD t else !z && old.getLsbD t := by
  unfold condMask
  cases z <;> cases h : act.getLsbD t <;>
    simp only [if_true, if_false, Bool.false_eq_true, BitVec.getLsbD_or, BitVec.getLsbD_and, BitVec.getLsbD_not, h, ht] <;> simp

end Sys2Proof.Machine
end

