-- ==== Sys2Proof/Laws/Keeps.lean ====
section
/-! SUPPORT. What the shared operations keep: memory stays in its canonical form, and the page attribute table stays as it is. One lemma for
each operation; a proof about an instruction or an event follows its definition and composes them. -/

namespace Sys2Proof.Machine

/-- From s to t, memory keeps its canonical form and the page attribute table does not change. -/
def Keeps (s t : State) : Prop := (Memory.wf s.mem = true → Memory.wf t.mem = true) ∧ t.pat = s.pat

theorem Keeps.refl (s : State) : Keeps s s := ⟨id, rfl⟩

theorem Keeps.trans {s t u : State} (h : Keeps s t) (k : Keeps t u) : Keeps s u := ⟨fun w => k.1 (h.1 w), k.2.trans h.2⟩

theorem Keeps.of_eq {s t : State} (h : t.mem = s.mem) (k : t.pat = s.pat) : Keeps s t := ⟨fun w => by rw [h]; exact w, k⟩

theorem keeps_foldl {α : Type} (f : State → α → State) (h : ∀ a x, Keeps a (f a x)) (l : List α) (s : State) : Keeps s (l.foldl f s) := by
  induction l generalizing s with
  | nil => exact Keeps.refl s
  | cons x r ih => exact (h s x).trans (ih _)

/-- After an update of fields other than these two. -/
theorem Keeps.upd {s u : State} (t : State) (h : Keeps s t) (hm : u.mem = t.mem) (hp : u.pat = t.pat) : Keeps s u := h.trans (.of_eq hm hp)

theorem keeps_ite {s t u : State} {c : Prop} [Decidable c] (h : Keeps s t) (k : Keeps s u) : Keeps s (if c then t else u) := by
  split
  · exact h
  · exact k

/-! ## Plain updates -/

theorem keeps_setGroup (s : State) (k : Nat) (g : Group) : Keeps s (s.setGroup k g) := .of_eq rfl rfl
theorem keeps_updGroup (s : State) (k : Nat) (f : Group → Group) : Keeps s (s.updGroup k f) := .of_eq rfl rfl
theorem keeps_updLaunch (s : State) (k : Nat) (f : Launch → Launch) : Keeps s (s.updLaunch k f) := .of_eq rfl rfl
theorem keeps_setReg (s : State) (o : Nat) (x : Word) : Keeps s (s.setReg o x) := .of_eq rfl rfl
theorem keeps_addPoison (s : State) (a : Nat) : Keeps s (s.addPoison a) := .of_eq rfl rfl
theorem keeps_setContext (s : State) (c : Nat) (x : Context) : Keeps s (s.setContext c x) := .of_eq rfl rfl
theorem keeps_countN (s : State) (k n m : Nat) : Keeps s (s.countN k n m) := .of_eq rfl rfl
theorem keeps_count (s : State) (k n : Nat) : Keeps s (s.count k n) := .of_eq rfl rfl
theorem keeps_writeCells (s : State) (a : Nat) (bs : List Byte) : Keeps s (s.writeCells a bs) := ⟨s.writeCells_wf a bs, rfl⟩
theorem keeps_scrWrite (s : State) (a : Nat) (bs : List Byte) : Keeps s (s.scrWrite a bs) := keeps_writeCells s _ bs
theorem keeps_physWrite (s : State) (hp : Bool) (a : Nat) (bs : List Byte) : Keeps s (s.physWrite hp a bs) := by
  unfold State.physWrite
  split
  · exact keeps_writeCells s _ bs
  · exact .of_eq rfl rfl
theorem keeps_writeBytes (s : State) (l : List (Nat × Byte)) : Keeps s (s.writeBytes l) :=
  keeps_foldl (fun (a : State) (q : Nat × List Byte) => a.writeCells q.1 q.2) (fun a q => keeps_writeCells a q.1 q.2) _ s
theorem keeps_vaWrite (s : State) (ctx : Nat) (va : Dword) (bs : List Byte) : Keeps s (s.vaWrite ctx va bs) := keeps_writeBytes s _
theorem keeps_raise (s : State) (hp : Bool) (v : Byte) : Keeps s (s.raise hp v) := .of_eq rfl rfl
theorem keeps_raiseBoth (s : State) (r : Nat) : Keeps s (s.raiseBoth r) := by
  unfold State.raiseBoth
  exact keeps_ite (.of_eq rfl rfl) (.refl s)
theorem keeps_devErr (s : State) (n : Nat) : Keeps s (s.devErr n) := (keeps_setReg s _ _).trans (keeps_raiseBoth _ _)

/-! ## Performing accesses -/

theorem keeps_notePast (s : State) (k : Nat) (near : Bool) (c n : Nat) : Keeps s (s.notePast k near c n) := keeps_ite (.of_eq rfl rfl) (.refl s)
theorem keeps_noteFixed (s : State) (k c n : Nat) : Keeps s (s.noteFixed k c n) := keeps_ite (.of_eq rfl rfl) (.refl s)
theorem keeps_noteRead (s : State) (k t c n m : Nat) : Keeps s (s.noteRead k t c n m) := keeps_ite (.refl s) (.of_eq rfl rfl)
theorem keeps_noteLoad (s : State) (back : List Nat) (a : Access) : Keeps s (s.noteLoad back a) :=
  keeps_ite (.refl s) (keeps_foldl _ (fun s _ => keeps_noteRead s _ _ _ _ _) _ s)
theorem keeps_acquireAt (s : State) (k : Nat) (m : Word) (sc : Scope) : Keeps s (s.acquireAt k m sc) := keeps_ite (.refl s) (.of_eq rfl rfl)
theorem keeps_acquireEarly (s : State) (k : Nat) : Keeps s (s.acquireEarly k) := by
  unfold State.acquireEarly
  split
  · exact .refl s
  · refine keeps_foldl _ (fun a q => ?_) _ s
    split
    · exact keeps_ite (.refl a) ((keeps_acquireAt a _ _ _).trans (keeps_updGroup _ _ _))
    · exact .refl a

theorem keeps_watchWrite (s : State) (b a : Nat) : Keeps s (s.watchWrite b a) := by
  unfold State.watchWrite
  refine keeps_ite (.refl s) ?_
  split
  · exact .refl s
  · refine keeps_ite (.refl s) ?_
    dsimp only
    split
    · exact .of_eq rfl rfl
    · refine keeps_ite (.of_eq rfl rfl) (keeps_ite (.of_eq rfl rfl) ?_)
      refine Keeps.trans ?_ (keeps_setReg _ _ _)
      refine Keeps.trans ?_ (keeps_physWrite _ _ _ _)
      exact .of_eq rfl rfl

theorem keeps_logWord (s : State) (k f a : Nat) : Keeps s (s.logWord k f a) := by
  unfold State.logWord
  refine keeps_ite (.refl s) ?_
  exact ((keeps_scrWrite s _ _).trans (keeps_scrWrite _ _ _)).trans (keeps_updGroup _ _ _)

theorem keeps_logWrite (s : State) (k a n : Nat) : Keeps s (s.logWrite k a n) := by
  unfold State.logWrite
  split
  · exact .refl s
  · split
    · exact .refl s
    · exact keeps_foldl _ (fun a _ => keeps_ite (keeps_logWord a _ _ _) (.refl a)) _ s

theorem keeps_storeLane (s : State) (a : Access) (near : Bool) (l : LaneAccess) (x : BitVec 128) : Keeps s (s.storeLane a near l x) := by
  unfold State.storeLane
  extract_lets s0 s1 s2
  have h0 : Keeps s s0 := keeps_ite (keeps_logWrite s _ _ _) (.refl s)
  have h1 : Keeps s0 s1 := keeps_ite (.refl s0) (keeps_foldl _ (fun s _ => keeps_notePast s _ _ _ _) _ s0)
  have h2 : Keeps s s2 := (h0.trans h1).trans (keeps_writeCells s1 _ _)
  exact keeps_ite (h2.trans (keeps_watchWrite s2 _ _)) h2

theorem keeps_performLoad (s : State) (back : List Nat) (id : Nat) (a : Access) : Keeps s (s.performLoad back id a) :=
  (keeps_updGroup s _ _).trans (keeps_noteLoad _ _ _)

theorem keeps_passOn (s : State) (id : Nat) (a : Access) : Keeps s (s.passOn id a) := by
  unfold State.passOn
  split
  · exact .refl s
  · exact .of_eq rfl rfl

theorem keeps_performStore (s : State) (id : Nat) (a : Access) : Keeps s (s.performStore id a) :=
  keeps_foldl _ (fun s l => keeps_storeLane s a _ l _) _ s

theorem keeps_performAtom (s : State) (a : Access) (op : AtomOp) : Keeps s (s.performAtom a op) := by
  unfold State.performAtom
  extract_lets w cells s1 s2 s3
  have h1 : Keeps s s1 := by
    refine keeps_foldl _ (fun s c => ?_) _ s
    dsimp only
    split
    · exact .refl s
    · exact (keeps_ite (.refl s) (keeps_storeLane s a _ _ _)).trans (keeps_updGroup _ _ _)
  have h2 : Keeps s s2 := h1.trans (keeps_noteLoad s1 _ _)
  have h3 : Keeps s s3 := keeps_ite (h2.trans (keeps_acquireAt s2 _ _ _)) h2
  exact h3.trans (keeps_updGroup s3 _ _)

theorem keeps_endAccess (s : State) (id : Nat) (a : Access) : Keeps s (s.endAccess id a) := by
  unfold State.endAccess
  refine Keeps.trans (t := if a.counted then _ else _) (keeps_ite (s := s) ?_ ?_) (.of_eq rfl rfl) <;> exact .of_eq rfl rfl

/-! ## Claims and tasks -/

theorem keeps_writeOwner (s : State) (l : Launch) (set grp : Nat) (age : Dword) (n : Nat) : Keeps s (s.writeOwner l set grp age n) :=
  keeps_scrWrite s _ _
theorem keeps_freeOwner (s : State) (l : Launch) (set : Nat) : Keeps s (s.freeOwner l set) := keeps_scrWrite s _ _

theorem keeps_grantSet (s : State) (grp set : Nat) : Keeps s (s.grantSet grp set) := by
  unfold State.grantSet
  split
  · exact .refl s
  · split
    · exact .refl s
    · extract_lets s1 n s2
      refine Keeps.trans (t := s2) ((keeps_writeOwner s _ _ _ _ _).trans ((keeps_scrWrite _ _ _).trans (keeps_scrWrite _ _ _))) ?_
      exact .upd _ (keeps_acquireAt s2 _ _ _) rfl rfl

theorem keeps_releaseSet (s : State) (k : Nat) (l : Launch) (set : Nat) : Keeps s (s.releaseSet k l set) := by
  unfold State.releaseSet
  split
  · exact keeps_grantSet s _ _
  · exact keeps_freeOwner s _ _

theorem keeps_releaseAll (s : State) (g : Group) : Keeps s (s.releaseAll g) := by
  unfold State.releaseAll
  split
  · exact .refl s
  · exact keeps_foldl _ (fun a _ => keeps_releaseSet a _ _ _) _ s

theorem keeps_clearHeader (s : State) (g : Group) : Keeps s (s.clearHeader g) := by
  unfold State.clearHeader
  split
  · exact .refl s
  · exact keeps_scrWrite s _ _

theorem keeps_releaseClear (s : State) (g : Group) : Keeps s (s.releaseClear g) := (keeps_releaseAll s g).trans (keeps_clearHeader _ g)

theorem keeps_undoReplay (s : State) (g : Group) : Keeps s (s.undoReplay g) := by
  unfold State.undoReplay
  split
  · exact .refl s
  · refine keeps_foldl _ (fun a q => ?_) _ s
    exact keeps_ite ((keeps_scrWrite a _ _).trans (keeps_addPoison _ _)) (keeps_scrWrite a _ _)

theorem keeps_pushTask (s : State) (q : Nat) (r : BitVec 256) (b : Bool) : Keeps s (s.pushTask q r b) := .of_eq rfl rfl

theorem keeps_returnSpawn (s : State) (a : Access) : Keeps s (s.returnSpawn a) := by
  unfold State.returnSpawn
  split
  · exact .of_eq rfl rfl
  · exact .refl s

theorem keeps_withdraw (s : State) (k : Nat) : Keeps s (s.withdraw k) := by
  unfold State.withdraw
  refine Keeps.trans ?_ (keeps_updGroup _ _ _)
  refine Keeps.trans ?_ (keeps_foldl (fun (a : State) (q : Nat × Access) => (a.returnSpawn q.2).endAccess q.1 q.2)
    (fun a q => (keeps_returnSpawn a q.2).trans (keeps_endAccess _ _ _)) _ _)
  exact .of_eq rfl rfl

theorem keeps_flushGroup (s : State) (k : Nat) : Keeps s (s.flushGroup k) := by
  unfold State.flushGroup
  refine keeps_foldl _ (fun a q => ?_) _ s
  refine keeps_ite ((keeps_returnSpawn a q.2).trans (keeps_endAccess _ _ _)) ?_
  split
  · exact keeps_endAccess a _ _
  · exact (keeps_pushTask a _ _ _).trans (keeps_endAccess _ _ _)
  · exact (keeps_performStore a _ _).trans (keeps_endAccess _ _ _)
  · exact (keeps_performStore a _ _).trans (keeps_endAccess _ _ _)
  · exact (keeps_performAtom a _ _).trans (keeps_endAccess _ _ _)

theorem keeps_abandonTask (s : State) (k : Nat) : Keeps s (s.abandonTask k) := by
  unfold State.abandonTask
  split
  · exact .refl s
  · refine keeps_ite (.refl s) ?_
    refine Keeps.trans ?_ (keeps_updGroup _ _ _)
    rename_i g _
    exact .upd ((((s.withdraw k).flushGroup k).undoReplay g).releaseClear g)
      ((keeps_withdraw s k).trans ((keeps_flushGroup _ k).trans ((keeps_undoReplay _ _).trans (keeps_releaseClear _ _)))) rfl rfl

/-! ## Tiles, reports, the end of groups and blocks -/

theorem keeps_dropTile (s : State) (k : Nat) (g : Group) : Keeps s (s.dropTile k g) := keeps_updLaunch s _ _

theorem keeps_finishTile (s : State) (k : Nat) : Keeps s (s.finishTile k) := by
  unfold State.finishTile
  split
  · exact .refl s
  · split
    · exact keeps_updLaunch s _ _
    · exact .refl s

theorem keeps_pushReport (s : State) (c : Nat) (bs : List Byte) : Keeps s (s.pushReport c bs) := by
  unfold State.pushReport
  refine keeps_ite (keeps_setReg s _ _) (keeps_ite (keeps_setReg s _ _) ?_)
  refine Keeps.trans ?_ (keeps_raise _ _ _)
  exact (keeps_physWrite s _ _ _).trans (keeps_setReg _ _ _)

theorem keeps_report (s : State) (kind cause sub grp : Nat) (pc addr : Dword) : Keeps s (s.report kind cause sub grp pc addr) := by
  unfold State.report
  split
  · exact .refl s
  · exact keeps_pushReport s _ _

theorem keeps_dropGroup (s : State) (b : Bool) (k : Nat) : Keeps s (s.dropGroup b k) := by
  unfold State.dropGroup
  split
  · exact .refl s
  · rename_i g _
    have h : Keeps s (if b then (s.abandonTask k).dropTile k g else s.abandonTask k) :=
      keeps_ite ((keeps_abandonTask s k).trans (keeps_dropTile _ _ _)) (keeps_abandonTask s k)
    exact .upd _ (h.trans ((keeps_withdraw _ k).trans (keeps_flushGroup _ k))) rfl rfl

theorem keeps_clearSvc (s : State) (k : Nat) : Keeps s (s.clearSvc k) := .of_eq rfl rfl

theorem keeps_removeBlock (s : State) (b : Nat) : Keeps s (s.removeBlock b) := by
  unfold State.removeBlock
  split
  · exact .refl s
  · refine Keeps.trans ?_ (keeps_foldl (fun (a : State) k => a.clearSvc k) (fun a k => keeps_clearSvc a k) _ _)
    exact .upd _ (keeps_foldl (fun (a : State) k => a.dropGroup _ k) (fun a k => keeps_dropGroup a _ k) (s.blockGroups b) s) rfl rfl

theorem keeps_markDead (s : State) (i : Nat) : Keeps s (s.markDead i) := keeps_updLaunch s _ _

theorem keeps_stopBlock (s : State) (b : Nat) (d : Dying) : Keeps s (s.stopBlock b d) := by
  unfold State.stopBlock
  extract_lets gs s1 s2
  have h1 : Keeps s s1 := keeps_foldl (fun (a : State) k => a.withdraw k) (fun a k => keeps_withdraw a k) _ s
  clear_value s1
  have h2 : Keeps s s2 := .upd s1 h1 rfl rfl
  clear_value s2
  exact h2.trans (keeps_foldl (fun (a : State) k => a.clearSvc k) (fun a k => keeps_clearSvc a k) _ s2)

theorem keeps_finishTermination (s : State) (b : Nat) (blk : Block) (d : Dying) : Keeps s (s.finishTermination b blk d) := by
  unfold State.finishTermination
  refine Keeps.trans (Keeps.trans ?_ ((keeps_removeBlock _ b).trans (keeps_updLaunch _ _ _))) (keeps_markDead _ _)
  split
  · exact keeps_pushReport s _ _
  · exact .refl s

theorem keeps_endBlock (s : State) (b : Nat) : Keeps s (s.endBlock b) := by
  unfold State.endBlock
  split
  · exact .refl s
  · split
    · exact keeps_ite (.refl s) (keeps_finishTermination s _ _ _)
    · exact keeps_ite (keeps_removeBlock s b) (.refl s)

theorem keeps_terminateBlock (s : State) (b : Nat) (c : TermCause) (n : Nat) (r : Option (Nat × Dword × Dword)) :
    Keeps s (s.terminateBlock b c n r) := by
  unfold State.terminateBlock
  split
  · exact .refl s
  · exact (keeps_ite (.refl s) (keeps_stopBlock s _ _)).trans (keeps_endBlock _ b)

theorem keeps_killBlock (s : State) (b : Nat) (c : TermCause) (r : Option (Nat × Dword × Dword)) : Keeps s (s.killBlock b c r) := by
  unfold State.killBlock
  split
  · exact .refl s
  · extract_lets d s1
    have h1 : Keeps s s1 := keeps_stopBlock s b d
    clear_value s1
    exact (h1.upd (u := { s1 with copies := s1.copies.filter fun q => q.2.block != b }) s1 rfl rfl).trans
      (keeps_finishTermination _ b _ _)

theorem keeps_terminateAt (s : State) (k : Nat) (c : TermCause) (n : Nat) (pc a : Dword) : Keeps s (s.terminateAt k c n pc a) := by
  unfold State.terminateAt
  split
  · exact .refl s
  · exact keeps_terminateBlock s _ _ _ _

theorem keeps_landBytes (s : State) (b n k : Nat) : Keeps s (s.landBytes b n k) := .of_eq rfl rfl

theorem keeps_dropTiles (s : State) (k : Nat) : Keeps s (s.dropTiles k) := .of_eq rfl rfl

theorem keeps_groupExit (s : State) (k : Nat) : Keeps s (s.groupExit k) := by
  unfold State.groupExit
  split
  · exact .refl s
  · refine keeps_ite (.refl s) ?_
    refine Keeps.trans (Keeps.trans ?_ (keeps_markDead _ _)) (keeps_endBlock _ _)
    rename_i g _
    exact .upd ((((s.finishTile k).updLaunch g.launch fun l => { l with waits := l.waits.filter (· != k) }).updGroup k fun g =>
      { g with work := .none, fetch := none }).dropTiles k) ((keeps_finishTile s k).trans ((keeps_updLaunch _ _ _).trans
        ((keeps_updGroup _ _ _).trans (keeps_dropTiles _ k)))) rfl rfl

theorem keeps_flushSpill (s : State) (k : Nat) : Keeps s (s.flushSpill k) := by
  unfold State.flushSpill
  refine keeps_foldl _ (fun a q => ?_) _ s
  exact (keeps_ite (keeps_performStore a _ _) (keeps_performLoad a _ _ _)).trans (keeps_endAccess _ _ _)

/-! ## The return-address stack and the rules of fusing -/

theorem keeps_setRas (s : State) (k : Nat) (l : List RasEntry) : Keeps s (s.setRas k l) := by
  unfold State.setRas
  split
  · exact .refl s
  · exact Keeps.trans (keeps_foldl _ (fun a q => keeps_writeCells a _ _) _ s) (keeps_setGroup _ _ _)

theorem keeps_pushRas (s : State) (k : Nat) (r : RasEntry) : Keeps s (s.pushRas k r) := by
  unfold State.pushRas
  split
  · exact .refl s
  · exact Keeps.trans (keeps_ite (keeps_count s _ _) (.refl s)) (keeps_setRas _ _ _)

theorem keeps_doReturn (s : State) (k : Nat) (g : Group) (l : List RasEntry) (i : Nat) (r : RasEntry) : Keeps s (s.doReturn k g l i r) :=
  (keeps_setGroup s _ _).trans (keeps_setRas _ _ _)

/-! ## Traps and retiring -/

theorem keeps_enterTrap (s : State) (k i : Nat) (r : TrapRec) : Keeps s (s.enterTrap k i r) := by
  unfold State.enterTrap
  split
  · exact .refl s
  · split
    · exact .of_eq rfl rfl
    · exact .refl s

theorem keeps_takeTrap (s : State) (k i : Nat) (r : TrapRec) : Keeps s (s.takeTrap k i r) := by
  unfold State.takeTrap
  split
  · exact .refl s
  · split
    · exact keeps_ite (keeps_terminateAt s _ _ _ _ _) (keeps_ite (keeps_terminateAt s _ _ _ _ _) (keeps_ite (.of_eq rfl rfl)
        (keeps_enterTrap s _ _ _)))
    · exact .refl s

theorem keeps_lateTrap (s : State) (k : Nat) (u : Word) (r : TrapRec) : Keeps s (s.lateTrap k u r) := by
  unfold State.lateTrap
  split
  · exact .refl s
  · split
    · exact keeps_report s _ _ _ _ _ _
    · exact keeps_setGroup s _ _

theorem keeps_returnTrap (s : State) (k i : Nat) : Keeps s (s.returnTrap k i) := by
  unfold State.returnTrap
  split
  · exact .refl s
  · split
    · exact .refl s
    · exact keeps_setGroup s _ _

theorem keeps_curTrap (c : Cur) (s : State) (r : TrapRec) : Keeps s (c.trap s r) :=
  (keeps_takeTrap s _ _ r).trans (.of_eq rfl rfl)

theorem keeps_decline (s : State) (c : Cur) : Keeps s (s.decline c) := .of_eq rfl rfl
theorem keeps_hold (s : State) (c : Cur) (h : HoldKind) : Keeps s (s.hold c h) := by
  unfold State.hold
  extract_lets port s0 s1
  have h0 : Keeps s s0 := .of_eq rfl rfl
  have h1 : Keeps s s1 := keeps_ite (.refl s) (keeps_ite (.upd s0 h0 rfl rfl) h0)
  exact .upd s1 h1 rfl rfl
theorem keeps_issued (s : State) (c : Cur) : Keeps s (s.issued c) := by
  unfold State.issued
  extract_lets s1
  exact .upd s1 ((keeps_count s _ _).trans (keeps_updGroup _ _ _)) rfl rfl
theorem keeps_retire (s : State) (c : Cur) : Keeps s (s.retire c) := (keeps_issued s c).trans (keeps_updGroup _ _ _)
theorem keeps_finish (s : State) (c : Cur) (g : Group) : Keeps s (s.finish c g) := (keeps_setGroup s _ _).trans (keeps_retire _ c)

/-- An instruction of the selected unit keeps what its effect keeps. -/
theorem keeps_issue {s t : State} {f : Cur → State} (h : ∀ c, Keeps s (f c)) (he : s.issue f = .next t) : Keeps s t := by
  unfold State.issue at he
  split at he
  · cases he; exact h _
  · cases he; exact .refl s

/-- The same under the encoding check of condition 6. -/
theorem keeps_issueI {s t : State} {i : Instr} {p : Pred} {f : Cur → State} (h : ∀ c, Keeps s (f c)) (he : s.issueI i p f = .next t) : Keeps s t :=
  keeps_issue (fun c => keeps_ite (h c) (keeps_curTrap c s _)) he

end Sys2Proof.Machine
end

