-- ==== Sys2Proof/Laws/PerInstr.lean ====
section
/-! SUPPORT. One lemma for each instruction: a program's instruction has fields whose opcode is an assigned one; an event has no words. -/

namespace Sys2Proof.Laws

/-- Every instruction is either an event, which has no words, or one whose fields carry an assigned opcode (Table 11.7). -/
def Opcode.Statement (i : Instr) : Prop :=
  (i.isEvent = true ∧ i.fields = none) ∨ (i.isEvent = false ∧ ∃ f op, i.fields = some f ∧ f.opc = Op.code op)

theorem opc_setB (f : Fields) (b : OpB) : (f.setB b).opc = f.opc := by cases b <;> rfl
theorem opc_setOff (f : Fields) (b : OffB) : (f.setOff b).opc = f.opc := by cases b <;> rfl
theorem opc_setKI (f : Fields) (b : KI) : (f.setKI b).opc = f.opc := by cases b <;> rfl
theorem opc_setTarget (f : Fields) (b : Target) : (f.setTarget b).opc = f.opc := by cases b <;> rfl
theorem opc_setOpt (f : Fields) (b : Option Word) : (f.setOpt b).opc = f.opc := by cases b <;> rfl

theorem Opcode.nop : ∀ x0, Opcode.Statement (.nop x0) := by
  intros; exact .inr ⟨rfl, _, .nop, rfl, rfl⟩
theorem Opcode.br : ∀ x0 x1, Opcode.Statement (.br x0 x1) := by
  intros; exact .inr ⟨rfl, _, .br, rfl, opc_setTarget _ _⟩
theorem Opcode.brc : ∀ x0 x1 x2 x3, Opcode.Statement (.brc x0 x1 x2 x3) := by
  intros; exact .inr ⟨rfl, _, .brc, rfl, opc_setTarget _ _⟩
theorem Opcode.call : ∀ x0 x1, Opcode.Statement (.call x0 x1) := by
  intros; exact .inr ⟨rfl, _, .call, rfl, opc_setTarget _ _⟩
theorem Opcode.calli : ∀ x0 x1, Opcode.Statement (.calli x0 x1) := by
  intros; exact .inr ⟨rfl, _, .calli, rfl, rfl⟩
theorem Opcode.callm : ∀ x0 x1 x2, Opcode.Statement (.callm x0 x1 x2) := by
  intros; exact .inr ⟨rfl, _, .callm, rfl, rfl⟩
theorem Opcode.ret : Opcode.Statement .ret := by
  exact .inr ⟨rfl, _, .ret, rfl, rfl⟩
theorem Opcode.join : Opcode.Statement .join := by
  exact .inr ⟨rfl, _, .join, rfl, rfl⟩
theorem Opcode.exit : ∀ x0, Opcode.Statement (.exit x0) := by
  intros; exact .inr ⟨rfl, _, .exit, rfl, rfl⟩
theorem Opcode.yield : ∀ x0, Opcode.Statement (.yield x0) := by
  intros; exact .inr ⟨rfl, _, .yield, rfl, rfl⟩
theorem Opcode.ipf : ∀ x0 x1 x2 x3, Opcode.Statement (.ipf x0 x1 x2 x3) := by
  intros; exact .inr ⟨rfl, _, .ipf, rfl, opc_setOff _ _⟩
theorem Opcode.add : ∀ x0 x1 x2 x3 x4 x5 x6 x7, Opcode.Statement (.add x0 x1 x2 x3 x4 x5 x6 x7) := by
  intros; exact .inr ⟨rfl, _, .add, rfl, opc_setB _ _⟩
theorem Opcode.sub : ∀ x0 x1 x2 x3 x4 x5 x6, Opcode.Statement (.sub x0 x1 x2 x3 x4 x5 x6) := by
  intros; exact .inr ⟨rfl, _, .sub, rfl, opc_setB _ _⟩
theorem Opcode.mul : ∀ x0 x1 x2 x3 x4 x5 x6 x7, Opcode.Statement (.mul x0 x1 x2 x3 x4 x5 x6 x7) := by
  intros; exact .inr ⟨rfl, _, .mul, rfl, opc_setB _ _⟩
theorem Opcode.mad : ∀ x0 x1 x2 x3 x4 x5 x6 x7, Opcode.Statement (.mad x0 x1 x2 x3 x4 x5 x6 x7) := by
  intros; exact .inr ⟨rfl, _, .mad, rfl, opc_setB _ _⟩
theorem Opcode.shl : ∀ x0 x1 x2 x3 x4 x5, Opcode.Statement (.shl x0 x1 x2 x3 x4 x5) := by
  intros; exact .inr ⟨rfl, _, .shl, rfl, opc_setB _ _⟩
theorem Opcode.shr : ∀ x0 x1 x2 x3 x4 x5, Opcode.Statement (.shr x0 x1 x2 x3 x4 x5) := by
  intros; exact .inr ⟨rfl, _, .shr, rfl, opc_setB _ _⟩
theorem Opcode.and : ∀ x0 x1 x2 x3 x4 x5, Opcode.Statement (.and x0 x1 x2 x3 x4 x5) := by
  intros; exact .inr ⟨rfl, _, .and, rfl, opc_setB _ _⟩
theorem Opcode.or : ∀ x0 x1 x2 x3 x4 x5, Opcode.Statement (.or x0 x1 x2 x3 x4 x5) := by
  intros; exact .inr ⟨rfl, _, .or, rfl, opc_setB _ _⟩
theorem Opcode.xor : ∀ x0 x1 x2 x3 x4 x5, Opcode.Statement (.xor x0 x1 x2 x3 x4 x5) := by
  intros; exact .inr ⟨rfl, _, .xor, rfl, opc_setB _ _⟩
theorem Opcode.not : ∀ x0 x1 x2 x3 x4, Opcode.Statement (.not x0 x1 x2 x3 x4) := by
  intros; exact .inr ⟨rfl, _, .not, rfl, rfl⟩
theorem Opcode.min : ∀ x0 x1 x2 x3 x4 x5, Opcode.Statement (.min x0 x1 x2 x3 x4 x5) := by
  intros; exact .inr ⟨rfl, _, .min, rfl, opc_setB _ _⟩
theorem Opcode.max : ∀ x0 x1 x2 x3 x4 x5, Opcode.Statement (.max x0 x1 x2 x3 x4 x5) := by
  intros; exact .inr ⟨rfl, _, .max, rfl, opc_setB _ _⟩
theorem Opcode.icmp : ∀ x0 x1 x2 x3 x4 x5 x6 x7, Opcode.Statement (.icmp x0 x1 x2 x3 x4 x5 x6 x7) := by
  intros; exact .inr ⟨rfl, _, .icmp, rfl, opc_setB _ _⟩
theorem Opcode.sel : ∀ x0 x1 x2 x3 x4 x5 x6, Opcode.Statement (.sel x0 x1 x2 x3 x4 x5 x6) := by
  intros; exact .inr ⟨rfl, _, .sel, rfl, opc_setB _ _⟩
theorem Opcode.mov : ∀ x0 x1 x2 x3 x4 x5, Opcode.Statement (.mov x0 x1 x2 x3 x4 x5) := by
  intros; exact .inr ⟨rfl, _, .mov, rfl, by split <;> first | exact opc_setB _ _ | (split <;> rfl)⟩
theorem Opcode.cnt : ∀ x0 x1 x2 x3 x4 x5, Opcode.Statement (.cnt x0 x1 x2 x3 x4 x5) := by
  intros; exact .inr ⟨rfl, _, .cnt, rfl, rfl⟩
theorem Opcode.fadd : ∀ x0 x1 x2 x3 x4 x5, Opcode.Statement (.fadd x0 x1 x2 x3 x4 x5) := by
  intros; exact .inr ⟨rfl, _, .fadd, rfl, opc_setB _ _⟩
theorem Opcode.fsub : ∀ x0 x1 x2 x3 x4 x5, Opcode.Statement (.fsub x0 x1 x2 x3 x4 x5) := by
  intros; exact .inr ⟨rfl, _, .fsub, rfl, opc_setB _ _⟩
theorem Opcode.fmul : ∀ x0 x1 x2 x3 x4 x5, Opcode.Statement (.fmul x0 x1 x2 x3 x4 x5) := by
  intros; exact .inr ⟨rfl, _, .fmul, rfl, opc_setB _ _⟩
theorem Opcode.ffma : ∀ x0 x1 x2 x3 x4 x5 x6, Opcode.Statement (.ffma x0 x1 x2 x3 x4 x5 x6) := by
  intros; exact .inr ⟨rfl, _, .ffma, rfl, opc_setB _ _⟩
theorem Opcode.fdiv : ∀ x0 x1 x2 x3 x4 x5, Opcode.Statement (.fdiv x0 x1 x2 x3 x4 x5) := by
  intros; exact .inr ⟨rfl, _, .fdiv, rfl, opc_setB _ _⟩
theorem Opcode.fsqrt : ∀ x0 x1 x2 x3 x4, Opcode.Statement (.fsqrt x0 x1 x2 x3 x4) := by
  intros; exact .inr ⟨rfl, _, .fsqrt, rfl, rfl⟩
theorem Opcode.frsq : ∀ x0 x1 x2 x3 x4, Opcode.Statement (.frsq x0 x1 x2 x3 x4) := by
  intros; exact .inr ⟨rfl, _, .frsq, rfl, rfl⟩
theorem Opcode.fmin : ∀ x0 x1 x2 x3 x4, Opcode.Statement (.fmin x0 x1 x2 x3 x4) := by
  intros; exact .inr ⟨rfl, _, .fmin, rfl, opc_setB _ _⟩
theorem Opcode.fmax : ∀ x0 x1 x2 x3 x4, Opcode.Statement (.fmax x0 x1 x2 x3 x4) := by
  intros; exact .inr ⟨rfl, _, .fmax, rfl, opc_setB _ _⟩
theorem Opcode.fcmp : ∀ x0 x1 x2 x3 x4 x5 x6, Opcode.Statement (.fcmp x0 x1 x2 x3 x4 x5 x6) := by
  intros; exact .inr ⟨rfl, _, .fcmp, rfl, opc_setB _ _⟩
theorem Opcode.fdot4 : ∀ x0 x1 x2 x3 x4 x5 x6 x7, Opcode.Statement (.fdot4 x0 x1 x2 x3 x4 x5 x6 x7) := by
  intros; exact .inr ⟨rfl, _, .fdot4, rfl, rfl⟩
theorem Opcode.fdot8 : ∀ x0 x1 x2 x3 x4 x5 x6 x7, Opcode.Statement (.fdot8 x0 x1 x2 x3 x4 x5 x6 x7) := by
  intros; exact .inr ⟨rfl, _, .fdot8, rfl, rfl⟩
theorem Opcode.gsum : ∀ x0 x1 x2 x3 x4, Opcode.Statement (.gsum x0 x1 x2 x3 x4) := by
  intros; exact .inr ⟨rfl, _, .gsum, rfl, rfl⟩
theorem Opcode.fexp : ∀ x0 x1 x2 x3 x4, Opcode.Statement (.fexp x0 x1 x2 x3 x4) := by
  intros; exact .inr ⟨rfl, _, .fexp, rfl, rfl⟩
theorem Opcode.fexp2 : ∀ x0 x1 x2 x3 x4, Opcode.Statement (.fexp2 x0 x1 x2 x3 x4) := by
  intros; exact .inr ⟨rfl, _, .fexp2, rfl, rfl⟩
theorem Opcode.fexpm1 : ∀ x0 x1 x2 x3 x4, Opcode.Statement (.fexpm1 x0 x1 x2 x3 x4) := by
  intros; exact .inr ⟨rfl, _, .fexpm1, rfl, rfl⟩
theorem Opcode.flog : ∀ x0 x1 x2 x3 x4, Opcode.Statement (.flog x0 x1 x2 x3 x4) := by
  intros; exact .inr ⟨rfl, _, .flog, rfl, rfl⟩
theorem Opcode.flog2 : ∀ x0 x1 x2 x3 x4, Opcode.Statement (.flog2 x0 x1 x2 x3 x4) := by
  intros; exact .inr ⟨rfl, _, .flog2, rfl, rfl⟩
theorem Opcode.flog1p : ∀ x0 x1 x2 x3 x4, Opcode.Statement (.flog1p x0 x1 x2 x3 x4) := by
  intros; exact .inr ⟨rfl, _, .flog1p, rfl, rfl⟩
theorem Opcode.fsin : ∀ x0 x1 x2 x3 x4, Opcode.Statement (.fsin x0 x1 x2 x3 x4) := by
  intros; exact .inr ⟨rfl, _, .fsin, rfl, rfl⟩
theorem Opcode.fcos : ∀ x0 x1 x2 x3 x4, Opcode.Statement (.fcos x0 x1 x2 x3 x4) := by
  intros; exact .inr ⟨rfl, _, .fcos, rfl, rfl⟩
theorem Opcode.fsinpi : ∀ x0 x1 x2 x3 x4, Opcode.Statement (.fsinpi x0 x1 x2 x3 x4) := by
  intros; exact .inr ⟨rfl, _, .fsinpi, rfl, rfl⟩
theorem Opcode.fcospi : ∀ x0 x1 x2 x3 x4, Opcode.Statement (.fcospi x0 x1 x2 x3 x4) := by
  intros; exact .inr ⟨rfl, _, .fcospi, rfl, rfl⟩
theorem Opcode.ftanh : ∀ x0 x1 x2 x3 x4, Opcode.Statement (.ftanh x0 x1 x2 x3 x4) := by
  intros; exact .inr ⟨rfl, _, .ftanh, rfl, rfl⟩
theorem Opcode.fsigm : ∀ x0 x1 x2 x3 x4, Opcode.Statement (.fsigm x0 x1 x2 x3 x4) := by
  intros; exact .inr ⟨rfl, _, .fsigm, rfl, rfl⟩
theorem Opcode.cvt : ∀ x0 x1 x2 x3 x4 x5 x6, Opcode.Statement (.cvt x0 x1 x2 x3 x4 x5 x6) := by
  intros; exact .inr ⟨rfl, _, .cvt, rfl, rfl⟩
theorem Opcode.qblk : ∀ x0 x1 x2 x3 x4 x5 x6, Opcode.Statement (.qblk x0 x1 x2 x3 x4 x5 x6) := by
  intros; exact .inr ⟨rfl, _, .qblk, rfl, rfl⟩
theorem Opcode.rngk : ∀ x0 x1 x2 x3 x4, Opcode.Statement (.rngk x0 x1 x2 x3 x4) := by
  intros; exact .inr ⟨rfl, _, .rngk, rfl, rfl⟩
theorem Opcode.xsel : ∀ x0 x1 x2 x3 x4 x5, Opcode.Statement (.xsel x0 x1 x2 x3 x4 x5) := by
  intros; exact .inr ⟨rfl, _, .xsel, rfl, opc_setB _ _⟩
theorem Opcode.qswap : ∀ x0 x1 x2 x3 x4, Opcode.Statement (.qswap x0 x1 x2 x3 x4) := by
  intros; exact .inr ⟨rfl, _, .qswap, rfl, rfl⟩
theorem Opcode.qbcast : ∀ x0 x1 x2 x3 x4, Opcode.Statement (.qbcast x0 x1 x2 x3 x4) := by
  intros; exact .inr ⟨rfl, _, .qbcast, rfl, rfl⟩
theorem Opcode.qdiff : ∀ x0 x1 x2 x3 x4 x5, Opcode.Statement (.qdiff x0 x1 x2 x3 x4 x5) := by
  intros; exact .inr ⟨rfl, _, .qdiff, rfl, rfl⟩
theorem Opcode.ballot : ∀ x0 x1 x2, Opcode.Statement (.ballot x0 x1 x2) := by
  intros; exact .inr ⟨rfl, _, .ballot, rfl, rfl⟩
theorem Opcode.mop : ∀ x0 x1 x2 x3 x4, Opcode.Statement (.mop x0 x1 x2 x3 x4) := by
  intros; exact .inr ⟨rfl, _, .mop, rfl, rfl⟩
theorem Opcode.mmov : ∀ x0 x1 x2 x3, Opcode.Statement (.mmov x0 x1 x2 x3) := by
  intros; exact .inr ⟨rfl, _, .mmov, rfl, rfl⟩
theorem Opcode.ldSh : ∀ x0 x1 x2 x3 x4 x5, Opcode.Statement (.ldSh x0 x1 x2 x3 x4 x5) := by
  intros; exact .inr ⟨rfl, _, .ldSh, rfl, opc_setOff _ _⟩
theorem Opcode.stSh : ∀ x0 x1 x2 x3 x4 x5, Opcode.Statement (.stSh x0 x1 x2 x3 x4 x5) := by
  intros; exact .inr ⟨rfl, _, .stSh, rfl, opc_setOff _ _⟩
theorem Opcode.ldSp : ∀ x0 x1 x2 x3 x4 x5, Opcode.Statement (.ldSp x0 x1 x2 x3 x4 x5) := by
  intros; exact .inr ⟨rfl, _, .ldSp, rfl, opc_setOff _ _⟩
theorem Opcode.stSp : ∀ x0 x1 x2 x3 x4 x5, Opcode.Statement (.stSp x0 x1 x2 x3 x4 x5) := by
  intros; exact .inr ⟨rfl, _, .stSp, rfl, opc_setOff _ _⟩
theorem Opcode.sld : ∀ x0 x1 x2 x3 x4 x5, Opcode.Statement (.sld x0 x1 x2 x3 x4 x5) := by
  intros; exact .inr ⟨rfl, _, .sld, rfl, opc_setOff _ _⟩
theorem Opcode.sst : ∀ x0 x1 x2 x3 x4 x5, Opcode.Statement (.sst x0 x1 x2 x3 x4 x5) := by
  intros; exact .inr ⟨rfl, _, .sst, rfl, opc_setOff _ _⟩
theorem Opcode.atom : ∀ x0 x1 x2 x3 x4 x5 x6 x7 x8, Opcode.Statement (.atom x0 x1 x2 x3 x4 x5 x6 x7 x8) := by
  intros; exact .inr ⟨rfl, _, .atom, rfl, opc_setOff _ _⟩
theorem Opcode.fence : ∀ x0 x1 x2, Opcode.Statement (.fence x0 x1 x2) := by
  intros; exact .inr ⟨rfl, _, .fence, rfl, rfl⟩
theorem Opcode.cpin : ∀ x0 x1 x2 x3 x4 x5 x6 x7 x8, Opcode.Statement (.cpin x0 x1 x2 x3 x4 x5 x6 x7 x8) := by
  intros; exact .inr ⟨rfl, _, .cpin, rfl, opc_setOpt _ _⟩
theorem Opcode.cpout : ∀ x0 x1 x2 x3 x4 x5 x6 x7 x8, Opcode.Statement (.cpout x0 x1 x2 x3 x4 x5 x6 x7 x8) := by
  intros; exact .inr ⟨rfl, _, .cpout, rfl, opc_setOpt _ _⟩
theorem Opcode.cpgat : ∀ x0 x1 x2 x3 x4 x5 x6 x7 x8, Opcode.Statement (.cpgat x0 x1 x2 x3 x4 x5 x6 x7 x8) := by
  intros; exact .inr ⟨rfl, _, .cpgat, rfl, opc_setOpt _ _⟩
theorem Opcode.cpbp : ∀ x0 x1 x2 x3 x4 x5 x6 x7, Opcode.Statement (.cpbp x0 x1 x2 x3 x4 x5 x6 x7) := by
  intros; exact .inr ⟨rfl, _, .cpbp, rfl, opc_setOpt _ _⟩
theorem Opcode.cppeer : ∀ x0 x1 x2 x3 x4 x5 x6 x7 x8, Opcode.Statement (.cppeer x0 x1 x2 x3 x4 x5 x6 x7 x8) := by
  intros; exact .inr ⟨rfl, _, .cppeer, rfl, opc_setOpt _ _⟩
theorem Opcode.barv : ∀ x0 x1 x2, Opcode.Statement (.barv x0 x1 x2) := by
  intros; exact .inr ⟨rfl, _, .barv, rfl, opc_setKI _ _⟩
theorem Opcode.barxExp : ∀ x0 x1 x2, Opcode.Statement (.barxExp x0 x1 x2) := by
  intros; exact .inr ⟨rfl, _, .barx, rfl, opc_setKI _ _⟩
theorem Opcode.barxCfg : ∀ x0 x1 x2, Opcode.Statement (.barxCfg x0 x1 x2) := by
  intros; exact .inr ⟨rfl, _, .barx, rfl, opc_setKI _ _⟩
theorem Opcode.barxPh : ∀ x0 x1 x2, Opcode.Statement (.barxPh x0 x1 x2) := by
  intros; exact .inr ⟨rfl, _, .barx, rfl, opc_setKI _ _⟩
theorem Opcode.barw : ∀ x0 x1 x2, Opcode.Statement (.barw x0 x1 x2) := by
  intros; exact .inr ⟨rfl, _, .barw, rfl, opc_setKI _ _⟩
theorem Opcode.fetchw : ∀ x0 x1, Opcode.Statement (.fetchw x0 x1) := by
  intros; exact .inr ⟨rfl, _, .fetchw, rfl, rfl⟩
theorem Opcode.spawn : ∀ x0 x1 x2, Opcode.Statement (.spawn x0 x1 x2) := by
  intros; exact .inr ⟨rfl, _, .spawn, rfl, rfl⟩
theorem Opcode.tend : Opcode.Statement .tend := by
  exact .inr ⟨rfl, _, .tend, rfl, rfl⟩
theorem Opcode.msetf : ∀ x0 x1, Opcode.Statement (.msetf x0 x1) := by
  intros; exact .inr ⟨rfl, _, .msetf, rfl, opc_setKI _ _⟩
theorem Opcode.mma : ∀ x0 x1 x2 x3 x4, Opcode.Statement (.mma x0 x1 x2 x3 x4) := by
  intros; exact .inr ⟨rfl, _, .mma, rfl, opc_setKI _ _⟩
theorem Opcode.macq : ∀ x0 x1, Opcode.Statement (.macq x0 x1) := by
  intros; exact .inr ⟨rfl, _, .macq, rfl, rfl⟩
theorem Opcode.mrel : ∀ x0 x1, Opcode.Statement (.mrel x0 x1) := by
  intros; exact .inr ⟨rfl, _, .mrel, rfl, rfl⟩
theorem Opcode.mldIn : ∀ x0 x1 x2 x3 x4 x5 x6 x7, Opcode.Statement (.mldIn x0 x1 x2 x3 x4 x5 x6 x7) := by
  intros; exact .inr ⟨rfl, _, .mld, rfl, opc_setKI _ _⟩
theorem Opcode.mldOut : ∀ x0 x1 x2 x3 x4 x5 x6 x7, Opcode.Statement (.mldOut x0 x1 x2 x3 x4 x5 x6 x7) := by
  intros; exact .inr ⟨rfl, _, .mld, rfl, opc_setKI _ _⟩
theorem Opcode.mdrn : ∀ x0 x1 x2 x3 x4 x5, Opcode.Statement (.mdrn x0 x1 x2 x3 x4 x5) := by
  intros; exact .inr ⟨rfl, _, .mdrn, rfl, opc_setKI _ _⟩
theorem Opcode.mzero : ∀ x0 x1 x2, Opcode.Statement (.mzero x0 x1 x2) := by
  intros; exact .inr ⟨rfl, _, .mzero, rfl, rfl⟩
theorem Opcode.bld : ∀ x0 x1 x2 x3 x4 x5, Opcode.Statement (.bld x0 x1 x2 x3 x4 x5) := by
  intros; exact .inr ⟨rfl, _, .bld, rfl, opc_setOff _ _⟩
theorem Opcode.sread : ∀ x0 x1 x2, Opcode.Statement (.sread x0 x1 x2) := by
  intros; exact .inr ⟨rfl, _, .sread, rfl, rfl⟩
theorem Opcode.swrite : ∀ x0 x1 x2, Opcode.Statement (.swrite x0 x1 x2) := by
  intros; exact .inr ⟨rfl, _, .swrite, rfl, rfl⟩
theorem Opcode.trap : ∀ x0 x1, Opcode.Statement (.trap x0 x1) := by
  intros; exact .inr ⟨rfl, _, .trap, rfl, opc_setKI _ _⟩
theorem Opcode.eret : ∀ x0, Opcode.Statement (.eret x0) := by
  intros; exact .inr ⟨rfl, _, .eret, rfl, rfl⟩
theorem Opcode.bkpt : ∀ x0, Opcode.Statement (.bkpt x0) := by
  intros; exact .inr ⟨rfl, _, .bkpt, rfl, rfl⟩
theorem Opcode.pmc : ∀ x0 x1 x2 x3, Opcode.Statement (.pmc x0 x1 x2 x3) := by
  intros; exact .inr ⟨rfl, _, .pmc, rfl, opc_setKI _ _⟩
theorem Opcode.instructionFetchFill : ∀ x0 x1 x2, Opcode.Statement (.instructionFetchFill x0 x1 x2) := by intros; exact .inl ⟨rfl, rfl⟩
theorem Opcode.issueSelect : ∀ x0 x1, Opcode.Statement (.issueSelect x0 x1) := by intros; exact .inl ⟨rfl, rfl⟩
theorem Opcode.priorityPromotion : ∀ x0 x1, Opcode.Statement (.priorityPromotion x0 x1) := by intros; exact .inl ⟨rfl, rfl⟩
theorem Opcode.tokenGrant : Opcode.Statement .tokenGrant := by exact .inl ⟨rfl, rfl⟩
theorem Opcode.loadReply : ∀ x0, Opcode.Statement (.loadReply x0) := by intros; exact .inl ⟨rfl, rfl⟩
theorem Opcode.storePerform : ∀ x0, Opcode.Statement (.storePerform x0) := by intros; exact .inl ⟨rfl, rfl⟩
theorem Opcode.atomicAtHome : ∀ x0, Opcode.Statement (.atomicAtHome x0) := by intros; exact .inl ⟨rfl, rfl⟩
theorem Opcode.sidingAccept : ∀ x0, Opcode.Statement (.sidingAccept x0) := by intros; exact .inl ⟨rfl, rfl⟩
theorem Opcode.wideUnitServe : ∀ x0, Opcode.Statement (.wideUnitServe x0) := by intros; exact .inl ⟨rfl, rfl⟩
theorem Opcode.exactStageServe : ∀ x0, Opcode.Statement (.exactStageServe x0) := by intros; exact .inl ⟨rfl, rfl⟩
theorem Opcode.arrayCommandStart : ∀ x0, Opcode.Statement (.arrayCommandStart x0) := by intros; exact .inl ⟨rfl, rfl⟩
theorem Opcode.arrayCommandComplete : ∀ x0, Opcode.Statement (.arrayCommandComplete x0) := by intros; exact .inl ⟨rfl, rfl⟩
theorem Opcode.bldPerform : ∀ x0, Opcode.Statement (.bldPerform x0) := by intros; exact .inl ⟨rfl, rfl⟩
theorem Opcode.copyPreflight : ∀ x0 x1, Opcode.Statement (.copyPreflight x0 x1) := by intros; exact .inl ⟨rfl, rfl⟩
theorem Opcode.preflightReadinessTimeout : ∀ x0, Opcode.Statement (.preflightReadinessTimeout x0) := by intros; exact .inl ⟨rfl, rfl⟩
theorem Opcode.copyBytesLanded : ∀ x0 x1, Opcode.Statement (.copyBytesLanded x0 x1) := by intros; exact .inl ⟨rfl, rfl⟩
theorem Opcode.copyComplete : ∀ x0, Opcode.Statement (.copyComplete x0) := by intros; exact .inl ⟨rfl, rfl⟩
theorem Opcode.peerCountArrival : ∀ x0 x1 x2 x3 x4, Opcode.Statement (.peerCountArrival x0 x1 x2 x3 x4) := by intros; exact .inl ⟨rfl, rfl⟩
theorem Opcode.fetchwAnswer : ∀ x0 x1, Opcode.Statement (.fetchwAnswer x0 x1) := by intros; exact .inl ⟨rfl, rfl⟩
theorem Opcode.tileComplete : ∀ x0 x1, Opcode.Statement (.tileComplete x0 x1) := by intros; exact .inl ⟨rfl, rfl⟩
theorem Opcode.updateInstant : ∀ x0, Opcode.Statement (.updateInstant x0) := by intros; exact .inl ⟨rfl, rfl⟩
theorem Opcode.infillWrite : ∀ x0 x1, Opcode.Statement (.infillWrite x0 x1) := by intros; exact .inl ⟨rfl, rfl⟩
theorem Opcode.coverageDone : ∀ x0, Opcode.Statement (.coverageDone x0) := by intros; exact .inl ⟨rfl, rfl⟩
theorem Opcode.claimAcquireRequest : ∀ x0 x1, Opcode.Statement (.claimAcquireRequest x0 x1) := by intros; exact .inl ⟨rfl, rfl⟩
theorem Opcode.woundTakesEffect : ∀ x0 x1, Opcode.Statement (.woundTakesEffect x0 x1) := by intros; exact .inl ⟨rfl, rfl⟩
theorem Opcode.rollback : ∀ x0 x1, Opcode.Statement (.rollback x0 x1) := by intros; exact .inl ⟨rfl, rfl⟩
theorem Opcode.taskAbandon : ∀ x0 x1, Opcode.Statement (.taskAbandon x0 x1) := by intros; exact .inl ⟨rfl, rfl⟩
theorem Opcode.trapEntry : ∀ x0 x1 x2, Opcode.Statement (.trapEntry x0 x1 x2) := by intros; exact .inl ⟨rfl, rfl⟩
theorem Opcode.blockTerminate : ∀ x0 x1, Opcode.Statement (.blockTerminate x0 x1) := by intros; exact .inl ⟨rfl, rfl⟩
theorem Opcode.svcRetry : ∀ x0, Opcode.Statement (.svcRetry x0) := by intros; exact .inl ⟨rfl, rfl⟩
theorem Opcode.svcFail : ∀ x0, Opcode.Statement (.svcFail x0) := by intros; exact .inl ⟨rfl, rfl⟩
theorem Opcode.correctedError : ∀ x0, Opcode.Statement (.correctedError x0) := by intros; exact .inl ⟨rfl, rfl⟩
theorem Opcode.uncorrectableError : ∀ x0, Opcode.Statement (.uncorrectableError x0) := by intros; exact .inl ⟨rfl, rfl⟩
theorem Opcode.peerLinkDown : ∀ x0 x1, Opcode.Statement (.peerLinkDown x0 x1) := by intros; exact .inl ⟨rfl, rfl⟩
theorem Opcode.peerRetrain : ∀ x0 x1, Opcode.Statement (.peerRetrain x0 x1) := by intros; exact .inl ⟨rfl, rfl⟩
theorem Opcode.thermalTrip : Opcode.Statement .thermalTrip := by exact .inl ⟨rfl, rfl⟩
theorem Opcode.thermalCooldown : Opcode.Statement .thermalCooldown := by exact .inl ⟨rfl, rfl⟩
theorem Opcode.thermalHalt : Opcode.Statement .thermalHalt := by exact .inl ⟨rfl, rfl⟩
theorem Opcode.functionReady : ∀ x0, Opcode.Statement (.functionReady x0) := by intros; exact .inl ⟨rfl, rfl⟩
theorem Opcode.powerOn : Opcode.Statement .powerOn := by exact .inl ⟨rfl, rfl⟩
theorem Opcode.deviceReset : ∀ x0 x1, Opcode.Statement (.deviceReset x0 x1) := by intros; exact .inl ⟨rfl, rfl⟩
theorem Opcode.hostPortReset : ∀ x0, Opcode.Statement (.hostPortReset x0) := by intros; exact .inl ⟨rfl, rfl⟩
theorem Opcode.hostPortLinkDown : ∀ x0, Opcode.Statement (.hostPortLinkDown x0) := by intros; exact .inl ⟨rfl, rfl⟩
theorem Opcode.mgmtBindingDown : Opcode.Statement .mgmtBindingDown := by exact .inl ⟨rfl, rfl⟩
theorem Opcode.semaphoreAcquire : ∀ x0 x1, Opcode.Statement (.semaphoreAcquire x0 x1) := by intros; exact .inl ⟨rfl, rfl⟩
theorem Opcode.semaphoreRelease : ∀ x0 x1, Opcode.Statement (.semaphoreRelease x0 x1) := by intros; exact .inl ⟨rfl, rfl⟩
theorem Opcode.mgmtRegisterRead : ∀ x0, Opcode.Statement (.mgmtRegisterRead x0) := by intros; exact .inl ⟨rfl, rfl⟩
theorem Opcode.mgmtRegisterWrite : ∀ x0, Opcode.Statement (.mgmtRegisterWrite x0) := by intros; exact .inl ⟨rfl, rfl⟩
theorem Opcode.pstateWrite : ∀ x0 x1, Opcode.Statement (.pstateWrite x0 x1) := by intros; exact .inl ⟨rfl, rfl⟩
theorem Opcode.powerStateChangeDone : Opcode.Statement .powerStateChangeDone := by exact .inl ⟨rfl, rfl⟩
theorem Opcode.fuseAdvance : ∀ x0 x1, Opcode.Statement (.fuseAdvance x0 x1) := by intros; exact .inl ⟨rfl, rfl⟩
theorem Opcode.deverrClear : ∀ x0, Opcode.Statement (.deverrClear x0) := by intros; exact .inl ⟨rfl, rfl⟩
theorem Opcode.uesrcClear : ∀ x0, Opcode.Statement (.uesrcClear x0) := by intros; exact .inl ⟨rfl, rfl⟩
theorem Opcode.stoperrClear : ∀ x0, Opcode.Statement (.stoperrClear x0) := by intros; exact .inl ⟨rfl, rfl⟩
theorem Opcode.semerrClear : ∀ x0, Opcode.Statement (.semerrClear x0) := by intros; exact .inl ⟨rfl, rfl⟩
theorem Opcode.pageAttributeWrite : ∀ x0 x1 x2, Opcode.Statement (.pageAttributeWrite x0 x1 x2) := by intros; exact .inl ⟨rfl, rfl⟩
theorem Opcode.invalidatePage : ∀ x0 x1, Opcode.Statement (.invalidatePage x0 x1) := by intros; exact .inl ⟨rfl, rfl⟩
theorem Opcode.invalidateContext : ∀ x0 x1, Opcode.Statement (.invalidateContext x0 x1) := by intros; exact .inl ⟨rfl, rfl⟩
theorem Opcode.invalidateAll : ∀ x0, Opcode.Statement (.invalidateAll x0) := by intros; exact .inl ⟨rfl, rfl⟩
theorem Opcode.invalidateDone : ∀ x0, Opcode.Statement (.invalidateDone x0) := by intros; exact .inl ⟨rfl, rfl⟩
theorem Opcode.queueEnable : ∀ x0 x1, Opcode.Statement (.queueEnable x0 x1) := by intros; exact .inl ⟨rfl, rfl⟩
theorem Opcode.queueNotify : ∀ x0 x1, Opcode.Statement (.queueNotify x0 x1) := by intros; exact .inl ⟨rfl, rfl⟩
theorem Opcode.watchLogEnable : ∀ x0, Opcode.Statement (.watchLogEnable x0) := by intros; exact .inl ⟨rfl, rfl⟩
theorem Opcode.registerWrite : ∀ x0 x1, Opcode.Statement (.registerWrite x0 x1) := by intros; exact .inl ⟨rfl, rfl⟩
theorem Opcode.seqwPoll : ∀ x0, Opcode.Statement (.seqwPoll x0) := by intros; exact .inl ⟨rfl, rfl⟩
theorem Opcode.seqwRetryTimer : ∀ x0, Opcode.Statement (.seqwRetryTimer x0) := by intros; exact .inl ⟨rfl, rfl⟩
theorem Opcode.firmwareStep : ∀ x0, Opcode.Statement (.firmwareStep x0) := by intros; exact .inl ⟨rfl, rfl⟩
theorem Opcode.noOp : ∀ x0, Opcode.Statement (.noOp x0) := by intros; exact .inl ⟨rfl, rfl⟩
theorem Opcode.tileLaunch : ∀ x0, Opcode.Statement (.tileLaunch x0) := by intros; exact .inl ⟨rfl, rfl⟩
theorem Opcode.taskLaunch : ∀ x0, Opcode.Statement (.taskLaunch x0) := by intros; exact .inl ⟨rfl, rfl⟩
theorem Opcode.writeThenSignal : ∀ x0, Opcode.Statement (.writeThenSignal x0) := by intros; exact .inl ⟨rfl, rfl⟩
theorem Opcode.waitSignal : ∀ x0, Opcode.Statement (.waitSignal x0) := by intros; exact .inl ⟨rfl, rfl⟩
theorem Opcode.waitSignalPoll : ∀ x0, Opcode.Statement (.waitSignalPoll x0) := by intros; exact .inl ⟨rfl, rfl⟩
theorem Opcode.hostCopy : ∀ x0, Opcode.Statement (.hostCopy x0) := by intros; exact .inl ⟨rfl, rfl⟩
theorem Opcode.hostCopyPieceDone : ∀ x0, Opcode.Statement (.hostCopyPieceDone x0) := by intros; exact .inl ⟨rfl, rfl⟩
theorem Opcode.moduleLoad : ∀ x0, Opcode.Statement (.moduleLoad x0) := by intros; exact .inl ⟨rfl, rfl⟩
theorem Opcode.moduleUnload : ∀ x0, Opcode.Statement (.moduleUnload x0) := by intros; exact .inl ⟨rfl, rfl⟩
theorem Opcode.moduleUnloadDone : ∀ x0, Opcode.Statement (.moduleUnloadDone x0) := by intros; exact .inl ⟨rfl, rfl⟩
theorem Opcode.manifestSnapshot : ∀ x0, Opcode.Statement (.manifestSnapshot x0) := by intros; exact .inl ⟨rfl, rfl⟩
theorem Opcode.queueDestroy : ∀ x0, Opcode.Statement (.queueDestroy x0) := by intros; exact .inl ⟨rfl, rfl⟩
theorem Opcode.queueDestroyDone : ∀ x0, Opcode.Statement (.queueDestroyDone x0) := by intros; exact .inl ⟨rfl, rfl⟩
theorem Opcode.launchPlace : Opcode.Statement .launchPlace := by exact .inl ⟨rfl, rfl⟩
theorem Opcode.launchComplete : ∀ x0, Opcode.Statement (.launchComplete x0) := by intros; exact .inl ⟨rfl, rfl⟩
theorem Opcode.timeSliceExpiry : ∀ x0, Opcode.Statement (.timeSliceExpiry x0) := by intros; exact .inl ⟨rfl, rfl⟩
theorem Opcode.preemptContext : ∀ x0, Opcode.Statement (.preemptContext x0) := by intros; exact .inl ⟨rfl, rfl⟩
theorem Opcode.stopAck : ∀ x0 x1, Opcode.Statement (.stopAck x0 x1) := by intros; exact .inl ⟨rfl, rfl⟩
theorem Opcode.stopTimeout : ∀ x0, Opcode.Statement (.stopTimeout x0) := by intros; exact .inl ⟨rfl, rfl⟩
theorem Opcode.contextResume : ∀ x0, Opcode.Statement (.contextResume x0) := by intros; exact .inl ⟨rfl, rfl⟩
theorem Opcode.debugHalt : ∀ x0, Opcode.Statement (.debugHalt x0) := by intros; exact .inl ⟨rfl, rfl⟩
theorem Opcode.debugHaltDrain : ∀ x0, Opcode.Statement (.debugHaltDrain x0) := by intros; exact .inl ⟨rfl, rfl⟩
theorem Opcode.debugResume : ∀ x0, Opcode.Statement (.debugResume x0) := by intros; exact .inl ⟨rfl, rfl⟩
theorem Opcode.debugHaltDone : ∀ x0, Opcode.Statement (.debugHaltDone x0) := by intros; exact .inl ⟨rfl, rfl⟩
theorem Opcode.requestFirmwareData : ∀ x0 x1 x2, Opcode.Statement (.requestFirmwareData x0 x1 x2) := by intros; exact .inl ⟨rfl, rfl⟩
theorem Opcode.activateFirmware : Opcode.Statement .activateFirmware := by exact .inl ⟨rfl, rfl⟩
theorem Opcode.activateSemfwuTimeout : Opcode.Statement .activateSemfwuTimeout := by exact .inl ⟨rfl, rfl⟩
theorem Opcode.bootReadyTimeout : Opcode.Statement .bootReadyTimeout := by exact .inl ⟨rfl, rfl⟩
theorem Opcode.peerCopyRequest : ∀ x0 x1 x2 x3, Opcode.Statement (.peerCopyRequest x0 x1 x2 x3) := by intros; exact .inl ⟨rfl, rfl⟩

end Sys2Proof.Laws
end

