-- ==== Sys2Proof/Laws/State.lean ====
section
/-! SUPPORT. Each field of the state, and of a group, after each of the plain updates: one lemma per field that an update leaves, so that no
proof unfolds a record update. -/

namespace Sys2Proof.Machine

/-! ## State.setGroup -/

@[simp] theorem State.setGroup_clk (s : State) (k : Nat) (g : Group) : (s.setGroup k g).clk = s.clk := rfl
@[simp] theorem State.setGroup_mem (s : State) (k : Nat) (g : Group) : (s.setGroup k g).mem = s.mem := rfl
@[simp] theorem State.setGroup_poison (s : State) (k : Nat) (g : Group) : (s.setGroup k g).poison = s.poison := rfl
@[simp] theorem State.setGroup_bar0 (s : State) (k : Nat) (g : Group) : (s.setGroup k g).bar0 = s.bar0 := rfl
@[simp] theorem State.setGroup_pat (s : State) (k : Nat) (g : Group) : (s.setGroup k g).pat = s.pat := rfl
@[simp] theorem State.setGroup_semWin (s : State) (k : Nat) (g : Group) : (s.setGroup k g).semWin = s.semWin := rfl
@[simp] theorem State.setGroup_msix (s : State) (k : Nat) (g : Group) : (s.setGroup k g).msix = s.msix := rfl
@[simp] theorem State.setGroup_mgmtAnswer (s : State) (k : Nat) (g : Group) : (s.setGroup k g).mgmtAnswer = s.mgmtAnswer := rfl
@[simp] theorem State.setGroup_psChange (s : State) (k : Nat) (g : Group) : (s.setGroup k g).psChange = s.psChange := rfl
@[simp] theorem State.setGroup_psHeld (s : State) (k : Nat) (g : Group) : (s.setGroup k g).psHeld = s.psHeld := rfl
@[simp] theorem State.setGroup_psTrip (s : State) (k : Nat) (g : Group) : (s.setGroup k g).psTrip = s.psTrip := rfl
@[simp] theorem State.setGroup_deadBits (s : State) (k : Nat) (g : Group) : (s.setGroup k g).deadBits = s.deadBits := rfl
@[simp] theorem State.setGroup_invWait (s : State) (k : Nat) (g : Group) : (s.setGroup k g).invWait = s.invWait := rfl
@[simp] theorem State.setGroup_hot (s : State) (k : Nat) (g : Group) : (s.setGroup k g).hot = s.hot := rfl
@[simp] theorem State.setGroup_halted (s : State) (k : Nat) (g : Group) : (s.setGroup k g).halted = s.halted := rfl
@[simp] theorem State.setGroup_tokenReqs (s : State) (k : Nat) (g : Group) : (s.setGroup k g).tokenReqs = s.tokenReqs := rfl
@[simp] theorem State.setGroup_tokens (s : State) (k : Nat) (g : Group) : (s.setGroup k g).tokens = s.tokens := rfl
@[simp] theorem State.setGroup_firmware (s : State) (k : Nat) (g : Group) : (s.setGroup k g).firmware = s.firmware := rfl
@[simp] theorem State.setGroup_microcode (s : State) (k : Nat) (g : Group) : (s.setGroup k g).microcode = s.microcode := rfl
@[simp] theorem State.setGroup_translator (s : State) (k : Nat) (g : Group) : (s.setGroup k g).translator = s.translator := rfl
@[simp] theorem State.setGroup_transfer (s : State) (k : Nat) (g : Group) : (s.setGroup k g).transfer = s.transfer := rfl
@[simp] theorem State.setGroup_fwReport (s : State) (k : Nat) (g : Group) : (s.setGroup k g).fwReport = s.fwReport := rfl
@[simp] theorem State.setGroup_activating (s : State) (k : Nat) (g : Group) : (s.setGroup k g).activating = s.activating := rfl
@[simp] theorem State.setGroup_modules (s : State) (k : Nat) (g : Group) : (s.setGroup k g).modules = s.modules := rfl
@[simp] theorem State.setGroup_transCache (s : State) (k : Nat) (g : Group) : (s.setGroup k g).transCache = s.transCache := rfl
@[simp] theorem State.setGroup_tlb (s : State) (k : Nat) (g : Group) : (s.setGroup k g).tlb = s.tlb := rfl
@[simp] theorem State.setGroup_l0 (s : State) (k : Nat) (g : Group) : (s.setGroup k g).l0 = s.l0 := rfl
@[simp] theorem State.setGroup_l1 (s : State) (k : Nat) (g : Group) : (s.setGroup k g).l1 = s.l1 := rfl
@[simp] theorem State.setGroup_l2 (s : State) (k : Nat) (g : Group) : (s.setGroup k g).l2 = s.l2 := rfl
@[simp] theorem State.setGroup_age (s : State) (k : Nat) (g : Group) : (s.setGroup k g).age = s.age := rfl
@[simp] theorem State.setGroup_svc (s : State) (k : Nat) (g : Group) : (s.setGroup k g).svc = s.svc := rfl
@[simp] theorem State.setGroup_blocks (s : State) (k : Nat) (g : Group) : (s.setGroup k g).blocks = s.blocks := rfl
@[simp] theorem State.setGroup_tiles (s : State) (k : Nat) (g : Group) : (s.setGroup k g).tiles = s.tiles := rfl
@[simp] theorem State.setGroup_launches (s : State) (k : Nat) (g : Group) : (s.setGroup k g).launches = s.launches := rfl
@[simp] theorem State.setGroup_taskQueues (s : State) (k : Nat) (g : Group) : (s.setGroup k g).taskQueues = s.taskQueues := rfl
@[simp] theorem State.setGroup_packets (s : State) (k : Nat) (g : Group) : (s.setGroup k g).packets = s.packets := rfl
@[simp] theorem State.setGroup_polls (s : State) (k : Nat) (g : Group) : (s.setGroup k g).polls = s.polls := rfl
@[simp] theorem State.setGroup_laps (s : State) (k : Nat) (g : Group) : (s.setGroup k g).laps = s.laps := rfl
@[simp] theorem State.setGroup_laneLast (s : State) (k : Nat) (g : Group) : (s.setGroup k g).laneLast = s.laneLast := rfl
@[simp] theorem State.setGroup_contexts (s : State) (k : Nat) (g : Group) : (s.setGroup k g).contexts = s.contexts := rfl
@[simp] theorem State.setGroup_accesses (s : State) (k : Nat) (g : Group) : (s.setGroup k g).accesses = s.accesses := rfl
@[simp] theorem State.setGroup_forwarded (s : State) (k : Nat) (g : Group) : (s.setGroup k g).forwarded = s.forwarded := rfl
@[simp] theorem State.setGroup_past (s : State) (k : Nat) (g : Group) : (s.setGroup k g).past = s.past := rfl
@[simp] theorem State.setGroup_known (s : State) (k : Nat) (g : Group) : (s.setGroup k g).known = s.known := rfl
@[simp] theorem State.setGroup_copies (s : State) (k : Nat) (g : Group) : (s.setGroup k g).copies = s.copies := rfl
@[simp] theorem State.setGroup_arrays (s : State) (k : Nat) (g : Group) : (s.setGroup k g).arrays = s.arrays := rfl
@[simp] theorem State.setGroup_parked (s : State) (k : Nat) (g : Group) : (s.setGroup k g).parked = s.parked := rfl
@[simp] theorem State.setGroup_seqs (s : State) (k : Nat) (g : Group) : (s.setGroup k g).seqs = s.seqs := rfl
@[simp] theorem State.setGroup_sideLast (s : State) (k : Nat) (g : Group) : (s.setGroup k g).sideLast = s.sideLast := rfl
@[simp] theorem State.setGroup_peerCounts (s : State) (k : Nat) (g : Group) : (s.setGroup k g).peerCounts = s.peerCounts := rfl
@[simp] theorem State.setGroup_peerHeld (s : State) (k : Nat) (g : Group) : (s.setGroup k g).peerHeld = s.peerHeld := rfl
@[simp] theorem State.setGroup_watch (s : State) (k : Nat) (g : Group) : (s.setGroup k g).watch = s.watch := rfl
@[simp] theorem State.setGroup_outbox (s : State) (k : Nat) (g : Group) : (s.setGroup k g).outbox = s.outbox := rfl
@[simp] theorem State.setGroup_lastGroup (s : State) (k : Nat) (g : Group) : (s.setGroup k g).lastGroup = s.lastGroup := rfl
@[simp] theorem State.setGroup_portHeld (s : State) (k : Nat) (g : Group) : (s.setGroup k g).portHeld = s.portHeld := rfl
@[simp] theorem State.setGroup_corePmc (s : State) (k : Nat) (g : Group) : (s.setGroup k g).corePmc = s.corePmc := rfl
@[simp] theorem State.setGroup_sel (s : State) (k : Nat) (g : Group) : (s.setGroup k g).sel = s.sel := rfl
@[simp] theorem State.setGroup_declined (s : State) (k : Nat) (g : Group) : (s.setGroup k g).declined = s.declined := rfl
@[simp] theorem State.setGroup_agenda (s : State) (k : Nat) (g : Group) : (s.setGroup k g).agenda = s.agenda := rfl
@[simp] theorem State.setGroup_free (s : State) (k : Nat) (g : Group) : (s.setGroup k g).free = s.free := rfl
@[simp] theorem State.setGroup_nextId (s : State) (k : Nat) (g : Group) : (s.setGroup k g).nextId = s.nextId := rfl
@[simp] theorem State.setGroup_badWrite (s : State) (k : Nat) (g : Group) : (s.setGroup k g).badWrite = s.badWrite := rfl

/-! ## State.updGroup -/

@[simp] theorem State.updGroup_clk (s : State) (k : Nat) (f : Group → Group) : (s.updGroup k f).clk = s.clk := rfl
@[simp] theorem State.updGroup_mem (s : State) (k : Nat) (f : Group → Group) : (s.updGroup k f).mem = s.mem := rfl
@[simp] theorem State.updGroup_poison (s : State) (k : Nat) (f : Group → Group) : (s.updGroup k f).poison = s.poison := rfl
@[simp] theorem State.updGroup_bar0 (s : State) (k : Nat) (f : Group → Group) : (s.updGroup k f).bar0 = s.bar0 := rfl
@[simp] theorem State.updGroup_pat (s : State) (k : Nat) (f : Group → Group) : (s.updGroup k f).pat = s.pat := rfl
@[simp] theorem State.updGroup_semWin (s : State) (k : Nat) (f : Group → Group) : (s.updGroup k f).semWin = s.semWin := rfl
@[simp] theorem State.updGroup_msix (s : State) (k : Nat) (f : Group → Group) : (s.updGroup k f).msix = s.msix := rfl
@[simp] theorem State.updGroup_mgmtAnswer (s : State) (k : Nat) (f : Group → Group) : (s.updGroup k f).mgmtAnswer = s.mgmtAnswer := rfl
@[simp] theorem State.updGroup_psChange (s : State) (k : Nat) (f : Group → Group) : (s.updGroup k f).psChange = s.psChange := rfl
@[simp] theorem State.updGroup_psHeld (s : State) (k : Nat) (f : Group → Group) : (s.updGroup k f).psHeld = s.psHeld := rfl
@[simp] theorem State.updGroup_psTrip (s : State) (k : Nat) (f : Group → Group) : (s.updGroup k f).psTrip = s.psTrip := rfl
@[simp] theorem State.updGroup_deadBits (s : State) (k : Nat) (f : Group → Group) : (s.updGroup k f).deadBits = s.deadBits := rfl
@[simp] theorem State.updGroup_invWait (s : State) (k : Nat) (f : Group → Group) : (s.updGroup k f).invWait = s.invWait := rfl
@[simp] theorem State.updGroup_hot (s : State) (k : Nat) (f : Group → Group) : (s.updGroup k f).hot = s.hot := rfl
@[simp] theorem State.updGroup_halted (s : State) (k : Nat) (f : Group → Group) : (s.updGroup k f).halted = s.halted := rfl
@[simp] theorem State.updGroup_tokenReqs (s : State) (k : Nat) (f : Group → Group) : (s.updGroup k f).tokenReqs = s.tokenReqs := rfl
@[simp] theorem State.updGroup_tokens (s : State) (k : Nat) (f : Group → Group) : (s.updGroup k f).tokens = s.tokens := rfl
@[simp] theorem State.updGroup_firmware (s : State) (k : Nat) (f : Group → Group) : (s.updGroup k f).firmware = s.firmware := rfl
@[simp] theorem State.updGroup_microcode (s : State) (k : Nat) (f : Group → Group) : (s.updGroup k f).microcode = s.microcode := rfl
@[simp] theorem State.updGroup_translator (s : State) (k : Nat) (f : Group → Group) : (s.updGroup k f).translator = s.translator := rfl
@[simp] theorem State.updGroup_transfer (s : State) (k : Nat) (f : Group → Group) : (s.updGroup k f).transfer = s.transfer := rfl
@[simp] theorem State.updGroup_fwReport (s : State) (k : Nat) (f : Group → Group) : (s.updGroup k f).fwReport = s.fwReport := rfl
@[simp] theorem State.updGroup_activating (s : State) (k : Nat) (f : Group → Group) : (s.updGroup k f).activating = s.activating := rfl
@[simp] theorem State.updGroup_modules (s : State) (k : Nat) (f : Group → Group) : (s.updGroup k f).modules = s.modules := rfl
@[simp] theorem State.updGroup_transCache (s : State) (k : Nat) (f : Group → Group) : (s.updGroup k f).transCache = s.transCache := rfl
@[simp] theorem State.updGroup_tlb (s : State) (k : Nat) (f : Group → Group) : (s.updGroup k f).tlb = s.tlb := rfl
@[simp] theorem State.updGroup_l0 (s : State) (k : Nat) (f : Group → Group) : (s.updGroup k f).l0 = s.l0 := rfl
@[simp] theorem State.updGroup_l1 (s : State) (k : Nat) (f : Group → Group) : (s.updGroup k f).l1 = s.l1 := rfl
@[simp] theorem State.updGroup_l2 (s : State) (k : Nat) (f : Group → Group) : (s.updGroup k f).l2 = s.l2 := rfl
@[simp] theorem State.updGroup_age (s : State) (k : Nat) (f : Group → Group) : (s.updGroup k f).age = s.age := rfl
@[simp] theorem State.updGroup_svc (s : State) (k : Nat) (f : Group → Group) : (s.updGroup k f).svc = s.svc := rfl
@[simp] theorem State.updGroup_blocks (s : State) (k : Nat) (f : Group → Group) : (s.updGroup k f).blocks = s.blocks := rfl
@[simp] theorem State.updGroup_tiles (s : State) (k : Nat) (f : Group → Group) : (s.updGroup k f).tiles = s.tiles := rfl
@[simp] theorem State.updGroup_launches (s : State) (k : Nat) (f : Group → Group) : (s.updGroup k f).launches = s.launches := rfl
@[simp] theorem State.updGroup_taskQueues (s : State) (k : Nat) (f : Group → Group) : (s.updGroup k f).taskQueues = s.taskQueues := rfl
@[simp] theorem State.updGroup_packets (s : State) (k : Nat) (f : Group → Group) : (s.updGroup k f).packets = s.packets := rfl
@[simp] theorem State.updGroup_polls (s : State) (k : Nat) (f : Group → Group) : (s.updGroup k f).polls = s.polls := rfl
@[simp] theorem State.updGroup_laps (s : State) (k : Nat) (f : Group → Group) : (s.updGroup k f).laps = s.laps := rfl
@[simp] theorem State.updGroup_laneLast (s : State) (k : Nat) (f : Group → Group) : (s.updGroup k f).laneLast = s.laneLast := rfl
@[simp] theorem State.updGroup_contexts (s : State) (k : Nat) (f : Group → Group) : (s.updGroup k f).contexts = s.contexts := rfl
@[simp] theorem State.updGroup_accesses (s : State) (k : Nat) (f : Group → Group) : (s.updGroup k f).accesses = s.accesses := rfl
@[simp] theorem State.updGroup_forwarded (s : State) (k : Nat) (f : Group → Group) : (s.updGroup k f).forwarded = s.forwarded := rfl
@[simp] theorem State.updGroup_past (s : State) (k : Nat) (f : Group → Group) : (s.updGroup k f).past = s.past := rfl
@[simp] theorem State.updGroup_known (s : State) (k : Nat) (f : Group → Group) : (s.updGroup k f).known = s.known := rfl
@[simp] theorem State.updGroup_copies (s : State) (k : Nat) (f : Group → Group) : (s.updGroup k f).copies = s.copies := rfl
@[simp] theorem State.updGroup_arrays (s : State) (k : Nat) (f : Group → Group) : (s.updGroup k f).arrays = s.arrays := rfl
@[simp] theorem State.updGroup_parked (s : State) (k : Nat) (f : Group → Group) : (s.updGroup k f).parked = s.parked := rfl
@[simp] theorem State.updGroup_seqs (s : State) (k : Nat) (f : Group → Group) : (s.updGroup k f).seqs = s.seqs := rfl
@[simp] theorem State.updGroup_sideLast (s : State) (k : Nat) (f : Group → Group) : (s.updGroup k f).sideLast = s.sideLast := rfl
@[simp] theorem State.updGroup_peerCounts (s : State) (k : Nat) (f : Group → Group) : (s.updGroup k f).peerCounts = s.peerCounts := rfl
@[simp] theorem State.updGroup_peerHeld (s : State) (k : Nat) (f : Group → Group) : (s.updGroup k f).peerHeld = s.peerHeld := rfl
@[simp] theorem State.updGroup_watch (s : State) (k : Nat) (f : Group → Group) : (s.updGroup k f).watch = s.watch := rfl
@[simp] theorem State.updGroup_outbox (s : State) (k : Nat) (f : Group → Group) : (s.updGroup k f).outbox = s.outbox := rfl
@[simp] theorem State.updGroup_lastGroup (s : State) (k : Nat) (f : Group → Group) : (s.updGroup k f).lastGroup = s.lastGroup := rfl
@[simp] theorem State.updGroup_portHeld (s : State) (k : Nat) (f : Group → Group) : (s.updGroup k f).portHeld = s.portHeld := rfl
@[simp] theorem State.updGroup_corePmc (s : State) (k : Nat) (f : Group → Group) : (s.updGroup k f).corePmc = s.corePmc := rfl
@[simp] theorem State.updGroup_sel (s : State) (k : Nat) (f : Group → Group) : (s.updGroup k f).sel = s.sel := rfl
@[simp] theorem State.updGroup_declined (s : State) (k : Nat) (f : Group → Group) : (s.updGroup k f).declined = s.declined := rfl
@[simp] theorem State.updGroup_agenda (s : State) (k : Nat) (f : Group → Group) : (s.updGroup k f).agenda = s.agenda := rfl
@[simp] theorem State.updGroup_free (s : State) (k : Nat) (f : Group → Group) : (s.updGroup k f).free = s.free := rfl
@[simp] theorem State.updGroup_nextId (s : State) (k : Nat) (f : Group → Group) : (s.updGroup k f).nextId = s.nextId := rfl
@[simp] theorem State.updGroup_badWrite (s : State) (k : Nat) (f : Group → Group) : (s.updGroup k f).badWrite = s.badWrite := rfl

/-! ## State.updLaunch -/

@[simp] theorem State.updLaunch_clk (s : State) (k : Nat) (f : Launch → Launch) : (s.updLaunch k f).clk = s.clk := rfl
@[simp] theorem State.updLaunch_mem (s : State) (k : Nat) (f : Launch → Launch) : (s.updLaunch k f).mem = s.mem := rfl
@[simp] theorem State.updLaunch_poison (s : State) (k : Nat) (f : Launch → Launch) : (s.updLaunch k f).poison = s.poison := rfl
@[simp] theorem State.updLaunch_bar0 (s : State) (k : Nat) (f : Launch → Launch) : (s.updLaunch k f).bar0 = s.bar0 := rfl
@[simp] theorem State.updLaunch_pat (s : State) (k : Nat) (f : Launch → Launch) : (s.updLaunch k f).pat = s.pat := rfl
@[simp] theorem State.updLaunch_semWin (s : State) (k : Nat) (f : Launch → Launch) : (s.updLaunch k f).semWin = s.semWin := rfl
@[simp] theorem State.updLaunch_msix (s : State) (k : Nat) (f : Launch → Launch) : (s.updLaunch k f).msix = s.msix := rfl
@[simp] theorem State.updLaunch_mgmtAnswer (s : State) (k : Nat) (f : Launch → Launch) : (s.updLaunch k f).mgmtAnswer = s.mgmtAnswer := rfl
@[simp] theorem State.updLaunch_psChange (s : State) (k : Nat) (f : Launch → Launch) : (s.updLaunch k f).psChange = s.psChange := rfl
@[simp] theorem State.updLaunch_psHeld (s : State) (k : Nat) (f : Launch → Launch) : (s.updLaunch k f).psHeld = s.psHeld := rfl
@[simp] theorem State.updLaunch_psTrip (s : State) (k : Nat) (f : Launch → Launch) : (s.updLaunch k f).psTrip = s.psTrip := rfl
@[simp] theorem State.updLaunch_deadBits (s : State) (k : Nat) (f : Launch → Launch) : (s.updLaunch k f).deadBits = s.deadBits := rfl
@[simp] theorem State.updLaunch_invWait (s : State) (k : Nat) (f : Launch → Launch) : (s.updLaunch k f).invWait = s.invWait := rfl
@[simp] theorem State.updLaunch_hot (s : State) (k : Nat) (f : Launch → Launch) : (s.updLaunch k f).hot = s.hot := rfl
@[simp] theorem State.updLaunch_halted (s : State) (k : Nat) (f : Launch → Launch) : (s.updLaunch k f).halted = s.halted := rfl
@[simp] theorem State.updLaunch_tokenReqs (s : State) (k : Nat) (f : Launch → Launch) : (s.updLaunch k f).tokenReqs = s.tokenReqs := rfl
@[simp] theorem State.updLaunch_tokens (s : State) (k : Nat) (f : Launch → Launch) : (s.updLaunch k f).tokens = s.tokens := rfl
@[simp] theorem State.updLaunch_firmware (s : State) (k : Nat) (f : Launch → Launch) : (s.updLaunch k f).firmware = s.firmware := rfl
@[simp] theorem State.updLaunch_microcode (s : State) (k : Nat) (f : Launch → Launch) : (s.updLaunch k f).microcode = s.microcode := rfl
@[simp] theorem State.updLaunch_translator (s : State) (k : Nat) (f : Launch → Launch) : (s.updLaunch k f).translator = s.translator := rfl
@[simp] theorem State.updLaunch_transfer (s : State) (k : Nat) (f : Launch → Launch) : (s.updLaunch k f).transfer = s.transfer := rfl
@[simp] theorem State.updLaunch_fwReport (s : State) (k : Nat) (f : Launch → Launch) : (s.updLaunch k f).fwReport = s.fwReport := rfl
@[simp] theorem State.updLaunch_activating (s : State) (k : Nat) (f : Launch → Launch) : (s.updLaunch k f).activating = s.activating := rfl
@[simp] theorem State.updLaunch_modules (s : State) (k : Nat) (f : Launch → Launch) : (s.updLaunch k f).modules = s.modules := rfl
@[simp] theorem State.updLaunch_transCache (s : State) (k : Nat) (f : Launch → Launch) : (s.updLaunch k f).transCache = s.transCache := rfl
@[simp] theorem State.updLaunch_tlb (s : State) (k : Nat) (f : Launch → Launch) : (s.updLaunch k f).tlb = s.tlb := rfl
@[simp] theorem State.updLaunch_l0 (s : State) (k : Nat) (f : Launch → Launch) : (s.updLaunch k f).l0 = s.l0 := rfl
@[simp] theorem State.updLaunch_l1 (s : State) (k : Nat) (f : Launch → Launch) : (s.updLaunch k f).l1 = s.l1 := rfl
@[simp] theorem State.updLaunch_l2 (s : State) (k : Nat) (f : Launch → Launch) : (s.updLaunch k f).l2 = s.l2 := rfl
@[simp] theorem State.updLaunch_age (s : State) (k : Nat) (f : Launch → Launch) : (s.updLaunch k f).age = s.age := rfl
@[simp] theorem State.updLaunch_svc (s : State) (k : Nat) (f : Launch → Launch) : (s.updLaunch k f).svc = s.svc := rfl
@[simp] theorem State.updLaunch_groups (s : State) (k : Nat) (f : Launch → Launch) : (s.updLaunch k f).groups = s.groups := rfl
@[simp] theorem State.updLaunch_blocks (s : State) (k : Nat) (f : Launch → Launch) : (s.updLaunch k f).blocks = s.blocks := rfl
@[simp] theorem State.updLaunch_tiles (s : State) (k : Nat) (f : Launch → Launch) : (s.updLaunch k f).tiles = s.tiles := rfl
@[simp] theorem State.updLaunch_taskQueues (s : State) (k : Nat) (f : Launch → Launch) : (s.updLaunch k f).taskQueues = s.taskQueues := rfl
@[simp] theorem State.updLaunch_packets (s : State) (k : Nat) (f : Launch → Launch) : (s.updLaunch k f).packets = s.packets := rfl
@[simp] theorem State.updLaunch_polls (s : State) (k : Nat) (f : Launch → Launch) : (s.updLaunch k f).polls = s.polls := rfl
@[simp] theorem State.updLaunch_laps (s : State) (k : Nat) (f : Launch → Launch) : (s.updLaunch k f).laps = s.laps := rfl
@[simp] theorem State.updLaunch_laneLast (s : State) (k : Nat) (f : Launch → Launch) : (s.updLaunch k f).laneLast = s.laneLast := rfl
@[simp] theorem State.updLaunch_contexts (s : State) (k : Nat) (f : Launch → Launch) : (s.updLaunch k f).contexts = s.contexts := rfl
@[simp] theorem State.updLaunch_accesses (s : State) (k : Nat) (f : Launch → Launch) : (s.updLaunch k f).accesses = s.accesses := rfl
@[simp] theorem State.updLaunch_forwarded (s : State) (k : Nat) (f : Launch → Launch) : (s.updLaunch k f).forwarded = s.forwarded := rfl
@[simp] theorem State.updLaunch_past (s : State) (k : Nat) (f : Launch → Launch) : (s.updLaunch k f).past = s.past := rfl
@[simp] theorem State.updLaunch_known (s : State) (k : Nat) (f : Launch → Launch) : (s.updLaunch k f).known = s.known := rfl
@[simp] theorem State.updLaunch_copies (s : State) (k : Nat) (f : Launch → Launch) : (s.updLaunch k f).copies = s.copies := rfl
@[simp] theorem State.updLaunch_arrays (s : State) (k : Nat) (f : Launch → Launch) : (s.updLaunch k f).arrays = s.arrays := rfl
@[simp] theorem State.updLaunch_parked (s : State) (k : Nat) (f : Launch → Launch) : (s.updLaunch k f).parked = s.parked := rfl
@[simp] theorem State.updLaunch_seqs (s : State) (k : Nat) (f : Launch → Launch) : (s.updLaunch k f).seqs = s.seqs := rfl
@[simp] theorem State.updLaunch_sideLast (s : State) (k : Nat) (f : Launch → Launch) : (s.updLaunch k f).sideLast = s.sideLast := rfl
@[simp] theorem State.updLaunch_peerCounts (s : State) (k : Nat) (f : Launch → Launch) : (s.updLaunch k f).peerCounts = s.peerCounts := rfl
@[simp] theorem State.updLaunch_peerHeld (s : State) (k : Nat) (f : Launch → Launch) : (s.updLaunch k f).peerHeld = s.peerHeld := rfl
@[simp] theorem State.updLaunch_watch (s : State) (k : Nat) (f : Launch → Launch) : (s.updLaunch k f).watch = s.watch := rfl
@[simp] theorem State.updLaunch_outbox (s : State) (k : Nat) (f : Launch → Launch) : (s.updLaunch k f).outbox = s.outbox := rfl
@[simp] theorem State.updLaunch_lastGroup (s : State) (k : Nat) (f : Launch → Launch) : (s.updLaunch k f).lastGroup = s.lastGroup := rfl
@[simp] theorem State.updLaunch_portHeld (s : State) (k : Nat) (f : Launch → Launch) : (s.updLaunch k f).portHeld = s.portHeld := rfl
@[simp] theorem State.updLaunch_corePmc (s : State) (k : Nat) (f : Launch → Launch) : (s.updLaunch k f).corePmc = s.corePmc := rfl
@[simp] theorem State.updLaunch_sel (s : State) (k : Nat) (f : Launch → Launch) : (s.updLaunch k f).sel = s.sel := rfl
@[simp] theorem State.updLaunch_declined (s : State) (k : Nat) (f : Launch → Launch) : (s.updLaunch k f).declined = s.declined := rfl
@[simp] theorem State.updLaunch_agenda (s : State) (k : Nat) (f : Launch → Launch) : (s.updLaunch k f).agenda = s.agenda := rfl
@[simp] theorem State.updLaunch_free (s : State) (k : Nat) (f : Launch → Launch) : (s.updLaunch k f).free = s.free := rfl
@[simp] theorem State.updLaunch_nextId (s : State) (k : Nat) (f : Launch → Launch) : (s.updLaunch k f).nextId = s.nextId := rfl
@[simp] theorem State.updLaunch_badWrite (s : State) (k : Nat) (f : Launch → Launch) : (s.updLaunch k f).badWrite = s.badWrite := rfl

/-! ## State.setReg -/

@[simp] theorem State.setReg_clk (s : State) (o : Nat) (x : Word) : (s.setReg o x).clk = s.clk := rfl
@[simp] theorem State.setReg_mem (s : State) (o : Nat) (x : Word) : (s.setReg o x).mem = s.mem := rfl
@[simp] theorem State.setReg_poison (s : State) (o : Nat) (x : Word) : (s.setReg o x).poison = s.poison := rfl
@[simp] theorem State.setReg_pat (s : State) (o : Nat) (x : Word) : (s.setReg o x).pat = s.pat := rfl
@[simp] theorem State.setReg_semWin (s : State) (o : Nat) (x : Word) : (s.setReg o x).semWin = s.semWin := rfl
@[simp] theorem State.setReg_msix (s : State) (o : Nat) (x : Word) : (s.setReg o x).msix = s.msix := rfl
@[simp] theorem State.setReg_mgmtAnswer (s : State) (o : Nat) (x : Word) : (s.setReg o x).mgmtAnswer = s.mgmtAnswer := rfl
@[simp] theorem State.setReg_psChange (s : State) (o : Nat) (x : Word) : (s.setReg o x).psChange = s.psChange := rfl
@[simp] theorem State.setReg_psHeld (s : State) (o : Nat) (x : Word) : (s.setReg o x).psHeld = s.psHeld := rfl
@[simp] theorem State.setReg_psTrip (s : State) (o : Nat) (x : Word) : (s.setReg o x).psTrip = s.psTrip := rfl
@[simp] theorem State.setReg_deadBits (s : State) (o : Nat) (x : Word) : (s.setReg o x).deadBits = s.deadBits := rfl
@[simp] theorem State.setReg_invWait (s : State) (o : Nat) (x : Word) : (s.setReg o x).invWait = s.invWait := rfl
@[simp] theorem State.setReg_hot (s : State) (o : Nat) (x : Word) : (s.setReg o x).hot = s.hot := rfl
@[simp] theorem State.setReg_halted (s : State) (o : Nat) (x : Word) : (s.setReg o x).halted = s.halted := rfl
@[simp] theorem State.setReg_tokenReqs (s : State) (o : Nat) (x : Word) : (s.setReg o x).tokenReqs = s.tokenReqs := rfl
@[simp] theorem State.setReg_tokens (s : State) (o : Nat) (x : Word) : (s.setReg o x).tokens = s.tokens := rfl
@[simp] theorem State.setReg_firmware (s : State) (o : Nat) (x : Word) : (s.setReg o x).firmware = s.firmware := rfl
@[simp] theorem State.setReg_microcode (s : State) (o : Nat) (x : Word) : (s.setReg o x).microcode = s.microcode := rfl
@[simp] theorem State.setReg_translator (s : State) (o : Nat) (x : Word) : (s.setReg o x).translator = s.translator := rfl
@[simp] theorem State.setReg_transfer (s : State) (o : Nat) (x : Word) : (s.setReg o x).transfer = s.transfer := rfl
@[simp] theorem State.setReg_fwReport (s : State) (o : Nat) (x : Word) : (s.setReg o x).fwReport = s.fwReport := rfl
@[simp] theorem State.setReg_activating (s : State) (o : Nat) (x : Word) : (s.setReg o x).activating = s.activating := rfl
@[simp] theorem State.setReg_modules (s : State) (o : Nat) (x : Word) : (s.setReg o x).modules = s.modules := rfl
@[simp] theorem State.setReg_transCache (s : State) (o : Nat) (x : Word) : (s.setReg o x).transCache = s.transCache := rfl
@[simp] theorem State.setReg_tlb (s : State) (o : Nat) (x : Word) : (s.setReg o x).tlb = s.tlb := rfl
@[simp] theorem State.setReg_l0 (s : State) (o : Nat) (x : Word) : (s.setReg o x).l0 = s.l0 := rfl
@[simp] theorem State.setReg_l1 (s : State) (o : Nat) (x : Word) : (s.setReg o x).l1 = s.l1 := rfl
@[simp] theorem State.setReg_l2 (s : State) (o : Nat) (x : Word) : (s.setReg o x).l2 = s.l2 := rfl
@[simp] theorem State.setReg_age (s : State) (o : Nat) (x : Word) : (s.setReg o x).age = s.age := rfl
@[simp] theorem State.setReg_svc (s : State) (o : Nat) (x : Word) : (s.setReg o x).svc = s.svc := rfl
@[simp] theorem State.setReg_groups (s : State) (o : Nat) (x : Word) : (s.setReg o x).groups = s.groups := rfl
@[simp] theorem State.setReg_blocks (s : State) (o : Nat) (x : Word) : (s.setReg o x).blocks = s.blocks := rfl
@[simp] theorem State.setReg_tiles (s : State) (o : Nat) (x : Word) : (s.setReg o x).tiles = s.tiles := rfl
@[simp] theorem State.setReg_launches (s : State) (o : Nat) (x : Word) : (s.setReg o x).launches = s.launches := rfl
@[simp] theorem State.setReg_taskQueues (s : State) (o : Nat) (x : Word) : (s.setReg o x).taskQueues = s.taskQueues := rfl
@[simp] theorem State.setReg_packets (s : State) (o : Nat) (x : Word) : (s.setReg o x).packets = s.packets := rfl
@[simp] theorem State.setReg_polls (s : State) (o : Nat) (x : Word) : (s.setReg o x).polls = s.polls := rfl
@[simp] theorem State.setReg_laps (s : State) (o : Nat) (x : Word) : (s.setReg o x).laps = s.laps := rfl
@[simp] theorem State.setReg_laneLast (s : State) (o : Nat) (x : Word) : (s.setReg o x).laneLast = s.laneLast := rfl
@[simp] theorem State.setReg_contexts (s : State) (o : Nat) (x : Word) : (s.setReg o x).contexts = s.contexts := rfl
@[simp] theorem State.setReg_accesses (s : State) (o : Nat) (x : Word) : (s.setReg o x).accesses = s.accesses := rfl
@[simp] theorem State.setReg_forwarded (s : State) (o : Nat) (x : Word) : (s.setReg o x).forwarded = s.forwarded := rfl
@[simp] theorem State.setReg_past (s : State) (o : Nat) (x : Word) : (s.setReg o x).past = s.past := rfl
@[simp] theorem State.setReg_known (s : State) (o : Nat) (x : Word) : (s.setReg o x).known = s.known := rfl
@[simp] theorem State.setReg_copies (s : State) (o : Nat) (x : Word) : (s.setReg o x).copies = s.copies := rfl
@[simp] theorem State.setReg_arrays (s : State) (o : Nat) (x : Word) : (s.setReg o x).arrays = s.arrays := rfl
@[simp] theorem State.setReg_parked (s : State) (o : Nat) (x : Word) : (s.setReg o x).parked = s.parked := rfl
@[simp] theorem State.setReg_seqs (s : State) (o : Nat) (x : Word) : (s.setReg o x).seqs = s.seqs := rfl
@[simp] theorem State.setReg_sideLast (s : State) (o : Nat) (x : Word) : (s.setReg o x).sideLast = s.sideLast := rfl
@[simp] theorem State.setReg_peerCounts (s : State) (o : Nat) (x : Word) : (s.setReg o x).peerCounts = s.peerCounts := rfl
@[simp] theorem State.setReg_peerHeld (s : State) (o : Nat) (x : Word) : (s.setReg o x).peerHeld = s.peerHeld := rfl
@[simp] theorem State.setReg_watch (s : State) (o : Nat) (x : Word) : (s.setReg o x).watch = s.watch := rfl
@[simp] theorem State.setReg_outbox (s : State) (o : Nat) (x : Word) : (s.setReg o x).outbox = s.outbox := rfl
@[simp] theorem State.setReg_lastGroup (s : State) (o : Nat) (x : Word) : (s.setReg o x).lastGroup = s.lastGroup := rfl
@[simp] theorem State.setReg_portHeld (s : State) (o : Nat) (x : Word) : (s.setReg o x).portHeld = s.portHeld := rfl
@[simp] theorem State.setReg_corePmc (s : State) (o : Nat) (x : Word) : (s.setReg o x).corePmc = s.corePmc := rfl
@[simp] theorem State.setReg_sel (s : State) (o : Nat) (x : Word) : (s.setReg o x).sel = s.sel := rfl
@[simp] theorem State.setReg_declined (s : State) (o : Nat) (x : Word) : (s.setReg o x).declined = s.declined := rfl
@[simp] theorem State.setReg_agenda (s : State) (o : Nat) (x : Word) : (s.setReg o x).agenda = s.agenda := rfl
@[simp] theorem State.setReg_free (s : State) (o : Nat) (x : Word) : (s.setReg o x).free = s.free := rfl
@[simp] theorem State.setReg_nextId (s : State) (o : Nat) (x : Word) : (s.setReg o x).nextId = s.nextId := rfl
@[simp] theorem State.setReg_badWrite (s : State) (o : Nat) (x : Word) : (s.setReg o x).badWrite = s.badWrite := rfl

/-! ## State.writeCells -/

@[simp] theorem State.writeCells_clk (s : State) (a : Nat) (bs : List Byte) : (s.writeCells a bs).clk = s.clk := rfl
@[simp] theorem State.writeCells_bar0 (s : State) (a : Nat) (bs : List Byte) : (s.writeCells a bs).bar0 = s.bar0 := rfl
@[simp] theorem State.writeCells_pat (s : State) (a : Nat) (bs : List Byte) : (s.writeCells a bs).pat = s.pat := rfl
@[simp] theorem State.writeCells_semWin (s : State) (a : Nat) (bs : List Byte) : (s.writeCells a bs).semWin = s.semWin := rfl
@[simp] theorem State.writeCells_msix (s : State) (a : Nat) (bs : List Byte) : (s.writeCells a bs).msix = s.msix := rfl
@[simp] theorem State.writeCells_mgmtAnswer (s : State) (a : Nat) (bs : List Byte) : (s.writeCells a bs).mgmtAnswer = s.mgmtAnswer := rfl
@[simp] theorem State.writeCells_psChange (s : State) (a : Nat) (bs : List Byte) : (s.writeCells a bs).psChange = s.psChange := rfl
@[simp] theorem State.writeCells_psHeld (s : State) (a : Nat) (bs : List Byte) : (s.writeCells a bs).psHeld = s.psHeld := rfl
@[simp] theorem State.writeCells_psTrip (s : State) (a : Nat) (bs : List Byte) : (s.writeCells a bs).psTrip = s.psTrip := rfl
@[simp] theorem State.writeCells_deadBits (s : State) (a : Nat) (bs : List Byte) : (s.writeCells a bs).deadBits = s.deadBits := rfl
@[simp] theorem State.writeCells_invWait (s : State) (a : Nat) (bs : List Byte) : (s.writeCells a bs).invWait = s.invWait := rfl
@[simp] theorem State.writeCells_hot (s : State) (a : Nat) (bs : List Byte) : (s.writeCells a bs).hot = s.hot := rfl
@[simp] theorem State.writeCells_halted (s : State) (a : Nat) (bs : List Byte) : (s.writeCells a bs).halted = s.halted := rfl
@[simp] theorem State.writeCells_tokenReqs (s : State) (a : Nat) (bs : List Byte) : (s.writeCells a bs).tokenReqs = s.tokenReqs := rfl
@[simp] theorem State.writeCells_tokens (s : State) (a : Nat) (bs : List Byte) : (s.writeCells a bs).tokens = s.tokens := rfl
@[simp] theorem State.writeCells_firmware (s : State) (a : Nat) (bs : List Byte) : (s.writeCells a bs).firmware = s.firmware := rfl
@[simp] theorem State.writeCells_microcode (s : State) (a : Nat) (bs : List Byte) : (s.writeCells a bs).microcode = s.microcode := rfl
@[simp] theorem State.writeCells_translator (s : State) (a : Nat) (bs : List Byte) : (s.writeCells a bs).translator = s.translator := rfl
@[simp] theorem State.writeCells_transfer (s : State) (a : Nat) (bs : List Byte) : (s.writeCells a bs).transfer = s.transfer := rfl
@[simp] theorem State.writeCells_fwReport (s : State) (a : Nat) (bs : List Byte) : (s.writeCells a bs).fwReport = s.fwReport := rfl
@[simp] theorem State.writeCells_activating (s : State) (a : Nat) (bs : List Byte) : (s.writeCells a bs).activating = s.activating := rfl
@[simp] theorem State.writeCells_modules (s : State) (a : Nat) (bs : List Byte) : (s.writeCells a bs).modules = s.modules := rfl
@[simp] theorem State.writeCells_transCache (s : State) (a : Nat) (bs : List Byte) : (s.writeCells a bs).transCache = s.transCache := rfl
@[simp] theorem State.writeCells_tlb (s : State) (a : Nat) (bs : List Byte) : (s.writeCells a bs).tlb = s.tlb := rfl
@[simp] theorem State.writeCells_l0 (s : State) (a : Nat) (bs : List Byte) : (s.writeCells a bs).l0 = s.l0 := rfl
@[simp] theorem State.writeCells_l1 (s : State) (a : Nat) (bs : List Byte) : (s.writeCells a bs).l1 = s.l1 := rfl
@[simp] theorem State.writeCells_l2 (s : State) (a : Nat) (bs : List Byte) : (s.writeCells a bs).l2 = s.l2 := rfl
@[simp] theorem State.writeCells_age (s : State) (a : Nat) (bs : List Byte) : (s.writeCells a bs).age = s.age := rfl
@[simp] theorem State.writeCells_svc (s : State) (a : Nat) (bs : List Byte) : (s.writeCells a bs).svc = s.svc := rfl
@[simp] theorem State.writeCells_groups (s : State) (a : Nat) (bs : List Byte) : (s.writeCells a bs).groups = s.groups := rfl
@[simp] theorem State.writeCells_blocks (s : State) (a : Nat) (bs : List Byte) : (s.writeCells a bs).blocks = s.blocks := rfl
@[simp] theorem State.writeCells_tiles (s : State) (a : Nat) (bs : List Byte) : (s.writeCells a bs).tiles = s.tiles := rfl
@[simp] theorem State.writeCells_launches (s : State) (a : Nat) (bs : List Byte) : (s.writeCells a bs).launches = s.launches := rfl
@[simp] theorem State.writeCells_taskQueues (s : State) (a : Nat) (bs : List Byte) : (s.writeCells a bs).taskQueues = s.taskQueues := rfl
@[simp] theorem State.writeCells_packets (s : State) (a : Nat) (bs : List Byte) : (s.writeCells a bs).packets = s.packets := rfl
@[simp] theorem State.writeCells_polls (s : State) (a : Nat) (bs : List Byte) : (s.writeCells a bs).polls = s.polls := rfl
@[simp] theorem State.writeCells_laps (s : State) (a : Nat) (bs : List Byte) : (s.writeCells a bs).laps = s.laps := rfl
@[simp] theorem State.writeCells_laneLast (s : State) (a : Nat) (bs : List Byte) : (s.writeCells a bs).laneLast = s.laneLast := rfl
@[simp] theorem State.writeCells_contexts (s : State) (a : Nat) (bs : List Byte) : (s.writeCells a bs).contexts = s.contexts := rfl
@[simp] theorem State.writeCells_accesses (s : State) (a : Nat) (bs : List Byte) : (s.writeCells a bs).accesses = s.accesses := rfl
@[simp] theorem State.writeCells_forwarded (s : State) (a : Nat) (bs : List Byte) : (s.writeCells a bs).forwarded = s.forwarded := rfl
@[simp] theorem State.writeCells_past (s : State) (a : Nat) (bs : List Byte) : (s.writeCells a bs).past = s.past := rfl
@[simp] theorem State.writeCells_known (s : State) (a : Nat) (bs : List Byte) : (s.writeCells a bs).known = s.known := rfl
@[simp] theorem State.writeCells_copies (s : State) (a : Nat) (bs : List Byte) : (s.writeCells a bs).copies = s.copies := rfl
@[simp] theorem State.writeCells_arrays (s : State) (a : Nat) (bs : List Byte) : (s.writeCells a bs).arrays = s.arrays := rfl
@[simp] theorem State.writeCells_parked (s : State) (a : Nat) (bs : List Byte) : (s.writeCells a bs).parked = s.parked := rfl
@[simp] theorem State.writeCells_seqs (s : State) (a : Nat) (bs : List Byte) : (s.writeCells a bs).seqs = s.seqs := rfl
@[simp] theorem State.writeCells_sideLast (s : State) (a : Nat) (bs : List Byte) : (s.writeCells a bs).sideLast = s.sideLast := rfl
@[simp] theorem State.writeCells_peerCounts (s : State) (a : Nat) (bs : List Byte) : (s.writeCells a bs).peerCounts = s.peerCounts := rfl
@[simp] theorem State.writeCells_peerHeld (s : State) (a : Nat) (bs : List Byte) : (s.writeCells a bs).peerHeld = s.peerHeld := rfl
@[simp] theorem State.writeCells_watch (s : State) (a : Nat) (bs : List Byte) : (s.writeCells a bs).watch = s.watch := rfl
@[simp] theorem State.writeCells_outbox (s : State) (a : Nat) (bs : List Byte) : (s.writeCells a bs).outbox = s.outbox := rfl
@[simp] theorem State.writeCells_lastGroup (s : State) (a : Nat) (bs : List Byte) : (s.writeCells a bs).lastGroup = s.lastGroup := rfl
@[simp] theorem State.writeCells_portHeld (s : State) (a : Nat) (bs : List Byte) : (s.writeCells a bs).portHeld = s.portHeld := rfl
@[simp] theorem State.writeCells_corePmc (s : State) (a : Nat) (bs : List Byte) : (s.writeCells a bs).corePmc = s.corePmc := rfl
@[simp] theorem State.writeCells_sel (s : State) (a : Nat) (bs : List Byte) : (s.writeCells a bs).sel = s.sel := rfl
@[simp] theorem State.writeCells_declined (s : State) (a : Nat) (bs : List Byte) : (s.writeCells a bs).declined = s.declined := rfl
@[simp] theorem State.writeCells_agenda (s : State) (a : Nat) (bs : List Byte) : (s.writeCells a bs).agenda = s.agenda := rfl
@[simp] theorem State.writeCells_free (s : State) (a : Nat) (bs : List Byte) : (s.writeCells a bs).free = s.free := rfl
@[simp] theorem State.writeCells_nextId (s : State) (a : Nat) (bs : List Byte) : (s.writeCells a bs).nextId = s.nextId := rfl
@[simp] theorem State.writeCells_badWrite (s : State) (a : Nat) (bs : List Byte) : (s.writeCells a bs).badWrite = s.badWrite := rfl

/-! ## State.addPoison -/

@[simp] theorem State.addPoison_clk (s : State) (a : Nat) : (s.addPoison a).clk = s.clk := rfl
@[simp] theorem State.addPoison_mem (s : State) (a : Nat) : (s.addPoison a).mem = s.mem := rfl
@[simp] theorem State.addPoison_bar0 (s : State) (a : Nat) : (s.addPoison a).bar0 = s.bar0 := rfl
@[simp] theorem State.addPoison_pat (s : State) (a : Nat) : (s.addPoison a).pat = s.pat := rfl
@[simp] theorem State.addPoison_semWin (s : State) (a : Nat) : (s.addPoison a).semWin = s.semWin := rfl
@[simp] theorem State.addPoison_msix (s : State) (a : Nat) : (s.addPoison a).msix = s.msix := rfl
@[simp] theorem State.addPoison_mgmtAnswer (s : State) (a : Nat) : (s.addPoison a).mgmtAnswer = s.mgmtAnswer := rfl
@[simp] theorem State.addPoison_psChange (s : State) (a : Nat) : (s.addPoison a).psChange = s.psChange := rfl
@[simp] theorem State.addPoison_psHeld (s : State) (a : Nat) : (s.addPoison a).psHeld = s.psHeld := rfl
@[simp] theorem State.addPoison_psTrip (s : State) (a : Nat) : (s.addPoison a).psTrip = s.psTrip := rfl
@[simp] theorem State.addPoison_deadBits (s : State) (a : Nat) : (s.addPoison a).deadBits = s.deadBits := rfl
@[simp] theorem State.addPoison_invWait (s : State) (a : Nat) : (s.addPoison a).invWait = s.invWait := rfl
@[simp] theorem State.addPoison_hot (s : State) (a : Nat) : (s.addPoison a).hot = s.hot := rfl
@[simp] theorem State.addPoison_halted (s : State) (a : Nat) : (s.addPoison a).halted = s.halted := rfl
@[simp] theorem State.addPoison_tokenReqs (s : State) (a : Nat) : (s.addPoison a).tokenReqs = s.tokenReqs := rfl
@[simp] theorem State.addPoison_tokens (s : State) (a : Nat) : (s.addPoison a).tokens = s.tokens := rfl
@[simp] theorem State.addPoison_firmware (s : State) (a : Nat) : (s.addPoison a).firmware = s.firmware := rfl
@[simp] theorem State.addPoison_microcode (s : State) (a : Nat) : (s.addPoison a).microcode = s.microcode := rfl
@[simp] theorem State.addPoison_translator (s : State) (a : Nat) : (s.addPoison a).translator = s.translator := rfl
@[simp] theorem State.addPoison_transfer (s : State) (a : Nat) : (s.addPoison a).transfer = s.transfer := rfl
@[simp] theorem State.addPoison_fwReport (s : State) (a : Nat) : (s.addPoison a).fwReport = s.fwReport := rfl
@[simp] theorem State.addPoison_activating (s : State) (a : Nat) : (s.addPoison a).activating = s.activating := rfl
@[simp] theorem State.addPoison_modules (s : State) (a : Nat) : (s.addPoison a).modules = s.modules := rfl
@[simp] theorem State.addPoison_transCache (s : State) (a : Nat) : (s.addPoison a).transCache = s.transCache := rfl
@[simp] theorem State.addPoison_tlb (s : State) (a : Nat) : (s.addPoison a).tlb = s.tlb := rfl
@[simp] theorem State.addPoison_l0 (s : State) (a : Nat) : (s.addPoison a).l0 = s.l0 := rfl
@[simp] theorem State.addPoison_l1 (s : State) (a : Nat) : (s.addPoison a).l1 = s.l1 := rfl
@[simp] theorem State.addPoison_l2 (s : State) (a : Nat) : (s.addPoison a).l2 = s.l2 := rfl
@[simp] theorem State.addPoison_age (s : State) (a : Nat) : (s.addPoison a).age = s.age := rfl
@[simp] theorem State.addPoison_svc (s : State) (a : Nat) : (s.addPoison a).svc = s.svc := rfl
@[simp] theorem State.addPoison_groups (s : State) (a : Nat) : (s.addPoison a).groups = s.groups := rfl
@[simp] theorem State.addPoison_blocks (s : State) (a : Nat) : (s.addPoison a).blocks = s.blocks := rfl
@[simp] theorem State.addPoison_tiles (s : State) (a : Nat) : (s.addPoison a).tiles = s.tiles := rfl
@[simp] theorem State.addPoison_launches (s : State) (a : Nat) : (s.addPoison a).launches = s.launches := rfl
@[simp] theorem State.addPoison_taskQueues (s : State) (a : Nat) : (s.addPoison a).taskQueues = s.taskQueues := rfl
@[simp] theorem State.addPoison_packets (s : State) (a : Nat) : (s.addPoison a).packets = s.packets := rfl
@[simp] theorem State.addPoison_polls (s : State) (a : Nat) : (s.addPoison a).polls = s.polls := rfl
@[simp] theorem State.addPoison_laps (s : State) (a : Nat) : (s.addPoison a).laps = s.laps := rfl
@[simp] theorem State.addPoison_laneLast (s : State) (a : Nat) : (s.addPoison a).laneLast = s.laneLast := rfl
@[simp] theorem State.addPoison_contexts (s : State) (a : Nat) : (s.addPoison a).contexts = s.contexts := rfl
@[simp] theorem State.addPoison_accesses (s : State) (a : Nat) : (s.addPoison a).accesses = s.accesses := rfl
@[simp] theorem State.addPoison_forwarded (s : State) (a : Nat) : (s.addPoison a).forwarded = s.forwarded := rfl
@[simp] theorem State.addPoison_past (s : State) (a : Nat) : (s.addPoison a).past = s.past := rfl
@[simp] theorem State.addPoison_known (s : State) (a : Nat) : (s.addPoison a).known = s.known := rfl
@[simp] theorem State.addPoison_copies (s : State) (a : Nat) : (s.addPoison a).copies = s.copies := rfl
@[simp] theorem State.addPoison_arrays (s : State) (a : Nat) : (s.addPoison a).arrays = s.arrays := rfl
@[simp] theorem State.addPoison_parked (s : State) (a : Nat) : (s.addPoison a).parked = s.parked := rfl
@[simp] theorem State.addPoison_seqs (s : State) (a : Nat) : (s.addPoison a).seqs = s.seqs := rfl
@[simp] theorem State.addPoison_sideLast (s : State) (a : Nat) : (s.addPoison a).sideLast = s.sideLast := rfl
@[simp] theorem State.addPoison_peerCounts (s : State) (a : Nat) : (s.addPoison a).peerCounts = s.peerCounts := rfl
@[simp] theorem State.addPoison_peerHeld (s : State) (a : Nat) : (s.addPoison a).peerHeld = s.peerHeld := rfl
@[simp] theorem State.addPoison_watch (s : State) (a : Nat) : (s.addPoison a).watch = s.watch := rfl
@[simp] theorem State.addPoison_outbox (s : State) (a : Nat) : (s.addPoison a).outbox = s.outbox := rfl
@[simp] theorem State.addPoison_lastGroup (s : State) (a : Nat) : (s.addPoison a).lastGroup = s.lastGroup := rfl
@[simp] theorem State.addPoison_portHeld (s : State) (a : Nat) : (s.addPoison a).portHeld = s.portHeld := rfl
@[simp] theorem State.addPoison_corePmc (s : State) (a : Nat) : (s.addPoison a).corePmc = s.corePmc := rfl
@[simp] theorem State.addPoison_sel (s : State) (a : Nat) : (s.addPoison a).sel = s.sel := rfl
@[simp] theorem State.addPoison_declined (s : State) (a : Nat) : (s.addPoison a).declined = s.declined := rfl
@[simp] theorem State.addPoison_agenda (s : State) (a : Nat) : (s.addPoison a).agenda = s.agenda := rfl
@[simp] theorem State.addPoison_free (s : State) (a : Nat) : (s.addPoison a).free = s.free := rfl
@[simp] theorem State.addPoison_nextId (s : State) (a : Nat) : (s.addPoison a).nextId = s.nextId := rfl
@[simp] theorem State.addPoison_badWrite (s : State) (a : Nat) : (s.addPoison a).badWrite = s.badWrite := rfl

/-! ## State.setContext -/

@[simp] theorem State.setContext_clk (s : State) (c : Nat) (x : Context) : (s.setContext c x).clk = s.clk := rfl
@[simp] theorem State.setContext_mem (s : State) (c : Nat) (x : Context) : (s.setContext c x).mem = s.mem := rfl
@[simp] theorem State.setContext_poison (s : State) (c : Nat) (x : Context) : (s.setContext c x).poison = s.poison := rfl
@[simp] theorem State.setContext_bar0 (s : State) (c : Nat) (x : Context) : (s.setContext c x).bar0 = s.bar0 := rfl
@[simp] theorem State.setContext_pat (s : State) (c : Nat) (x : Context) : (s.setContext c x).pat = s.pat := rfl
@[simp] theorem State.setContext_semWin (s : State) (c : Nat) (x : Context) : (s.setContext c x).semWin = s.semWin := rfl
@[simp] theorem State.setContext_msix (s : State) (c : Nat) (x : Context) : (s.setContext c x).msix = s.msix := rfl
@[simp] theorem State.setContext_mgmtAnswer (s : State) (c : Nat) (x : Context) : (s.setContext c x).mgmtAnswer = s.mgmtAnswer := rfl
@[simp] theorem State.setContext_psChange (s : State) (c : Nat) (x : Context) : (s.setContext c x).psChange = s.psChange := rfl
@[simp] theorem State.setContext_psHeld (s : State) (c : Nat) (x : Context) : (s.setContext c x).psHeld = s.psHeld := rfl
@[simp] theorem State.setContext_psTrip (s : State) (c : Nat) (x : Context) : (s.setContext c x).psTrip = s.psTrip := rfl
@[simp] theorem State.setContext_deadBits (s : State) (c : Nat) (x : Context) : (s.setContext c x).deadBits = s.deadBits := rfl
@[simp] theorem State.setContext_invWait (s : State) (c : Nat) (x : Context) : (s.setContext c x).invWait = s.invWait := rfl
@[simp] theorem State.setContext_hot (s : State) (c : Nat) (x : Context) : (s.setContext c x).hot = s.hot := rfl
@[simp] theorem State.setContext_halted (s : State) (c : Nat) (x : Context) : (s.setContext c x).halted = s.halted := rfl
@[simp] theorem State.setContext_tokenReqs (s : State) (c : Nat) (x : Context) : (s.setContext c x).tokenReqs = s.tokenReqs := rfl
@[simp] theorem State.setContext_tokens (s : State) (c : Nat) (x : Context) : (s.setContext c x).tokens = s.tokens := rfl
@[simp] theorem State.setContext_firmware (s : State) (c : Nat) (x : Context) : (s.setContext c x).firmware = s.firmware := rfl
@[simp] theorem State.setContext_microcode (s : State) (c : Nat) (x : Context) : (s.setContext c x).microcode = s.microcode := rfl
@[simp] theorem State.setContext_translator (s : State) (c : Nat) (x : Context) : (s.setContext c x).translator = s.translator := rfl
@[simp] theorem State.setContext_transfer (s : State) (c : Nat) (x : Context) : (s.setContext c x).transfer = s.transfer := rfl
@[simp] theorem State.setContext_fwReport (s : State) (c : Nat) (x : Context) : (s.setContext c x).fwReport = s.fwReport := rfl
@[simp] theorem State.setContext_activating (s : State) (c : Nat) (x : Context) : (s.setContext c x).activating = s.activating := rfl
@[simp] theorem State.setContext_modules (s : State) (c : Nat) (x : Context) : (s.setContext c x).modules = s.modules := rfl
@[simp] theorem State.setContext_transCache (s : State) (c : Nat) (x : Context) : (s.setContext c x).transCache = s.transCache := rfl
@[simp] theorem State.setContext_tlb (s : State) (c : Nat) (x : Context) : (s.setContext c x).tlb = s.tlb := rfl
@[simp] theorem State.setContext_l0 (s : State) (c : Nat) (x : Context) : (s.setContext c x).l0 = s.l0 := rfl
@[simp] theorem State.setContext_l1 (s : State) (c : Nat) (x : Context) : (s.setContext c x).l1 = s.l1 := rfl
@[simp] theorem State.setContext_l2 (s : State) (c : Nat) (x : Context) : (s.setContext c x).l2 = s.l2 := rfl
@[simp] theorem State.setContext_age (s : State) (c : Nat) (x : Context) : (s.setContext c x).age = s.age := rfl
@[simp] theorem State.setContext_svc (s : State) (c : Nat) (x : Context) : (s.setContext c x).svc = s.svc := rfl
@[simp] theorem State.setContext_groups (s : State) (c : Nat) (x : Context) : (s.setContext c x).groups = s.groups := rfl
@[simp] theorem State.setContext_blocks (s : State) (c : Nat) (x : Context) : (s.setContext c x).blocks = s.blocks := rfl
@[simp] theorem State.setContext_tiles (s : State) (c : Nat) (x : Context) : (s.setContext c x).tiles = s.tiles := rfl
@[simp] theorem State.setContext_launches (s : State) (c : Nat) (x : Context) : (s.setContext c x).launches = s.launches := rfl
@[simp] theorem State.setContext_taskQueues (s : State) (c : Nat) (x : Context) : (s.setContext c x).taskQueues = s.taskQueues := rfl
@[simp] theorem State.setContext_packets (s : State) (c : Nat) (x : Context) : (s.setContext c x).packets = s.packets := rfl
@[simp] theorem State.setContext_polls (s : State) (c : Nat) (x : Context) : (s.setContext c x).polls = s.polls := rfl
@[simp] theorem State.setContext_laps (s : State) (c : Nat) (x : Context) : (s.setContext c x).laps = s.laps := rfl
@[simp] theorem State.setContext_laneLast (s : State) (c : Nat) (x : Context) : (s.setContext c x).laneLast = s.laneLast := rfl
@[simp] theorem State.setContext_accesses (s : State) (c : Nat) (x : Context) : (s.setContext c x).accesses = s.accesses := rfl
@[simp] theorem State.setContext_forwarded (s : State) (c : Nat) (x : Context) : (s.setContext c x).forwarded = s.forwarded := rfl
@[simp] theorem State.setContext_past (s : State) (c : Nat) (x : Context) : (s.setContext c x).past = s.past := rfl
@[simp] theorem State.setContext_known (s : State) (c : Nat) (x : Context) : (s.setContext c x).known = s.known := rfl
@[simp] theorem State.setContext_copies (s : State) (c : Nat) (x : Context) : (s.setContext c x).copies = s.copies := rfl
@[simp] theorem State.setContext_arrays (s : State) (c : Nat) (x : Context) : (s.setContext c x).arrays = s.arrays := rfl
@[simp] theorem State.setContext_parked (s : State) (c : Nat) (x : Context) : (s.setContext c x).parked = s.parked := rfl
@[simp] theorem State.setContext_seqs (s : State) (c : Nat) (x : Context) : (s.setContext c x).seqs = s.seqs := rfl
@[simp] theorem State.setContext_sideLast (s : State) (c : Nat) (x : Context) : (s.setContext c x).sideLast = s.sideLast := rfl
@[simp] theorem State.setContext_peerCounts (s : State) (c : Nat) (x : Context) : (s.setContext c x).peerCounts = s.peerCounts := rfl
@[simp] theorem State.setContext_peerHeld (s : State) (c : Nat) (x : Context) : (s.setContext c x).peerHeld = s.peerHeld := rfl
@[simp] theorem State.setContext_watch (s : State) (c : Nat) (x : Context) : (s.setContext c x).watch = s.watch := rfl
@[simp] theorem State.setContext_outbox (s : State) (c : Nat) (x : Context) : (s.setContext c x).outbox = s.outbox := rfl
@[simp] theorem State.setContext_lastGroup (s : State) (c : Nat) (x : Context) : (s.setContext c x).lastGroup = s.lastGroup := rfl
@[simp] theorem State.setContext_portHeld (s : State) (c : Nat) (x : Context) : (s.setContext c x).portHeld = s.portHeld := rfl
@[simp] theorem State.setContext_corePmc (s : State) (c : Nat) (x : Context) : (s.setContext c x).corePmc = s.corePmc := rfl
@[simp] theorem State.setContext_sel (s : State) (c : Nat) (x : Context) : (s.setContext c x).sel = s.sel := rfl
@[simp] theorem State.setContext_declined (s : State) (c : Nat) (x : Context) : (s.setContext c x).declined = s.declined := rfl
@[simp] theorem State.setContext_agenda (s : State) (c : Nat) (x : Context) : (s.setContext c x).agenda = s.agenda := rfl
@[simp] theorem State.setContext_free (s : State) (c : Nat) (x : Context) : (s.setContext c x).free = s.free := rfl
@[simp] theorem State.setContext_nextId (s : State) (c : Nat) (x : Context) : (s.setContext c x).nextId = s.nextId := rfl
@[simp] theorem State.setContext_badWrite (s : State) (c : Nat) (x : Context) : (s.setContext c x).badWrite = s.badWrite := rfl

/-! ## State.countN -/

@[simp] theorem State.countN_clk (s : State) (k n m : Nat) : (s.countN k n m).clk = s.clk := rfl
@[simp] theorem State.countN_mem (s : State) (k n m : Nat) : (s.countN k n m).mem = s.mem := rfl
@[simp] theorem State.countN_poison (s : State) (k n m : Nat) : (s.countN k n m).poison = s.poison := rfl
@[simp] theorem State.countN_bar0 (s : State) (k n m : Nat) : (s.countN k n m).bar0 = s.bar0 := rfl
@[simp] theorem State.countN_pat (s : State) (k n m : Nat) : (s.countN k n m).pat = s.pat := rfl
@[simp] theorem State.countN_semWin (s : State) (k n m : Nat) : (s.countN k n m).semWin = s.semWin := rfl
@[simp] theorem State.countN_msix (s : State) (k n m : Nat) : (s.countN k n m).msix = s.msix := rfl
@[simp] theorem State.countN_mgmtAnswer (s : State) (k n m : Nat) : (s.countN k n m).mgmtAnswer = s.mgmtAnswer := rfl
@[simp] theorem State.countN_psChange (s : State) (k n m : Nat) : (s.countN k n m).psChange = s.psChange := rfl
@[simp] theorem State.countN_psHeld (s : State) (k n m : Nat) : (s.countN k n m).psHeld = s.psHeld := rfl
@[simp] theorem State.countN_psTrip (s : State) (k n m : Nat) : (s.countN k n m).psTrip = s.psTrip := rfl
@[simp] theorem State.countN_deadBits (s : State) (k n m : Nat) : (s.countN k n m).deadBits = s.deadBits := rfl
@[simp] theorem State.countN_invWait (s : State) (k n m : Nat) : (s.countN k n m).invWait = s.invWait := rfl
@[simp] theorem State.countN_hot (s : State) (k n m : Nat) : (s.countN k n m).hot = s.hot := rfl
@[simp] theorem State.countN_halted (s : State) (k n m : Nat) : (s.countN k n m).halted = s.halted := rfl
@[simp] theorem State.countN_tokenReqs (s : State) (k n m : Nat) : (s.countN k n m).tokenReqs = s.tokenReqs := rfl
@[simp] theorem State.countN_tokens (s : State) (k n m : Nat) : (s.countN k n m).tokens = s.tokens := rfl
@[simp] theorem State.countN_firmware (s : State) (k n m : Nat) : (s.countN k n m).firmware = s.firmware := rfl
@[simp] theorem State.countN_microcode (s : State) (k n m : Nat) : (s.countN k n m).microcode = s.microcode := rfl
@[simp] theorem State.countN_translator (s : State) (k n m : Nat) : (s.countN k n m).translator = s.translator := rfl
@[simp] theorem State.countN_transfer (s : State) (k n m : Nat) : (s.countN k n m).transfer = s.transfer := rfl
@[simp] theorem State.countN_fwReport (s : State) (k n m : Nat) : (s.countN k n m).fwReport = s.fwReport := rfl
@[simp] theorem State.countN_activating (s : State) (k n m : Nat) : (s.countN k n m).activating = s.activating := rfl
@[simp] theorem State.countN_modules (s : State) (k n m : Nat) : (s.countN k n m).modules = s.modules := rfl
@[simp] theorem State.countN_transCache (s : State) (k n m : Nat) : (s.countN k n m).transCache = s.transCache := rfl
@[simp] theorem State.countN_tlb (s : State) (k n m : Nat) : (s.countN k n m).tlb = s.tlb := rfl
@[simp] theorem State.countN_l0 (s : State) (k n m : Nat) : (s.countN k n m).l0 = s.l0 := rfl
@[simp] theorem State.countN_l1 (s : State) (k n m : Nat) : (s.countN k n m).l1 = s.l1 := rfl
@[simp] theorem State.countN_l2 (s : State) (k n m : Nat) : (s.countN k n m).l2 = s.l2 := rfl
@[simp] theorem State.countN_age (s : State) (k n m : Nat) : (s.countN k n m).age = s.age := rfl
@[simp] theorem State.countN_svc (s : State) (k n m : Nat) : (s.countN k n m).svc = s.svc := rfl
@[simp] theorem State.countN_blocks (s : State) (k n m : Nat) : (s.countN k n m).blocks = s.blocks := rfl
@[simp] theorem State.countN_tiles (s : State) (k n m : Nat) : (s.countN k n m).tiles = s.tiles := rfl
@[simp] theorem State.countN_launches (s : State) (k n m : Nat) : (s.countN k n m).launches = s.launches := rfl
@[simp] theorem State.countN_taskQueues (s : State) (k n m : Nat) : (s.countN k n m).taskQueues = s.taskQueues := rfl
@[simp] theorem State.countN_packets (s : State) (k n m : Nat) : (s.countN k n m).packets = s.packets := rfl
@[simp] theorem State.countN_polls (s : State) (k n m : Nat) : (s.countN k n m).polls = s.polls := rfl
@[simp] theorem State.countN_laps (s : State) (k n m : Nat) : (s.countN k n m).laps = s.laps := rfl
@[simp] theorem State.countN_laneLast (s : State) (k n m : Nat) : (s.countN k n m).laneLast = s.laneLast := rfl
@[simp] theorem State.countN_contexts (s : State) (k n m : Nat) : (s.countN k n m).contexts = s.contexts := rfl
@[simp] theorem State.countN_accesses (s : State) (k n m : Nat) : (s.countN k n m).accesses = s.accesses := rfl
@[simp] theorem State.countN_forwarded (s : State) (k n m : Nat) : (s.countN k n m).forwarded = s.forwarded := rfl
@[simp] theorem State.countN_past (s : State) (k n m : Nat) : (s.countN k n m).past = s.past := rfl
@[simp] theorem State.countN_known (s : State) (k n m : Nat) : (s.countN k n m).known = s.known := rfl
@[simp] theorem State.countN_copies (s : State) (k n m : Nat) : (s.countN k n m).copies = s.copies := rfl
@[simp] theorem State.countN_arrays (s : State) (k n m : Nat) : (s.countN k n m).arrays = s.arrays := rfl
@[simp] theorem State.countN_parked (s : State) (k n m : Nat) : (s.countN k n m).parked = s.parked := rfl
@[simp] theorem State.countN_seqs (s : State) (k n m : Nat) : (s.countN k n m).seqs = s.seqs := rfl
@[simp] theorem State.countN_sideLast (s : State) (k n m : Nat) : (s.countN k n m).sideLast = s.sideLast := rfl
@[simp] theorem State.countN_peerCounts (s : State) (k n m : Nat) : (s.countN k n m).peerCounts = s.peerCounts := rfl
@[simp] theorem State.countN_peerHeld (s : State) (k n m : Nat) : (s.countN k n m).peerHeld = s.peerHeld := rfl
@[simp] theorem State.countN_watch (s : State) (k n m : Nat) : (s.countN k n m).watch = s.watch := rfl
@[simp] theorem State.countN_outbox (s : State) (k n m : Nat) : (s.countN k n m).outbox = s.outbox := rfl
@[simp] theorem State.countN_lastGroup (s : State) (k n m : Nat) : (s.countN k n m).lastGroup = s.lastGroup := rfl
@[simp] theorem State.countN_portHeld (s : State) (k n m : Nat) : (s.countN k n m).portHeld = s.portHeld := rfl
@[simp] theorem State.countN_sel (s : State) (k n m : Nat) : (s.countN k n m).sel = s.sel := rfl
@[simp] theorem State.countN_declined (s : State) (k n m : Nat) : (s.countN k n m).declined = s.declined := rfl
@[simp] theorem State.countN_agenda (s : State) (k n m : Nat) : (s.countN k n m).agenda = s.agenda := rfl
@[simp] theorem State.countN_free (s : State) (k n m : Nat) : (s.countN k n m).free = s.free := rfl
@[simp] theorem State.countN_nextId (s : State) (k n m : Nat) : (s.countN k n m).nextId = s.nextId := rfl
@[simp] theorem State.countN_badWrite (s : State) (k n m : Nat) : (s.countN k n m).badWrite = s.badWrite := rfl

/-! ## State.raise -/

@[simp] theorem State.raise_clk (s : State) (p : Bool) (v : Byte) : (s.raise p v).clk = s.clk := rfl
@[simp] theorem State.raise_mem (s : State) (p : Bool) (v : Byte) : (s.raise p v).mem = s.mem := rfl
@[simp] theorem State.raise_poison (s : State) (p : Bool) (v : Byte) : (s.raise p v).poison = s.poison := rfl
@[simp] theorem State.raise_bar0 (s : State) (p : Bool) (v : Byte) : (s.raise p v).bar0 = s.bar0 := rfl
@[simp] theorem State.raise_pat (s : State) (p : Bool) (v : Byte) : (s.raise p v).pat = s.pat := rfl
@[simp] theorem State.raise_semWin (s : State) (p : Bool) (v : Byte) : (s.raise p v).semWin = s.semWin := rfl
@[simp] theorem State.raise_mgmtAnswer (s : State) (p : Bool) (v : Byte) : (s.raise p v).mgmtAnswer = s.mgmtAnswer := rfl
@[simp] theorem State.raise_psChange (s : State) (p : Bool) (v : Byte) : (s.raise p v).psChange = s.psChange := rfl
@[simp] theorem State.raise_psHeld (s : State) (p : Bool) (v : Byte) : (s.raise p v).psHeld = s.psHeld := rfl
@[simp] theorem State.raise_psTrip (s : State) (p : Bool) (v : Byte) : (s.raise p v).psTrip = s.psTrip := rfl
@[simp] theorem State.raise_deadBits (s : State) (p : Bool) (v : Byte) : (s.raise p v).deadBits = s.deadBits := rfl
@[simp] theorem State.raise_invWait (s : State) (p : Bool) (v : Byte) : (s.raise p v).invWait = s.invWait := rfl
@[simp] theorem State.raise_hot (s : State) (p : Bool) (v : Byte) : (s.raise p v).hot = s.hot := rfl
@[simp] theorem State.raise_halted (s : State) (p : Bool) (v : Byte) : (s.raise p v).halted = s.halted := rfl
@[simp] theorem State.raise_tokenReqs (s : State) (p : Bool) (v : Byte) : (s.raise p v).tokenReqs = s.tokenReqs := rfl
@[simp] theorem State.raise_tokens (s : State) (p : Bool) (v : Byte) : (s.raise p v).tokens = s.tokens := rfl
@[simp] theorem State.raise_firmware (s : State) (p : Bool) (v : Byte) : (s.raise p v).firmware = s.firmware := rfl
@[simp] theorem State.raise_microcode (s : State) (p : Bool) (v : Byte) : (s.raise p v).microcode = s.microcode := rfl
@[simp] theorem State.raise_translator (s : State) (p : Bool) (v : Byte) : (s.raise p v).translator = s.translator := rfl
@[simp] theorem State.raise_transfer (s : State) (p : Bool) (v : Byte) : (s.raise p v).transfer = s.transfer := rfl
@[simp] theorem State.raise_fwReport (s : State) (p : Bool) (v : Byte) : (s.raise p v).fwReport = s.fwReport := rfl
@[simp] theorem State.raise_activating (s : State) (p : Bool) (v : Byte) : (s.raise p v).activating = s.activating := rfl
@[simp] theorem State.raise_modules (s : State) (p : Bool) (v : Byte) : (s.raise p v).modules = s.modules := rfl
@[simp] theorem State.raise_transCache (s : State) (p : Bool) (v : Byte) : (s.raise p v).transCache = s.transCache := rfl
@[simp] theorem State.raise_tlb (s : State) (p : Bool) (v : Byte) : (s.raise p v).tlb = s.tlb := rfl
@[simp] theorem State.raise_l0 (s : State) (p : Bool) (v : Byte) : (s.raise p v).l0 = s.l0 := rfl
@[simp] theorem State.raise_l1 (s : State) (p : Bool) (v : Byte) : (s.raise p v).l1 = s.l1 := rfl
@[simp] theorem State.raise_l2 (s : State) (p : Bool) (v : Byte) : (s.raise p v).l2 = s.l2 := rfl
@[simp] theorem State.raise_age (s : State) (p : Bool) (v : Byte) : (s.raise p v).age = s.age := rfl
@[simp] theorem State.raise_svc (s : State) (p : Bool) (v : Byte) : (s.raise p v).svc = s.svc := rfl
@[simp] theorem State.raise_groups (s : State) (p : Bool) (v : Byte) : (s.raise p v).groups = s.groups := rfl
@[simp] theorem State.raise_blocks (s : State) (p : Bool) (v : Byte) : (s.raise p v).blocks = s.blocks := rfl
@[simp] theorem State.raise_tiles (s : State) (p : Bool) (v : Byte) : (s.raise p v).tiles = s.tiles := rfl
@[simp] theorem State.raise_launches (s : State) (p : Bool) (v : Byte) : (s.raise p v).launches = s.launches := rfl
@[simp] theorem State.raise_taskQueues (s : State) (p : Bool) (v : Byte) : (s.raise p v).taskQueues = s.taskQueues := rfl
@[simp] theorem State.raise_packets (s : State) (p : Bool) (v : Byte) : (s.raise p v).packets = s.packets := rfl
@[simp] theorem State.raise_polls (s : State) (p : Bool) (v : Byte) : (s.raise p v).polls = s.polls := rfl
@[simp] theorem State.raise_laps (s : State) (p : Bool) (v : Byte) : (s.raise p v).laps = s.laps := rfl
@[simp] theorem State.raise_laneLast (s : State) (p : Bool) (v : Byte) : (s.raise p v).laneLast = s.laneLast := rfl
@[simp] theorem State.raise_contexts (s : State) (p : Bool) (v : Byte) : (s.raise p v).contexts = s.contexts := rfl
@[simp] theorem State.raise_accesses (s : State) (p : Bool) (v : Byte) : (s.raise p v).accesses = s.accesses := rfl
@[simp] theorem State.raise_forwarded (s : State) (p : Bool) (v : Byte) : (s.raise p v).forwarded = s.forwarded := rfl
@[simp] theorem State.raise_past (s : State) (p : Bool) (v : Byte) : (s.raise p v).past = s.past := rfl
@[simp] theorem State.raise_known (s : State) (p : Bool) (v : Byte) : (s.raise p v).known = s.known := rfl
@[simp] theorem State.raise_copies (s : State) (p : Bool) (v : Byte) : (s.raise p v).copies = s.copies := rfl
@[simp] theorem State.raise_arrays (s : State) (p : Bool) (v : Byte) : (s.raise p v).arrays = s.arrays := rfl
@[simp] theorem State.raise_parked (s : State) (p : Bool) (v : Byte) : (s.raise p v).parked = s.parked := rfl
@[simp] theorem State.raise_seqs (s : State) (p : Bool) (v : Byte) : (s.raise p v).seqs = s.seqs := rfl
@[simp] theorem State.raise_sideLast (s : State) (p : Bool) (v : Byte) : (s.raise p v).sideLast = s.sideLast := rfl
@[simp] theorem State.raise_peerCounts (s : State) (p : Bool) (v : Byte) : (s.raise p v).peerCounts = s.peerCounts := rfl
@[simp] theorem State.raise_peerHeld (s : State) (p : Bool) (v : Byte) : (s.raise p v).peerHeld = s.peerHeld := rfl
@[simp] theorem State.raise_watch (s : State) (p : Bool) (v : Byte) : (s.raise p v).watch = s.watch := rfl
@[simp] theorem State.raise_outbox (s : State) (p : Bool) (v : Byte) : (s.raise p v).outbox = s.outbox := rfl
@[simp] theorem State.raise_lastGroup (s : State) (p : Bool) (v : Byte) : (s.raise p v).lastGroup = s.lastGroup := rfl
@[simp] theorem State.raise_portHeld (s : State) (p : Bool) (v : Byte) : (s.raise p v).portHeld = s.portHeld := rfl
@[simp] theorem State.raise_corePmc (s : State) (p : Bool) (v : Byte) : (s.raise p v).corePmc = s.corePmc := rfl
@[simp] theorem State.raise_sel (s : State) (p : Bool) (v : Byte) : (s.raise p v).sel = s.sel := rfl
@[simp] theorem State.raise_declined (s : State) (p : Bool) (v : Byte) : (s.raise p v).declined = s.declined := rfl
@[simp] theorem State.raise_agenda (s : State) (p : Bool) (v : Byte) : (s.raise p v).agenda = s.agenda := rfl
@[simp] theorem State.raise_free (s : State) (p : Bool) (v : Byte) : (s.raise p v).free = s.free := rfl
@[simp] theorem State.raise_nextId (s : State) (p : Bool) (v : Byte) : (s.raise p v).nextId = s.nextId := rfl
@[simp] theorem State.raise_badWrite (s : State) (p : Bool) (v : Byte) : (s.raise p v).badWrite = s.badWrite := rfl

/-! ## Group.vset -/

@[simp] theorem Group.vset_launch (g : Group) (t n : Nat) (x : Word) : (g.vset t n x).launch = g.launch := rfl
@[simp] theorem Group.vset_block (g : Group) (t n : Nat) (x : Word) : (g.vset t n x).block = g.block := rfl
@[simp] theorem Group.vset_ctx (g : Group) (t n : Nat) (x : Word) : (g.vset t n x).ctx = g.ctx := rfl
@[simp] theorem Group.vset_g (g : Group) (t n : Nat) (x : Word) : (g.vset t n x).g = g.g := rfl
@[simp] theorem Group.vset_nregs (g : Group) (t n : Nat) (x : Word) : (g.vset t n x).nregs = g.nregs := rfl
@[simp] theorem Group.vset_vBase (g : Group) (t n : Nat) (x : Word) : (g.vset t n x).vBase = g.vBase := rfl
@[simp] theorem Group.vset_k (g : Group) (t n : Nat) (x : Word) : (g.vset t n x).k = g.k := rfl
@[simp] theorem Group.vset_m (g : Group) (t n : Nat) (x : Word) : (g.vset t n x).m = g.m := rfl
@[simp] theorem Group.vset_flags (g : Group) (t n : Nat) (x : Word) : (g.vset t n x).flags = g.flags := rfl
@[simp] theorem Group.vset_cnts (g : Group) (t n : Nat) (x : Word) : (g.vset t n x).cnts = g.cnts := rfl
@[simp] theorem Group.vset_entries (g : Group) (t n : Nat) (x : Word) : (g.vset t n x).entries = g.entries := rfl
@[simp] theorem Group.vset_ras (g : Group) (t n : Nat) (x : Word) : (g.vset t n x).ras = g.ras := rfl
@[simp] theorem Group.vset_spilled (g : Group) (t n : Nat) (x : Word) : (g.vset t n x).spilled = g.spilled := rfl
@[simp] theorem Group.vset_spBase (g : Group) (t n : Nat) (x : Word) : (g.vset t n x).spBase = g.spBase := rfl
@[simp] theorem Group.vset_spSize (g : Group) (t n : Nat) (x : Word) : (g.vset t n x).spSize = g.spSize := rfl
@[simp] theorem Group.vset_live (g : Group) (t n : Nat) (x : Word) : (g.vset t n x).live = g.live := rfl
@[simp] theorem Group.vset_helper (g : Group) (t n : Nat) (x : Word) : (g.vset t n x).helper = g.helper := rfl
@[simp] theorem Group.vset_ended (g : Group) (t n : Nat) (x : Word) : (g.vset t n x).ended = g.ended := rfl
@[simp] theorem Group.vset_mfmt (g : Group) (t n : Nat) (x : Word) : (g.vset t n x).mfmt = g.mfmt := rfl
@[simp] theorem Group.vset_trap (g : Group) (t n : Nat) (x : Word) : (g.vset t n x).trap = g.trap := rfl
@[simp] theorem Group.vset_work (g : Group) (t n : Nat) (x : Word) : (g.vset t n x).work = g.work := rfl
@[simp] theorem Group.vset_taskOpen (g : Group) (t n : Nat) (x : Word) : (g.vset t n x).taskOpen = g.taskOpen := rfl
@[simp] theorem Group.vset_claimBad (g : Group) (t n : Nat) (x : Word) : (g.vset t n x).claimBad = g.claimBad := rfl
@[simp] theorem Group.vset_fetch (g : Group) (t n : Nat) (x : Word) : (g.vset t n x).fetch = g.fetch := rfl
@[simp] theorem Group.vset_refetch (g : Group) (t n : Nat) (x : Word) : (g.vset t n x).refetch = g.refetch := rfl
@[simp] theorem Group.vset_fetchPc (g : Group) (t n : Nat) (x : Word) : (g.vset t n x).fetchPc = g.fetchPc := rfl
@[simp] theorem Group.vset_fetchMod (g : Group) (t n : Nat) (x : Word) : (g.vset t n x).fetchMod = g.fetchMod := rfl
@[simp] theorem Group.vset_fetchDepth (g : Group) (t n : Nat) (x : Word) : (g.vset t n x).fetchDepth = g.fetchDepth := rfl
@[simp] theorem Group.vset_fetchRas (g : Group) (t n : Nat) (x : Word) : (g.vset t n x).fetchRas = g.fetchRas := rfl
@[simp] theorem Group.vset_fetchClause (g : Group) (t n : Nat) (x : Word) : (g.vset t n x).fetchClause = g.fetchClause := rfl
@[simp] theorem Group.vset_wounded (g : Group) (t n : Nat) (x : Word) : (g.vset t n x).wounded = g.wounded := rfl
@[simp] theorem Group.vset_rolling (g : Group) (t n : Nat) (x : Word) : (g.vset t n x).rolling = g.rolling := rfl
@[simp] theorem Group.vset_allotted (g : Group) (t n : Nat) (x : Word) : (g.vset t n x).allotted = g.allotted := rfl
@[simp] theorem Group.vset_pmc (g : Group) (t n : Nat) (x : Word) : (g.vset t n x).pmc = g.pmc := rfl
@[simp] theorem Group.vset_lastIssue (g : Group) (t n : Nat) (x : Word) : (g.vset t n x).lastIssue = g.lastIssue := rfl
@[simp] theorem Group.vset_first (g : Group) (t n : Nat) (x : Word) : (g.vset t n x).first = g.first := rfl
@[simp] theorem Group.vset_lost (g : Group) (t n : Nat) (x : Word) : (g.vset t n x).lost = g.lost := rfl
@[simp] theorem Group.vset_lostAt (g : Group) (t n : Nat) (x : Word) : (g.vset t n x).lostAt = g.lostAt := rfl
@[simp] theorem Group.vset_promoted (g : Group) (t n : Nat) (x : Word) : (g.vset t n x).promoted = g.promoted := rfl
@[simp] theorem Group.vset_lastEntry (g : Group) (t n : Nat) (x : Word) : (g.vset t n x).lastEntry = g.lastEntry := rfl
@[simp] theorem Group.vset_bkpt (g : Group) (t n : Nat) (x : Word) : (g.vset t n x).bkpt = g.bkpt := rfl

/-! ## Group.kset -/

@[simp] theorem Group.kset_launch (g : Group) (n : Nat) (x : Dword) : (g.kset n x).launch = g.launch := rfl
@[simp] theorem Group.kset_block (g : Group) (n : Nat) (x : Dword) : (g.kset n x).block = g.block := rfl
@[simp] theorem Group.kset_ctx (g : Group) (n : Nat) (x : Dword) : (g.kset n x).ctx = g.ctx := rfl
@[simp] theorem Group.kset_g (g : Group) (n : Nat) (x : Dword) : (g.kset n x).g = g.g := rfl
@[simp] theorem Group.kset_nregs (g : Group) (n : Nat) (x : Dword) : (g.kset n x).nregs = g.nregs := rfl
@[simp] theorem Group.kset_vBase (g : Group) (n : Nat) (x : Dword) : (g.kset n x).vBase = g.vBase := rfl
@[simp] theorem Group.kset_v (g : Group) (n : Nat) (x : Dword) : (g.kset n x).v = g.v := rfl
@[simp] theorem Group.kset_m (g : Group) (n : Nat) (x : Dword) : (g.kset n x).m = g.m := rfl
@[simp] theorem Group.kset_flags (g : Group) (n : Nat) (x : Dword) : (g.kset n x).flags = g.flags := rfl
@[simp] theorem Group.kset_cnts (g : Group) (n : Nat) (x : Dword) : (g.kset n x).cnts = g.cnts := rfl
@[simp] theorem Group.kset_entries (g : Group) (n : Nat) (x : Dword) : (g.kset n x).entries = g.entries := rfl
@[simp] theorem Group.kset_ras (g : Group) (n : Nat) (x : Dword) : (g.kset n x).ras = g.ras := rfl
@[simp] theorem Group.kset_spilled (g : Group) (n : Nat) (x : Dword) : (g.kset n x).spilled = g.spilled := rfl
@[simp] theorem Group.kset_spBase (g : Group) (n : Nat) (x : Dword) : (g.kset n x).spBase = g.spBase := rfl
@[simp] theorem Group.kset_spSize (g : Group) (n : Nat) (x : Dword) : (g.kset n x).spSize = g.spSize := rfl
@[simp] theorem Group.kset_live (g : Group) (n : Nat) (x : Dword) : (g.kset n x).live = g.live := rfl
@[simp] theorem Group.kset_helper (g : Group) (n : Nat) (x : Dword) : (g.kset n x).helper = g.helper := rfl
@[simp] theorem Group.kset_ended (g : Group) (n : Nat) (x : Dword) : (g.kset n x).ended = g.ended := rfl
@[simp] theorem Group.kset_mfmt (g : Group) (n : Nat) (x : Dword) : (g.kset n x).mfmt = g.mfmt := rfl
@[simp] theorem Group.kset_trap (g : Group) (n : Nat) (x : Dword) : (g.kset n x).trap = g.trap := rfl
@[simp] theorem Group.kset_work (g : Group) (n : Nat) (x : Dword) : (g.kset n x).work = g.work := rfl
@[simp] theorem Group.kset_taskOpen (g : Group) (n : Nat) (x : Dword) : (g.kset n x).taskOpen = g.taskOpen := rfl
@[simp] theorem Group.kset_claimBad (g : Group) (n : Nat) (x : Dword) : (g.kset n x).claimBad = g.claimBad := rfl
@[simp] theorem Group.kset_fetch (g : Group) (n : Nat) (x : Dword) : (g.kset n x).fetch = g.fetch := rfl
@[simp] theorem Group.kset_refetch (g : Group) (n : Nat) (x : Dword) : (g.kset n x).refetch = g.refetch := rfl
@[simp] theorem Group.kset_fetchPc (g : Group) (n : Nat) (x : Dword) : (g.kset n x).fetchPc = g.fetchPc := rfl
@[simp] theorem Group.kset_fetchMod (g : Group) (n : Nat) (x : Dword) : (g.kset n x).fetchMod = g.fetchMod := rfl
@[simp] theorem Group.kset_fetchDepth (g : Group) (n : Nat) (x : Dword) : (g.kset n x).fetchDepth = g.fetchDepth := rfl
@[simp] theorem Group.kset_fetchRas (g : Group) (n : Nat) (x : Dword) : (g.kset n x).fetchRas = g.fetchRas := rfl
@[simp] theorem Group.kset_fetchClause (g : Group) (n : Nat) (x : Dword) : (g.kset n x).fetchClause = g.fetchClause := rfl
@[simp] theorem Group.kset_wounded (g : Group) (n : Nat) (x : Dword) : (g.kset n x).wounded = g.wounded := rfl
@[simp] theorem Group.kset_rolling (g : Group) (n : Nat) (x : Dword) : (g.kset n x).rolling = g.rolling := rfl
@[simp] theorem Group.kset_allotted (g : Group) (n : Nat) (x : Dword) : (g.kset n x).allotted = g.allotted := rfl
@[simp] theorem Group.kset_pmc (g : Group) (n : Nat) (x : Dword) : (g.kset n x).pmc = g.pmc := rfl
@[simp] theorem Group.kset_lastIssue (g : Group) (n : Nat) (x : Dword) : (g.kset n x).lastIssue = g.lastIssue := rfl
@[simp] theorem Group.kset_first (g : Group) (n : Nat) (x : Dword) : (g.kset n x).first = g.first := rfl
@[simp] theorem Group.kset_lost (g : Group) (n : Nat) (x : Dword) : (g.kset n x).lost = g.lost := rfl
@[simp] theorem Group.kset_lostAt (g : Group) (n : Nat) (x : Dword) : (g.kset n x).lostAt = g.lostAt := rfl
@[simp] theorem Group.kset_promoted (g : Group) (n : Nat) (x : Dword) : (g.kset n x).promoted = g.promoted := rfl
@[simp] theorem Group.kset_lastEntry (g : Group) (n : Nat) (x : Dword) : (g.kset n x).lastEntry = g.lastEntry := rfl
@[simp] theorem Group.kset_bkpt (g : Group) (n : Nat) (x : Dword) : (g.kset n x).bkpt = g.bkpt := rfl

/-! ## Group.mset -/

@[simp] theorem Group.mset_launch (g : Group) (n : Nat) (x : Word) : (g.mset n x).launch = g.launch := by unfold Group.mset; split <;> rfl
@[simp] theorem Group.mset_block (g : Group) (n : Nat) (x : Word) : (g.mset n x).block = g.block := by unfold Group.mset; split <;> rfl
@[simp] theorem Group.mset_ctx (g : Group) (n : Nat) (x : Word) : (g.mset n x).ctx = g.ctx := by unfold Group.mset; split <;> rfl
@[simp] theorem Group.mset_g (g : Group) (n : Nat) (x : Word) : (g.mset n x).g = g.g := by unfold Group.mset; split <;> rfl
@[simp] theorem Group.mset_nregs (g : Group) (n : Nat) (x : Word) : (g.mset n x).nregs = g.nregs := by unfold Group.mset; split <;> rfl
@[simp] theorem Group.mset_vBase (g : Group) (n : Nat) (x : Word) : (g.mset n x).vBase = g.vBase := by unfold Group.mset; split <;> rfl
@[simp] theorem Group.mset_v (g : Group) (n : Nat) (x : Word) : (g.mset n x).v = g.v := by unfold Group.mset; split <;> rfl
@[simp] theorem Group.mset_k (g : Group) (n : Nat) (x : Word) : (g.mset n x).k = g.k := by unfold Group.mset; split <;> rfl
@[simp] theorem Group.mset_flags (g : Group) (n : Nat) (x : Word) : (g.mset n x).flags = g.flags := by unfold Group.mset; split <;> rfl
@[simp] theorem Group.mset_cnts (g : Group) (n : Nat) (x : Word) : (g.mset n x).cnts = g.cnts := by unfold Group.mset; split <;> rfl
@[simp] theorem Group.mset_entries (g : Group) (n : Nat) (x : Word) : (g.mset n x).entries = g.entries := by unfold Group.mset; split <;> rfl
@[simp] theorem Group.mset_ras (g : Group) (n : Nat) (x : Word) : (g.mset n x).ras = g.ras := by unfold Group.mset; split <;> rfl
@[simp] theorem Group.mset_spilled (g : Group) (n : Nat) (x : Word) : (g.mset n x).spilled = g.spilled := by unfold Group.mset; split <;> rfl
@[simp] theorem Group.mset_spBase (g : Group) (n : Nat) (x : Word) : (g.mset n x).spBase = g.spBase := by unfold Group.mset; split <;> rfl
@[simp] theorem Group.mset_spSize (g : Group) (n : Nat) (x : Word) : (g.mset n x).spSize = g.spSize := by unfold Group.mset; split <;> rfl
@[simp] theorem Group.mset_live (g : Group) (n : Nat) (x : Word) : (g.mset n x).live = g.live := by unfold Group.mset; split <;> rfl
@[simp] theorem Group.mset_helper (g : Group) (n : Nat) (x : Word) : (g.mset n x).helper = g.helper := by unfold Group.mset; split <;> rfl
@[simp] theorem Group.mset_ended (g : Group) (n : Nat) (x : Word) : (g.mset n x).ended = g.ended := by unfold Group.mset; split <;> rfl
@[simp] theorem Group.mset_mfmt (g : Group) (n : Nat) (x : Word) : (g.mset n x).mfmt = g.mfmt := by unfold Group.mset; split <;> rfl
@[simp] theorem Group.mset_trap (g : Group) (n : Nat) (x : Word) : (g.mset n x).trap = g.trap := by unfold Group.mset; split <;> rfl
@[simp] theorem Group.mset_work (g : Group) (n : Nat) (x : Word) : (g.mset n x).work = g.work := by unfold Group.mset; split <;> rfl
@[simp] theorem Group.mset_taskOpen (g : Group) (n : Nat) (x : Word) : (g.mset n x).taskOpen = g.taskOpen := by unfold Group.mset; split <;> rfl
@[simp] theorem Group.mset_claimBad (g : Group) (n : Nat) (x : Word) : (g.mset n x).claimBad = g.claimBad := by unfold Group.mset; split <;> rfl
@[simp] theorem Group.mset_fetch (g : Group) (n : Nat) (x : Word) : (g.mset n x).fetch = g.fetch := by unfold Group.mset; split <;> rfl
@[simp] theorem Group.mset_refetch (g : Group) (n : Nat) (x : Word) : (g.mset n x).refetch = g.refetch := by unfold Group.mset; split <;> rfl
@[simp] theorem Group.mset_fetchPc (g : Group) (n : Nat) (x : Word) : (g.mset n x).fetchPc = g.fetchPc := by unfold Group.mset; split <;> rfl
@[simp] theorem Group.mset_fetchMod (g : Group) (n : Nat) (x : Word) : (g.mset n x).fetchMod = g.fetchMod := by unfold Group.mset; split <;> rfl
@[simp] theorem Group.mset_fetchDepth (g : Group) (n : Nat) (x : Word) : (g.mset n x).fetchDepth = g.fetchDepth := by unfold Group.mset; split <;> rfl
@[simp] theorem Group.mset_fetchRas (g : Group) (n : Nat) (x : Word) : (g.mset n x).fetchRas = g.fetchRas := by unfold Group.mset; split <;> rfl
@[simp] theorem Group.mset_fetchClause (g : Group) (n : Nat) (x : Word) : (g.mset n x).fetchClause = g.fetchClause := by unfold Group.mset; split <;> rfl
@[simp] theorem Group.mset_wounded (g : Group) (n : Nat) (x : Word) : (g.mset n x).wounded = g.wounded := by unfold Group.mset; split <;> rfl
@[simp] theorem Group.mset_rolling (g : Group) (n : Nat) (x : Word) : (g.mset n x).rolling = g.rolling := by unfold Group.mset; split <;> rfl
@[simp] theorem Group.mset_allotted (g : Group) (n : Nat) (x : Word) : (g.mset n x).allotted = g.allotted := by unfold Group.mset; split <;> rfl
@[simp] theorem Group.mset_pmc (g : Group) (n : Nat) (x : Word) : (g.mset n x).pmc = g.pmc := by unfold Group.mset; split <;> rfl
@[simp] theorem Group.mset_lastIssue (g : Group) (n : Nat) (x : Word) : (g.mset n x).lastIssue = g.lastIssue := by unfold Group.mset; split <;> rfl
@[simp] theorem Group.mset_first (g : Group) (n : Nat) (x : Word) : (g.mset n x).first = g.first := by unfold Group.mset; split <;> rfl
@[simp] theorem Group.mset_lost (g : Group) (n : Nat) (x : Word) : (g.mset n x).lost = g.lost := by unfold Group.mset; split <;> rfl
@[simp] theorem Group.mset_lostAt (g : Group) (n : Nat) (x : Word) : (g.mset n x).lostAt = g.lostAt := by unfold Group.mset; split <;> rfl
@[simp] theorem Group.mset_promoted (g : Group) (n : Nat) (x : Word) : (g.mset n x).promoted = g.promoted := by unfold Group.mset; split <;> rfl
@[simp] theorem Group.mset_lastEntry (g : Group) (n : Nat) (x : Word) : (g.mset n x).lastEntry = g.lastEntry := by unfold Group.mset; split <;> rfl
@[simp] theorem Group.mset_bkpt (g : Group) (n : Nat) (x : Word) : (g.mset n x).bkpt = g.bkpt := by unfold Group.mset; split <;> rfl

/-! ## Group.setFlag -/

@[simp] theorem Group.setFlag_launch (g : Group) (i : Nat) (b : Bool) : (g.setFlag i b).launch = g.launch := rfl
@[simp] theorem Group.setFlag_block (g : Group) (i : Nat) (b : Bool) : (g.setFlag i b).block = g.block := rfl
@[simp] theorem Group.setFlag_ctx (g : Group) (i : Nat) (b : Bool) : (g.setFlag i b).ctx = g.ctx := rfl
@[simp] theorem Group.setFlag_g (g : Group) (i : Nat) (b : Bool) : (g.setFlag i b).g = g.g := rfl
@[simp] theorem Group.setFlag_nregs (g : Group) (i : Nat) (b : Bool) : (g.setFlag i b).nregs = g.nregs := rfl
@[simp] theorem Group.setFlag_vBase (g : Group) (i : Nat) (b : Bool) : (g.setFlag i b).vBase = g.vBase := rfl
@[simp] theorem Group.setFlag_v (g : Group) (i : Nat) (b : Bool) : (g.setFlag i b).v = g.v := rfl
@[simp] theorem Group.setFlag_k (g : Group) (i : Nat) (b : Bool) : (g.setFlag i b).k = g.k := rfl
@[simp] theorem Group.setFlag_m (g : Group) (i : Nat) (b : Bool) : (g.setFlag i b).m = g.m := rfl
@[simp] theorem Group.setFlag_cnts (g : Group) (i : Nat) (b : Bool) : (g.setFlag i b).cnts = g.cnts := rfl
@[simp] theorem Group.setFlag_entries (g : Group) (i : Nat) (b : Bool) : (g.setFlag i b).entries = g.entries := rfl
@[simp] theorem Group.setFlag_ras (g : Group) (i : Nat) (b : Bool) : (g.setFlag i b).ras = g.ras := rfl
@[simp] theorem Group.setFlag_spilled (g : Group) (i : Nat) (b : Bool) : (g.setFlag i b).spilled = g.spilled := rfl
@[simp] theorem Group.setFlag_spBase (g : Group) (i : Nat) (b : Bool) : (g.setFlag i b).spBase = g.spBase := rfl
@[simp] theorem Group.setFlag_spSize (g : Group) (i : Nat) (b : Bool) : (g.setFlag i b).spSize = g.spSize := rfl
@[simp] theorem Group.setFlag_live (g : Group) (i : Nat) (b : Bool) : (g.setFlag i b).live = g.live := rfl
@[simp] theorem Group.setFlag_helper (g : Group) (i : Nat) (b : Bool) : (g.setFlag i b).helper = g.helper := rfl
@[simp] theorem Group.setFlag_ended (g : Group) (i : Nat) (b : Bool) : (g.setFlag i b).ended = g.ended := rfl
@[simp] theorem Group.setFlag_mfmt (g : Group) (i : Nat) (b : Bool) : (g.setFlag i b).mfmt = g.mfmt := rfl
@[simp] theorem Group.setFlag_trap (g : Group) (i : Nat) (b : Bool) : (g.setFlag i b).trap = g.trap := rfl
@[simp] theorem Group.setFlag_work (g : Group) (i : Nat) (b : Bool) : (g.setFlag i b).work = g.work := rfl
@[simp] theorem Group.setFlag_taskOpen (g : Group) (i : Nat) (b : Bool) : (g.setFlag i b).taskOpen = g.taskOpen := rfl
@[simp] theorem Group.setFlag_claimBad (g : Group) (i : Nat) (b : Bool) : (g.setFlag i b).claimBad = g.claimBad := rfl
@[simp] theorem Group.setFlag_fetch (g : Group) (i : Nat) (b : Bool) : (g.setFlag i b).fetch = g.fetch := rfl
@[simp] theorem Group.setFlag_refetch (g : Group) (i : Nat) (b : Bool) : (g.setFlag i b).refetch = g.refetch := rfl
@[simp] theorem Group.setFlag_fetchPc (g : Group) (i : Nat) (b : Bool) : (g.setFlag i b).fetchPc = g.fetchPc := rfl
@[simp] theorem Group.setFlag_fetchMod (g : Group) (i : Nat) (b : Bool) : (g.setFlag i b).fetchMod = g.fetchMod := rfl
@[simp] theorem Group.setFlag_fetchDepth (g : Group) (i : Nat) (b : Bool) : (g.setFlag i b).fetchDepth = g.fetchDepth := rfl
@[simp] theorem Group.setFlag_fetchRas (g : Group) (i : Nat) (b : Bool) : (g.setFlag i b).fetchRas = g.fetchRas := rfl
@[simp] theorem Group.setFlag_fetchClause (g : Group) (i : Nat) (b : Bool) : (g.setFlag i b).fetchClause = g.fetchClause := rfl
@[simp] theorem Group.setFlag_wounded (g : Group) (i : Nat) (b : Bool) : (g.setFlag i b).wounded = g.wounded := rfl
@[simp] theorem Group.setFlag_rolling (g : Group) (i : Nat) (b : Bool) : (g.setFlag i b).rolling = g.rolling := rfl
@[simp] theorem Group.setFlag_allotted (g : Group) (i : Nat) (b : Bool) : (g.setFlag i b).allotted = g.allotted := rfl
@[simp] theorem Group.setFlag_pmc (g : Group) (i : Nat) (b : Bool) : (g.setFlag i b).pmc = g.pmc := rfl
@[simp] theorem Group.setFlag_lastIssue (g : Group) (i : Nat) (b : Bool) : (g.setFlag i b).lastIssue = g.lastIssue := rfl
@[simp] theorem Group.setFlag_first (g : Group) (i : Nat) (b : Bool) : (g.setFlag i b).first = g.first := rfl
@[simp] theorem Group.setFlag_lost (g : Group) (i : Nat) (b : Bool) : (g.setFlag i b).lost = g.lost := rfl
@[simp] theorem Group.setFlag_lostAt (g : Group) (i : Nat) (b : Bool) : (g.setFlag i b).lostAt = g.lostAt := rfl
@[simp] theorem Group.setFlag_promoted (g : Group) (i : Nat) (b : Bool) : (g.setFlag i b).promoted = g.promoted := rfl
@[simp] theorem Group.setFlag_lastEntry (g : Group) (i : Nat) (b : Bool) : (g.setFlag i b).lastEntry = g.lastEntry := rfl
@[simp] theorem Group.setFlag_bkpt (g : Group) (i : Nat) (b : Bool) : (g.setFlag i b).bkpt = g.bkpt := rfl

/-! ## Group.setEntry -/

@[simp] theorem Group.setEntry_launch (g : Group) (i : Nat) (e : Entry) : (g.setEntry i e).launch = g.launch := rfl
@[simp] theorem Group.setEntry_block (g : Group) (i : Nat) (e : Entry) : (g.setEntry i e).block = g.block := rfl
@[simp] theorem Group.setEntry_ctx (g : Group) (i : Nat) (e : Entry) : (g.setEntry i e).ctx = g.ctx := rfl
@[simp] theorem Group.setEntry_g (g : Group) (i : Nat) (e : Entry) : (g.setEntry i e).g = g.g := rfl
@[simp] theorem Group.setEntry_nregs (g : Group) (i : Nat) (e : Entry) : (g.setEntry i e).nregs = g.nregs := rfl
@[simp] theorem Group.setEntry_vBase (g : Group) (i : Nat) (e : Entry) : (g.setEntry i e).vBase = g.vBase := rfl
@[simp] theorem Group.setEntry_v (g : Group) (i : Nat) (e : Entry) : (g.setEntry i e).v = g.v := rfl
@[simp] theorem Group.setEntry_k (g : Group) (i : Nat) (e : Entry) : (g.setEntry i e).k = g.k := rfl
@[simp] theorem Group.setEntry_m (g : Group) (i : Nat) (e : Entry) : (g.setEntry i e).m = g.m := rfl
@[simp] theorem Group.setEntry_flags (g : Group) (i : Nat) (e : Entry) : (g.setEntry i e).flags = g.flags := rfl
@[simp] theorem Group.setEntry_cnts (g : Group) (i : Nat) (e : Entry) : (g.setEntry i e).cnts = g.cnts := rfl
@[simp] theorem Group.setEntry_ras (g : Group) (i : Nat) (e : Entry) : (g.setEntry i e).ras = g.ras := rfl
@[simp] theorem Group.setEntry_spilled (g : Group) (i : Nat) (e : Entry) : (g.setEntry i e).spilled = g.spilled := rfl
@[simp] theorem Group.setEntry_spBase (g : Group) (i : Nat) (e : Entry) : (g.setEntry i e).spBase = g.spBase := rfl
@[simp] theorem Group.setEntry_spSize (g : Group) (i : Nat) (e : Entry) : (g.setEntry i e).spSize = g.spSize := rfl
@[simp] theorem Group.setEntry_live (g : Group) (i : Nat) (e : Entry) : (g.setEntry i e).live = g.live := rfl
@[simp] theorem Group.setEntry_helper (g : Group) (i : Nat) (e : Entry) : (g.setEntry i e).helper = g.helper := rfl
@[simp] theorem Group.setEntry_ended (g : Group) (i : Nat) (e : Entry) : (g.setEntry i e).ended = g.ended := rfl
@[simp] theorem Group.setEntry_mfmt (g : Group) (i : Nat) (e : Entry) : (g.setEntry i e).mfmt = g.mfmt := rfl
@[simp] theorem Group.setEntry_trap (g : Group) (i : Nat) (e : Entry) : (g.setEntry i e).trap = g.trap := rfl
@[simp] theorem Group.setEntry_work (g : Group) (i : Nat) (e : Entry) : (g.setEntry i e).work = g.work := rfl
@[simp] theorem Group.setEntry_taskOpen (g : Group) (i : Nat) (e : Entry) : (g.setEntry i e).taskOpen = g.taskOpen := rfl
@[simp] theorem Group.setEntry_claimBad (g : Group) (i : Nat) (e : Entry) : (g.setEntry i e).claimBad = g.claimBad := rfl
@[simp] theorem Group.setEntry_fetch (g : Group) (i : Nat) (e : Entry) : (g.setEntry i e).fetch = g.fetch := rfl
@[simp] theorem Group.setEntry_refetch (g : Group) (i : Nat) (e : Entry) : (g.setEntry i e).refetch = g.refetch := rfl
@[simp] theorem Group.setEntry_fetchPc (g : Group) (i : Nat) (e : Entry) : (g.setEntry i e).fetchPc = g.fetchPc := rfl
@[simp] theorem Group.setEntry_fetchMod (g : Group) (i : Nat) (e : Entry) : (g.setEntry i e).fetchMod = g.fetchMod := rfl
@[simp] theorem Group.setEntry_fetchDepth (g : Group) (i : Nat) (e : Entry) : (g.setEntry i e).fetchDepth = g.fetchDepth := rfl
@[simp] theorem Group.setEntry_fetchRas (g : Group) (i : Nat) (e : Entry) : (g.setEntry i e).fetchRas = g.fetchRas := rfl
@[simp] theorem Group.setEntry_fetchClause (g : Group) (i : Nat) (e : Entry) : (g.setEntry i e).fetchClause = g.fetchClause := rfl
@[simp] theorem Group.setEntry_wounded (g : Group) (i : Nat) (e : Entry) : (g.setEntry i e).wounded = g.wounded := rfl
@[simp] theorem Group.setEntry_rolling (g : Group) (i : Nat) (e : Entry) : (g.setEntry i e).rolling = g.rolling := rfl
@[simp] theorem Group.setEntry_allotted (g : Group) (i : Nat) (e : Entry) : (g.setEntry i e).allotted = g.allotted := rfl
@[simp] theorem Group.setEntry_pmc (g : Group) (i : Nat) (e : Entry) : (g.setEntry i e).pmc = g.pmc := rfl
@[simp] theorem Group.setEntry_lastIssue (g : Group) (i : Nat) (e : Entry) : (g.setEntry i e).lastIssue = g.lastIssue := rfl
@[simp] theorem Group.setEntry_first (g : Group) (i : Nat) (e : Entry) : (g.setEntry i e).first = g.first := rfl
@[simp] theorem Group.setEntry_lost (g : Group) (i : Nat) (e : Entry) : (g.setEntry i e).lost = g.lost := rfl
@[simp] theorem Group.setEntry_lostAt (g : Group) (i : Nat) (e : Entry) : (g.setEntry i e).lostAt = g.lostAt := rfl
@[simp] theorem Group.setEntry_promoted (g : Group) (i : Nat) (e : Entry) : (g.setEntry i e).promoted = g.promoted := rfl
@[simp] theorem Group.setEntry_lastEntry (g : Group) (i : Nat) (e : Entry) : (g.setEntry i e).lastEntry = g.lastEntry := rfl
@[simp] theorem Group.setEntry_bkpt (g : Group) (i : Nat) (e : Entry) : (g.setEntry i e).bkpt = g.bkpt := rfl

/-! ## Group.updEntry -/

@[simp] theorem Group.updEntry_launch (g : Group) (i : Nat) (f : Entry → Entry) : (g.updEntry i f).launch = g.launch := rfl
@[simp] theorem Group.updEntry_block (g : Group) (i : Nat) (f : Entry → Entry) : (g.updEntry i f).block = g.block := rfl
@[simp] theorem Group.updEntry_ctx (g : Group) (i : Nat) (f : Entry → Entry) : (g.updEntry i f).ctx = g.ctx := rfl
@[simp] theorem Group.updEntry_g (g : Group) (i : Nat) (f : Entry → Entry) : (g.updEntry i f).g = g.g := rfl
@[simp] theorem Group.updEntry_nregs (g : Group) (i : Nat) (f : Entry → Entry) : (g.updEntry i f).nregs = g.nregs := rfl
@[simp] theorem Group.updEntry_vBase (g : Group) (i : Nat) (f : Entry → Entry) : (g.updEntry i f).vBase = g.vBase := rfl
@[simp] theorem Group.updEntry_v (g : Group) (i : Nat) (f : Entry → Entry) : (g.updEntry i f).v = g.v := rfl
@[simp] theorem Group.updEntry_k (g : Group) (i : Nat) (f : Entry → Entry) : (g.updEntry i f).k = g.k := rfl
@[simp] theorem Group.updEntry_m (g : Group) (i : Nat) (f : Entry → Entry) : (g.updEntry i f).m = g.m := rfl
@[simp] theorem Group.updEntry_flags (g : Group) (i : Nat) (f : Entry → Entry) : (g.updEntry i f).flags = g.flags := rfl
@[simp] theorem Group.updEntry_cnts (g : Group) (i : Nat) (f : Entry → Entry) : (g.updEntry i f).cnts = g.cnts := rfl
@[simp] theorem Group.updEntry_ras (g : Group) (i : Nat) (f : Entry → Entry) : (g.updEntry i f).ras = g.ras := rfl
@[simp] theorem Group.updEntry_spilled (g : Group) (i : Nat) (f : Entry → Entry) : (g.updEntry i f).spilled = g.spilled := rfl
@[simp] theorem Group.updEntry_spBase (g : Group) (i : Nat) (f : Entry → Entry) : (g.updEntry i f).spBase = g.spBase := rfl
@[simp] theorem Group.updEntry_spSize (g : Group) (i : Nat) (f : Entry → Entry) : (g.updEntry i f).spSize = g.spSize := rfl
@[simp] theorem Group.updEntry_live (g : Group) (i : Nat) (f : Entry → Entry) : (g.updEntry i f).live = g.live := rfl
@[simp] theorem Group.updEntry_helper (g : Group) (i : Nat) (f : Entry → Entry) : (g.updEntry i f).helper = g.helper := rfl
@[simp] theorem Group.updEntry_ended (g : Group) (i : Nat) (f : Entry → Entry) : (g.updEntry i f).ended = g.ended := rfl
@[simp] theorem Group.updEntry_mfmt (g : Group) (i : Nat) (f : Entry → Entry) : (g.updEntry i f).mfmt = g.mfmt := rfl
@[simp] theorem Group.updEntry_trap (g : Group) (i : Nat) (f : Entry → Entry) : (g.updEntry i f).trap = g.trap := rfl
@[simp] theorem Group.updEntry_work (g : Group) (i : Nat) (f : Entry → Entry) : (g.updEntry i f).work = g.work := rfl
@[simp] theorem Group.updEntry_taskOpen (g : Group) (i : Nat) (f : Entry → Entry) : (g.updEntry i f).taskOpen = g.taskOpen := rfl
@[simp] theorem Group.updEntry_claimBad (g : Group) (i : Nat) (f : Entry → Entry) : (g.updEntry i f).claimBad = g.claimBad := rfl
@[simp] theorem Group.updEntry_fetch (g : Group) (i : Nat) (f : Entry → Entry) : (g.updEntry i f).fetch = g.fetch := rfl
@[simp] theorem Group.updEntry_refetch (g : Group) (i : Nat) (f : Entry → Entry) : (g.updEntry i f).refetch = g.refetch := rfl
@[simp] theorem Group.updEntry_fetchPc (g : Group) (i : Nat) (f : Entry → Entry) : (g.updEntry i f).fetchPc = g.fetchPc := rfl
@[simp] theorem Group.updEntry_fetchMod (g : Group) (i : Nat) (f : Entry → Entry) : (g.updEntry i f).fetchMod = g.fetchMod := rfl
@[simp] theorem Group.updEntry_fetchDepth (g : Group) (i : Nat) (f : Entry → Entry) : (g.updEntry i f).fetchDepth = g.fetchDepth := rfl
@[simp] theorem Group.updEntry_fetchRas (g : Group) (i : Nat) (f : Entry → Entry) : (g.updEntry i f).fetchRas = g.fetchRas := rfl
@[simp] theorem Group.updEntry_fetchClause (g : Group) (i : Nat) (f : Entry → Entry) : (g.updEntry i f).fetchClause = g.fetchClause := rfl
@[simp] theorem Group.updEntry_wounded (g : Group) (i : Nat) (f : Entry → Entry) : (g.updEntry i f).wounded = g.wounded := rfl
@[simp] theorem Group.updEntry_rolling (g : Group) (i : Nat) (f : Entry → Entry) : (g.updEntry i f).rolling = g.rolling := rfl
@[simp] theorem Group.updEntry_allotted (g : Group) (i : Nat) (f : Entry → Entry) : (g.updEntry i f).allotted = g.allotted := rfl
@[simp] theorem Group.updEntry_pmc (g : Group) (i : Nat) (f : Entry → Entry) : (g.updEntry i f).pmc = g.pmc := rfl
@[simp] theorem Group.updEntry_lastIssue (g : Group) (i : Nat) (f : Entry → Entry) : (g.updEntry i f).lastIssue = g.lastIssue := rfl
@[simp] theorem Group.updEntry_first (g : Group) (i : Nat) (f : Entry → Entry) : (g.updEntry i f).first = g.first := rfl
@[simp] theorem Group.updEntry_lost (g : Group) (i : Nat) (f : Entry → Entry) : (g.updEntry i f).lost = g.lost := rfl
@[simp] theorem Group.updEntry_lostAt (g : Group) (i : Nat) (f : Entry → Entry) : (g.updEntry i f).lostAt = g.lostAt := rfl
@[simp] theorem Group.updEntry_promoted (g : Group) (i : Nat) (f : Entry → Entry) : (g.updEntry i f).promoted = g.promoted := rfl
@[simp] theorem Group.updEntry_lastEntry (g : Group) (i : Nat) (f : Entry → Entry) : (g.updEntry i f).lastEntry = g.lastEntry := rfl
@[simp] theorem Group.updEntry_bkpt (g : Group) (i : Nat) (f : Entry → Entry) : (g.updEntry i f).bkpt = g.bkpt := rfl

end Sys2Proof.Machine
end

