-- ==== Sys2Proof/Tests/Slice0.lean ====
section
/-! SUPPORT. Tests: words written out from the spec's encodings, ill-formed terms, one step per instruction and event on small states, and
for each statement of Certificates/Slice0 a state and operands that meet its hypotheses (expected values from the spec's tables, rules and
examples, or by hand from them). -/

open Sys2Proof Sys2Proof.Machine

namespace Sys2Proof.Tests

set_option Elab.async false

theorem test_decode_control_1 :
    decodeTableWord 96 0x000000050000000000000001 = some (.nop .l96) ∧
    decodeTableWord 64 0x0000123456004C04 = some (.br ⟨true, 3⟩ (.off24 0x123456)) ∧
    decodeTableWord 128 0x00000100000000000000000000000006 = some (.br ⟨false, 0⟩ (.off64 0x10000000000)) ∧
    decodeTableWord 96 0xFFFFFFFF1800000000070009 = some (.brc .gez ⟨false, 0⟩ 7 (.off32 0xFFFFFFFF)) ∧
    decodeTableWord 64 0x000000000200000C = some (.call ⟨false, 0⟩ (.off24 2)) ∧
    decodeTableWord 64 0x0000000006000010 = some (.calli ⟨false, 0⟩ 6) ∧
    decodeTableWord 64 0x0000000A09000014 = some (.callm ⟨false, 0⟩ 9 10) ∧
    decodeTableWord 64 0x0000000000000018 = some (.ret) ∧
    decodeTableWord 64 0x000000000000001C = some (.join) := by
  decide +kernel

theorem test_decode_control_2 :
    decodeTableWord 64 0x0000000000004C20 = some (.exit ⟨true, 3⟩) ∧
    decodeTableWord 64 0x0000000000000024 = some (.yield ⟨false, 0⟩) ∧
    decodeTableWord 96 0x000000030800000004008029 = some (.ipf ⟨false, 0⟩ .l1 4 (.i32 3)) := by
  decide +kernel

theorem test_decode_integer_1 :
    decodeTableWord 64 0x0878000914140040 = some (.add false ⟨false, 0⟩ .n64 .sx false 20 20 (.v 9)) ∧
    decodeTableWord 64 0x0150000706058044 = some (.sub true ⟨false, 0⟩ .i32 true 5 6 (.k 7)) ∧
    decodeTableWord 64 0x0C50000204030048 = some (.mul false ⟨false, 0⟩ .i32 true false 3 4 (.k 2)) ∧
    decodeTableWord 64 0x007004030201004C = some (.mad false ⟨false, 0⟩ .n32 false 1 2 (.v 3) 4) ∧
    decodeTableWord 96 0x0000001F0080000009080051 = some (.shl false ⟨false, 0⟩ .b32 8 9 (.i32 31)) ∧
    decodeTableWord 128 0x000000000000003F005800000A080056 = some (.shr false ⟨false, 0⟩ .i64 8 10 (.i64 63)) ∧
    decodeTableWord 64 0x0080000302014C58 = some (.and false ⟨true, 3⟩ .b32 1 2 (.v 3)) ∧
    decodeTableWord 64 0x008800060402005C = some (.or false ⟨false, 0⟩ .b64 2 4 (.v 6)) ∧
    decodeTableWord 96 0x000000FF0080000004028061 = some (.xor true ⟨false, 0⟩ .b32 2 4 (.i32 0xFF)) := by
  decide +kernel

theorem test_decode_integer_2 :
    decodeTableWord 64 0x0080000004020064 = some (.not false ⟨false, 0⟩ .b32 2 4) ∧
    decodeTableWord 64 0x0070000104020068 = some (.min false ⟨false, 0⟩ .n32 2 4 (.v 1)) ∧
    decodeTableWord 64 0x005800060402006C = some (.max false ⟨false, 0⟩ .i64 2 4 (.v 6)) ∧
    decodeTableWord 96 0xFFFFFFFF2958000006050071 = some (.icmp false ⟨false, 0⟩ .i64 .ge true 5 6 (.i32 0xFFFFFFFF)) ∧
    decodeTableWord 64 0x0080040302010074 = some (.sel false ⟨false, 0⟩ .b32 1 2 (.v 3) 4) ∧
    decodeTableWord 64 0x08800000000A0078 = some (.mov false ⟨false, 0⟩ .b32 true 10 (.v 0)) ∧
    decodeTableWord 64 0x088800000408007C = some (.cnt false ⟨false, 0⟩ .b64 .lz 8 4) := by
  decide +kernel

theorem test_decode_float_1 :
    decodeTableWord 64 0x000C000302010080 = some (.fadd ⟨false, 0⟩ .f32 .rdn 1 2 (.v 3)) ∧
    decodeTableWord 64 0x0000000604020084 = some (.fsub ⟨false, 0⟩ .f64 .rne 2 4 (.v 6)) ∧
    decodeTableWord 64 0x0408000808080088 = some (.fmul ⟨false, 0⟩ .f32 .rne 8 8 (.k 8)) ∧
    decodeTableWord 64 0x040B14090414008C = some (.ffma ⟨false, 0⟩ .f32 .rup 20 4 (.k 9) 20) ∧
    decodeTableWord 96 0x400000000008000002010091 = some (.fdiv ⟨false, 0⟩ .f32 .rne 1 2 (.i32 0x40000000)) ∧
    decodeTableWord 64 0x0011000002010094 = some (.fsqrt ⟨false, 0⟩ .f16 .rna 1 2) ∧
    decodeTableWord 64 0x001A000002010098 = some (.frsq ⟨false, 0⟩ .bf16 .rtz 1 2) ∧
    decodeTableWord 64 0x000800030201009C = some (.fmin ⟨false, 0⟩ .f32 1 2 (.v 3)) ∧
    decodeTableWord 64 0x00080003020100A0 = some (.fmax ⟨false, 0⟩ .f32 1 2 (.v 3)) := by
  decide +kernel

theorem test_decode_float_2 :
    decodeTableWord 64 0x11080002010400A4 = some (.fcmp ⟨false, 0⟩ .f32 .lt true 4 1 (.v 2)) ∧
    decodeTableWord 64 0x00000410080200AC = some (.fdot4 ⟨false, 0⟩ .f64 .rne false 2 8 16 4) ∧
    decodeTableWord 64 0x01200004020100B0 = some (.fdot8 ⟨false, 0⟩ .e4m3 .rne true 1 2 4 0) ∧
    decodeTableWord 64 0x00080000020100B4 = some (.gsum ⟨false, 0⟩ .f32 .rne 1 2) ∧
    decodeTableWord 64 0x000B0000020100C0 = some (.fexp ⟨false, 0⟩ .f32 .rup 1 2) ∧
    decodeTableWord 64 0x000B0000020100C4 = some (.fexp2 ⟨false, 0⟩ .f32 .rup 1 2) ∧
    decodeTableWord 64 0x000B0000020100C8 = some (.fexpm1 ⟨false, 0⟩ .f32 .rup 1 2) ∧
    decodeTableWord 64 0x000B0000020100CC = some (.flog ⟨false, 0⟩ .f32 .rup 1 2) ∧
    decodeTableWord 64 0x000B0000020100D0 = some (.flog2 ⟨false, 0⟩ .f32 .rup 1 2) := by
  decide +kernel

theorem test_decode_float_3 :
    decodeTableWord 64 0x000B0000020100D4 = some (.flog1p ⟨false, 0⟩ .f32 .rup 1 2) ∧
    decodeTableWord 64 0x000B0000020100D8 = some (.fsin ⟨false, 0⟩ .f32 .rup 1 2) ∧
    decodeTableWord 64 0x000B0000020100DC = some (.fcos ⟨false, 0⟩ .f32 .rup 1 2) ∧
    decodeTableWord 64 0x000B0000020100E0 = some (.fsinpi ⟨false, 0⟩ .f32 .rup 1 2) ∧
    decodeTableWord 64 0x000B0000020100E4 = some (.fcospi ⟨false, 0⟩ .f32 .rup 1 2) ∧
    decodeTableWord 64 0x000B0000020100E8 = some (.ftanh ⟨false, 0⟩ .f32 .rup 1 2) ∧
    decodeTableWord 64 0x000B0000020100EC = some (.fsigm ⟨false, 0⟩ .f32 .rup 1 2) := by
  decide +kernel

theorem test_decode_lanes_1 :
    decodeTableWord 64 0x7008000008080100 = some (.cvt ⟨false, 0⟩ .f32 .n32 .rne false 8 8) ∧
    decodeTableWord 64 0x1A30000010080104 = some (.qblk ⟨false, 0⟩ .q4o .bf16 .rne 2 8 16) ∧
    decodeTableWord 64 0x0080000402010108 = some (.rngk ⟨false, 0⟩ .b32 1 2 4) ∧
    decodeTableWord 96 0x00000001108000000201010D = some (.xsel ⟨false, 0⟩ .b32 .up 1 2 (.i32 1)) ∧
    decodeTableWord 64 0x1080000002010110 = some (.qswap ⟨false, 0⟩ .b32 .v 1 2) ∧
    decodeTableWord 64 0x1888000004020114 = some (.qbcast ⟨false, 0⟩ .b64 3 2 4) ∧
    decodeTableWord 64 0x0808000002010118 = some (.qdiff ⟨false, 0⟩ .f32 .rne true 1 2) ∧
    decodeTableWord 64 0x008000000201011C = some (.ballot ⟨false, 0⟩ 1 2) ∧
    decodeTableWord 64 0x1800000302018120 = some (.mop ⟨false, 0⟩ .andn 1 2 3) := by
  decide +kernel

theorem test_decode_lanes_2 :
    decodeTableWord 64 0x0800000002288124 = some (.mmov ⟨false, 0⟩ .k 40 2) := by
  decide +kernel

theorem test_decode_memory_1 :
    decodeTableWord 64 0x1080000301040140 = some (.ldSh ⟨false, 0⟩ .b32 .x4 4 1 (.k 3)) ∧
    decodeTableWord 96 0x000000080040040001000145 = some (.stSh ⟨false, 0⟩ .i8 .x1 1 (.i32 8) 4) ∧
    decodeTableWord 64 0x0088000301040148 = some (.ldSp ⟨false, 0⟩ .b64 .x1 4 1 (.k 3)) ∧
    decodeTableWord 64 0x006804030100014C = some (.stSp ⟨false, 0⟩ .n16 .x1 1 (.k 3) 4) ∧
    decodeTableWord 64 0x0880000301060150 = some (.sld ⟨false, 0⟩ .b32 .x2 6 1 (.k 3)) ∧
    decodeTableWord 96 0xFFFFFFF80060090001000155 = some (.sst ⟨false, 0⟩ .n8 .x1 1 (.i32 0xFFFFFFF8) 9) ∧
    decodeTableWord 64 0x3B8B040301020158 = some (.atom ⟨false, 0⟩ .cas .b64 .ar .dev 2 1 (.k 3) 4) ∧
    decodeTableWord 64 0x080300000000815C = some (.fence ⟨false, 0⟩ .rel .dev) ∧
    decodeTableWord 64 0x0800060504038180 = some (.cpin ⟨false, 0⟩ true .none .grp 3 4 5 6 none) := by
  decide +kernel

theorem test_decode_memory_2 :
    decodeTableWord 96 0x000000410204060504038185 = some (.cpout ⟨false, 0⟩ false .rel .sys 3 4 5 6 (some 0x41)) ∧
    decodeTableWord 64 0x0103060504038188 = some (.cpgat ⟨false, 0⟩ false .acq .dev 3 4 5 6 none) ∧
    decodeTableWord 64 0x000006050403818C = some (.cpbp ⟨false, 0⟩ .none .grp 3 4 5 6 none) ∧
    decodeTableWord 96 0x000002C50000060504038191 = some (.cppeer ⟨false, 0⟩ false .none .grp 3 4 5 6 (some 0x2C5)) ∧
    decodeTableWord 64 0x0000000600058194 = some (.barv ⟨false, 0⟩ 5 (.k 6)) ∧
    decodeTableWord 96 0x000000020000070000008199 = some (.barxExp ⟨false, 0⟩ (.i 2) 7) ∧
    decodeTableWord 64 0x0800070100008198 = some (.barxCfg ⟨false, 0⟩ (.k 1) 7) ∧
    decodeTableWord 64 0x1000000100078198 = some (.barxPh ⟨false, 0⟩ 7 (.k 1)) ∧
    decodeTableWord 96 0x00000002000000000500819D = some (.barw ⟨false, 0⟩ 5 (.i 2)) := by
  decide +kernel

theorem test_decode_memory_3 :
    decodeTableWord 64 0x00000000003C81C0 = some (.fetchw ⟨false, 0⟩ 60) ∧
    decodeTableWord 64 0x00000002010081C4 = some (.spawn ⟨false, 0⟩ 1 2) ∧
    decodeTableWord 64 0x00000000000081C8 = some (.tend) := by
  decide +kernel

theorem test_decode_matrix :
    decodeTableWord 96 0x000000630000000000008201 = some (.msetf ⟨false, 0⟩ (.i 0x63)) ∧
    decodeTableWord 64 0x00020004401F0204 = some (.mma ⟨false, 0⟩ .rtz 31 64 (.k 4)) ∧
    decodeTableWord 64 0x0000000000058208 = some (.macq ⟨false, 0⟩ 5) ∧
    decodeTableWord 64 0x000000000005820C = some (.mrel ⟨false, 0⟩ 5) ∧
    decodeTableWord 64 0x090B000706058210 = some (.mldIn ⟨false, 0⟩ true .f32 true .dev 5 6 (.k 7)) ∧
    decodeTableWord 64 0x1050000706058210 = some (.mldOut ⟨false, 0⟩ false .i32 false .grp 5 6 (.k 7)) ∧
    decodeTableWord 96 0x000007000118000005080215 = some (.mdrn ⟨false, 0⟩ .bf16 true 8 5 (.i 0x700)) ∧
    decodeTableWord 64 0x0050000000058218 = some (.mzero ⟨false, 0⟩ .i32 5) ∧
    decodeTableWord 64 0x108008030100021C = some (.bld ⟨false, 0⟩ .b32 .x4 1 (.k 3) 8) := by
  decide +kernel

theorem test_decode_system :
    decodeTableWord 96 0x0000010500000000000483C1 = some (.sread ⟨false, 0⟩ 4 0x105) ∧
    decodeTableWord 96 0x0000010200000000040083C5 = some (.swrite ⟨false, 0⟩ 4 0x102) ∧
    decodeTableWord 96 0x0000002A00000000000083C9 = some (.trap ⟨false, 0⟩ (.i 0x2A)) ∧
    decodeTableWord 64 0x00000000000083CC = some (.eret ⟨false, 0⟩) ∧
    decodeTableWord 64 0x000000000000CFD0 = some (.bkpt ⟨true, 3⟩) ∧
    decodeTableWord 96 0x0000011208000000000483D5 = some (.pmc ⟨false, 0⟩ true 4 (.i 0x112)) := by
  decide +kernel

/-! ## Well-formedness: a term for each check, which the check refuses -/

theorem test_refused_registers :
    [ -- an odd register where a pair is named; a uniform register beyond k63; a mask register beyond m15; m0 as a destination
      Instr.calli ⟨false, 0⟩ 7, .callm ⟨false, 0⟩ 64 0, .brc .nz ⟨false, 0⟩ 64 (.off24 0), .ipf ⟨false, 0⟩ .l0 64 (.k 0), .ipf ⟨false, 0⟩ .l0 0 (.k 64),
      .sel false ⟨false, 0⟩ .b32 1 2 (.v 3) 16, .ballot ⟨false, 0⟩ 0 1, .mop ⟨false, 0⟩ .and 1 16 0, .mop ⟨false, 0⟩ .not 1 2 3,
      .mmov ⟨false, 0⟩ .m 1 64, .mmov ⟨false, 0⟩ .k 64 1, .mmov ⟨false, 0⟩ .unit 1 2, .icmp false ⟨false, 0⟩ .i32 .eq false 0 1 (.v 2),
      .fcmp ⟨false, 0⟩ .f32 .eq false 16 1 (.v 2), .sread ⟨false, 0⟩ 64 0, .swrite ⟨false, 0⟩ 64 0, .fetchw ⟨false, 0⟩ 61, .spawn ⟨false, 0⟩ 64 0,
      .macq ⟨false, 0⟩ 32, .mrel ⟨false, 0⟩ 32, .mzero ⟨false, 0⟩ .f32 32, .mma ⟨false, 0⟩ .rne 32 0 (.k 0), .mma ⟨false, 0⟩ .rne 0 225 (.k 0),
      .ldSh ⟨false, 0⟩ .b32 .x4 253 0 (.k 0), .stSh ⟨false, 0⟩ .b64 .x1 0 (.k 0) 3, .fdot4 ⟨false, 0⟩ .f64 .rne false 0 250 0 0,
      .mdrn ⟨false, 0⟩ .f32 false 249 0 (.i 0x700)].all (fun i => !i.wellFormed) = true := by decide +kernel

theorem test_refused_types :
    [ -- a type that the instruction does not take, a modifier that its type or its other modifier excludes
      Instr.add false ⟨false, 0⟩ .b32 .none false 0 0 (.v 0), .add false ⟨false, 0⟩ .i32 .sx false 0 0 (.v 0), .add false ⟨false, 0⟩ .i64 .zx false 0 0 (.i64 0),
      .sub false ⟨false, 0⟩ .f32 false 0 0 (.v 0), .mul false ⟨false, 0⟩ .i32 true true 0 0 (.v 0), .mad false ⟨false, 0⟩ .i8 false 0 0 (.v 0) 0,
      .shl false ⟨false, 0⟩ .f32 0 0 (.v 0), .and false ⟨false, 0⟩ .i32 0 0 (.v 0), .not false ⟨false, 0⟩ .n32 0 0, .min false ⟨false, 0⟩ .b32 0 0 (.v 0),
      .mov false ⟨false, 0⟩ .b64 true 0 (.v 0), .mov false ⟨false, 0⟩ .b32 true 0 (.v 1), .cnt false ⟨false, 0⟩ .n64 .pop 0 0,
      .fadd ⟨false, 0⟩ .e4m3 .rne 0 0 (.v 0), .ffma ⟨false, 0⟩ .i32 .rne 0 0 (.v 0) 0, .fdot4 ⟨false, 0⟩ .f32 .rne true 0 0 0 1,
      .fdot8 ⟨false, 0⟩ .f64 .rne false 0 0 0 0, .fsqrt ⟨false, 0⟩ .e5m2 .rne 0 0, .cvt ⟨false, 0⟩ .q4o .f32 .rne false 0 0,
      .qblk ⟨false, 0⟩ .q4o .f64 .rne 0 0 0, .qblk ⟨false, 0⟩ .q4o .f32 .rtz 0 0 0, .qblk ⟨false, 0⟩ .e4m3 .f32 .rne 1 0 0, .rngk ⟨false, 0⟩ .f64 0 0 0,
      .xsel ⟨false, 0⟩ .b32 .idx 0 0 (.i64 0), .qswap ⟨false, 0⟩ .f32 .h 0 0, .qbcast ⟨false, 0⟩ .f32 0 0 0].all (fun i => !i.wellFormed) = true := by
  decide +kernel

theorem test_refused_forms :
    [ -- counts, scopes without an order, tokens, reserved bits of immediates, operand c of a load
      Instr.ldSp ⟨false, 0⟩ .b64 .x4 0 0 (.k 0), .sst ⟨false, 0⟩ .i8 .x2 0 (.k 0) 0, .bld ⟨false, 0⟩ .f32 .x1 0 (.k 0) 0, .sld ⟨false, 0⟩ .b32 .x1 0 0 (.k 64),
      .atom ⟨false, 0⟩ .add .b32 .none .grp 0 0 (.k 0) 0, .atom ⟨false, 0⟩ .xch .b32 .none .dev 0 0 (.k 0) 0, .atom ⟨false, 0⟩ .ld .b32 .none .grp 0 0 (.k 0) 1,
      .atom ⟨false, 0⟩ .cas .b64 .none .grp 0 0 (.k 0) 254, .cpin ⟨false, 0⟩ true .none .grp 8 0 0 0 none, .cpin ⟨false, 0⟩ true .none .sys 0 0 0 0 none,
      .cpout ⟨false, 0⟩ true .none .grp 0 64 0 0 none, .cpbp ⟨false, 0⟩ .none .grp 0 0 0 0 (some 0x80), .cppeer ⟨false, 0⟩ true .none .grp 0 0 0 0 (some 0x10000),
      .barv ⟨false, 0⟩ 0 (.i 64), .barxExp ⟨false, 0⟩ (.i 64) 0, .barw ⟨false, 0⟩ 64 (.k 0), .trap ⟨false, 0⟩ (.i 0x10000), .pmc ⟨false, 0⟩ false 0 (.i 0x200),
      .mma ⟨false, 0⟩ .rne 0 0 (.i 0x20), .mldIn ⟨false, 0⟩ true .f64 false .grp 0 0 (.k 0), .mldOut ⟨false, 0⟩ true .f32 false .dev 0 0 (.k 0),
      .mdrn ⟨false, 0⟩ .i64 false 0 0 (.k 0), .mdrn ⟨false, 0⟩ .f32 false 0 0 (.i 0x4000)].all (fun i => !i.wellFormed) = true := by decide +kernel

/-- Words that R226 refuses, each by the condition that applies first: a reserved opcode, a length and a U value that Table 11.8 does not
give, a reserved type, SUBOP and KB, m0 as a destination, a field shown as — that is not zero. -/
theorem test_refused_words :
    decodeBits 0x000000000000002C = .bad 1 ∧ decodeBits 0x0000000000000019 = .bad 4 ∧ decodeBits 0x0000000000008018 = .bad 4 ∧
    decodeBits 0x0000000000000040 = .bad 5 ∧ decodeBits 0x2080000000000078 = .bad 5 ∧ decodeBits 0x0480000000000064 = .bad 5 ∧
    decodeBits 0x000000000000011C = .bad 5 ∧ decodeBits 0x008000000000011C = .bad 6 ∧ decodeBits 0x0000000001000018 = .resv .ret := by decide +kernel

/-- The encoder writes the words that the spec gives (`ffma`, `fence`, `trap`), the first word lowest. -/
theorem test_encode :
    encode (.ffma ⟨false, 0⟩ .f32 .rup 20 4 (.k 9) 20) = [0x0414008C, 0x040B1409] ∧ encode (.fence ⟨false, 0⟩ .rel .dev) = [0x0000815C, 0x08030000] ∧
    encode (.trap ⟨false, 0⟩ (.i 0x2A)) = [0x000083C9, 0, 0x2A] := by decide +kernel

/-! ## The machine of the tests -/

/-- One launch of one group resident on core 0, with f as its group, its unit in the issue slot before the instruction at address 8. -/
def tS (f : Group → Group := id) : State :=
  ({ State.reset.withFetchWord 64 0 with sel := some { grp := 0, entry := 0, pc := 8, npc := 16 } } : State).updGroup 0 f

/-- What `Stands` says, as a check. -/
def stands (s : State) (i : Instr) : Bool := s.cur.elim false fun c => i.wellFormed && c.encodingOk s i

/-- exec answers a next state for which f holds. -/
def goes (s : State) (i : Instr) (f : State → Bool) : Bool :=
  match exec i s with
  | .next t => f t
  | _ => false

/-- The state that exec answers. -/
def after (s : State) (i : Instr) : State :=
  match exec i s with
  | .next t => t
  | _ => s

/-- Lane register n of thread th, uniform register n and mask register n of group 0. -/
def vv (t : State) (th n : Nat) : Word := (t.group 0).elim 0 fun g => g.vget th n
def kk (t : State) (n : Nat) : Dword := (t.group 0).elim 0 fun g => g.kget n
def mm (t : State) (n : Nat) : Word := (t.group 0).elim 0 fun g => g.mget n
def ee (t : State) (n : Nat) : Option Entry := (t.group 0).bind fun g => g.entry n

/-- The instruction stands before the unit, and register 1 of thread 0 then holds x. -/
def gives (s : State) (i : Instr) (x : Word) : Bool := stands s i && goes s i fun t => vv t 0 1 = x

abbrev P : Pred := ⟨false, 0⟩

/-- Registers 2 to 5 of thread 0 and k2 to k4. -/
def tR (a b c d : Word) (x : Dword := 0) (y : Dword := 0) : State :=
  tS fun g => { g with v := [(2, a), (3, b), (4, c), (5, d)], k := [(2, x), (3, y)] }

/-! ## Integer and mask instructions: witnesses of IntegerArithmetic, IntegerShiftsAndBits, UniformForms, ComparesAndMasks -/

theorem test_add : gives (tR 5 0xFFFFFFF8 0 0) (.add false P .n32 .none false 1 2 (.v 3)) 0xFFFFFFFD = true ∧
    gives (tR 0x7FFFFFFF 1 0 0) (.add false P .i32 .none true 1 2 (.v 3)) 0x7FFFFFFF = true := by decide +kernel
/-- R228: `add.sx.n64.sat` of a = 5 and b = -8 gives 0. -/
theorem test_add_sx : goes (tR 5 0 0xFFFFFFF8 0) (.add false P .n64 .sx true 6 2 (.v 4)) (fun t => vv t 0 6 = 0 ∧ vv t 0 7 = 0) = true ∧
    stands (tR 5 0 0xFFFFFFF8 0) (.add false P .n64 .sx true 6 2 (.v 4)) = true := by decide +kernel
theorem test_sub : gives (tR 3 5 0 0) (.sub false P .n32 true 1 2 (.v 3)) 0 = true ∧ gives (tR 3 5 0 0) (.sub false P .i32 false 1 2 (.v 3)) 0xFFFFFFFE = true := by
  decide +kernel
theorem test_mul : gives (tR 0x80000000 2 0 0) (.mul false P .i32 true false 1 2 (.v 3)) 0xFFFFFFFF = true ∧
    gives (tR 0x10000 0x10000 0 0) (.mul false P .n32 false true 1 2 (.v 3)) 0xFFFFFFFF = true := by decide +kernel
theorem test_mad : gives (tR 3 4 0xFFFFFFFF 0) (.mad false P .i32 false 1 2 (.v 3) 4) 11 = true := by decide +kernel
theorem test_min_max : gives (tR 0xFFFFFFFF 1 0 0) (.min false P .i32 1 2 (.v 3)) 0xFFFFFFFF = true ∧
    gives (tR 0xFFFFFFFF 1 0 0) (.max false P .i32 1 2 (.v 3)) 1 = true ∧ gives (tR 0xFFFFFFFF 1 0 0) (.min false P .n32 1 2 (.v 3)) 1 = true := by
  decide +kernel
theorem test_shl : gives (tR 1 31 0 0) (.shl false P .b32 1 2 (.v 3)) 0x80000000 = true ∧ gives (tR 1 32 0 0) (.shl false P .n32 1 2 (.v 3)) 0 = true := by
  decide +kernel
theorem test_shr : gives (tR 0x80000000 40 0 0) (.shr false P .i32 1 2 (.v 3)) 0xFFFFFFFF = true ∧
    gives (tR 0x80000000 31 0 0) (.shr false P .n32 1 2 (.v 3)) 1 = true := by decide +kernel
theorem test_logic : gives (tR 0xC 0xA 0 0) (.and false P .b32 1 2 (.v 3)) 8 = true ∧ gives (tR 0xC 0xA 0 0) (.or false P .b32 1 2 (.v 3)) 0xE = true ∧
    gives (tR 0xC 0xA 0 0) (.xor false P .b32 1 2 (.v 3)) 6 = true ∧ gives (tR 0xC 0xA 0 0) (.not false P .b32 1 2) 0xFFFFFFF3 = true := by decide +kernel
theorem test_sel : gives (tS fun g => { g with v := [(2, 7), (3, 9)], m := [(4, 0xFFFFFFFE)] }) (.sel false P .b32 1 2 (.v 3) 4) 9 = true := by decide +kernel
theorem test_mov : gives (tR 0 0 0 0 0x123456789) (.mov false P .b32 false 1 (.k 2)) 0x23456789 = true ∧
    goes (tS) (.mov false P .b32 true 1 (.v 0)) (fun t => vv t 31 1 = 31 ∧ vv t 0 1 = 0) = true ∧ stands tS (.mov false P .b32 true 1 (.v 0)) = true := by
  decide +kernel
theorem test_cnt : gives (tR 0x00F0 0 0 0) (.cnt false P .b32 .lz 1 2) 24 = true ∧ gives (tR 0 0 0 0) (.cnt false P .b32 .tz 1 2) 32 = true ∧
    gives (tR 1 0 0 0) (.cnt false P .b32 .rev 1 2) 0x80000000 = true ∧ gives (tR 0xFF 0 0 0) (.cnt false P .b32 .pop 1 2) 8 = true := by decide +kernel
/-- R228: the uniform forms write a 32-bit result sign-extended for i32, zero-extended for n32. -/
theorem test_uniform : stands (tR 0 0 0 0 1 2) (.sub true P .i32 false 5 2 (.k 3)) = true ∧
    goes (tR 0 0 0 0 1 2) (.sub true P .i32 false 5 2 (.k 3)) (fun t => kk t 5 = 0xFFFFFFFFFFFFFFFF) = true ∧
    goes (tR 0 0 0 0 1 2) (.sub true P .n32 false 5 2 (.k 3)) (fun t => kk t 5 = 0xFFFFFFFF) = true := by decide +kernel
/-- Witness of UniformForms: each form stands. -/
theorem test_uniform_forms : [Instr.add true P .i64 .none true 5 2 (.k 3), .add true P .i64 .sx false 5 2 (.k 3), .add true P .n64 .zx false 5 2 (.i32 1),
    .mul true P .i32 false true 5 2 (.k 3), .mul true P .i64 true false 5 2 (.k 3), .mad true P .i32 true 5 2 (.k 3) 4, .min true P .n64 5 2 (.k 3),
    .max true P .i32 5 2 (.k 3), .shl true P .b64 5 2 (.k 3), .shr true P .i64 5 2 (.i64 63), .and true P .b32 5 2 (.k 3), .or true P .b32 5 2 (.k 3),
    .xor true P .b64 5 2 (.k 3), .not true P .b32 5 2, .mov true P .b64 false 5 (.k 3), .mov true P .b32 true 5 (.k 0), .sel true P .b32 5 2 (.k 3) 15,
    .cnt true P .b64 .rev 63 2].all (stands (tR 0 0 0 0 1 2)) = true := by decide +kernel
theorem test_icmp : stands (tR 5 6 0 0) (.icmp false P .i32 .lt true 15 2 (.v 3)) = true ∧
    goes (tR 5 6 0 0) (.icmp false P .i32 .lt true 15 2 (.v 3)) (fun t => mm t 15 = 1) = true ∧
    goes (tS fun g => { g with v := [(2, 5)], m := [(3, 6), (4, 0xF0)] }) (.icmp false ⟨false, 3⟩ .i32 .eq false 4 2 (.v 9)) (fun t => mm t 4 = 0xF6) = true := by
  decide +kernel
/-- A NaN compares unordered, and zeros of either sign are equal. -/
theorem test_fcmp : stands (tR 0x7FC00000 0 0 0) (.fcmp P .f32 .un true 1 2 (.v 3)) = true ∧
    goes (tR 0x7FC00000 0 0 0) (.fcmp P .f32 .un true 1 2 (.v 3)) (fun t => mm t 1 = 1) = true ∧
    goes (tR 0x80000000 0 0 0) (.fcmp P .f32 .ne true 1 2 (.v 3)) (fun t => mm t 1 = 0) = true := by decide +kernel
theorem test_mop : let s := tS fun g => { g with m := [(1, 0xC), (2, 0xA)] }
    goes s (.mop P .andn 3 1 2) (fun t => mm t 3 = 4) = true ∧ goes s (.mop P .not 3 0 0) (fun t => mm t 3 = 0) = true ∧
    [Instr.mop P .and 3 1 2, .mop P .or 3 1 2, .mop P .xor 3 1 2, .mop P .not 3 1 0, .mop P .andn 15 1 2].all (stands s) = true := by decide +kernel
theorem test_mmov : let s := tS fun g => { g with m := [(1, 0xC)], k := [(2, 0x1FFFFFFFF)] }
    goes s (.mmov P .k 5 0) (fun t => kk t 5 = 0xFFFFFFFF) = true ∧ goes s (.mmov P .m 3 2) (fun t => mm t 3 = 0xFFFFFFFF) = true ∧
    [Instr.mmov P .m 3 2, .mmov P .k 63 1, .mmov P .unit 3 0].all (stands s) = true := by decide +kernel
theorem test_ballot : stands (tR 5 0 0 0) (.ballot P 1 2) = true ∧ goes (tR 5 0 0 0) (.ballot P 1 2) (fun t => mm t 1 = 1) = true := by decide +kernel
/-- With no active thread an instruction has no effect but its issue (R216). -/
theorem test_no_thread : goes (tR 5 6 0 0) (.add false ⟨true, 0⟩ .i32 .none false 1 2 (.v 3)) (fun t => vv t 0 1 = 0 ∧ (ee t 0).map (·.pc) = some 16) = true := by
  decide +kernel

/-! ## Floating point: witnesses of RoundingCorrect to CounterAndExchange -/

/-- Registers 2 and 3 of threads 0 and 1. -/
def tF (a b : Word) (a1 : Word := 0) : State := tS fun g => { g with v := [(2, a), (3, b), (258, a1)] }

/-- 1 + 2^-25 rounds down to 1 and up to the next number; 1 - 1 is -0 when rounding down (R60). -/
theorem test_fadd : gives (tF 0x3F800000 0x33000000) (.fadd P .f32 .rdn 1 2 (.v 3)) 0x3F800000 = true ∧
    gives (tF 0x3F800000 0x33000000) (.fadd P .f32 .rup 1 2 (.v 3)) 0x3F800001 = true := by decide +kernel
theorem test_fsub : gives (tF 0x3F800000 0x3F800000) (.fsub P .f32 .rdn 1 2 (.v 3)) 0x80000000 = true ∧
    gives (tF 0x7F800000 0x7F800000) (.fsub P .f32 .rne 1 2 (.v 3)) 0x7FC00000 = true := by decide +kernel
theorem test_fmul : gives (tF 0x3FC00000 0xC0000000) (.fmul P .f32 .rne 1 2 (.v 3)) 0xC0400000 = true ∧
    gives (tF 0 0x7F800000) (.fmul P .f32 .rne 1 2 (.v 3)) 0x7FC00000 = true := by decide +kernel
theorem test_ffma : gives (tF 0x40000000 0x40400000) (.ffma P .f32 .rne 1 2 (.v 3) 2) 0x41000000 = true := by decide +kernel
theorem test_fdiv : gives (tF 0x3F800000 0x40400000) (.fdiv P .f32 .rne 1 2 (.v 3)) 0x3EAAAAAB = true ∧
    gives (tF 0xBF800000 0) (.fdiv P .f32 .rne 1 2 (.v 3)) 0xFF800000 = true := by decide +kernel
theorem test_fsqrt : gives (tF 0x40000000 0) (.fsqrt P .f32 .rne 1 2) 0x3FB504F3 = true ∧ gives (tF 0x80000000 0) (.fsqrt P .f32 .rne 1 2) 0x80000000 = true := by
  decide +kernel
theorem test_qdiff : gives (tF 0x3F800000 0 0x40400000) (.qdiff P .f32 .rne false 1 2) 0x40000000 = true ∧
    stands tS (.qdiff P .f32 .rne true 1 2) = true := by decide +kernel
/-- A tiny f32 result escalates and leaves its register as it is (R62, R83); it is withheld while the buffer has no room. -/
theorem test_escalates : goes (tF 0x00800000 0x3F000000) (.fmul P .f32 .rne 1 2 (.v 3)) (fun t => vv t 0 1 = 0 ∧ t.parked.length = 1) = true ∧
    (tF 0 0).bufferRoom 0 = true ∧
    (let s := { tF 0 0 with parked := (List.range 225).map fun n => (n, { core := 0, grp := 0, block := 1, dest := .elem 0 n, value := 0, opc := 0, sub := 0, ty := 1, mode := 0 }) }
     s.bufferRoom 0 = false ∧ goes s (.fadd P .f32 .rne 1 2 (.v 3)) (fun t => SMap.get t.corePmc 7 = 1 ∧ t.sel = none) = true) := by decide +kernel
theorem test_fmin_fmax : gives (tF 0x80000000 0) (.fmin P .f32 1 2 (.v 3)) 0x80000000 = true ∧ gives (tF 0x80000000 0) (.fmax P .f32 1 2 (.v 3)) 0 = true ∧
    gives (tF 0x7F800001 0) (.fmin P .f32 1 2 (.v 3)) 0x7FC00000 = true ∧ gives (tF 0x40000000 0xC0000000) (.fmax P .f32 1 2 (.v 3)) 0x40000000 = true := by
  decide +kernel
theorem test_cvt : gives (tF 0x3FC00000 0) (.cvt P .i32 .f32 .rne false 1 2) 2 = true ∧ gives (tF 0x7FC00000 0) (.cvt P .i32 .f32 .rne false 1 2) 0 = true ∧
    gives (tF 0x4F800000 0) (.cvt P .i32 .f32 .rne false 1 2) 0x7FFFFFFF = true ∧ gives (tF 0xBFC00000 0) (.cvt P .i8 .f32 .rtz false 1 2) 0xFFFFFFFF = true := by
  decide +kernel
theorem test_cvt_more : gives (tF 7 0) (.cvt P .f32 .n32 .rne false 1 2) 0x40E00000 = true ∧ gives (tF 0x7F800000 0) (.cvt P .e4m3 .f32 .rne true 1 2) 0x7E = true ∧
    gives (tF 0x7F800000 0) (.cvt P .f32 .f32 .rne true 1 2) 0x7F7FFFFF = true ∧ gives (tF 0x1FF 0) (.cvt P .i8 .b32 .rne false 1 2) 0xFFFFFFFF = true ∧
    stands tS (.cvt P .f64 .i64 .rup false 2 4) = true := by decide +kernel
/-- Table 3.1: MaxFinite of E4M3 is 448, above which it is NaN; infinity of E5M2 is 0x7C. -/
theorem test_rounding : roundTo (fmtOf .e4m3) .rne false (.fin false 448 0) = 0x7E ∧ roundTo (fmtOf .e4m3) .rne false (.fin false 480 0) = 0x7F ∧
    roundTo (fmtOf .e5m2) .rne false (.fin false 1 16) = 0x7C ∧ roundTo (fmtOf .e5m2) .rtz false (.fin false 1 16) = 0x7B ∧
    roundTo (fmtOf .f32) .rne false (.fin false 1 (-150)) = 0 ∧ roundTo (fmtOf .f32) .rup false (.fin false 1 (-150)) = 1 ∧ maxUnits (fmtOf .e4m3) = 448 * 2 ^ 9 := by
  decide +kernel
/-- Witness of ExactValues: numbers of units, a list of them whose sum is 0, numbers to divide and to take the root of. -/
theorem witness_ExactValues : Units 0 (.fin false 3 1) 6 ∧ Units (-1) (.fin true 1 (-1)) (-1) ∧ Units 0 (.zero true) 0 ∧
    (∀ q ∈ [(FVal.fin false 1 0, (1 : Int)), (.fin true 1 0, -1)], Units 0 q.1 q.2) ∧ ([1, -1] : List Int).sum = 0 ∧
    (∃ M E, fDiv (.fin false 1 0) (.fin false 3 0) = .fin false M E ∧ ilog M E ≤ -2 + 60) ∧ ∃ M E, fSqrt (.fin false 2 0) = .fin false M E ∧ ilog M E ≤ 0 + 60 := by
  refine ⟨⟨by decide, by decide⟩, ⟨by decide, by decide⟩, rfl, ?_, rfl, ⟨_, _, rfl, by decide +kernel⟩, ⟨_, _, rfl, by decide +kernel⟩⟩
  intro q hq
  simp only [List.mem_cons, List.not_mem_nil, or_false] at hq
  rcases hq with rfl | rfl
  · exact ⟨by decide, by decide⟩
  · exact ⟨by decide, by decide⟩
theorem test_fdot4 : gives (tS fun g => { g with v := [(8, 0x3F800000), (9, 0x40000000), (10, 0x40400000), (11, 0x40800000), (16, 0x3F800000), (17, 0x3F800000),
    (18, 0x3F800000), (19, 0x3F800000)] }) (.fdot4 P .f32 .rne false 1 8 16 4) 0x41200000 = true ∧ stands tS (.fdot4 P .f64 .rne true 2 8 16 0) = true := by decide +kernel
theorem test_fdot8 : gives (tF 0x38383838 0x38383838) (.fdot8 P .e4m3 .rne true 1 2 2 0) 0x41000000 = true ∧
    stands tS (.fdot8 P .bf16 .rne false 1 2 6 4) = true := by decide +kernel
theorem test_gsum : gives (tF 0x3F800000 0 0x40000000) (.gsum P .f32 .rne 1 2) 0x40400000 = true := by decide +kernel
/-- Arguments that Table 13.6 decides by rule, and a reciprocal square root that is exact. -/
theorem test_functions : gives (tF 0 0) (.fexp P .f32 .rne 1 2) 0x3F800000 = true ∧ gives (tF 0x40400000 0) (.fexp2 P .f32 .rne 1 2) 0x41000000 = true ∧
    gives (tF 0xFF800000 0) (.fexpm1 P .f32 .rne 1 2) 0xBF800000 = true ∧ gives (tF 0x3F800000 0) (.flog P .f32 .rne 1 2) 0 = true ∧
    gives (tF 0x41000000 0) (.flog2 P .f32 .rne 1 2) 0x40400000 = true ∧ gives (tF 0xBF800000 0) (.flog1p P .f32 .rne 1 2) 0xFF800000 = true ∧
    gives (tF 0x40800000 0) (.frsq P .f32 .rne 1 2) 0x3F000000 = true := by decide +kernel
theorem test_functions_more : gives (tF 0x80000000 0) (.fsin P .f32 .rne 1 2) 0x80000000 = true ∧ gives (tF 0 0) (.fcos P .f32 .rne 1 2) 0x3F800000 = true ∧
    gives (tF 0x3F000000 0) (.fsinpi P .f32 .rne 1 2) 0x3F800000 = true ∧ gives (tF 0x3F800000 0) (.fcospi P .f32 .rne 1 2) 0xBF800000 = true ∧
    gives (tF 0x7F800000 0) (.ftanh P .f32 .rne 1 2) 0x3F800000 = true ∧ gives (tF 0 0) (.fsigm P .f32 .rne 1 2) 0x3F000000 = true := by decide +kernel
/-- A block whose largest element is 448 has scale 1; a NaN makes the scale 255. -/
theorem test_qblk : goes (tS fun g => { g with v := [(16, 0x43E00000), (17, 0x3F800000)] }) (.qblk P .e4m3 .f32 .rne 0 1 16)
      (fun t => vv t 0 1 = 0x387E ∧ vv t 0 5 = 127) = true ∧ stands tS (.qblk P .e4m3 .f32 .rne 0 1 16) = true ∧
    goes (tS fun g => { g with v := [(16, 0x7FC00000)] }) (.qblk P .q4o .f32 .rne 3 1 16) (fun t => vv t 0 1 = 0 ∧ vv t 0 3 = 255) = true := by decide +kernel
/-- R262's own example: key 0, counter 1. -/
theorem test_rngk : let s := tS fun g => { g with v := [(4, 1)] }
    gives s (.rngk P .b32 1 2 4) 0xB763AA77 = true ∧ gives s (.rngk P .f32 1 2 4) 0x3F3763AA = true := by decide +kernel
theorem test_xsel : goes (tF 5 0 6) (.xsel P .b32 .up 1 2 (.i32 1)) (fun t => vv t 0 1 = 0 ∧ vv t 1 1 = 5) = true ∧ gives (tF 5 1 6) (.xsel P .b32 .xor 1 2 (.v 3)) 6 = true := by
  decide +kernel
theorem test_quads : gives (tF 5 0 6) (.qswap P .b32 .h 1 2) 6 = true ∧ gives (tF 5 0 6) (.qbcast P .b32 1 1 2) 6 = true := by decide +kernel

/-! ## Control flow: witnesses of Branches to ReturnsAndJoins -/

/-- The selected unit of a state. -/
def cc (s : State) : Cur :=
  s.cur.getD ⟨⟨0, 0, 0, 0⟩, { launch := 0, block := 0, ctx := 0, g := 0, nregs := 0, spBase := 0, spSize := 0, live := 0 }, { pc := 0, mask := 0, mod := 0 }⟩

/-- m3 names thread 0 alone. -/
def tM : State := tS fun g => { g with m := [(3, 1)] }

/-- A unit with two entries on its return-address stack. -/
def tCalled : State := tS fun g => { g with ras := [{ modid := 0, kind := 0, entry := 0, mask := 0xFFFFFFFF, retpc := 0x100 }, { modid := 0, kind := 0, entry := 0, mask := 0xFFFFFFFF, retpc := 0x200 }] }

/-- Two siblings under entry 0, the second waiting at the `join` at address 8; the first stands before it. -/
def tSplit : State :=
  let s := tS fun g => { g with entries := [(0, { pc := 0, mask := 0xFFFFFFFF, mod := 0, st := .parent }), (1, { pc := 8, mask := 1, mod := 0, parent := some 0 }), (2, { pc := 8, mask := 0xFFFFFFFE, mod := 0, parent := some 0, st := .atJoin })] }
  { s with sel := some { grp := 0, entry := 1, pc := 8, npc := 16 } }

theorem test_nop_yield : goes tS (.nop .l128) (fun t => (ee t 0).map (·.pc) = some 16 ∧ SMap.get t.corePmc 1 = 0) = true ∧
    goes tS (.yield P) (fun t => (ee t 0).map (·.pc) = some 16 ∧ SMap.get t.corePmc 1 = 1) = true := by decide +kernel
/-- R234: the target counts fetch blocks from the block of the instruction. -/
theorem test_br : goes tS (.br P (.off24 2)) (fun t => (ee t 0).map (fun e => (e.pc, e.target)) = some (64, true)) = true ∧
    tS.inSegment 0 0 64 = true ∧ (cc tS).act P ≠ 0 ∧ (cc tS).act ⟨true, 0⟩ = 0 := by decide +kernel
theorem test_brc : goes (tS fun g => { g with k := [(4, 0xFFFFFFFFFFFFFFFF)] }) (.brc .ltz P 4 (.off32 1)) (fun t => (ee t 0).map (·.pc) = some 32) = true ∧
    goes tS (.brc .nz P 4 (.off32 1)) (fun t => (ee t 0).map (·.pc) = some 16) = true := by decide +kernel
theorem test_ipf : goes (tS fun g => { g with k := [(4, 64)] }) (.ipf P .l1 4 (.i32 1))
      (fun t => (AMap.get? t.l1 32).isSome ∧ (AMap.get? t.l2 64).isSome ∧ (AMap.get? t.l1 96).isNone ∧ (AMap.get? t.l0 32).isNone) = true ∧
    tS.fetchWhere 0 0 32 = .cell { va := 0, size := 2 ^ 16, phys := 0, hp := false, r := true, w := true, x := true, isReg := false } 32 ∧ tS.poisoned 32 32 = false := by
  decide +kernel
theorem witness_BranchSplits : let c := cc tM
    tM.cur = some c ∧ c.act ⟨false, 3⟩ ≠ 0 ∧ c.act ⟨false, 3⟩ ≠ c.e.mask ∧ (64 : Dword) ≠ c.u.npc ∧ tM.splitBarred c = false ∧ tM.inSegment c.g.ctx c.e.mod 64 = true ∧
    c.g.entry 1 = none ∧ c.g.entry 2 = none ∧ (∀ k, k < 2 → k ≠ 1 → (c.g.entry k).isSome = true) := by decide +kernel
/-- R48: the part with the lower address takes the lower entry. -/
theorem test_br_split : goes tM (.br ⟨false, 3⟩ (.off24 2)) (fun t => (ee t 0).map (·.st) = some .parent ∧ (ee t 1).map (fun e => (e.pc, e.mask)) = some (16, 0xFFFFFFFE) ∧
    (ee t 2).map (fun e => (e.pc, e.mask)) = some (64, 1)) = true := by decide +kernel

theorem witness_CallReady : CallReady (cc tS) := ⟨by decide +kernel, by decide +kernel⟩
theorem witness_StackReady : StackReady tS (cc tS) := ⟨(fun _ h => nomatch h), by decide +kernel, by decide +kernel⟩
/-- A call while a store of the group to its spill stack is in flight: the store is performed first (R121, R273). -/
def tSpill : State := { after (tS fun g => { g with v := [(2, 0), (3, 7)], m := [(3, 1)] }) (.stSp ⟨false, 3⟩ .n8 .x1 2 (.k 0) 3) with sel := some { grp := 0, entry := 0, pc := 16, npc := 24 } }
theorem test_call_spill : (tSpill.accesses.any fun q => q.2.grp = 0 && q.2.onSpill) = true ∧ stands tSpill (.call P (.off24 2)) = true ∧
    goes tSpill (.call P (.off24 2)) (fun t => SMap.get t.mem (cellSpill 0 0) = 7 ∧ t.accesses = [] ∧ (ee t 0).map (·.pc) = some 64) = true := by decide +kernel
theorem witness_Calls : tS.cur = some (cc tS) ∧ stands tS (.calli P 6) = true ∧ (cc tS).act P = (cc tS).e.mask ∧ (cc tS).act P ≠ 0 ∧
    (∀ th, th < 32 → (cc tS).g.v64get th 6 = 0) ∧ tS.inSegment 0 0 0 = true ∧ (cc tS).act ⟨true, 0⟩ = 0 ∧
    (tS.module 0 0).map (fun m => (m.unloading, m.len)) = some (false, 2 ^ 16) ∧ (((cc tS).g.kget 5).extractLsb' 0 40).toNat % 32 = 0 := by decide +kernel
theorem test_call : goes tS (.call P (.off24 2)) (fun t => (ee t 0).map (·.pc) = some 64 ∧ (t.group 0).map (fun g => g.ras.map (·.retpc)) = some [32]) = true := by decide +kernel
theorem test_callm : goes (tS fun g => { g with k := [(5, 64)] }) (.callm P 4 5) (fun t => (ee t 0).map (·.pc) = some 64 ∧ (t.group 0).map (fun g => g.ras.map (·.kind)) = some [2]) = true := by
  decide +kernel
theorem test_calli : goes tS (.calli P 6) (fun t => (ee t 0).map (·.pc) = some 0 ∧ (t.group 0).map (fun g => g.ras.map (·.kind)) = some [1]) = true := by decide +kernel
/-- Thread 0 calls address 64, the others address 0: a split by target (R238). -/
def tTargets : State := tS fun g => { g with v := [(6, 64)] }
theorem witness_CalliSplits : let c := cc tTargets
    stands tTargets (.calli P 6) = true ∧ c.act P ≠ 0 ∧ (∀ th, th < 32 → tTargets.inSegment c.g.ctx c.e.mod (c.g.v64get th 6) = true) ∧ tTargets.splitBarred c = false ∧
    c.g.v64get 0 6 ≠ c.g.v64get 1 6 ∧ ((List.range 32).filter fun th => (c.act P).getLsbD th).length < ((List.range 64).filter fun k => (c.g.entry k).isNone).length := by
  decide +kernel
theorem test_calli_split : goes tTargets (.calli P 6) (fun t => (ee t 1).map (fun e => (e.pc, e.st)) = some (0, .run) ∧
    (ee t 2).map (fun e => (e.pc, e.st)) = some (64, .held 0xFFFFFFFF 0xFFFFFFFE)) = true := by decide +kernel
theorem witness_ReturnJoinExit : (∃ q, matchRas (tCalled.ras 0 (cc tCalled).g) (cc tCalled).e.mask = some q ∧ (cc tCalled).g.badReturn q.2 = false) ∧
    (cc tS).e.parent = none ∧ (cc tSplit).e.parent ≠ none ∧ tSplit.cur = some (cc tSplit) := ⟨⟨_, rfl, by decide +kernel⟩, by decide +kernel, by decide +kernel, by decide +kernel⟩
theorem witness_ReturnsAndJoins : let c := cc tCalled; let d := cc tSplit
    c.e.mask ≠ 0 ∧ c.g.spilled = 0 ∧ c.g.entries = [(0, c.e)] ∧ c.e.parent = none ∧ c.e.st = .run ∧ c.g.ras.length = 2 ∧ (∀ x ∈ c.g.ras, x.entry = 0 ∧ c.e.mask &&& ~~~x.mask = 0) ∧
    d.g.ras = [] ∧ d.g.entries.map Prod.fst = [0, 1, 2] ∧ d.u.entry = 1 ∧ d.e.pc = d.u.pc ∧ d.e.parent = some 0 ∧
    (d.g.entry 2).map (fun f => (f.parent, f.st, f.pc, f.mask != 0)) = some (some 0, .atJoin, d.u.pc, true) ∧
    (d.g.entry 0).map (fun f => (f.parent, f.st)) = some (none, .parent) := by decide +kernel
theorem test_ret : goes tCalled .ret (fun t => (ee t 0).map (fun e => (e.pc, e.st)) = some (0x100, .run) ∧ (t.group 0).map (fun g => g.ras.length) = some 1) = true := by decide +kernel
theorem test_join : goes tSplit .join (fun t => (ee t 0).map (fun e => (e.pc, e.mask, e.st)) = some (16, 0xFFFFFFFF, .run) ∧ (ee t 1).isNone) = true := by decide +kernel
theorem test_exit : goes tM (.exit ⟨false, 3⟩) (fun t => (ee t 0).map (fun e => (e.pc, e.mask)) = some (16, 0xFFFFFFFE)) = true ∧
    goes tS (.exit P) (fun t => (ee t 0).isNone) = true := by decide +kernel
/-- A split of two levels: units 3 and 4 under entry 2, which is beside unit 1; unit 4 stands before the `join` at which unit 3 waits. -/
def tRoot : Entry := { pc := 0, mask := 0xFFFFFFFF, mod := 0, st := .parent }
def tDeep : State :=
  let s := tS fun g => { g with entries := [(0, tRoot), (1, { pc := 8, mask := 1, mod := 0, parent := some 0 }), (2, { pc := 8, mask := 0xFFFFFFFE, mod := 0, parent := some 0, st := .parent }),
    (3, { pc := 8, mask := 2, mod := 0, parent := some 2, st := .atJoin }), (4, { pc := 8, mask := 0xFFFFFFFC, mod := 0, parent := some 2 })] }
  { s with sel := some { grp := 0, entry := 4, pc := 8, npc := 16 } }
/-- Witness of SplitGroup at one level and at two. -/
theorem below_of (g : Group) (h : (g.entries.all fun q => q.1 = 0 || (q.2.parent.bind g.entry).any fun x => x.st = .parent) = true) :
    ∀ q ∈ g.entries, q.1 ≠ 0 → ∃ p x, q.2.parent = some p ∧ g.entry p = some x ∧ x.st = .parent := by
  intro q hq h0
  have h1 := List.all_eq_true.1 h q hq
  cases hp : q.2.parent with
  | none => simp [h0, hp] at h1
  | some p => simpa [h0, hp, Option.any_eq_true] using h1
theorem ranked_of (g : Group) (h : (g.entries.all fun q => q.2.parent.all fun p => decide (p < q.1)) = true) :
    ∃ f : Nat → Nat, ∀ q ∈ g.entries, ∀ p, q.2.parent = some p → f p < f q.1 :=
  ⟨id, fun q hq p hp => by simpa [hp] using List.all_eq_true.1 h q hq⟩
theorem witness_SplitGroup : SplitGroup (cc tSplit) tRoot ∧ SplitGroup (cc tDeep) tRoot :=
  ⟨⟨by decide +kernel, by decide +kernel, below_of _ (by decide +kernel), ranked_of _ (by decide +kernel), by decide +kernel, by decide +kernel, by decide +kernel⟩,
    ⟨by decide +kernel, by decide +kernel, below_of _ (by decide +kernel), ranked_of _ (by decide +kernel), by decide +kernel, by decide +kernel, by decide +kernel⟩⟩
theorem test_join_deep : goes tDeep .join (fun t => (t.group 0).map (fun g => g.entries.map fun q => (q.1, q.2.pc, q.2.mask, q.2.st)) =
    some [(0, 0, 0xFFFFFFFF, .parent), (1, 8, 1, .run), (2, 16, 0xFFFFFFFE, .run)]) = true := by decide +kernel
/-- The sibling waits at a `ret`, which a newest entry of the call matches, or at another `join`. -/
def tAtRet : State := tSplit.updGroup 0 fun g => { (g.updEntry 2 fun e => { e with st := .atRet }) with ras := [{ modid := 0, kind := 0, entry := 0, mask := 0xFFFFFFFF, retpc := 0x100 }] }
def tFarJoin : State := tSplit.updGroup 0 fun g => g.updEntry 2 fun e => { e with pc := 24 }
theorem test_split_ends : goes tAtRet .ret (fun t => (t.group 0).map (fun g => (g.entries.map fun q => (q.1, q.2.pc, q.2.mask, q.2.st), g.ras)) = some ([(0, 0x100, 0xFFFFFFFF, .run)], [])) = true ∧
    goes tAtRet (.exit P) (fun t => (t.group 0).map (fun g => g.entries.map fun q => (q.1, q.2.pc, q.2.mask)) = some [(0, 0x100, 0xFFFFFFFE)]) = true ∧
    goes tSplit (.exit P) (fun t => (t.group 0).map (fun g => g.entries.map fun q => (q.1, q.2.pc, q.2.mask)) = some [(0, 16, 0xFFFFFFFE)]) = true ∧
    goes tFarJoin .join (fun t => (t.group 0).map (fun g => g.entries.map fun q => (q.2.pc, q.2.mask, q.2.st)) =
      some [(0, 0xFFFFFFFF, .parent), (16, 1, .run), (32, 0xFFFFFFFE, .run)]) = true := by decide +kernel
/-- The group's last thread exits beside another group, and in a block with nothing in the engines. -/
theorem test_group_ends : (cc tS).act P = (cc tS).e.mask ∧ (cc tS).g.taskOpen = false ∧ tS.blockRuns (cc tS).g = true ∧ tS.engineBusy (cc tS).g.block = false ∧
    goes { tS with groups := tS.groups ++ tS.groups.map fun q => (1, { q.2 with g := 1 }) } (.exit P) (fun t => (t.group 0).map (fun g => (g.entries, g.ras)) = some ([], []) ∧ t.blocks = tS.blocks) = true ∧
    goes tS (.exit P) (fun t => t.blocks = [] ∧ t.groups = []) = true := by decide +kernel

/-! ## Memory: witnesses of LocalAccessesIssue to AtomicsAtHome -/

/-- Scratchpad page 0 is valid for every context; registers 2 to 5 of thread 0; all threads but thread 0 are masked off by m3. -/
def tP (a b c d : Word) : State := { tS fun g => { g with v := [(2, a), (3, b), (4, c), (5, d)], m := [(3, 1)] } with pat := [(0, 0x84000000)] }

abbrev P0 : Pred := ⟨false, 3⟩

theorem witness_LocalAccessesIssue : let s := tP 16 1 2 3; let l := s.launch (cc s).g.launch
    l.map (·.shmem) = some 1024 ∧ l.map (·.bpd) = some (2 ^ 14) ∧ (s.blockOf (cc s).g).map (·.span) = some 1 ∧ (cc s).act P0 = 1 ∧ (cc s).g.spSize = 1024 ∧
    [Instr.ldSh P0 .b32 .x4 8 2 (.i32 992), .stSh P0 .n8 .x1 2 (.i32 1007) 3, .ldSp P0 .b64 .x1 8 2 (.i32 1000), .stSp P0 .i16 .x1 2 (.k 0) 3,
      .bld P0 .b32 .x1 2 (.i64 0x3FFFEC) 3].all (stands s) = true := by decide +kernel
theorem test_ldSh : goes (tP 16 0 0 0) (.ldSh P0 .b32 .x4 8 2 (.i32 992)) (fun t => (AMap.get? t.accesses 2).map (fun a => (a.n, a.lanes.map (·.cell))) =
    some (16, [cellShared 0 1008])) = true := by decide +kernel
/-- A store is performed after its issue; what it stores is the low byte of the register. -/
theorem test_stSh : let s := after (tP 16 0x1234 0 0) (.stSh P0 .n8 .x1 2 (.k 0) 3)
    SMap.get s.mem (cellShared 0 16) = 0 ∧ (let t := after s (.storePerform ⟨2, true⟩); SMap.get t.mem (cellShared 0 16) = 0x34 ∧ t.accesses = []) := by decide +kernel
theorem test_ldSp : let s := after (tP 0 0 0 0) (.ldSp P0 .i8 .x1 8 2 (.i32 1023))
    (AMap.get? s.accesses 2).map (fun a => a.lanes.map (·.cell)) = some [cellSpill 0 1023] ∧
    vv (after { s with mem := [(cellSpill 0 1023, 0x80)] } (.loadReply ⟨2, []⟩)) 0 8 = 0xFFFFFF80 := by decide +kernel
theorem test_stSp : SMap.get (after (after (tP 16 0x1234 0 0) (.stSp P0 .n16 .x1 2 (.k 0) 3)) (.storePerform ⟨2, true⟩)).mem (cellSpill 0 17) = 0x12 := by decide +kernel
theorem test_bld : let s := after (tP 0x4000 0xAB 0 0) (.bld P0 .n8 .x1 2 (.i32 5) 3)
    SMap.get (after s (.bldPerform 2)).mem (cellBplane 0 1 5) = 0xAB ∧ s.mmaAhead 2 0 = false := by decide +kernel

/-- Every hypothesis of ScratchpadAccessesIssue, at the last bytes of page 0. -/
theorem witness_ScratchpadAccessesIssue : let s := tP 0xFFF8 0 0 0; let c := cc s; let t : Touch := ⟨0, 0xFFFC, 4, true⟩
    [Instr.sld P0 .b32 .x1 8 2 (.i32 4), .sst P0 .b32 .x1 2 (.i32 4) 3, .atom P0 .cas .b32 .ar .dev 8 2 (.i32 4) 4].all (stands s) = true ∧ c.act P0 ≠ 0 ∧
    s.touchIllegal c.g t = false ∧ s.pieceIllegal c.g t.addr 4 = false ∧ s.pageFault c.g.ctx t.addr 4 true = none ∧ s.scPage t.addr = false ∧
    s.claimVerdict 0 c.g [t] = .none := by decide +kernel
theorem test_sst_sld : let s := after (after (tP 0xFFF8 0x11223344 0 0) (.sst P0 .b32 .x1 2 (.i32 4) 3)) (.storePerform ⟨2, true⟩)
    SMap.get s.mem (s.scrCell 0xFFFC) = 0x44 ∧ SMap.get s.mem (s.scrCell 0xFFFF) = 0x11 := by decide +kernel
theorem test_sld : let s := { tP 0xFFF8 0 0 0 with mem := [((tP 0 0 0 0).scrCell 0xFFF9, 0xFE)] }
    vv (after (after s (.sld P0 .i16 .x1 8 2 (.i32 0))) (.loadReply ⟨2, []⟩)) 0 8 = 0xFFFFFE00 := by decide +kernel
/-- Two threads of one atomic take their places in the order of their lanes (R276). -/
theorem test_atom : let s := { tS fun g => { g with v := [(3, 5), (259, 7)], m := [(3, 3)] } with pat := [(0, 0x84000000)] }
    let t := after (after s (.atom P0 .add .n32 .none .grp 8 2 (.k 0) 3)) (.atomicAtHome 2)
    vv t 0 8 = 0 ∧ vv t 1 8 = 5 ∧ Memory.readNat t.mem (s.scrCell 0) 4 = 12 := by decide +kernel
theorem test_atom_cas : let t := after (after (tP 0 0 9 0) (.atom P0 .cas .b32 .none .grp 8 2 (.k 0) 3)) (.atomicAtHome 2)
    vv t 0 8 = 0 ∧ Memory.readNat t.mem ((tP 0 0 0 0).scrCell 0) 4 = 9 := by decide +kernel
/-- Witness of IllegalAddressTraps: a misaligned address, one beyond its space, and one below 0. -/
theorem witness_IllegalAddressTraps : let s := tP 1022 0 0 0; (s.launch (cc s).g.launch).isSome ∧ (s.blockOf (cc s).g).isSome ∧ ((cc s).act P0).getLsbD 0 = true ∧
    [Instr.ldSh P0 .b32 .x1 8 2 (.k 0), .stSh P0 .b32 .x1 2 (.k 0) 3, .ldSp P0 .n8 .x1 8 2 (.i32 2), .stSp P0 .n8 .x1 2 (.i32 2) 3, .sld P0 .b32 .x1 8 2 (.i32 0xFFFFFC00),
      .sst P0 .b32 .x1 2 (.k 0) 3, .atom P0 .add .n32 .none .grp 8 2 (.k 0) 3, .bld P0 .b32 .x1 2 (.i64 0x400000) 3].all (stands s) = true := by decide +kernel
/-- The launch has no trap handler, so that the trap ends its block (R349). -/
theorem test_illegal_address : [Instr.ldSh P0 .b32 .x1 8 2 (.k 0), .stSp P0 .n8 .x1 2 (.i32 2) 3, .sld P0 .b32 .x1 8 2 (.i32 0xFFFFFC00),
    .atom P0 .add .n32 .none .grp 8 2 (.k 0) 3, .bld P0 .b32 .x1 2 (.i64 0x400000) 3].all (fun i => goes (tP 1022 0 0 0) i fun t => t.blocks = [] && t.accesses = []) = true := by
  decide +kernel
theorem test_fence : let s := after (tP 0 1 0 0) (.sst P0 .b32 .x1 2 (.k 0) 3)
    let s1 := { s with sel := some { grp := 0, entry := 0, pc := 16, npc := 24 } }
    stands s1 (.fence P .rel .dev) = true ∧ goes s1 (.fence P .rel .dev) (fun t => (ee t 0).map (·.st) = some (.atFence [2, 2] false true none false)) = true ∧
    goes s1 (.fence P .acq .dev) (fun t => (ee t 0).map (·.st) = some (.atFence [] false false (some .dev) false)) = true ∧
    goes s1 (.fence P .sc .dev) (fun t => (ee t 0).map (·.st) = some (.atFence [2, 2] false true (some .dev) false)) = true ∧
    -- .ar acquires at once, its earlier store still in flight (R125)
    goes s1 (.fence P .ar .dev) (fun t => (ee t 0).map (·.st) = some (.atFence [2, 2] false true none true)) = true := by decide +kernel

/-- A load of two words by thread 0 in flight, and the spawn of a record onto queue 7. -/
def tLoad : State := after (tP 0 0 0 0) (.ldSh P0 .b32 .x2 8 2 (.k 0))
def tSpawn : State :=
  { tP 0 0 0 0 with
    accesses := [(9, { kind := .spawn 7, grp := 0, unit := 1, core := 0, pc := 8, n := 32, ty := .b32, lanes := [{ thr := 0, cell := 5, addr := 0 }] })]
    taskQueues := [(7, { launch := 0, ctx := 0, cap := 4, free := 1, base := 0 })] }
theorem witness_LoadsBind : (AMap.get? tLoad.accesses 2).elim false (fun a => tLoad.mayPerform 2 a && !tLoad.accessPoisoned 2 a && !a.counted && a.kind = .load &&
      decide (a.dst.toNat + max 1 (a.n / 4) ≤ 256) && decide ((a.lanes.map (·.thr)).Nodup) && a.lanes.all fun l => l.thr < 32) = true ∧
    (tLoad.group 0).elim false (fun g => !g.entries.isEmpty) = true ∧
    (AMap.get? tSpawn.accesses 9).elim false (fun a => tSpawn.mayPerform 9 a && !tSpawn.accessPoisoned 9 a && !a.counted && a.kind = .spawn 7 && a.lanes.length = 1) = true ∧
    (AMap.get? tSpawn.taskQueues 7).isSome = true := by decide +kernel
theorem test_spawn_reply : goes tSpawn (.loadReply ⟨9, []⟩) (fun t => (AMap.get? t.taskQueues 7).map (·.recs) = some [1] ∧ t.age = 2) = true := by decide +kernel
theorem witness_StoresPerform : let s := after (tP 16 0x1234 0 0) (.stSh P0 .n8 .x1 2 (.k 0) 3); let b := after (tP 0x4000 0xAB 0 0) (.bld P0 .n8 .x1 2 (.i32 5) 3)
    (AMap.get? s.accesses 2).elim false (fun a => s.mayPerform 2 a && !a.logs && a.kind = .store && !a.scratch) = true ∧
    (AMap.get? b.accesses 2).elim false (fun a => b.mayPerform 2 a && !a.logs && a.kind = .bld && !a.scratch && !b.mmaAhead 2 0) = true ∧
    (s.group 0).elim false (fun g => !g.entries.isEmpty) = true := by decide +kernel
theorem witness_AtomicsAtHome : let s := after (tP 0 0 9 0) (.atom P0 .cas .b32 .none .grp 8 2 (.k 0) 3)
    (AMap.get? s.accesses 2).elim false (fun a => s.mayPerform 2 a && !s.accessPoisoned 2 a && !a.logs && a.kind = .atom .cas && a.n = a.ty.size && a.ty = .b32 &&
      decide (a.dst.toNat + (if a.ty.wide then 2 else 1) ≤ 256) && decide ((a.lanes.map (·.thr)).Nodup) &&
      a.lanes.all (fun l => decide (l.thr < 32) && !a.zero.getLsbD l.thr && !patWatch (s.attr l.addr) && a.lanes.all fun m => l.cell = m.cell)) = true := by decide +kernel
/-- The only page is an SC page, and a store of the unit to it is in flight. -/
def tSC : State :=
  let s := { tP 0 1 0 0 with pat := [(0, 0xA4000000)] }
  { after s (.sst P0 .b32 .x1 2 (.k 0) 3) with sel := some { grp := 0, entry := 0, pc := 8, npc := 16 } }
theorem test_sc_waits : tSC.scPage 0 = true ∧ (tSC.accesses.map fun q => (q.2.grp, q.2.sc, q.2.unit &&& (cc tSC).act P0 != 0)) = [(0, true, true)] ∧ stands tSC (.sld P0 .b32 .x1 8 2 (.k 0)) = true ∧
    goes tSC (.sld P0 .b32 .x1 8 2 (.k 0)) (fun t => t = { tSC with sel := none, declined := [(0, 0)] }) = true ∧
    goes { tSC with accesses := [] } (.sld P0 .b32 .x1 8 2 (.k 0)) (fun t => t.accesses.map (·.2.sc) = [true]) = true := by decide +kernel
/-- R122, log 9: before a store of another core's agent became visible, its word was 5; the load may read that once more. -/
theorem test_load_past : let s := { tLoad with past := [{ cell := cellShared 0 0, len := 8, old := [5, 0, 0, 0, 6, 0, 0, 0], core := 3, grp := 1536 }] }
    (AMap.get? s.accesses 2).elim false (fun a => s.mayMiss [1] a && s.mayMiss [] a && a.lanes.all fun l => !l.home && l.cell = cellShared 0 0 && a.n = 8) = true ∧
    goes s (.loadReply ⟨2, [1]⟩) (fun t => vv t 0 8 = 5 ∧ vv t 0 9 = 6) = true ∧ goes s (.loadReply ⟨2, []⟩) (fun t => vv t 0 8 = 0) = true ∧
    (let u := { s with known := [(0, { dev := 1 })] }
     (AMap.get? u.accesses 2).elim true (u.mayMiss [1]) = false ∧ goes u (.loadReply ⟨2, [1]⟩) (fun t => t = u) = true) := by decide +kernel
/-- A store becomes visible on its core first, and a load of the core then takes its bytes. -/
theorem test_store_near : let s := after (tP 0 0x77 0 0) (.sst P0 .b32 .x1 2 (.k 0) 3)
    (AMap.get? s.accesses 2).elim false (fun a => a.kind = .store && a.scratch && a.need.isEmpty && a.after.isEmpty) = true ∧ s.forwarded = [] ∧
    goes s (.storePerform ⟨2, false⟩) (fun t => t.forwarded = [2] ∧ t.mem = s.mem) = true ∧
    (let t := after { after s (.storePerform ⟨2, false⟩) with sel := some { grp := 0, entry := 0, pc := 8, npc := 16 } } (.sld P0 .b32 .x1 8 2 (.k 0))
     vv (after t (.loadReply ⟨3, []⟩)) 0 8 = 0x77) := by decide +kernel
/-- An atomic that acquires at .dev, after a store that some core may not know of. -/
theorem test_atom_acquires : let s := { after (tP 0 0 9 0) (.atom P0 .cas .b32 .ar .dev 8 2 (.k 0) 3) with past := [{ cell := cellShared 0 0, len := 1, old := [0], core := 3, grp := 1536 }] }
    (AMap.get? s.accesses 2).map (fun a => (a.acq, a.scope, a.cum)) = some (true, .dev, true) ∧ goes s (.atomicAtHome 2) (fun t => (AMap.get? t.known 0).map (·.dev) = some t.past.length) = true := by
  decide +kernel

/-! ## Copies: witnesses of CopiesIssue to PeerRequests -/

/-- k4 to k6 are the operands of a copy of 16 bytes from virtual address 0x200 to scratchpad address 0x100 and landing barrier 0. -/
def tK (a b w : Dword) : State := { tS fun g => { g with k := [(4, a), (5, b), (6, w)] } with pat := [(0, 0x84000000)] }
/-- Every function is ready. -/
def tUp (s : State) : State := { s with bar0 := [(0x10, 0xFFFFFFFF), (0x14, 0xFFFFFFFF), (0x18, 0xFF)] ++ s.bar0 }
def tCopy : State := tUp <| tK 0x100 0x200 16
/-- The helper threads are the whole unit. -/
def tHelp : State := tCopy.updGroup 0 fun g => { g with helper := 0xFFFFFFFF }

/-- The copy that tCopy issues. -/
def tPre : State := after tCopy (.cpin P true .none .grp 3 4 5 6 none)
/-- Every hypothesis of CopiesIssue for each of the five instructions, at the least lengths. -/
theorem witness_CopiesIssue :
    [(tCopy, Instr.cpin P true .none .grp 3 4 5 6 (some 0x40), CopyKind.cpin true), (tK 0x100 0x1D 1, .cpout P false .none .grp 7 4 5 6 none, .cpout false),
      (tK 0x100 0x200 0x0000000000000000, .cpgat P true .acq .dev 3 4 5 6 none, .cpgat true), (tK 0 0x200 16, .cpbp P .none .grp 3 4 5 6 none, .cpbp),
      (tK 0x100 0x200 0x01000008, .cppeer P false .none .grp 3 4 5 6 (some 0x2C5), .peerPut)].all (fun q =>
      let c := cc q.1
      let o := match q.2.1 with
        | .cpin _ _ _ _ _ _ _ _ x | .cppeer _ _ _ _ _ _ _ _ x => x.getD 0
        | _ => 0
      let ts := copyTouches q.2.2 (c.g.kget 4).toNat (c.g.kget 5).toNat (c.g.kget 6)
      stands q.1 q.2.1 && c.act P != 0 && c.act P &&& ~~~c.g.helper != 0 && q.1.copyLegal c.g q.2.2 (c.g.kget 4) (c.g.kget 5) (c.g.kget 6) o &&
        ts.all (fun t => !q.1.touchIllegal c.g t) && q.1.copyIllegalAt c.g ts = none && q.1.claimVerdict 0 c.g ts = .none && q.1.copiesOn 0 < 256) = true ∧
    (cc tHelp).act P &&& ~~~(cc tHelp).g.helper = 0 ∧ tHelp.copyLegal (cc tHelp).g (.cpin true) 0x100 0x200 16 0 = true := by decide +kernel
/-- The copy is issued, passes pre-flight, lands its bytes, counts them on the barrier, and completes: the token's flag is set again. -/
theorem test_copy : let s := after { tCopy with mem := Memory.write tCopy.mem 0x200 [1, 2, 3] } (.cpin P true .none .grp 3 4 5 6 (some 0x40))
    let t := after (after s (.copyPreflight 2 .pass)) (.copyBytesLanded 2 ⟨none, true, []⟩)
    (s.group 0).map (fun g => (g.flags.getLsbD 3, g.cnt 3)) = some (false, 1) ∧ Memory.readNat t.mem (s.scrCell 0x100) 4 = 0x030201 ∧
    (AMap.get? t.blocks 1).map (fun b => b.bars.map (·.landb)) = some [16] ∧
    ((after t (.copyComplete 2)).group 0).map (fun g => (g.flags.getLsbD 3, g.cnt 3)) = some (true, 0) := by decide +kernel
/-- A copy out, a gather of one byte, and a strip. -/
theorem test_copy_kinds :
    (let s := after { tUp (tK 0x300 0x10 2) with mem := [(cellShared 0 0x10, 7), (cellShared 0 0x11, 8)] } (.cpout P false .none .grp 3 4 5 6 none)
     Memory.readNat (after (after s (.copyPreflight 2 .pass)) (.copyBytesLanded 2 ⟨none, true, []⟩)).mem 0x300 2 = 0x807) ∧
    (let s := after { tUp (tK 0x300 0x200 0) with mem := [(0x205, 9), (tCopy.scrCell 0, 5)] } (.cpgat P true .none .grp 3 4 5 6 none)
     Memory.readNat (after (after s (.copyPreflight 2 .pass)) (.copyBytesLanded 2 ⟨none, true, []⟩)).mem (tCopy.scrCell 0x300) 1 = 9) ∧
    (let s := after { tUp (tK 0x8000 0x200 16) with mem := [(0x20F, 9)] } (.cpbp P .none .grp 3 4 5 6 none)
     Memory.readNat (after (after s (.copyPreflight 2 .pass)) (.copyBytesLanded 2 ⟨none, true, []⟩)).mem (cellBplane 0 2 15) 1 = 9) := by decide +kernel
/-- Copies that have begun, with the moves of their sides. (Which port leads to a peer is open, so that no run decides a peer's pre-flight.) -/
def begun (s : State) : State := { s with copies := s.copies.map fun q => (q.1, { q.2 with stage := .begun, moves := s.movesOf q.2 }) }
theorem test_cppeer : goes (begun (after { tK 0x100 0x200 0x01000002 with mem := [(0x200, 5)] } (.cppeer P false .none .grp 3 4 5 6 (some 0x2C5)))) (.copyBytesLanded 2 ⟨none, true, []⟩)
    (fun t => t.outbox.all (fun o => o.peer = some 1 && o.addr = 0x100 && o.data = [some 5, some 0] && o.count = some (0, 2, 5)) && t.outbox.length = 1) = true := by decide +kernel
/-- Witness of CopyPreflights: a copy that passes; one whose virtual page is not mapped; one whose scratchpad page is not valid; one that
waits for its peer's port. -/
theorem witness_CopyPreflights : let s := after tCopy (.cpin P true .none .grp 3 4 5 6 none)
    let far := after (tUp (tK 0x100 0x10000 16)) (.cpin P true .none .grp 3 4 5 6 none)
    let bad := { s with pat := [] }
    let put := after (tK 0x100 0x200 0x01000002) (.cppeer P false .none .grp 3 4 5 6 none)
    let x := (AMap.get? s.copies 2)
    x.map (fun x => (x.stage, x.after, (AMap.get? s.blocks x.block).isSome)) = some (.preflight, [], true) ∧ s.launchRuns 0 = true ∧
    x.map (fun x => s.preflight x .pass) = some .pass ∧ (AMap.get? far.copies 2).map (fun x => far.preflight x .pass) = some (.absent 0x10000) ∧
    (AMap.get? bad.copies 2).map (fun x => bad.preflight x .pass) = some (.fail 3 1 0x100) ∧
    (AMap.get? put.copies 2).elim false (fun x => match put.preflight x .pass with | .wait _ => true | _ => false) = true ∧ AMap.get? far.svc 0 = none ∧
    (s.group 0).map (fun g => (g.block, g.entries.length, (x.map fun x => (x.unit &&& g.unexited).getLsbD 0))) = some (1, 1, some true) := by decide +kernel
theorem test_preflight_fails : let s := { after tCopy (.cpin P true .none .grp 3 4 5 6 none) with pat := [] }
    goes s (.copyPreflight 2 .pass) (fun t => t.copies = [] ∧ (ee t 0).map (fun e => e.trap.map fun r => (r.cause, r.sub, r.addr, r.info, r.late)) =
      some [(3, 1, 0x100, 3, true)]) = true := by decide +kernel
/-- The group that issued the copy has exited, another of its block has not: a report of KIND 3 alone (R409). -/
theorem test_preflight_gone : let s := ({ tPre with pat := [], groups := tPre.groups ++ tPre.groups.map fun q => (1, { q.2 with g := 1 }) } : State).updGroup 0 fun g => { g with entries := [] }
    ((AMap.get? s.copies 2).map fun x => x.unit &&& ((s.group 0).elim 1 fun g => g.unexited)) = some 0 ∧
    goes s (.copyPreflight 2 .pass) (fun t => t.copies = [] ∧ t.blocks = s.blocks ∧ t.group 1 = s.group 1 ∧ (t.group 0).map (·.cnt 3) = some 0) = true := by decide +kernel
theorem test_preflight_timeout : let s := after (tK 0x100 0x200 0x01000002) (.cppeer P false .none .grp 3 4 5 6 none)
    goes s (.preflightReadinessTimeout (.copy 2)) (fun t => t.copies = [] ∧ (ee t 0).map (fun e => e.trap.map fun r => (r.cause, r.sub)) = some [(3, 6)]) = true := by
  decide +kernel
/-- R381: an absent page holds the copy, and SVCSTAT names the context. -/
theorem test_preflight_absent : let s := after (tUp (tK 0x100 0x10000 16)) (.cpin P true .none .grp 3 4 5 6 none)
    goes s (.copyPreflight 2 .pass) (fun t => (AMap.get? t.copies 2).map (·.stage) = some .held ∧ t.reg 0x33400 = 0x80000000) = true ∧
    (after (after s (.copyPreflight 2 .pass)) (.svcRetry 0)).copies.map (fun q => q.2.stage) = [.preflight] ∧
    (after (after s (.copyPreflight 2 .pass)) (.svcFail 0)).copies = [] := by decide +kernel
theorem witness_CopiesLand : let s := after (after tCopy (.cpin P true .none .grp 3 4 5 6 (some 0x40))) (.copyPreflight 2 .pass)
    let t := after s (.copyBytesLanded 2 ⟨none, true, []⟩)
    (AMap.get? s.copies 2).elim false (fun x => x.stage = .begun && x.after = [] && !x.logs && x.moves.length = 16 && x.bar = some 0 && x.rem = none &&
      x.moves.all fun m => !s.poisoned m.1 1) = true ∧ (s.pat.all fun q => !patWatch q.2) = true ∧
    (AMap.get? t.copies 2).map (·.stage) = some .landed ∧ (t.group 0).map (fun g => (g.block, g.entries.length)) = some (1, 1) := by decide +kernel
/-- A get's bytes come from the peer. -/
theorem test_get : let r := begun (after (tK 0x100 0x200 0x01000002) (.cppeer P true .none .grp 3 4 5 6 none))
    (AMap.get? r.copies 2).map (fun x => x.moves.length) = some 2 ∧ Memory.readNat (after r (.copyBytesLanded 2 ⟨none, true, [some 3, some 4]⟩)).mem 0x100 2 = 0x403 := by decide +kernel
/-- Witness of PeerRequests, and of its four ways: a placed launch of context 0 and queue 0 is resident, none of queue 1; the second count
of one name is summed. -/
theorem test_peer_count : goes tS (.peerCountArrival 0 0 0 0 ⟨12, 0x40, [9]⟩) (fun t => (AMap.get? t.blocks 1).map (fun b => b.bars.map (·.landb)) = some [12] ∧ SMap.get t.mem 0x40 = 9) = true ∧
    (let s := after tS (.peerCountArrival 0 1 0 0 ⟨12, 0, []⟩)
     s.peerCounts.map (·.bytes) = [12] ∧ (after s (.peerCountArrival 0 1 0 0 ⟨5, 0, []⟩)).peerCounts.map (·.bytes) = [17]) ∧
    (let s := { tS with peerCounts := (List.range 256).map fun n => { ctx := 0, queue := 2, block := n, bar := 0, bytes := 1 } }
     goes s (.peerCountArrival 0 1 0 0 ⟨12, 0x40, [9]⟩) (fun t => t.peerHeld.map (·.flit) = [[9]] ∧ t.peerCounts.length = 256 ∧ t.mem = s.mem) = true) := by decide +kernel
theorem test_peer_copy : tS.ctxValid 0 = true ∧ tS.vaOk 0 0xFFFE 2 true = true ∧ tS.vaOk 0 0xFFFF 2 true = false ∧
    goes tS (.peerCopyRequest 0 false 0xFFFE [some 7, some 8]) (fun t => Memory.readNat t.mem 0xFFFE 2 = 0x807) = true ∧
    goes tS (.peerCopyRequest 0 true 0 [some 0, some 0]) (fun t => t.outbox.map (fun o => o.data) = [[some 3, some 0]]) = true ∧ tS.vaRead 0 0 2 = some [3, 0] := by decide +kernel
/-- Witness of the withheld copy: 256 copies of the core are unfinished. -/
theorem witness_copies_full : let s := { tCopy with copies := (List.range 256).map fun n => (n,
        { num := n, kind := .cpin true, grp := 9, ctx := 0, block := 1, core := 0, unit := 1, act := 1, pc := 8, dst := 0, src := 0, word := 0x10, ord := .none, scope := .grp, token := 3 }) }
    s.copiesOn 0 = 256 ∧ goes s (.cpin P true .none .grp 3 4 5 6 none) (fun t => t.copies = s.copies ∧ t.sel = none) = true := by decide +kernel
theorem outcome_virt {s : State} {ctx a b : Nat} {w : Bool} {p : PageMap} (h : s.translate ctx (BitVec.ofNat 64 a) = .page p) (hr : (if w then p.w else p.r) = true)
    (hb : memReadyBit (p.phys + (a - p.va)) = some b) : PageOutcome s ctx (.virt, w, a) (if s.ready b then .pass else .wait a) := by
  cases hd : s.ready b <;> simp [PageOutcome, h, hr, hb, hd]
/-- Table 21.1 on the pages of a copy, the source's first: all pass; the destination's is not valid; the source's is not present; the memory
behind it is not ready. -/
theorem witness_PageOutcome : (AMap.get? tPre.copies 2).elim false (fun x => copyPages tPre x = [(.virt, false, 0x200), (.scr, true, 0x100)] && x.illegal.isNone && x.ctx = 0 &&
      tPre.preIllegal x = .pass && !tPre.indexHeld x && !tPre.behindResumed x && decide (tPre.sidePages x.ctx (tPre.sidesOf x).1 ≤ 64)) = true ∧
    PageOutcome tPre 0 (.virt, false, 0x200) .pass ∧ PageOutcome tPre 0 (.scr, true, 0x100) .pass ∧ PageOutcome { tPre with pat := [] } 0 (.scr, true, 0x100) (.fail 3 1 0x100) ∧
    PageOutcome { tPre with bar0 := [] } 0 (.virt, false, 0x200) (.wait 0x200) ∧ PageOutcome tPre 0 (.virt, false, 0x10000) (.absent 0x10000) := by
  refine ⟨by decide +kernel, ?_, ?_, ?_, ?_, ?_⟩
  · exact outcome_virt (b := 32) (p := { va := 0, size := 2 ^ 16, phys := 0, hp := false, r := true, w := true, x := true, isReg := false })
      (by decide +kernel) (by decide +kernel) (by decide +kernel)
  · simp only [PageOutcome]; decide +kernel
  · simp only [PageOutcome]; decide +kernel
  · exact outcome_virt (s := { tPre with bar0 := [] }) (b := 32) (p := { va := 0, size := 2 ^ 16, phys := 0, hp := false, r := true, w := true, x := true, isReg := false })
      (by decide +kernel) (by decide +kernel) (by decide +kernel)
  · have h : tPre.translate 0 (BitVec.ofNat 64 0x10000) = .absent := by decide +kernel
    simp only [PageOutcome, h]
/-- R381: while the core serves another fault, the copy is only held. -/
theorem test_absent_behind : let s := { after (tUp (tK 0x100 0x10000 16)) (.cpin P true .none .grp 3 4 5 6 none) with svc := [(0, (true, 0, 0, 0))] }
    goes s (.copyPreflight 2 .pass) (fun t => (AMap.get? t.copies 2).map (·.stage) = some .held ∧ t.svc = s.svc) = true := by decide +kernel
/-- Bytes that are visible on the core first; a unit of eight alone; and a copy whose release waits for what it has seen. -/
theorem test_copy_lands : let s := after { tCopy with mem := Memory.write tCopy.mem 0x200 [1, 2, 3, 4, 5, 6, 7, 8, 9] } (.cpin P true .none .grp 3 4 5 6 none)
    let b := after s (.copyPreflight 2 .pass)
    (AMap.get? b.copies 2).elim false (fun x => b.mayLandNear x x.moves && !b.copyHeld x x.moves && !b.copyHeld x (x.moves.take 8) &&
      (x.moves.filter fun m => [b.scrCell 0x100 / 8].contains (m.dst / 8)) == x.moves.take 8) = true ∧
    goes b (.copyBytesLanded 2 ⟨none, false, []⟩) (fun t => t.forwarded = [3, 4] ∧ t.mem = b.mem ∧ (AMap.get? t.copies 2).map (·.stage) = some .landed) = true ∧
    goes b (.copyBytesLanded 2 ⟨(some [b.scrCell 0x100 / 8]), true, []⟩) (fun t => Memory.readNat t.mem (b.scrCell 0x108) 1 = 0 ∧ Memory.readNat t.mem (b.scrCell 0x100) 8 = 0x0807060504030201 ∧
      (AMap.get? t.copies 2).map (fun x => (x.stage, x.moves.length)) = some (.begun, 8)) = true ∧
    (let r := { after b (.copyBytesLanded 2 ⟨none, true, []⟩) with accesses := tSpawn.accesses }
     let u := { r with copies := r.copies.map fun q => (q.1, { q.2 with seen := [9] }) }
     goes u (.copyComplete 2) (fun t => t = u) = true ∧ goes r (.copyComplete 2) (fun t => t.copies = []) = true) := by decide +kernel
/-- A get of which a byte is poisoned is gone, and its block ends (R382). -/
theorem test_get_poison : let r := begun (after (tK 0x100 0x200 0x01000002) (.cppeer P true .none .grp 3 4 5 6 none))
    goes r (.copyBytesLanded 2 ⟨none, true, [some 3, none]⟩) (fun t => t.copies = [] ∧ t.blocks = []) = true ∧
    (AMap.get? r.copies 2).map (fun x => (x.kind, x.stage, x.moves.length, r.copyHeld x x.moves)) = some (.peerGet, .begun, 2, false) := by decide +kernel
/-- The block that a count names is in a context that has been saved (R284). -/
theorem test_peer_count_saved : let s := { tS with blocks := [], contexts := [(0, { saved := some { groups := [], blocks := tS.blocks, tiles := [] } })] }
    goes s (.peerCountArrival 0 0 0 0 ⟨12, 0, []⟩) (fun t => (t.context 0).saved.map (·.counts) = some [(1, 0, 12)]) = true := by decide +kernel

/-! ## Barriers, work, coverage: witnesses of BarrierInstructions to CoverageEvents -/

def tBar (x y : Dword) : State := tS fun g => { g with k := [(4, x), (5, y)] }
/-- Witness of BarrierInstructions: barrier 0, the last of the block, is at rest; barrier 1 does not exist; each form stands. -/
theorem witness_BarrierInstructions : ((tBar 0 0).blockOf (cc (tBar 0 0)).g).map (fun b => (b.bars.length, b.bars.map fun x => (x.arr, x.expb, x.landb, x.ovf))) =
      some (1, [(0, 0, 0, 0)]) ∧ (tBar 0 0).releaseWaits 0 ((cc (tBar 0 0)).act P) = [] ∧
    (let s := { after (tP 0 1 0 0) (.sst P0 .b32 .x1 2 (.k 0) 3) with sel := some { grp := 0, entry := 0, pc := 16, npc := 24 } }
     s.releaseWaits 0 ((cc s).act P) ≠ []) ∧
    [Instr.barv P 5 (.i 0), .barxExp P (.k 4) 5, .barxCfg P (.k 4) 5, .barxPh P 5 (.i 0), .barw P 4 (.i 63)].all (stands (tBar 0 0)) = true := by decide +kernel
/-- The one arrival that the barrier expects ends its phase; the ticket is the phase before (R288, R289). -/
theorem test_barv : goes (tBar 0 0) (.barv P 5 (.k 4)) (fun t => kk t 5 = 0 ∧ (AMap.get? t.blocks 1).map (fun b => b.bars.map fun x => (x.phase, x.arr)) = some [(1, 0)]) = true := by
  decide +kernel
theorem test_barx : goes (tBar 0 7) (.barxExp P (.k 4) 5) (fun t => (AMap.get? t.blocks 1).map (fun b => b.bars.map (·.expb)) = some [7]) = true ∧
    goes (tBar 0 0x3005) (.barxCfg P (.k 4) 5) (fun t => (AMap.get? t.blocks 1).map (fun b => b.bars.map fun x => (x.na, x.scope)) = some [(5, 3)]) = true ∧
    goes (tBar 0 7) (.barxPh P 5 (.k 4)) (fun t => kk t 5 = 0) = true := by decide +kernel
theorem test_barw : goes (tBar 0 0) (.barw P 5 (.k 4)) (fun t => (ee t 0).map (·.st) = some (.atBarrier 0 0)) = true ∧
    (let s := { tBar 0 0 with blocks := (tBar 0 0).blocks.map fun q => (q.1, { q.2 with bars := [{ na := 1, phase := 1 }] }) }
     goes s (.barw P 5 (.k 4)) (fun t => (ee t 0).map (·.st) = some .run) = true) ∧
    goes (tBar 64 0) (.barw P 5 (.k 4)) (fun t => t.blocks = []) = true := by decide +kernel

/-- The launch as a task launch of queue 7, with three slots free and f as its group. -/
def tTask (f : Group → Group := id) : State :=
  let s := { (tS f).updLaunch 0 (fun l => { l with desc := l.desc ||| 1 ||| BitVec.ofNat 2048 ((2 ^ 64 - 1) * 2 ^ 320 + 7 * 2 ^ 576) }) with pat := [(0, 0x84000000)] }
  { s with taskQueues := [(7, { launch := 0, ctx := 0, cap := 4, free := 3, base := 0, running := 1 })] }
/-- Its group holds the task of record r. -/
def tHolds (r : BitVec 256) (f : Group → Group := id) : State := tTask fun g => f { g with work := .task r, taskOpen := true, k := [(5, 0x40)] }
/-- A record with no join, and one whose join word is at scratchpad address 0x80. -/
def recAlone : BitVec 256 := BitVec.ofNat 256 (5 + 2 ^ 240)
def recJoined : BitVec 256 := BitVec.ofNat 256 (5 + 0x80 * 2 ^ 192)

theorem witness_WorkInstructions : (cc tTask).g.aliveMask = (cc tTask).e.mask ∧ (cc tTask).g.taskOpen = false ∧ (cc tTask).g.fetch = none ∧ stands tTask (.fetchw P 60) = true ∧
    (let s := tHolds recJoined fun g => { g with k := [(4, 7), (5, 0x1DFFFFE0)] }
     let u := { s with pat := [(0x1DFF, 0x84000000)] }
     let c := cc u
     stands u (.spawn P 4 5) = true ∧ ((u.launch 0).map fun l => (l.isTask, l.prodq.getLsbD 7, l.hasClaims, l.tq)) = some (true, true, false, 7) ∧ c.act P &&& ~~~c.g.helper ≠ 0 ∧
     u.touchIllegal c.g ⟨0, 0x1DFFFFE0, 32, false⟩ = false ∧ u.pieceIllegal c.g 0x1DFFFFE0 32 = false ∧ u.claimVerdict 0 c.g [⟨0, 0x1DFFFFE0, 32, false⟩] = .none ∧
     u.pageFault 0 0x1DFFFFE0 32 false = none) ∧
    (let s := tHolds recJoined
     s.tendWaits 0 = false ∧ s.joinOk 0 0x80 = true ∧ s.joinPoisoned recJoined = false ∧ recNoJoin recJoined = false ∧ recJoin recJoined = 0x80 ∧ recNoJoin recAlone = true) := by
  decide +kernel
theorem test_fetchw : goes tS (.fetchw P 60) (fun t => (t.group 0).map (fun g => (g.fetch, g.work)) = some (some (0xFFFFFFFF, 60), .none) ∧
    (t.launch 0).map (fun l => (l.waits, l.complete)) = some ([0], [0])) = true := by decide +kernel
theorem test_spawn : let s := tHolds recAlone fun g => { g with k := [(4, 7), (5, 0x40)] }
    goes s (.spawn P 4 5) (fun t => (AMap.get? t.taskQueues 7).map (·.free) = some 2 ∧ t.accesses.map (fun q => q.2.lanes.map (·.addr)) = [[0x40]]) = true ∧
    goes { s with taskQueues := [(7, { launch := 0, ctx := 0, cap := 4, free := 0, base := 0 })] } (.spawn P 4 5) (fun t => t.accesses = [] ∧ t.sel = none) = true := by decide +kernel
/-- R43: the last task of a join pushes the parent in its own slot; another counts the join word down and returns the slot. -/
theorem test_tend : let s := tHolds recJoined
    let w := fun (n : Byte) => { s with mem := [(s.scrCell 0x80, n), (s.scrCell 0xA0, 9)] }
    goes (w 2) .tend (fun t => Memory.readNat t.mem (s.scrCell 0x80) 4 = 1 ∧ (AMap.get? t.taskQueues 7).map (fun q => (q.free, q.running, q.recs.length)) = some (4, 0, 0)) = true ∧
    goes (w 1) .tend (fun t => Memory.readNat t.mem (s.scrCell 0x80) 4 = 0 ∧ (AMap.get? t.taskQueues 7).map (fun q => (q.free, q.running, q.recs.length)) = some (3, 0, 1)) = true := by
  decide +kernel
theorem test_tend_alone : goes (tHolds recAlone) .tend (fun t => (t.group 0).map (fun g => (g.taskOpen, g.work)) = some (false, .none) ∧
      (AMap.get? t.taskQueues 7).map (·.free) = some 4) = true ∧
    (let s := { after (tHolds recAlone fun g => { g with v := [(3, 1)], m := [(3, 1)] }) (.sst P0 .b32 .x1 2 (.k 0) 3) with sel := some { grp := 0, entry := 0, pc := 16, npc := 24 } }
     s.tendWaits 0 = true ∧ goes s .tend (fun t => (ee t 0).map (·.st) = some .atTend) = true) := by decide +kernel

/-- A group that waits for its answer. -/
def tWaits (s : State) : State := after s (.fetchw P 60)
/-- Witness of TurntableEvents, and a launch of two tiles whose second is handed out to the first waiting group. -/
theorem test_fetchw_tile : let s := tWaits (tS.updLaunch 0 fun l => { l with desc := l.desc + BitVec.ofNat 2048 (32 * 2 ^ 192) })
    s.ctxRuns 0 = true ∧ s.launchRuns 0 = true ∧ (s.launch 0).map (fun l => (l.waits, l.nextTile, l.isTask, l.tiles)) = some ([0], some 1, false, 2) ∧
    goes s (.fetchwAnswer 0 1) (fun t => kk t 60 = 1 ∧ kk t 61 = 32 ∧ kk t 63 = 0 ∧ (t.launch 0).map (·.handed) = some [0, 1] ∧ (t.group 0).map (·.fetch) = some none) = true := by
  decide +kernel
theorem test_fetchw_exhausted : goes (tWaits tS) (.fetchwAnswer 0 0) (fun t => kk t 60 = 0 ∧ kk t 63 = 0x8000000000000000) = true ∧
    (let s := tWaits (tTask)
     goes { s with taskQueues := [(7, { launch := 0, ctx := 0, cap := 4, free := 4, base := 0 })] } (.fetchwAnswer 0 0) (fun t => kk t 63 = 0x8000000000000000) = true ∧
     goes s (.fetchwAnswer 0 0) (fun t => t = s) = true) := by decide +kernel
/-- The record with the smallest AGE is handed out. -/
theorem test_fetchw_task : let s := { tWaits (tTask) with taskQueues := [(7, { launch := 0, ctx := 0, cap := 4, free := 2, base := 0, recs := [9, recAlone] })] }
    oldestRec [9, recAlone] = some recAlone ∧
    goes s (.fetchwAnswer 0 0) (fun t => kk t 60 = 5 ∧ (AMap.get? t.taskQueues 7).map (fun q => (q.recs, q.running)) = some ([9], 1) ∧ (t.group 0).map (·.taskOpen) = some true) = true := by
  decide +kernel
theorem test_tile_complete : let s := tS.updLaunch 0 fun l => { l with releases := [(0, 0, [99])] }
    goes s (.tileComplete 0 0) (fun t => (t.launch 0).map (fun l => (l.complete, l.releases)) = some ([0], [])) = true := by decide +kernel

/-- A coverage launch: the quincunx with q = 128, nearest kernel, f32 records at scratchpad address 0x100. -/
def tCov (more : Nat) (desc : Nat := 0) : State :=
  { tS.updLaunch 0 (fun l => { l with desc := l.desc + BitVec.ofNat 2048 (4 + desc), cov := BitVec.ofNat 512 (2 + 4 * 2 ^ 8 + 2 * 2 ^ 16 + 127 * 2 ^ 24 + 255 * 2 ^ 40 + 0x100 * 2 ^ 160 + more), complete := [0] }) with
    pat := [(0, 0x84000000)] }
/-- Point 1 is skipped, and takes the record of point 0 (R171, R172). -/
theorem test_infill : let s := { tCov 0 with mem := [((tCov 0).scrCell 0x100, 7), ((tCov 0).scrCell 0x103, 9)] }
    (s.launch 0).elim false (fun l => l.infillReady 1 && !l.infillReady 0 && (s.pageFault l.ctx (l.recAddr (l.ofIndex 1)) 4 true).isNone &&
      !s.recsPoisoned l ((l.stencil (l.ofIndex 1)).1.map Prod.fst) && l.stage = .placed) = true ∧ s.ctxStat 0 = 1 ∧
    goes s (.infillWrite 0 1) (fun t => Memory.readNat t.mem (s.scrCell 0x104) 4 = 0x09000007) = true := by decide +kernel
/-- Two tiles, an instant after the first: with no sample, q stays (R177). -/
theorem test_update_instant : let s := tCov (2 ^ 128) (32 * 2 ^ 192)
    (s.launch 0).map (fun l => (l.ut, l.tiles, l.instant, l.tileDone 0, l.histLen)) = some (1, 2, 1, true, 0) ∧
    goes s (.updateInstant 0) (fun t => (t.launch 0).map (fun l => (l.qs, l.instant)) = some ([128], 2)) = true := by decide +kernel
/-- With samples of error 0 and a LOTHR above it, q falls by DN. -/
theorem test_update_samples : let s := tCov (2 ^ 128 + 1 * 2 ^ 64 + 5 * 2 ^ 56 + 200 * 2 ^ 104 + 2 ^ 112) (32 * 2 ^ 192)
    (s.launch 0).elim false (fun l => !(l.samplesAt 1).isEmpty) = true ∧ goes s (.updateInstant 0) (fun t => (t.launch 0).map (·.qs) = some [123]) = true := by decide +kernel
theorem test_coverage_done : let s := (tCov 0).updLaunch 0 fun l => { l with infilled := (List.range 16).map (2 * · + 1) }
    goes (s.updGroup 0 fun g => { g with flags := 0x3FF }) (.coverageDone 0) (fun t => (t.launch 0).map (·.f10) = some true ∧ (t.group 0).map (·.flags) = some 0x7FF) = true := by decide +kernel

/-! ## Matrix unit and siding: witnesses of MatrixInstructions to SidingAndTokens -/

/-- The unit holds a power token; k4 and k5 are operands. -/
def tX (x y : Dword) (f : Group → Group := id) : State :=
  { tS fun g => f { g with k := [(4, x), (5, y)] } with tokens := [(0, 0)], pat := [(0, 0x84000000)] }
/-- Tile 5 of the launch, which is physical tile 5 of core 0, as f. -/
def tTile (f : Tile → Tile) (s : State) : State := { s with tiles := s.tiles.map fun q => if q.1 = 5 then (5, f q.2) else q }
/-- The matrix unit's tile and the issued command. -/
def cmd (t : State) : Option ArrayCmd := ((AMap.get? t.arrays 0).getD []).head?

theorem witness_MatrixInstructions : let s := tX 0 0; let c := cc s
    [Instr.msetf P (.k 4), .mma P .rne 5 64 (.k 4), .mzero P .i32 5, .mldIn P true .f32 true .dev 5 4 (.k 5), .mldOut P false .f32 false .grp 5 4 (.k 5), .macq P 31, .mrel P 0,
      .mdrn P .f32 false 8 5 (.i 0)].all (stands s) = true ∧
    (mmaForm 0x63).isSome = true ∧ (mmaForm 0x10A6).isSome = false ∧ c.shape (.k 4) 0xE0 = some 0 ∧ (AMap.get? s.tiles 5).map (fun t => (t.holder, t.isInt)) = some (none, false) ∧
    (mmaForm c.g.mfmt).map (fun f => (f.isInt, f.shapeOk 0 (2 ^ 14), f.shapeOk 0x00FFFF00 (2 ^ 14))) = some (false, true, false) ∧ s.bufferRoom 0 = true ∧
    s.mldAddrOk c.g true (c.g.kget 4).toNat 0 = true ∧ mldC0 0xFF00 + mldNc 0xFF00 = 256 ∧ (cc (tX 0 0)).act P &&& ~~~c.g.helper ≠ 0 ∧ c.g.nregs = 256 := by decide +kernel
theorem test_msetf : goes (tX 0x108C 0) (.msetf P (.i 0x108)) (fun t => (t.group 0).map (·.mfmt) = some 0x108) = true ∧ (mmaForm 0x108).isSome = true ∧
    goes (tX 0 0) (.msetf P (.i 0)) (fun t => t.blocks = []) = true := by decide +kernel
/-- One product of ones in row 0 and column 0. -/
theorem test_mma : let s := { tX 0 0 fun g => { g with v := [(64, 0x3F80)] } with mem := [(cellBplane 0 0 0, 0x80), (cellBplane 0 0 1, 0x3F)] }
    let t := after s (.mma P .rne 5 64 (.k 4))
    (cmd t).map (fun q => (q.tile, q.started, SMap.get q.a 0)) = some (5, false, 0x3F80) ∧ t.tokens = [] ∧
    (let u := after (after t (.arrayCommandStart 0)) (.arrayCommandComplete 0)
     (AMap.get? u.tiles 5).map (fun q => (SMap.get q.el 0, SMap.get q.el 256)) = some (0x3F800000, 0) ∧ u.arrays = []) := by decide +kernel
/-- Without a token the unit asks for one, and gets it (R158). -/
theorem test_token : let s := { tX 0 0 with tokens := [] }
    goes s (.mma P .rne 5 64 (.k 4)) (fun t => t.tokenReqs.length = 1 ∧ t.sel = none ∧ t.arrays = []) = true ∧
    (let t := after s (.mma P .rne 5 64 (.k 4)); t.tokenReqs.length = 1 ∧ (t.arrays.map fun q => q.2.length).sum < tokenPool ((t.reg 0x20).extractLsb' 8 3).toNat ∧
      goes t .tokenGrant (fun u => u.tokens = [(0, 0)] ∧ u.tokenReqs = []) = true) := by decide +kernel
theorem test_mzero : let s := tTile (fun t => { t with el := [(3, 9)] }) (tX 0 0)
    (AMap.get? (after (after (after s (.mzero P .i32 5)) (.arrayCommandStart 0)) (.arrayCommandComplete 0)).tiles 5).map (fun t => (t.el, t.isInt)) = some ([], true) := by decide +kernel
theorem test_mldIn : let s := { tX 0x100 0 with mem := [((tX 0 0).scrCell 0x104, 9)] }
    (AMap.get? (after (after (after s (.mldIn P true .f32 false .grp 5 4 (.i 0x0100))) (.arrayCommandStart 0)) (.arrayCommandComplete 0)).tiles 5).map (fun t => SMap.get t.el 1) =
      some 9 := by decide +kernel
theorem test_mldOut : let s := tTile (fun t => { t with el := [(256, 0xABCD)] }) (tX 0x200 0)
    Memory.readNat (after (after (after s (.mldOut P false .f32 false .grp 5 4 (.i 0))) (.arrayCommandStart 0)) (.arrayCommandComplete 0)).mem (cellShared 0 0x204) 4 = 0xABCD := by
  decide +kernel
theorem test_macq : goes (tX 0 0) (.macq P 5) (fun t => (AMap.get? t.tiles 5).map (·.holder) = some (some 0) ∧ (ee t 0).map (·.st) = some (.atMacq 5 2)) = true ∧
    goes (tTile (fun t => { t with holder := some 9 }) (tX 0 0)) (.macq P 5) (fun t => (AMap.get? t.tiles 5).map (·.waiters) = some [0]) = true := by decide +kernel
theorem test_mrel : goes (tTile (fun t => { t with holder := some 0, waiters := [9] }) (tX 0 0)) (.mrel P 5) (fun t => (AMap.get? t.tiles 5).map (fun q => (q.holder, q.waiters)) =
    some (some 9, [])) = true ∧ goes (tX 0 0) (.mrel P 5) (fun t => t.blocks = []) = true := by decide +kernel
/-- Thread 5 of row 1 drains its second of two elements; bf16 rounds toward zero. -/
theorem test_mdrn : goes (tTile (fun t => { t with holder := some 0, el := [(256 + 3, 0x3F80FFFF)] }) (tX 0 0)) (.mdrn P .bf16 false 8 5 (.i 0x100)) (fun t => vv t 5 8 = 0x3F800000) = true := by
  decide +kernel
/-- Witness of ArrayCommands: each command heads its queue and may start; a started one parks nothing and may complete. -/
theorem witness_ArrayCommands : let s := after (tX 0x100 0) (.mma P .rne 5 64 (.k 5)); let m := after (tX 0x100 0) (.mldIn P true .f32 false .grp 5 4 (.k 5))
    let o := after (tX 0x100 0) (.mldOut P false .f32 false .grp 5 4 (.k 5))
    (cmd s).elim false (fun q => !q.started && !s.pendTile q.tile && q.after.isEmpty && (s.mmaPoison q 0x63 0).isNone) = true ∧
    (cmd m).elim false (fun q => !q.started && (m.mldFault q true false 0x100 0).isNone && (m.mldCells q true 0x100 0).all fun x => !m.poisoned x.2.2 4) = true ∧
    (cmd o).elim false (fun q => !q.started && (o.mldFault q false true 0x100 0).isNone) = true ∧
    (let t := after s (.arrayCommandStart 0)
     (cmd t).elim false (fun q => q.started && q.out.all fun e => !e.parks) = true ∧ t.tileBuffered 5 = false ∧ (t.group 0).map (fun g => (g.block, g.entries.length)) = some (1, 1)) := by
  decide +kernel

/-- A parked result of thread 3, for register 7. -/
def parkedReg : Parked :=
  { core := 0, grp := 0, block := 1, dest := .reg 0 3 7 false, value := 0x00400000, opc := 0x22, sub := 0, ty := 1, mode := 0, tiny := true }
def tPark (x : Parked) : State := { tS with parked := [(4, x)] }
theorem test_siding : (tPark parkedReg).bufferHead 0 = some (4, parkedReg) ∧ (tPark parkedReg).sidingRoom 0 = true ∧
    goes (tPark parkedReg) (.sidingAccept 0) (fun t => (AMap.get? t.parked 4).map (fun x => (x.buffered, x.seq)) = some (false, 0) ∧ SMap.get t.seqs 0 = 1) = true := by decide +kernel
theorem test_wide_unit : goes (tPark { parkedReg with buffered := false, tiny := false }) (.wideUnitServe 0) (fun t => vv t 3 7 = 0x00400000 ∧ t.parked = []) = true ∧
    (tPark { parkedReg with buffered := false, tiny := false }).sidingEntries 0 = [(4, { parkedReg with buffered := false, tiny := false })] := by decide +kernel
theorem test_exact_stage : goes (tPark { parkedReg with buffered := false, exact := true, dest := .elem 5 257 }) (.exactStageServe 0)
    (fun t => (AMap.get? t.tiles 5).map (·.el) = some [(257, 0x00400000)] ∧ t.parked = []) = true ∧
    (tPark { parkedReg with buffered := false, exact := true }).sidingOrder 0 ≠ [] := by decide +kernel
/-- An `mma` is withheld while the buffer has no room (R83); the unit keeps its token. -/
theorem test_mma_withheld : let s := { tX 0 0 with parked := (List.range 225).map fun n => (n, { core := 0, grp := 0, block := 1, dest := .elem 0 n, value := 0, opc := 0, sub := 0, ty := 1, mode := 0 }) }
    s.bufferRoom 0 = false ∧ (0, 0) ∈ s.tokens ∧ goes s (.mma P .rne 5 64 (.k 4)) (fun t => t.arrays = [] ∧ t.sel = none ∧ t.tokens = s.tokens) = true := by decide +kernel
/-- Witness of SidingAndTokens: the first core in turn with an entry; an entry that the wide unit does not decide passes on with one of its
values, a tiny one with its result; one of a block that is gone is discarded. -/
theorem witness_SidingAndTokens : let s := tPark parkedReg
    s.sidingOrder 0 = [0, 1, 2, 3, 4, 5, 6, 7] ∧ (s.sidingEntries 0).length = 0 ∧
    (let u := tPark { parkedReg with buffered := false, tiny := false, wideFails := some true, widev := [7] }
     goes u (.wideUnitServe 0) (fun t => (AMap.get? t.parked 4).map (fun x => (x.exact, x.fast)) = some (true, 7)) = true) ∧
    goes (tPark { parkedReg with buffered := false }) (.wideUnitServe 0) (fun t => (AMap.get? t.parked 4).map (fun x => (x.exact, x.fast, x.assist)) = some (true, 0x00400000, true)) = true ∧
    goes (tPark { parkedReg with buffered := false, exact := true, dead := true }) (.exactStageServe 0) (fun t => t.parked = [] ∧ t.groups = tS.groups) = true := by decide +kernel

/-! ## System registers, traps, fetch: witnesses of SystemRegisters, TrapsAndReturns, FetchAndSelect -/

/-- The launch has a trap handler 0x100 bytes into its module. -/
def tTraps (f : Group → Group := id) : State := (tS f).updLaunch 0 fun l => { l with desc := l.desc - BitVec.ofNat 2048 (0xFFFFFEFF * 2 ^ 128) }
/-- The unit is in the handler, with trap state x. -/
def tHandler (x : TrapState := {}) : State := tTraps fun g => { g.updEntry 0 fun e => { e with inHandler := true } with trap := x }

def reads (s : State) (n : Half) (x : Dword) : Bool := stands s (.sread P 7 n) && goes s (.sread P 7 n) fun t => kk t 7 = x
/-- Group 5 of 17 in block 3, on core 0, queue 33, class 2: the bit places of GRPLOC and LAUNCH (Table 12.5). -/
theorem test_sread : let s := ((tS fun g => { g with g := 5, flags := 0xABC, spilled := 9, ctx := 0 }).updLaunch 0 fun l =>
        { l with desc := l.desc + BitVec.ofNat 2048 (0x10 * 2 ^ 16 + 2 * 2 ^ 8), queue := 33 })
    reads { s with blocks := s.blocks.map fun q => (q.1, { q.2 with num := 3 }) } 3 0x0003001005000000 = true ∧ reads s 4 (33 * 32 + 2 * 2 ^ 14) = true ∧
      reads s 9 0xABC = true ∧ reads s 10 0x90000 = true ∧ reads s 11 1024 = true ∧ reads s 0 0xFFFFFFFF = true ∧ s.claimFrame (cc s).g = none := by decide +kernel
theorem test_sread_more : reads { tS with clk := 77 } 5 77 = true ∧ reads tS 6 0 = true ∧ reads tS 7 0 = true ∧ reads tS 8 0x63 = true ∧ reads tS 2 0xFFFFFFFF = true ∧
    reads (tS.updLaunch 0 fun l => { l with desc := l.desc + 2, complete := [0] }) 6 1 = true ∧
    reads (tS fun g => { g with helper := 0xF0 }) 1 0xF0 = true := by decide +kernel
/-- A trap state register is read in a handler only; numbers 12 and 0x10C never. -/
theorem test_sread_traps : reads (tHandler { tcause := 5 }) 0x100 5 = true ∧ reads (tHandler { tpend := 7 <<< 192 }) 0x109 7 = true ∧ reads (tHandler { tovf := 3 }) 0x10B 3 = true ∧
    goes (tTraps) (.sread P 7 0x100) (fun t => (ee t 0).map (fun e => (e.pc, e.inHandler)) = some (0x100, true) ∧ (t.group 0).map (fun g => g.trap.tcause.extractLsb' 0 8) = some 2) = true ∧
    goes (tHandler) (.sread P 7 0x10C) (fun t => t.blocks = []) = true ∧ goes (tTraps) (.sread P 7 12) (fun t => (ee t 0).map (·.inHandler) = some true) = true := by
  decide +kernel
theorem test_swrite : goes (tHandler.updGroup 0 fun g => { g with k := [(4, 0x80)] }) (.swrite P 4 0x102) (fun t => (t.group 0).map (·.trap.tresume) = some 0x80) = true ∧
    stands tHandler (.swrite P 4 0x102) = true ∧ goes tTraps (.swrite P 4 0x102) (fun t => (ee t 0).map (·.inHandler) = some true) = true ∧
    goes tS (.swrite P 4 7) (fun t => (ee t 0).map (·.pc) = some 16) = true ∧ (cc tS).act ⟨true, 0⟩ = 0 := by decide +kernel
theorem test_pmc : goes { tS fun g => { g with first := some 20, lost := 10 } with clk := 100 } (.pmc P false 7 (.i 0)) (fun t => kk t 7 = 70) = true ∧
    goes (tS fun g => { g with pmc := [(18, 4)] }) (.pmc P true 7 (.i 18)) (fun t => kk t 7 = 4 ∧ (t.group 0).map (fun g => SMap.get g.pmc 18) = some 0) = true ∧
    goes (tS fun g => { g with pmc := [(8, 5)] }) (.pmc P true 7 (.i 8)) (fun t => kk t 7 = 5 ∧ (t.group 0).map (fun g => SMap.get g.pmc 8) = some 0) = true ∧
    goes { tS with corePmc := [(11, 9)] } (.pmc P false 7 (.i 0x10B)) (fun t => kk t 7 = 9) = true ∧ goes tTraps (.pmc P false 7 (.i 19)) (fun t => (ee t 0).map (·.inHandler) = some true) = true ∧
    [Instr.pmc P false 7 (.i 0), .pmc P true 7 (.i 18), .pmc P false 7 (.k 3)].all (stands tS) = true := by decide +kernel

/-- The example of 09: range 0 has its sets of 256 bytes in page 0x40 and its owner entries at 0x500000. Task Y (AGE 5, FRAME 0x600000) is
group slot 70 of core 9, task O (AGE 3, FRAME 0x700000) slot 12 of core 200; the word at 0x400310 holds 0xC8. -/
def tY : Nat := 9 * 512 + 70
def tO : Nat := 200 * 512 + 12
def tClaim : State :=
  let s := (tTask).updLaunch 0 fun l => { l with desc := l.desc + BitVec.ofNat 2048 (0x1000 * 2 ^ 448), claim := BitVec.ofNat 2048 (8 * 2 ^ 24 + 0x400000 * 2 ^ 32 + 0x10000 * 2 ^ 64 + 0x500000 * 2 ^ 96) }
  match s.group 0 with
  | none => s
  | some g =>
    let task := fun (r : Nat) => { g with work := .task (BitVec.ofNat 256 (r + 2 ^ 240)), taskOpen := true, m := [(3, 1)], v := [(2, 0x400310), (3, 0x64)] }
    let u := { s with groups := [(tY, task (5 + 0x600000 * 2 ^ 160)), (tO, task (3 + 0x700000 * 2 ^ 160))], pat := [(0x40, 0x94000100), (0x50, 0x84000001), (0x60, 0x84000002), (0x70, 0x84000003)] }
    { u with mem := [(u.scrCell 0x400310, 0xC8)] }
/-- The unit of group n is selected. -/
def picked (s : State) (n : Nat) : State := { s with sel := some { grp := n, entry := 0, pc := 8, npc := 16 } }
/-- Y's store, before and after its set is granted, and when it is performed. -/
def claim1 : State := after (picked tClaim tY) (.sst P0 .b32 .x1 2 (.k 0) 3)
def claim2 : State := after claim1 (.claimAcquireRequest 2 3)
def claim3 : State := after claim2 (.storePerform ⟨2, true⟩)
/-- Step 1 of the example. -/
theorem test_claim_grant : (AMap.get? claim1.accesses 2).map (·.need) = some [3] ∧ claim2.scrNat 0x500030 8 = 5 ∧ claim2.scrNat 0x500038 8 = 0x460900 ∧
    claim3.scrNat 0x600080 8 = 0x000000C800400310 ∧ claim3.scrNat 0x600000 4 = 0x00010001 ∧ claim3.scrNat 0x600040 4 = 3 ∧ claim3.scrNat 0x400310 4 = 0x64 := by decide +kernel
/-- Witness of the grant clause of ClaimsAndTasks. -/
theorem witness_grant : claim1.requester 2 3 = some (tY, 8) ∧ ((claim1.group tY).bind claim1.claimFrame).map Prod.snd = some 0x600000 ∧
    claim1.poisoned (claim1.scrCell 0x500030) 16 = false ∧ claim1.scrNat 0x500030 8 = 0 ∧ claim1.nset 0x600000 = 0 ∧ (claim1.group tY).map (·.age) = some 5 ∧
    (∀ m, m < 128 → ∀ k, k < 16 → claim1.scrCell (0x500030 + k) ≠ claim1.scrCell (0x600000 + m)) := by decide +kernel
theorem witness_grant_apart : ∀ m, m < 128 → claim1.scrCell (0x600000 + m) = claim1.scrCell 0x600000 + m := by decide +kernel
/-- Step 2: O's load wounds Y. -/
def claim4 : State := after (picked { claim3 with accesses := [] } tO) (.sld P0 .b32 .x1 8 2 (.k 0))
def claim5 : State := after claim4 (.claimAcquireRequest 3 3)
theorem test_claim_wound : (AMap.get? claim4.accesses 3).map (·.need) = some [3] ∧ claim5.scrNat 0x500038 8 = 0x460902 ∧ (claim5.group tY).map (·.wounded) = some true ∧
    (claim5.group tO).map (·.wounded) = some false ∧ claim5.unitReady tO 0 = false := by decide +kernel
/-- An owner entry that is sealed or wounded is left as it is. -/
theorem test_claim_waits : goes claim5 (.claimAcquireRequest 3 3) (fun t => t = claim5) = true ∧ (claim5.scrNat 0x500038 1) % 4 = 2 := by decide +kernel
/-- Step 3: Y is rolled back. -/
def claim6 : State := after { claim5 with sel := none } (.woundTakesEffect 9 70)
theorem test_wound : (claim5.group tY).map (fun g => (g.wounded, g.rolling, g.taskOpen)) = some (true, false, true) ∧
    (claim6.group tY).map (fun g => (g.wounded, g.rolling)) = some (false, true) ∧ claim5.ctxRuns 0 = true := by decide +kernel
def claim7 : State := after claim6 (.rollback 9 70)
theorem test_rollback : claim7.scrNat 0x400310 4 = 0xC8 ∧ (claim7.scrNat 0x500030 8 = 3 ∧ claim7.scrNat 0x500038 8 = 0xCC800) ∧
    ((AMap.get? claim7.taskQueues 7).map fun q => (q.recs.map fun r => (recAge r, r.extractLsb' 240 16), q.free)) = some ([(5, 2 + 1)], 3) ∧
    (claim7.group tY).map (fun g => (g.entries.map fun q => (q.2.pc, q.2.mask), g.taskOpen)) = some ([(0, 0xFFFFFFFF)], false) := by decide +kernel
theorem witness_rollback : (claim6.group tY).map (fun g => (g.rolling, claim6.taskBusy tY, claim6.undoPoison g)) = some (true, false, none) ∧
    (AMap.get? claim6.taskQueues 7).isSome = true ∧ ((claim6.group tY).bind claim6.claimFrame).isSome = true ∧ claim6.claimWaiters 0 3 ≠ [] ∧
    (claim6.undoLog 0x600000 = [(0x400310, 0xC8)]) ∧ apart (claim6.scrCell 0x500030) 16 (claim6.scrCell 0x400310) 4 := by
  refine ⟨?_, ?_, ?_, ?_, ?_, ?_⟩ <;> first | decide +kernel | (unfold apart; decide +kernel)
theorem claim6_cells : (∀ m, m < 128 → claim6.scrCell (0x600000 + m) = claim6.scrCell 0x600000 + m) ∧ (∀ m, m < 128 → claim6.scrCell (0x700000 + m) = claim6.scrCell 0x700000 + m) ∧
    (∀ k, k < 16 → claim6.scrCell (0x500030 + k) = claim6.scrCell 0x500030 + k) ∧ (∀ k, k < 4 → claim6.scrCell (0x400310 + k) = claim6.scrCell 0x400310 + k) ∧
    [(0x600000, 128, 0x500030, 16), (0x700000, 128, 0x500030, 16), (0x600000, 128, 0x400310, 4), (0x700000, 128, 0x400310, 4), (0x700000, 128, 0x600000, 128)].all (fun q =>
      decide (claim6.scrCell q.1 + q.2.1 ≤ claim6.scrCell q.2.2.1) || decide (claim6.scrCell q.2.2.1 + q.2.2.2 ≤ claim6.scrCell q.1)) = true := by decide +kernel
/-- Witness of AreasApart: task Y, with one set, one logged word, and task O waiting for the set. -/
theorem witness_AreasApart : ∃ g l, claim6.group tY = some g ∧ claim6.launch g.launch = some l ∧ claim6.claimFrame g = some (l, 0x600000) ∧ AreasApart claim6 g l 0x600000 := by
  obtain ⟨hf, he, ho, hw, hd⟩ := claim6_cells
  simp only [List.all_cons, List.all_nil, Bool.or_eq_true, decide_eq_true_eq, Bool.and_true, Bool.and_eq_true] at hd
  have hl : claim6.undoLog 0x600000 = [(0x400310, 0xC8)] := by decide +kernel
  have hs : claim6.heldSets 0x600000 = [3] := by decide +kernel
  have hk : (claim6.group tY).elim false (fun g => (claim6.launch g.launch).elim false fun l =>
      decide (claim6.claimFrame g = some (l, 0x600000)) && decide (l.ownerAddr 3 = 0x500030) && (claim6.claimWaiters g.launch 3).all fun q =>
        decide (claim6.claimFrame q.2 = some (l, 0x700000)) && decide (claim6.nset 0x700000 + 1 ≤ 16)) = true := by decide +kernel
  obtain ⟨g, h1⟩ : ∃ g, claim6.group tY = some g := Option.isSome_iff_exists.mp (by decide +kernel)
  rw [h1, Option.elim_some] at hk
  cases h2 : claim6.launch g.launch with
  | none => rw [h2] at hk; exact nomatch hk
  | some l =>
  rw [h2, Option.elim_some] at hk
  simp only [Bool.and_eq_true, decide_eq_true_eq, List.all_eq_true] at hk
  obtain ⟨⟨h3, h4⟩, h5⟩ := hk
  refine ⟨g, l, h1, h2, h3, ⟨by decide, ?_, ?_, ?_, ?_, ?_⟩⟩
  · simp only [hl, List.mem_singleton, forall_eq]
    exact ⟨by decide, fun m k hm hk => by rw [hf m hm, hw k hk]; omega⟩
  · simp only [hs, List.mem_singleton, forall_eq, h4]
    exact ⟨by decide, fun m k hm hk => by rw [hf m hm, ho k hk]; omega⟩
  · rw [hs]; decide
  · simp only [hs, List.mem_singleton, forall_eq]
    exact fun h => absurd rfl h
  · simp only [hs, hl, List.mem_singleton, forall_eq, h4, List.length_singleton]
    exact fun q hq => ⟨0x700000, (h5 q hq).1, by decide, (h5 q hq).2, fun m k hm hk => by rw [he m hm, hf k hk]; omega,
      fun m k hm hk hn => by rw [he m hm, he k hk]; omega, fun m k hm hk => by rw [he m hm, ho k hk]; omega, fun m k hm hk => by rw [he m hm, hw k hk]; omega⟩
/-- CLMSTAT: sealing (R194). -/
theorem test_seal : let s := picked { claim3 with accesses := [] } tY
    goes (s.updGroup tY fun g => { g with k := [(9, 0x80000000)] }) (.swrite P 9 7) (fun t => t.scrNat 0x600003 1 = 1 ∧ t.scrNat 0x500038 8 = 0x460901) = true ∧
    goes s (.sread P 9 7) (fun t => (t.group tY).map (fun g => g.kget 9) = some 0x00010001) = true ∧ (s.launch 0).map (fun l => s.sealVoid (cc s).g l 0x600000) = some false := by decide +kernel
/-- A group that has exited while its task was open (R372): the slot returns, and STATUS says so. -/
theorem test_abandon : let s := tHolds recAlone fun g => { g with entries := [] }
    let u := { s with groups := s.groups ++ (s.groups.map fun q => (1, { q.2 with g := 1, entries := [(0, { pc := 8, mask := 1, mod := 0 })], work := .none, taskOpen := false })) }
    goes u (.taskAbandon 0 0) (fun t => (t.group 0).map (fun g => (g.taskOpen, g.work)) = some (false, .none) ∧ (AMap.get? t.taskQueues 7).map (fun q => (q.free, q.running)) = some (4, 0) ∧
      (t.launch 0).map (·.status) = some 2) = true ∧ (u.group 0).bind u.claimFrame = none := by decide +kernel
/-- The task of the example ends at its `tend`: nothing is outstanding, and no request waits for its set, which is free then. -/
theorem test_tend_claims : let s := picked { claim3 with accesses := [] } tY
    s.tendWaits tY = false ∧ s.copies = [] ∧ s.forwarded = [] ∧ s.heldSets 0x600000 = [3] ∧ s.claimWaiters 0 3 = [] ∧ (s.group tY).map (fun g => (s.claimFrame g).map Prod.snd) = some (some 0x600000) ∧
    goes s .tend (fun t => t.scrNat 0x500030 16 = 0 ∧ t.scrNat 0x400310 4 = 0x64 ∧ (AMap.get? t.taskQueues 7).map (fun q => q.free) = some 4) = true := by decide +kernel
/-- A task of a launch with claims is handed out: its claim area may be used and its header becomes 0, or it may not and an illegal use is
due. -/
theorem test_fetchw_claims : let s := fun (frame : Nat) => let u := tWaits (tTask.updLaunch 0 fun l => { l with desc := l.desc + BitVec.ofNat 2048 (0x1000 * 2 ^ 448) })
      { u with taskQueues := [(7, { launch := 0, ctx := 0, cap := 4, free := 2, base := 0, recs := [BitVec.ofNat 256 (5 + frame * 2 ^ 160 + 2 ^ 240)] })], mem := SMap.set u.mem (u.scrCell 0x40) 9 }
    ((s 0x40).launch 0).map (fun l => l.hasClaims) = some true ∧ (s 0x40).claimAreaOk 0 0x40 = true ∧ (s 0x44).claimAreaOk 0 0x44 = false ∧
    goes (s 0x40) (.fetchwAnswer 0 0) (fun t => t.scrNat 0x40 4 = 0 ∧ (t.group 0).map (fun g => (g.claimBad, g.entries.map fun q => q.2.trap.length)) = some (false, [0])) = true ∧
    goes (s 0x44) (.fetchwAnswer 0 0) (fun t => t.mem = (s 0x44).mem ∧ (t.group 0).map (fun g => (g.claimBad, g.entries.map fun q => q.2.trap.map fun r => (r.cause, r.addr, r.late))) =
      some (true, [[(2, 0x44, true)]])) = true := by decide +kernel
/-- Where the order is open the turntable may pick another tile (R39). -/
theorem test_fetchw_pick : let s := tWaits (tS.updLaunch 0 fun l => { l with desc := l.desc + BitVec.ofNat 2048 (64 * 2 ^ 192) })
    (s.launch 0).map (fun l => (l.nextTile, l.isDet, l.openTiles, l.handed.contains 2, l.handsOut 2)) = some (some 1, false, 3, false, true) ∧
    goes s (.fetchwAnswer 0 2) (fun t => (t.group 0).map (·.work) = some (.tile 2) ∧ (t.launch 0).map (·.handed) = some [0, 2]) = true := by decide +kernel
/-- Instants below HISTLEN leave q - 1 at QHIST, here 0x200; a page that is read-only admits nothing (R177, R386). -/
theorem test_update_history : let s := fun (e : Dword) => { tCov (2 ^ 128 + 0x200 * 2 ^ 320 + 4 * 2 ^ 352) (32 * 2 ^ 192) with pat := [(0, e)] }
    ((s 0x84000000).launch 0).map (fun l => (l.histLen, l.qHist, l.instant)) = some (4, 0x200, 1) ∧ (s 0x84000000).pageFault 0 0x201 1 true = none ∧
    ((s 0xC4000000).pageFault 0 0x201 1 true).isSome = true ∧
    goes (s 0x84000000) (.updateInstant 0) (fun t => t.scrNat 0x201 1 = 127 ∧ (t.launch 0).map (·.instant) = some 2) = true ∧
    goes (s 0xC4000000) (.updateInstant 0) (fun t => t.mem = (s 0xC4000000).mem ∧ (t.launch 0).map (fun l => (l.instant, l.status)) = some (2, 4)) = true := by decide +kernel

/-! ### Traps -/

/-- The selected instruction is followed by `exit`; the launch has a handler; f is its group. -/
def tNext (f : Group → Group := id) : State :=
  (({ State.reset.withFetchWord 64 (0x20 * 2 ^ 64) with sel := some { grp := 0, entry := 0, pc := 8, npc := 16 } } : State).updGroup 0 f).updLaunch 0 fun l =>
    { l with desc := l.desc - BitVec.ofNat 2048 (0xFFFFFEFF * 2 ^ 128) }
/-- A page that is not valid, one of another context, and a read-only one (Table 20.2). -/
theorem test_page_faults : let s := fun (e : Dword) => { tNext fun g => { g with v := [(2, 0x40)], m := [(3, 1)] } with pat := if e = 0 then [] else [(0, e)] }
    let ends := fun (e : Dword) (i : Instr) (sub : Byte) => stands (s e) i && goes (s e) i fun t => (t.group 0).map (fun g => (g.trap.tcause.extractLsb' 0 8, g.trap.tcause.extractLsb' 8 8, g.trap.taddr)) = some (3, sub, 0x40)
    ends 0 (.sld P0 .b32 .x1 8 2 (.k 0)) 1 = true ∧ ends 0x80200000 (.sst P0 .b32 .x1 2 (.k 0) 3) 2 = true ∧ ends 0xC4000000 (.atom P0 .add .n32 .none .grp 8 2 (.k 0) 3) 3 = true ∧
    goes (s 0xC4000000) (.sld P0 .b32 .x1 8 2 (.k 0)) (fun t => t.accesses.length = 1) = true ∧ (cc (s 0xC4000000)).takesPart P0 true 0 = true := by decide +kernel
theorem witness_TrapsAndReturns : (tNext.l0Block 0 (cc tNext).g (cc tNext).goneOn).map (fun b => decodeAt b 16) = some (.instr (.exit P) 8) ∧ (cc tNext).e.trap = [] ∧ (cc tNext).e.st = .run ∧ (cc tNext).act P ≠ 0 ∧ (cc tNext).g.otherHandler 0 = false ∧
    [Instr.trap P (.i 0x2A), .trap P (.k 3), .bkpt P, .eret P].all (stands tNext) = true ∧ (tNext.reg 0x34000).getLsbD 31 = false := by decide +kernel
/-- R345, Table 19.3: CAUSE 5 with CODE 0x2A; TPC names the trap, TRESUME the instruction after it. -/
theorem test_trap : goes tNext (.trap P (.i 0x2A)) (fun t => (ee t 0).map (fun e => (e.pc, e.inHandler, e.target)) = some (0x100, true, true) ∧
      (t.group 0).map (fun g => (g.trap.tcause.extractLsb' 0 8, g.trap.tcause.extractLsb' 16 16, g.trap.tpc, g.trap.tresume, g.trap.tmask)) =
        some (5, 0x2A, 8, 16, 0xFFFFFFFFFFFFFFFF) ∧ kk t 63 = ((t.group 0).elim 0 fun g => g.trap.tcause)) = true := by decide +kernel
theorem test_trap_waits : let s := tNext fun g => { g with entries := g.entries.map (fun q => (q.1, { q.2 with mask := 1 })) ++ [(1, { pc := 8, mask := 2, mod := 0, inHandler := true })] }
    (cc s).g.otherHandler 0 = true ∧ goes s (.trap P (.i 1)) (fun t => (ee t 0).map (fun e => (e.pc, e.inHandler, e.trap.map (·.cause))) = some (16, false, [5])) = true := by decide +kernel
theorem test_bkpt : goes tNext (.bkpt P) (fun t => (t.group 0).map (fun g => g.trap.tcause.extractLsb' 0 8) = some 6) = true ∧
    (let s := tNext.setReg 0x34000 0x80000000
     goes s (.bkpt P) (fun t => t.reg 0x34004 = 9 ∧ (t.group 0).map (·.bkpt) = some true) = true) := by decide +kernel
/-- `eret` goes back to TRESUME with the clause state that TINFO saved; outside a handler it is an illegal use. -/
theorem test_eret : let s := tHandler { tresume := 0x40, tmask := 0xFFFFFFFF00000001, tinfo := 0x0000000023000000 }
    goes s (.eret P) (fun t => (ee t 0).map (fun e => (e.pc, e.inHandler, e.resumed, e.clause.seta, e.clause.setb)) = some (0x40, false, true, some 1, some 0)) = true ∧
    (cc s).g.unexited = 0xFFFFFFFF ∧ goes tNext (.eret P) (fun t => (t.group 0).map (fun g => g.trap.tcause.extractLsb' 0 8) = some 2) = true ∧
    goes (tHandler) (.eret P) (fun t => t.blocks = []) = true := by decide +kernel
theorem test_no_handler : goes (tNext.updLaunch 0 fun l => { l with desc := l.desc + BitVec.ofNat 2048 (0xFFFFFEFF * 2 ^ 128) }) (.trap P (.i 1)) (fun t => t.blocks = [] ∧ (t.launch 0).map (·.status) = some 1) = true ∧
    goes (tS) (.sread P 7 12) (fun t => t.blocks = []) = true := by decide +kernel
/-- TRAP_ENTRY, for a record that waits: early, and after retirement. -/
theorem test_trap_entry : let s := fun (late : Bool) => tNext fun g => g.updEntry 0 fun e => { e with pc := 16, trap := [{ cause := 5, pc := 8, thr := 1, late := late }] }
    goes (s true) (.trapEntry 0 0 0) (fun t => (ee t 0).map (fun e => (e.inHandler, e.trap)) = some (true, [])) = true ∧
    goes (s false) (.trapEntry 0 0 0) (fun t => (t.group 0).map (fun g => g.trap.tresume) = some 16) = true ∧
    (s true).coreRuns 0 = true ∧ (s true).ctxRuns 0 = true ∧ (s true).launchRuns 0 = true ∧
    ((s true).group 0).map (fun g => (g.otherHandler 0, ((g.entry 0).map fun e => (s true).waitOver 0 g e))) = some (false, some true) := by decide +kernel

/-! ### Fetch -/

/-- The unit is stalled: no cache holds its block, and the slot is free. -/
def tStall (pc : Dword := 8) (f : State → State := id) : State :=
  f { tNext fun g => g.updEntry 0 fun e => { e with pc := pc } with l0 := [], sel := none }
theorem test_fill : tStall.fetchStalled 0 0 = true ∧ tStall.poisoned 0 32 = false ∧ (tStall.fetchWhere 0 0 8 = .cell { va := 0, size := 2 ^ 16, phys := 0, hp := false, r := true, w := true, x := true, isReg := false } 0) ∧
    goes tStall (.instructionFetchFill 0 0 ⟨0, 0⟩) (fun t => (AMap.get? t.l0 0).map (·.extractLsb' 128 64) = some 0x20) = true ∧
    (let s := { tStall with l1 := [(0, 5)], l2 := [(0, 6)] }
     goes s (.instructionFetchFill 0 0 ⟨0, 0⟩) (fun t => AMap.get? t.l0 0 = some 5) = true ∧ goes { s with l1 := [] } (.instructionFetchFill 0 0 ⟨0, 0⟩) (fun t => AMap.get? t.l0 0 = some 6) = true) := by
  decide +kernel
/-- Fetch outside the segment, from poison, and where the translation is absent: the frame of R351 is not enabled here, so that the report
is dropped. -/
theorem test_fill_faults : (tStall 0x10000).fetchStalled 0 0 = true ∧ (tStall 0x10000).fetchWhere 0 0 0x10000 = .fault 1 ∧
    goes (tStall 0x10000) (.instructionFetchFill 0 0 ⟨0, 0⟩) (fun t => (t.group 0).map (fun g => g.trap.tcause.extractLsb' 0 16) = some 0x0104) = true ∧
    goes { tStall with poison := [0] } (.instructionFetchFill 0 0 ⟨0, 0⟩) (fun t => t.blocks = [] ∧ (t.launch 0).map (·.status) = some 1) = true := by decide +kernel
theorem test_fill_absent : let s := tStall 8 fun s => { s with tlb := [], mem := [] }
    s.fetchWhere 0 0 8 = .absent ∧ goes s (.instructionFetchFill 0 0 ⟨0, 0⟩) (fun t => t.reg 0x33400 = 0xA0000000 ∧ t.svc = [(0, (true, 0, 0, 0))] ∧ t.reg 0x33014 = 1) = true := by decide +kernel
/-- Two groups of one port: the one after the last that issued is taken; a group promoted to class 0 goes first. -/
def tTwo (a b : Group → Group) : State :=
  let s := { tNext with sel := none }
  match s.group 0 with
  | none => s
  | some g => { s with groups := [(0, a g), (1, b { g with g := 1 })] }
theorem test_select : let s := { tTwo id id with lastGroup := [(0, 0)] }
    s.unitReady 0 0 = true ∧ s.unitReady 1 0 = true ∧ goes s (.issueSelect 0 0) (fun t => t.sel = some { grp := 1, entry := 0, pc := 8, npc := 8 }) = true ∧
    (let u := { (tTwo (fun g => { g with promoted := true }) id).updLaunch 0 fun l => { l with desc := l.desc + BitVec.ofNat 2048 (2 ^ 9) } with lastGroup := [(0, 0)] }
     goes u (.issueSelect 0 0) (fun t => t.sel.map (·.grp) = some 0) = true) ∧
    goes (tTwo (fun g => { g with entries := [] }) fun g => { g with entries := [] }) (.issueSelect 0 0) (fun t => t.sel = none) = true := by decide +kernel
theorem test_promotion : let s := { tTwo id id with clk := 4096 }
    goes s (.priorityPromotion 0 0) (fun t => (t.group 0).map (·.promoted) = some true) = true ∧ goes { s with clk := 4095 } (.priorityPromotion 0 0) (fun t => (t.group 0).map (·.promoted) = some false) = true := by decide +kernel
/-- R194 step 2: the holder is wounded, so that the seal is void; its set is marked already, and stays so. -/
theorem test_seal_void : let s := (picked { claim3 with accesses := [] } tY).updGroup tY fun g => { g with wounded := true, k := [(9, 0x80000000)] }
    (s.launch 0).map (fun l => s.sealVoid (cc s).g l 0x600000) = some true ∧ s.heldSets 0x600000 = [3] ∧ s.poisoned (s.scrCell 0x500030) 16 = false ∧
    goes s (.swrite P 9 7) (fun t => t.scrNat 0x500038 8 = 0x460901 ∧ t.scrNat 0x600003 1 = 0 ∧ (t.group tY).map (·.wounded) = some true) = true := by decide +kernel
/-- A unit whose fence acquires is selected, and its core then knows every write made. -/
theorem test_select_fence : let s := { tNext (fun g => g.updEntry 0 fun e => { e with st := .atFence [] false false (some .dev) false }) with sel := none, past := [{ cell := cellShared 0 0, len := 1, old := [0], core := 3, grp := 1536 }] }
    s.unitReady 0 0 = true ∧ goes s (.issueSelect 0 0) (fun t => (t.group 0).map (fun g => g.entries.map fun q => q.2.st) = some [.run] ∧ (AMap.get? t.known 0).map (fun k => (k.dev, k.clu)) = some (1, 1)) = true := by
  decide +kernel

/-! ### The step: witnesses of StepRunsDecoded and StepAtHeaders -/

/-- A step answers a next state for which f holds. -/
def steps (s : State) (f : State → Bool) : Bool :=
  match step s with
  | .next t => f t
  | _ => false
theorem test_step : let s := State.reset.withFetchWord 64 0x0880000000080078
    steps s (fun t => t.clk = 1 ∧ t.sel = none ∧ (t.group 0).map (fun g => (g.vget 3 8, g.entries.map fun q => q.2.pc)) = some (3, [16])) = true ∧ s.cur.isSome = true := by
  decide +kernel
/-- The header at address 0: its flags and its wait mask are taken, and the unit stands behind it. -/
theorem test_step_header : steps { State.reset.withFetchWord 64 0 with sel := some { grp := 0, entry := 0, pc := 0, npc := 0 } }
    (fun t => t.sel = none ∧ t.corePmc = [] ∧ (ee t 0).map (·.pc) = some 8) = true := by decide +kernel
/-- Control transferred to an instruction that is no clause header: condition 9 of R226. -/
theorem test_step_target : steps (tNext fun g => g.updEntry 0 fun e => { e with target := true })
    (fun t => (t.group 0).map (fun g => (g.trap.tcause.extractLsb' 0 16, g.trap.taddr)) = some (0x0901, 8)) = true := by decide +kernel
/-- From reset with nothing to happen a step passes a clock. -/
theorem test_step_idle : steps State.reset (fun t => t.clk = 1) = true := by decide +kernel
/-- A unit at address pc of the block whose first instruction has the bits of w. -/
def tWord (w : Nat) (target : Bool := false) (pc : Dword := 8) : State :=
  ({ State.reset.withFetchWord 128 w with sel := some { grp := 0, entry := 0, pc := pc, npc := pc } } : State).updGroup 0 fun g =>
    g.updEntry 0 fun e => { e with target := target, pc := pc }
/-- What stands at the address of the selected unit. -/
def slotAt (s : State) : Option Slot := (s.l0Block (cc s).u.grp (cc s).g (cc s).e).map fun b => decodeAt b ((cc s).u.pc.toNat % 32)
/-- Witness of StepAtHeaders: a header, no instruction, a reserved bit, the tail and an instruction to which control was transferred, and
headers whose flags are and are not 8 and 9. -/
theorem witness_StepAtHeaders : slotAt (tWord 0 false 0) = some (.header { wait := 0, seta := none, setb := none }) ∧ slotAt (tWord 0x2C) = some (.bad 1) ∧
    slotAt (tWord 0x1000018) = some (.resv .ret 8) ∧ (cc (tWord 0x1000018)).encodingOk (tWord 0x1000018) .ret = true ∧
    slotAt (tWord 0 true 28) = some .tail ∧ slotAt (tWord 0x18 true) = some (.instr .ret 8) ∧ (cc (tWord 0x18 true)).e.target = true ∧
    decodeAt (BitVec.ofNat 256 (3 + 2 ^ 18 + 7 * 2 ^ 14)) 0 = .bad 8 ∧
    decodeAt (BitVec.ofNat 256 (3 + 2 ^ 18 + 8 * 2 ^ 14 + 5 * 4)) 0 = .header { wait := 5, seta := some 8, setb := none } := by decide +kernel
/-- An instruction in order that names v8, in a group of 8 registers: condition 6. -/
def tSmall : State := (tWord 0x0880000000080078).updGroup 0 fun g => { g with nregs := 8 }
theorem test_step_registers : (match slotAt tSmall with
      | some (.instr i _) => !(cc tSmall).encodingOk tSmall i
      | _ => false) = true ∧ steps tSmall (fun t => t.blocks = []) = true ∧
    steps { tSmall with launches := tTraps.launches } (fun t => (t.group 0).map (fun g => g.trap.tcause.extractLsb' 0 16) = some 0x0601) = true := by decide +kernel
theorem test_step_traps : steps (tWord 0x1000018) (fun t => t.blocks = []) = true ∧ steps (tWord 0 true 28) (fun t => t.blocks = []) = true ∧
    steps (tNext fun g => g.updEntry 0 fun e => { e with target := true }) (fun t => t.blocks ≠ []) = true := by decide +kernel

/-! ## Faults, heat, the module: witnesses of FaultService to RegisterWrites -/

/-- exec of an event answers a next state for which f holds. -/
abbrev ev (s : State) (i : Instr) (f : State → Bool) : Bool := goes s i f

theorem test_terminate : ev tS (.blockTerminate 1 .peerLink) (fun t => t.blocks = [] ∧ t.groups = [] ∧ (t.launch 0).map (·.status) = some 1) = true ∧
    ev tS (.blockTerminate 9 .peerLink) (fun t => t = tS) = true := by decide +kernel
/-- A copy stands at a page that is not present; Retry lets it walk again, Fail makes of it the trap of its first thread. -/
def tSvc : State :=
  { tK 0x100 0x200 16 with svc := [(0, (false, 0, 7, 0x240))], bar0 := [(0x33400, 0x80000000)]
                           copies := [(7, { num := 7, kind := .cpin true, grp := 0, ctx := 0, block := 1, core := 0, unit := 0xFFFFFFFE, act := 2, pc := 8, dst := 0, src := 0, word := 0
                                            ord := .none, scope := .grp, token := 3, stage := .held })] }.updGroup 0 fun g => { g with cnts := [(3, 1)], flags := 0 }
theorem test_svc : ev tSvc (.svcRetry 0) (fun t => t.reg 0x33400 = 0 ∧ t.svc = [] ∧ (AMap.get? t.copies 7).map (·.stage) = some .preflight) = true ∧
    ev tSvc (.svcFail 0) (fun t => t.copies = [] ∧ (ee t 0).map (fun e => e.trap.map fun r => (r.cause, r.sub, r.addr, r.thr)) = some [(3, 5, 0x240, 2)] ∧
      (t.group 0).map (fun g => (g.flags, g.cnt 3)) = some (8, 0)) = true ∧ (tSvc.group 0).map (·.unexited) = some 0xFFFFFFFF := by decide +kernel
theorem test_svc_fetch : let s := { tNext with svc := [(0, (true, 0, 0, 0))] }
    ev s (.svcFail 0) (fun t => (t.group 0).map (fun g => g.trap.tcause.extractLsb' 0 16) = some 0x0304) = true := by decide +kernel
theorem test_corrected : ev State.reset (.correctedError true) (fun t => t.reg 0x33C0C = 1 ∧ t.reg 0x33C08 = 0) = true ∧
    ev (State.reset.setReg 0x33C08 0xFFFFFFFF) (.correctedError false) (fun t => t.reg 0x33C08 = 0xFFFFFFFF) = true := by decide +kernel
/-- The second HBM4 stack; the first error is recorded, the next is not. -/
theorem test_uncorrectable : let s := after State.reset (.uncorrectableError (.mainMem 0xC00000050))
    s.poison = [0xC00000040] ∧ s.reg 0x33C18 = 0x80000001 ∧ s.reg 0x33C10 = 0x50 ∧ s.reg 0x33C14 = 0xC ∧ s.reg 0x33C00 = 16 ∧ mainBacked 0xC00000050 = true ∧
    ev s (.uncorrectableError (.hostMem true 0)) (fun t => t.reg 0x33C18 = 0x80000001 ∧ t.poison.length = 2) = true ∧
    ev State.reset (.uncorrectableError (.hostMem true 8)) (fun t => t.reg 0x33C18 = 0xC0000001) = true := by decide +kernel
theorem test_uncorrectable_more : let s := { tCopy with pat := [(0, 0x84000300)] }
    patValid (s.attr 0x17) = true ∧ ev s (.uncorrectableError (.scratch 0x17)) (fun t => t.poison = [s.scrCell 0x10] ∧ t.reg 0x33C18 = 0xA0000003 ∧ t.reg 0x33C00 = 2) = true ∧
    ev tS (.uncorrectableError (.blockState 1)) (fun t => t.blocks = [] ∧ t.reg 0x33C18 = 0xB0000000) = true ∧
    ev { tS with l1 := [(0, 5), (32, 6)] } (.uncorrectableError (.icache .l1 0 32)) (fun t => t.reg 0x33C08 = 1 ∧ t.l1 = [(0, 5)]) = true ∧ ev tCopy (.uncorrectableError (.cluster 3)) (fun t => t.ready 3 = false ∧ t.deadBits = [3]) = true ∧
    ev tS (.uncorrectableError (.firmware 0)) (fun t => t.reg 0x33C00 = 4 ∧ (t.launch 0).map (·.status) = some 33) = true ∧
    ev (tS.updLaunch 0 fun l => { l with stage := .accepted }) (.uncorrectableError (.deviceState [0])) (fun t => (t.launch 0).map (·.code) = some 12) = true := by decide +kernel

/-- A put on its port; which port leads to a peer is open. -/
def tPut : State := { tCopy with copies := [(7, { num := 7, kind := .peerPut, grp := 0, ctx := 0, block := 1, core := 0, unit := 1, act := 1, pc := 8, dst := 0, src := 0, word := 0x01000000
                                                  ord := .none, scope := .grp, token := 3, stage := .begun })] }
theorem witness_PeersAndHeat : let port := BitVec.ofNat 4 (Config.peerPort 1 % 12)
    (AMap.get? tPut.copies 7).map (fun x => x.onPort port.toNat) = some true ∧ port.toNat < 12 := by
  have h : (BitVec.ofNat 4 (Config.peerPort 1 % 12)).toNat = Config.peerPort 1 % 12 := by simp; omega
  exact ⟨by simp only [h]; exact congrArg some (by simp [Copy.onPort, wfield]), by simp only [h]; omega⟩
theorem test_link : ev tCopy (.peerLinkDown 2 []) (fun t => t.ready 54 = false ∧ t.ready 53 = true ∧ t.reg 0x33C00 = 8) = true ∧ tCopy.ready 54 = true ∧
    ev State.reset (.peerRetrain 11 true) (fun t => t.ready 63 = true ∧ t.reg 0x14 = 0x80000000) = true := by decide +kernel
theorem test_heat : ev State.reset .thermalTrip (fun t => t.reg 0x20 = 0x8005 ∧ t.psChange = some (5, true) ∧ t.reg 0x33C00 = 1) = true ∧
    (let s := { State.reset with psChange := some (2, false) }
     ev s .thermalTrip (fun t => t.psTrip = true ∧ t.psChange = some (2, false) ∧ t.reg 0x20 = 0x8000) = true) ∧
    ev (State.reset.setReg 0x20 0x505) .thermalTrip (fun t => t.reg 0x20 = 0x505 ∧ t.hot = true) = true := by decide +kernel
theorem test_cooldown : ev { State.reset with psHeld := some 3, hot := true } .thermalCooldown (fun t => t.psChange = some (3, false) ∧ t.reg 0x20 = 0x8003 ∧ t.hot = false) = true ∧
    ev { State.reset with hot := true } .thermalCooldown (fun t => t = State.reset) = true := by decide +kernel
theorem test_halt : ev (tS.setReg 0x20 0x505) .thermalHalt (fun t => t.halted = true ∧ t.blocks = [] ∧ (t.launch 0).map (·.status) = some 0x11) = true ∧
    ev tS .thermalHalt (fun t => t = tS) = true := by decide +kernel
/-- A block of which an access is in the engines waits with its end (R349). -/
theorem test_terminate_waits : tLoad.engineBusy 1 = true ∧ (tLoad.accesses.map fun q => (q.1, q.2.need)) = [(2, [])] ∧
    ev tLoad (.blockTerminate 1 .peerLink) (fun t => t.blocks.map (fun q => q.2.dying.isSome) = [true] ∧ t.unitReady 0 0 = false) = true := by decide +kernel

/-! ### Reset and the module -/

theorem test_ready : ev State.reset (.functionReady 70) (fun t => t.reg 0x18 = 0x40) = true ∧ ev State.reset (.functionReady 0) (fun t => t.ready 0 = true) = true ∧
    ev State.reset (.functionReady 71) (fun t => t = State.reset) = true ∧ ev { State.reset with deadBits := [5] } (.functionReady 5) (fun t => t.ready 5 = false) = true := by decide +kernel
/-- Bank 1 is marked for microcode and bank 0 of firmware no longer passes: FWSTAT, the manifest; FUSECNT stays. -/
def tBoot : State :=
  { (tS.setReg 0x33E14 3).setReg 0x24 5 with
    firmware := { bank0 := { secver := 2, version := 10 }, bank1 := { secver := 3, version := 11 } }
    microcode := { marked := some true, bank0 := { secver := 3, version := 20 }, bank1 := { secver := 9, version := 21 } }
    translator := { bank0 := { secver := 3, version := 30 } } }
theorem test_power_on : ev tBoot .powerOn (fun t => t.groups = [] ∧ t.blocks = [] ∧ t.launches = [] ∧ t.reg 0x33E14 = 3 ∧ t.reg 0x24 = 0 ∧ t.reg 0x33E18 = 0x8000000B ∧
    t.reg 0x32004 = 21 ∧ t.reg 0x32008 = 30 ∧ t.reg 0x3200C = 11 ∧ t.clk = 0) = true := by decide +kernel
theorem test_device_reset : ev (tS.setReg 0xC 3) (.deviceReset .mgmt 1) (fun t => t.groups = [] ∧ t.reg 0xC = 0) = true ∧
    ev (tS.setReg 0xC 3) (.deviceReset .mgmt 2) (fun t => t = tS.setReg 0xC 3) = true ∧
    ev tS (.deviceReset .port1 1) (fun t => t.reg 0x33E10 = 0x80000082 ∧ t.groups ≠ []) = true ∧
    ev (tS.setReg 0x33E10 0x80000041) (.deviceReset .port1 1) (fun t => t.reg 0x33E10 = 0x80000041) = true := by decide +kernel
theorem test_boot_timeout : ev tBoot .bootReadyTimeout (fun t => t.reg 0x33E18 = 0x80000000 + 8 * 7 + 5) = true ∧ tBoot.ready 64 = false ∧
    ev (tBoot.setReg 0x33E18 0x80000000) .bootReadyTimeout (fun t => t.groups ≠ []) = true := by decide +kernel
theorem test_ports : let s := (State.reset.setReg 0 0x0701).setReg 8 0xFF02
    ev s (.hostPortReset false) (fun t => t.reg 0 = 0x0800 ∧ t.reg 8 = 0xFF02) = true ∧ ev s (.hostPortLinkDown true) (fun t => t.reg 0 = 0x0701 ∧ t.reg 8 = 0) = true ∧
    ev (tUp (State.reset.setReg 4 3)) .mgmtBindingDown (fun t => t.ready 68 = false ∧ t.ready 67 = true ∧ t.reg 4 = 0x100) = true := by decide +kernel
theorem test_semaphores : ev State.reset (.semaphoreAcquire .fuse [.mgmt, .port0]) (fun t => t.reg 8 = 0x101 ∧ t.semWin.fuse = some .port0) = true ∧
    ev { State.reset with semWin := { fuse := some .port0 } } (.semaphoreAcquire .fuse [.mgmt, .port0]) (fun t => t.reg 8 = 0x103 ∧ t.semWin.fuse = some .mgmt) = true ∧
    ev (State.reset.setReg 8 0x103) (.semaphoreRelease .fuse .port0) (fun t => t.reg 8 = 0x103) = true ∧
    ev (State.reset.setReg 8 0xFF03) (.semaphoreRelease .fuse .mgmt) (fun t => t.reg 8 = 0) = true ∧ ev (State.reset.setReg 8 0x103) (.semaphoreAcquire .fuse [.port1]) (fun t => t.reg 8 = 0x103) = true := by
  decide +kernel
theorem test_pstate : let s := State.reset.setReg 0 2
    ev s (.pstateWrite { agent := .port1 } 3) (fun t => t.reg 0x20 = 0x8003 ∧ t.psChange = some (3, false)) = true ∧ ev s (.pstateWrite { agent := .port1 } 6) (fun t => t = s) = true ∧
    ev s (.pstateWrite { agent := .port0 } 3) (fun t => t.reg 0x33E10 = 0x80000011 ∧ t.reg 0x20 = 0) = true ∧
    ev s (.pstateWrite { agent := .port1, hot := true } 3) (fun t => t.psHeld = some 3 ∧ t.psChange = none) = true := by decide +kernel
theorem test_pstate_done : let s := { State.reset.setReg 0x20 0x8005 with psChange := some (5, true) }
    ev s .powerStateChangeDone (fun t => t.reg 0x20 = 0x4505 ∧ t.psChange = none) = true ∧
    ev { s with psHeld := some 1 } .powerStateChangeDone (fun t => t.psChange = some (1, false) ∧ t.reg 0x20 = 0xC501 ∧ t.psHeld = none) = true := by decide +kernel
theorem test_fuse : ev ((State.reset.setReg 8 3).setReg 0x33E14 64) (.fuseAdvance .mgmt 1) (fun t => t.reg 0x33E14 = 64) = true ∧
    ev { State.reset.setReg 8 3 with transCache := [⟨0, 0, 0, 0, 0, 0, 0⟩, ⟨0, 0, 1, 0, 0, 0, 0⟩] } (.fuseAdvance .mgmt 0xFFFFFFFF) (fun t => t.reg 0x33E14 = 1 ∧ t.transCache.map (·.secver) = [1]) = true ∧
    ev State.reset (.fuseAdvance .port0 1) (fun t => t.reg 0x33E10 = 0x80000041) = true := by decide +kernel
theorem test_mgmt : let s := State.reset.setReg 0x24 9
    ev s (.mgmtRegisterRead ⟨1, 0, 0x24, 0, false⟩) (fun t => t.mgmtAnswer = 0x900000000) = true ∧ ev s (.mgmtRegisterRead ⟨1, 0, 0x100, 0, false⟩) (fun t => t.mgmtAnswer = 1) = true ∧
    ev s (.mgmtRegisterRead ⟨1, 0, 0x26, 0, false⟩) (fun t => t.mgmtAnswer = 2) = true ∧ ev s (.mgmtRegisterRead ⟨3, 0, 0x24, 0, false⟩) (fun t => t.mgmtAnswer = 2) = true ∧
    ev s (.mgmtRegisterWrite ⟨2, 0, 0x24, 0xFF, false⟩) (fun t => t.reg 0x24 = 0x3F ∧ t.mgmtAnswer = 0) = true ∧ ev s (.mgmtRegisterWrite ⟨2, 0, 0x0, 1, false⟩) (fun t => t.reg 0 = 0x103) = true ∧
    ev s (.mgmtRegisterWrite ⟨2, 0, 0xFC, 1, false⟩) (fun t => t = s) = true ∧ ev s (.mgmtRegisterWrite ⟨2, 0, 0x100, 1, false⟩) (fun t => t.mgmtAnswer = 1) = true := by decide +kernel

/-! ### Registers -/

theorem test_clears : ev (State.reset.setReg 0x33C00 0x1F) (.deverrClear 0x15) (fun t => t.reg 0x33C00 = 0xA) = true ∧
    ev (State.reset.setReg 0x33C18 0x80000001) (.uesrcClear 0x80000000) (fun t => t.reg 0x33C18 = 1) = true ∧ ev (State.reset.setReg 0x33E0C 0x80000001) (.stoperrClear 1) (fun t => t.reg 0x33E0C = 0x80000001) = true ∧
    ev (State.reset.setReg 0x33E10 0x80000001) (.semerrClear 0x80000000) (fun t => t.reg 0x33E10 = 1) = true := by decide +kernel
/-- R101: a home and frame that another valid entry names, CLAIM with SC, and frame 240 leave the entry as it is. -/
theorem test_pat : let s := { State.reset with pat := [(3, 0x80000105)] }
    ev s (.pageAttributeWrite 4 .whole 0xFFFFFFFF80000206) (fun t => SMap.get t.pat 4 = 0x80000206) = true ∧ ev s (.pageAttributeWrite 4 .whole 0x80000105) (fun t => t = s) = true ∧
    ev s (.pageAttributeWrite 3 .lo 0x84000105) (fun t => SMap.get t.pat 3 = 0x84000105) = true ∧ ev s (.pageAttributeWrite 4 .whole 0x30000001) (fun t => t = s) = true ∧
    ev s (.pageAttributeWrite 4 .whole 0xF0) (fun t => t = s) = true ∧ ev s (.pageAttributeWrite 4 .whole 0xEF) (fun t => SMap.get t.pat 4 = 0xEF) = true ∧
    ev s (.pageAttributeWrite 4 .hi 1) (fun t => t = s) = true := by decide +kernel
theorem test_invalidate : let s := (tS.setReg 0x20010 0xFFFF)
    ev s (.invalidatePage true 0) (fun t => t.tlb = [] ∧ t.reg 0x20018 = 0x80000000) = true ∧ ev (tS.setReg 0x20010 0x10000) (.invalidatePage true 0) (fun t => t.tlb.length = 1) = true ∧
    ev tS (.invalidateContext false 1) (fun t => t.tlb.length = 1 ∧ t.reg 0x20008 = 0x80000101) = true ∧
    (let u := after tPut (.invalidateAll ⟨false, 0⟩)
     u.tlb = [] ∧ u.invWait = [(0, [7])] ∧ ev u (.invalidateDone false) (fun t => t = u) = true ∧ ev { u with copies := [] } (.invalidateDone false) (fun t => t.reg 0x20008 = 512) = true ∧
     ev u (.invalidateAll ⟨false, 0⟩) (fun t => t = u) = true) := by decide +kernel
theorem test_queues : let s := tS
    ev s (.queueEnable 5 0xFFFFFFE4) (fun t => t.reg 0x300A8 = 0xDF000004) = false ∧ ev s (.queueEnable 5 0x80000004) (fun t => t.reg 0x300A8 = 0x80000004 ∧ t.reg 0x300B4 = 1) = true ∧
    ev s (.queueEnable 5 0x80000003) (fun t => t = s) = true ∧ ev s (.queueEnable 5 0x00000010) (fun t => t.reg 0x300A8 = 0x10 ∧ t.reg 0x300B4 = 0) = true ∧
    (let u := after s (.queueEnable 5 0x80000004)
     ev u (.queueNotify 5 16) (fun t => t.reg 0x300AC = 16 ∧ t.reg 0x300B4 = 1) = true ∧
     ev u (.queueNotify 5 17) (fun t => t.reg 0x300B4 = 2 ∧ t.reg 0x33E00 = 32 ∧ t.reg 0x33F14 = 0) = true ∧ ev (after u (.queueNotify 5 17)) (.queueNotify 5 1) (fun t => t.reg 0x300B4 = 1 ∧ t.reg 0x33E00 = 0) = true ∧
     ev u (.queueEnable 5 0x80000005) (fun t => t = u) = true) := by decide +kernel
theorem test_watch_log : ev State.reset (.watchLogEnable 0x80000008) (fun t => t.reg 0x32108 = 0x80000008) = true ∧ ev State.reset (.watchLogEnable 0x80000007) (fun t => t = State.reset) = true ∧
    ev (State.reset.setReg 0x3210C 5) (.watchLogEnable 20) (fun t => t.reg 0x32108 = 20 ∧ t.reg 0x3210C = 5) = true ∧
    ev (State.reset.setReg 0x32108 0x80000009) (.watchLogEnable 0x14) (fun t => t.reg 0x32108 = 9) = true ∧
    -- EN = 1 over EN = 1 changes nothing (log 66)
    (let s := ((State.reset.setReg 0x32108 0x80000009).setReg 0x3210C 5).setReg 0x32110 3
     ev s (.watchLogEnable 0x80000014) (fun t => t.reg 0x32108 = 0x80000009 ∧ t.reg 0x3210C = 5 ∧ t.reg 0x32110 = 3) = true) := by decide +kernel
theorem test_register_write : let w := fun (o v x : Word) => ev State.reset (.registerWrite o v) fun t => t.reg o.toNat = x
    w 0x24 0xFFFFFFFF 0x3F = true ∧ w 0x307E0 0xFFFFFFFF 0xFFFFF000 = true ∧ w 0x313EC 0xFFFFFFFF 0xFFFFF = true ∧ w 0x33008 0xFFFFFFE4 0xC000FF04 = true ∧ w 0x33008 0xFFFFFFE3 0 = true ∧
    ev (State.reset.setReg 0x20018 7) (.registerWrite 0x20018 0x300) (fun t => t.reg 0x20018 = 7) = true ∧ w 0x33E08 0xFFFFFFFF 0x8000FFFF = true ∧ w 0x32000 7 1 = true ∧ w 0x34008 0xFFFFFFFF 0xFFFFFFC0 = true ∧ w 0x32100 0xFFFFFFFF 0xFFFFFFE0 = true ∧ w 0x32102 5 0 = true ∧
    ev (State.reset.setReg 0x31014 1) (.registerWrite 0x31000 0x1000) (fun t => t.reg 0x31000 = 0) = true := by decide +kernel
/-- A change waits for what has been issued; a trip made meanwhile follows it (R375). -/
theorem test_pstate_waits : let s := { State.reset.setReg 0x20 0x8002 with psChange := some (2, false) }
    (let u := { tLoad with sel := none, psChange := some (2, false) }
     (AMap.get? u.accesses 2).elim false (u.mayPerform 2) = true ∧ ev u .powerStateChangeDone (fun t => t = u) = true) ∧
    ev { s with psTrip := true } .powerStateChangeDone (fun t => t.psChange = some (5, true) ∧ t.psTrip = false ∧ t.reg 0x20 = 0x8205) = true := by decide +kernel
/-- CTXCFG of an idle context, whose held counts a VALID of 0 discards, and of another; DBGCTL attaches and halts. -/
theorem test_context_registers : let s := { State.reset with peerCounts := [{ ctx := 3, queue := 0, block := 0, bar := 0, bytes := 1 }, { ctx := 4, queue := 0, block := 0, bar := 0, bytes := 1 }] }
    ev s (.registerWrite 0x31070 0x7FFFFFFF) (fun t => t.reg 0x31070 = 0xFFFF ∧ t.peerCounts.map (·.ctx) = [4]) = true ∧
    ev s (.registerWrite 0x31070 0xFFFFFFFF) (fun t => t.reg 0x31070 = 0x8000FFFF ∧ t.peerCounts = s.peerCounts) = true ∧
    ev (s.setReg 0x31074 1) (.registerWrite 0x31070 0x80000005) (fun t => t.reg 0x31070 = 5) = true ∧
    ev s (.registerWrite 0x34060 0x80000001) (fun t => t.reg 0x34060 = 0x80000000 ∧ (t.reg 0x34064).extractLsb' 0 3 = 1) = true ∧
    ev s (.registerWrite 0x34060 0x80000000) (fun t => t.reg 0x34064 = 0) = true := by decide +kernel
/-- R112: what has not reached a page's home goes to its new one (log 51), and a copy that has translated keeps an invalidation busy. -/
theorem test_pat_moves : let s := after (tP 0 0x77 0 0) (.sst P0 .b32 .x1 2 (.k 0) 3)
    ev s (.pageAttributeWrite 0 .whole 0x84000305) (fun t => t.accesses.map (fun q => q.2.lanes.map (·.cell)) = [[cellScr 3 5 0]]) = true ∧
    (let u := after { tPut with copies := tPut.copies.map fun q => (q.1, { q.2 with stage := .claims }) } (.invalidateContext false 0)
     u.invWait = [(0, [7])] ∧ ev u (.invalidateDone false) (fun t => t = u) = true) := by decide +kernel

/-! ## Packets, launches, contexts, the update agent: witnesses of Packets to UpdateAgent -/

/-- Queue 0 is enabled with 16 slots, firmware core 0 serves it, and n of its packets have been written. -/
def tQ (n : Word) (f : State → State := id) : State :=
  f { tS with bar0 := [(0x18, 1), (0x30008, 0x80000004), (0x3000C, n), (0x30014, 1)] ++ tS.bar0 }
/-- A packet with the bytes of n. -/
def pk (n : Nat) (stage : PacketStage := .accepted) : Packet := { queue := 0, idx := 0, bytes := BitVec.ofNat 512 n, stage := stage }
/-- Queue 0 with these packets accepted, and bytes at a physical address. -/
def tPk (ps : List Packet) (a : Nat := 0x200) (bs : List Byte := []) : State := { tQ 0 with packets := ps, mem := Memory.write tS.mem a bs }
/-- Three write-then-signal operands: ADDR 0x200, VALUE 7, SIGADDR 0x300, SIGVAL 9. -/
def wr : Nat := 3 + 0x200 * 2 ^ 64 + 7 * 2 ^ 128 + 0x300 * 2 ^ 192 + 9 * 2 ^ 256

/-- SEQW of packet 0 in its first lap is 1 in its high word (R145). -/
theorem test_seqw : let s := tQ 1 fun s => { s with mem := SMap.set (SMap.set s.mem (s.slotCell 0 0) 0) (s.slotCell 0 0 + 60) 1 }
    s.currentSeqw 0 0 = 2 ^ 32 ∧ s.firmwareUp = true ∧ s.qSize 0 = 16 ∧ ev s (.seqwPoll 0) (fun t => t.reg 0x30010 = 1 ∧ t.packets.map (·.malformed) = [false]) = true ∧
    ev { s with mem := SMap.set s.mem (s.slotCell 0 0) 10 } (.seqwPoll 0) (fun t => t.packets.map (·.malformed) = [true] ∧ t.reg 0x30014 = 4 ∧ t.reg 0x33E00 = 1) = true := by decide +kernel
theorem test_seqw_stale : let s := tQ 1
    ev s (.seqwPoll 0) (fun t => t.polls = [(0, 1)] ∧ t.packets = []) = true ∧ ev { s with polls := [(0, 62)] } (.seqwRetryTimer 0) (fun t => t.polls = [(0, 63)]) = true ∧
    ev { s with polls := [(0, 63)] } (.seqwRetryTimer 0) (fun t => t.polls = [] ∧ t.reg 0x30014 = 2 ∧ t.reg 0x33E00 = 1) = true ∧ ev s (.seqwRetryTimer 0) (fun t => t = s) = true := by decide +kernel
/-- Table 7.4: a no-op goes before a write-then-signal, which waits a step; one that has waited 16 goes first. -/
theorem test_firmware_step : let s := { tPk [pk wr, { pk 0 with queue := 1 }] with bar0 := [(0x18, 1), (0x30008, 0x80000004), (0x30014, 1), (0x30028, 0x80000004), (0x30034, 1)] ++ tS.bar0 }
    s.laneHead 0 1 = some { pk 0 with queue := 1 } ∧ ev s (.firmwareStep 0) (fun t => t.packets.map (fun p => (p.queue, p.waited)) = [(0, 1)] ∧ t.laneLast = [(1, 1)]) = true ∧
    ev { s with packets := [{ pk wr with waited := 16 }, { pk 0 with queue := 1 }] } (.firmwareStep 0) (fun t => t.packets.map (fun p => (p.queue, p.waited)) = [(1, 1)]) = true ∧
    ev s (.firmwareStep 1) (fun t => t = s) = true := by decide +kernel
/-- Witness of the stages: each packet waits for its stage, and firmware core 0 serves its queue. -/
theorem witness_Packets : ([0, 3, 4, 5, 6 + 5 * 2 ^ 192, 7, 8, 9].all fun n => (tPk [pk n]).waiting 0 = some (pk n)) = true ∧ (tPk []).server 0 = some 0 ∧
    (tPk []).vaOk 0 0x200 8 true = true ∧ (tPk []).vaOk 0 0x20000 8 true = false ∧
    ([4, 5, 7, 9].all fun n => ((tPk [pk n .begun]).packets.filter fun x => x.queue = 0).find? (fun x => x.opc = n && x.stage = .begun) = some (pk n .begun)) = true ∧
    (tPk []).lanesRun 0 = true := by decide +kernel
theorem test_packet_ends : ev (tPk [pk 0]) (.noOp 0) (fun t => t.packets = []) = true ∧
    ev (tPk [pk wr]) (.writeThenSignal 0) (fun t => t.packets = [] ∧ Memory.readNat t.mem 0x200 8 = 7 ∧ Memory.readNat t.mem 0x300 8 = 9 ∧ Memory.readNat t.mem 0x308 8 = 0) = true ∧
    ev (tPk [pk (wr + 0x20000 * 2 ^ 64)]) (.writeThenSignal 0) (fun t => Memory.readNat t.mem 0x300 8 = 9 ∧ Memory.readNat t.mem 0x308 8 = 0x200) = true := by decide +kernel
/-- CMP 1: the word equals VALUE; the packet then waits for its finish stage. A word that cannot be read gives CODE 2. -/
theorem test_wait_signal : let w := 4 + 0x200 * 2 ^ 64 + 7 * 2 ^ 128 + 1 * 2 ^ 192
    let met := fun (w : Nat) (bs : List Byte) (x : Bool × Byte) => ev (tPk [pk w .begun] 0x200 bs) (.waitSignalPoll 0) (fun t => t.packets.map (fun p => (p.met, p.code)) = [x])
    ev (tPk [pk w]) (.waitSignal 0) (fun t => t.packets.map (·.stage) = [.begun]) = true ∧ met w [7] (true, 0) = true ∧ met w [8] (false, 0) = true ∧
    met (w + 2 ^ 193) [8] (false, 0) = true ∧ met (w + 2 ^ 193) [6] (true, 0) = true ∧ met (w + 0x20000 * 2 ^ 64) [] (true, 2) = true ∧
    ev (tPk [{ pk w .begun with met := true }]) (.firmwareStep 0) (fun t => t.packets = []) = true := by decide +kernel
theorem test_host_copy : let w := 5 + 0x200 * 2 ^ 64 + 0x400 * 2 ^ 128 + 3 * 2 ^ 192
    let piece := fun (s : State) (f : State → Bool) => ev s (.hostCopyPieceDone 0) f
    ev (tPk [pk w]) (.hostCopy 0) (fun t => t.packets.map (·.stage) = [.begun]) = true ∧
    piece (tUp (tPk [pk w .begun] 0x200 [1, 2, 3, 4])) (fun t => t.packets.map (·.met) = [true] ∧ Memory.readNat t.mem 0x400 4 = 0x030201) = true ∧
    piece (tPk [pk w .begun]) (fun t => t = tPk [pk w .begun]) = true ∧
    ev (tPk [pk w .begun]) (.preflightReadinessTimeout (.piece 0)) (fun t => t.packets.map (fun p => (p.met, p.code)) = [(true, 2)]) = true ∧
    piece (tPk [pk (w + 0x20000 * 2 ^ 64) .begun]) (fun t => t.packets.map (fun p => (p.met, p.code)) = [(true, 2)]) = true ∧
    piece { tUp (tPk [pk w .begun]) with poison := [0x200] } (fun t => t.packets.map (fun p => (p.met, p.code)) = [(true, 10)]) = true ∧
    -- poison in the second 64 of 80 bytes: the bytes are written, the unit's poison with them
    (let s := { tUp (tPk [pk (w + 77 * 2 ^ 192) .begun] 0x200 [1, 2, 3, 4]) with poison := [0x240] }
     firstBad [s.hostCheck 0 false ⟨false, 0x200⟩ 80, s.hostCheck 0 true ⟨false, 0x400⟩ 80] = .pass ∧
     piece s (fun t => t.packets.map (fun p => (p.met, p.code)) = [(true, 10)] ∧ Memory.readNat t.mem 0x400 4 = 0x04030201 ∧ t.poisoned 0x43F 1 = false ∧ t.poisoned 0x440 1 = true) = true) ∧
    ev (tPk [{ pk (w + 0x300 * 2 ^ 256 + 2 ^ 320) .begun with met := true, code := 10 }]) (.firmwareStep 0) (fun t => t.packets = [] ∧
      Memory.readNat t.mem 0x308 8 = 0xA00 ∧ Memory.readNat t.mem 0x300 8 = 1) = true := by decide +kernel
/-- Module loads: the begin stage, a segment out of alignment (CODE 5), a signature block that does not translate (2), one of an unknown
kind (6). -/
theorem test_module_load : let w := fun (seg : Nat) => 6 + seg * 2 ^ 64 + 32 * 2 ^ 128 + 5 * 2 ^ 192 + 0x300 * 2 ^ 256 + 0x200 * 2 ^ 384
    ev (tPk [pk (w 0)]) (.moduleLoad 0) (fun t => t.packets.map (·.stage) = [.begun]) = true ∧
    ev (tPk [pk (w 32) .begun]) (.moduleLoad 0) (fun t => Memory.readNat t.mem 0x308 8 = 0x500) = true ∧
    ev (tPk [pk (w 0 + 0x20000 * 2 ^ 384) .begun]) (.moduleLoad 0) (fun t => Memory.readNat t.mem 0x308 8 = 0x200) = true ∧
    ev (tPk [pk (w 0) .begun] 0x214 [2]) (.moduleLoad 0) (fun t => Memory.readNat t.mem 0x308 8 = 0x600 ∧ t.modules.length = 1) = true := by decide +kernel
/-- An object, its signature block, as it is or to be translated into the 64 KiB at 0, and a key under which the block verifies (the key that
the firmware holds is open). The digest is an abscissa of P-384, so that r = s = the digest make a signature under that point less the base
point. -/
def tObj : List Byte := 3 :: List.replicate 31 0
def tDigest (k : Bool) : Nat :=
  if k then 0xf2fd914c1a297145257558d87ba949ecf4799bbdc6b915d02420a365c3521a18273b0791f44a2b2472581a3f39cd4e2c
  else 0x42238b13a1c099bac45c38b4507504de0f35ed7318bae7ec447e8eb28c187d1a2f954c2e2d3f29d52e5b0a289fba3884
def tKey (k : Bool) : Nat × Nat :=
  if k then (0x5b40c1aeeb0e0260535a06354dc396ef81d34cbaf95cf0f01f136ab86d21ce7a53f5ba2a8438260248934fb0c858f0a7,
    0x5f7f86499b8b820389f4bbf586f13b8b34bb2986f22124b4070e42ae20676d7b4c346ec09d846bb97f9d7b2c2834f27)
  else (0x1d83b2499ff1e476561e2954e730e4970ab4a9f0b7018a1645b498e54da7f985e4d6def70cb699ff831137af19687b65,
    0xe22ff5ee43d3c0a3525dd0d91688c8eb1d9a494774ac7749fc7a1f66f67eda963ae3ff5c80f0a1fc4c95cb71704a9e66)
def tBlock (k : Bool) : List Byte :=
  leBytes 8 0 ++ leBytes 8 (if k then 0x10000 else 0) ++ leBytes 4 0 ++ [if k then 1 else 0] ++ List.replicate 43 0 ++ sha256 tObj ++ List.replicate 64 0 ++
    (leBytes 48 (tDigest k)).reverse ++ (leBytes 48 (tDigest k)).reverse
def pLoad : Packet := pk (6 + 32 * 2 ^ 128 + 5 * 2 ^ 192 + 0x300 * 2 ^ 256 + 0x200 * 2 ^ 384) .begun
/-- The load of the object; its translation, 8 bytes, stands in the cache. -/
def tLoading (k : Bool) : State :=
  { tPk [pLoad] 0x200 (tBlock k) with
    transCache := [{ key := sha256Bits tObj, xlver := (tPk []).reg 0x32008, secver := 0, ctx := 0, addr := 0x100, len := 8
                     hmac := BitVec.ofNat 256 (leNat (hmacSha256 Config.deviceKey (List.replicate 8 0))) }] }
theorem signed (s : State) (k : Bool) (h : ∀ b, Config.moduleSigningKey b = tKey k) : s.signatureOk (tBlock k) = true := by
  unfold State.signatureOk; rw [h]; clear h; revert k; decide +kernel
/-- Witness of a load that passes every check, where the key is the block's, at its turn; for one that is translated, of a cached translation
that stands. -/
theorem witness_module_load : (∀ k, Turn (tLoading k) 0 0 pLoad ∧ (tLoading k).vaRead 0 0x200 256 = some (tBlock k) ∧ (tLoading k).vaRead 0 0 32 = some tObj ∧
      sigBlockOk (tBlock k) = true ∧ bytesOf 32 (sha256Bits tObj) = ((tBlock k).drop 64).take 32 ∧ (tLoading k).reg 0x33E14 = 0 ∧
      (tLoading k).vaOk 0 0 8 true = true ∧ (tLoading k).vaRead 0 0x100 8 = some (List.replicate 8 0)) ∧
    (tLoading true).transCache.head?.map (fun e => (e.key, e.xlver)) = some (sha256Bits tObj, (tLoading true).reg 0x32008) ∧
    ((∀ b, Config.moduleSigningKey b = tKey false) → ((tLoading false).loadModule pLoad).2 = 0 ∧ ((tLoading false).loadModule pLoad).1.modules.map (·.id) = [0, 5]) := by
  have h1 : ∀ k, (tLoading k).vaRead 0 512#64 256 = some (tBlock k) := by decide +kernel
  have h2 : ∀ k, (tLoading k).vaRead 0 0#64 32 = some tObj := by decide +kernel
  have h3 : ∀ k, sigBlockOk (tBlock k) = true := by decide +kernel
  have h4 : ∀ k, bytesOf 32 (sha256Bits tObj) = ((tBlock k).drop 64).take 32 := by decide +kernel
  refine ⟨fun k => ⟨⟨?_, ?_, ?_, ?_, ?_⟩, h1 k, h2 k, h3 k, h4 k, ?_, ?_, ?_⟩, by decide +kernel, fun h => ?_⟩
  · revert k; decide +kernel
  · revert k; decide +kernel
  · revert k; decide +kernel
  · revert k; decide +kernel
  · revert k; decide +kernel
  · revert k; decide +kernel
  · revert k; decide +kernel
  · revert k; decide +kernel
  · have hq : (tLoading false).qCtx pLoad.queue = 0 := by decide +kernel
    have ha : pLoad.addr 8 = 0 ∧ pLoad.field 16 8 = 32 ∧ pLoad.field 24 2 = 5 ∧ pLoad.addr 48 = 0x200 := by decide +kernel
    have hs : leNat (((tBlock false).drop 16).take 4) = 0 ∧ leNat (((tBlock false).drop 20).take 1) = 0 := by decide +kernel
    have hg := signed (tLoading false) false h
    have hm : (tLoading false).modules.map (·.id) = [0] := by decide +kernel
    have hf : (tLoading false).reg regFuseCnt = 0 := by decide +kernel
    simp [State.loadModule, hq, ha, h1, h2, h3, eq_true (h4 false), hs, hg, hf, State.addModule, hm]
/-- A module that is not loaded, one that a group is in, and one that nothing is in. -/
theorem test_module_unload : let w := fun (id : Nat) => 7 + id * 2 ^ 64 + 0x300 * 2 ^ 128
    ev (tPk [pk (w 3)]) (.moduleUnload 0) (fun t => Memory.readNat t.mem 0x308 8 = 0x400) = true ∧ ev (tPk [pk (w 0)]) (.moduleUnload 0) (fun t => t.modules.map (·.unloading) = [true]) = true ∧
    ev (tPk [pk (w 0) .begun]) (.moduleUnloadDone 0) (fun t => t.packets.length = 1) = true ∧
    ev ((tPk [pk (w 0) .begun]).updGroup 0 fun g => { g with entries := [] }) (.moduleUnloadDone 0) (fun t => t.packets = [] ∧ t.modules = [] ∧ t.l0 = []) = true := by decide +kernel
theorem test_snapshot : ev (tPk [pk (8 + 0x200 * 2 ^ 64)]) (.manifestSnapshot 0) (fun t => Memory.readNat t.mem 0x200 8 = 1 ∧ Memory.readNat t.mem 0x280 4 = 0x91ABA92E ∧ t.packets = []) = true ∧
    ev (tPk [pk (8 + 0xFF40 * 2 ^ 64)]) (.manifestSnapshot 0) (fun t => Memory.readNat t.mem 0xFF40 8 = 0) = true := by decide +kernel
/-- The packet destroys its own queue; a queue with a packet left stays in STATE 3; one that is off is at once done. -/
theorem test_destroy : ev (tPk [pk 9]) (.queueDestroy 0) (fun t => t.reg 0x30014 = 0 ∧ t.reg 0x30008 = 4 ∧ t.packets = []) = true ∧
    ev (tPk [pk (9 + 5 * 2 ^ 64)]) (.queueDestroy 0) (fun t => t.packets = [] ∧ t.reg 0x30014 = 1) = true ∧
    (let s := { tPk [pk (9 + 2 ^ 64), { pk 5 .begun with queue := 1 }] with bar0 := [(0x18, 1), (0x30008, 0x80000004), (0x30014, 1), (0x30028, 0x80000004), (0x30034, 1)] ++ tS.bar0 }
     let t := after s (.queueDestroy 0)
     t.reg 0x30034 = 3 ∧ t.packets.map (·.stage) = [.begun, .begun] ∧ ev t (.queueDestroyDone 0) (fun u => u = t) = true ∧
     ev { t with packets := t.packets.take 1 } (.queueDestroyDone 0) (fun u => u.reg 0x30034 = 0 ∧ u.reg 0x30028 = 4 ∧ u.packets = []) = true) := by decide +kernel
/-- A queue that is destroyed with a write-then-signal not begun, which ends with CODE 3 and its signal; with a wait-signal; with a launch (R398). -/
def tDestroys (y : Packet) : State :=
  { tPk [pk (9 + 2 ^ 64), { y with queue := 1 }] with bar0 := [(0x10, 1), (0x18, 1), (0x30008, 0x80000004), (0x30014, 1), (0x30028, 0x80000004), (0x30034, 1)] ++ tS.bar0 }
theorem test_destroy_others : ev (tDestroys (pk wr)) (.queueDestroy 0) (fun t => Memory.readNat t.mem 0x300 8 = 9 ∧ Memory.readNat t.mem 0x308 8 = 0x300 ∧ t.packets.map (fun p => (p.queue, p.stage)) =
      [(0, .begun)]) = true ∧
    ev (tDestroys (pk 4 .begun)) (.queueDestroy 0) (fun t => t.packets.map (·.queue) = [0]) = true ∧
    (let l := fun (n : Nat) (p : Packet) => (tDestroys { p with launch := some 0 }).updLaunch 0 fun l => { l with queue := 1, stage := if n = 0 then .accepted else .placed }
     ev (l 1 (pk (1 + 0x300 * 2 ^ 128) .begun)) (.queueDestroy 0) (fun t => t.packets.map (·.queue) = [0, 1] ∧ (t.launch 0).map (·.status) = some 8) = true ∧
     ev (l 0 (pk (1 + 0x300 * 2 ^ 128 + 9 * 2 ^ 192))) (.queueDestroy 0) (fun t => t.launches = [] ∧ Memory.readNat t.mem 0x300 8 = 9 ∧ Memory.readNat t.mem 0x308 8 = 0x300 ∧
       Memory.readNat t.mem 0x310 8 = 0) = true) := by decide +kernel
/-- R378: a halted machine reads no packet, resumes no context and issues nothing. -/
theorem test_halted : let s := { tQ 1 fun s => { s with mem := SMap.set s.mem (s.slotCell 0 0 + 60) 1 } with halted := true, sel := none }
    ev s (.seqwPoll 0) (fun t => t = s) = true ∧ s.ctxStat 0 ≠ 4 ∧ ev s (.contextResume 0) (fun t => t = s) = true ∧ s.unitReady 0 0 = false := by decide +kernel
/-- Witness of Turn, for packets of each type at their begin stage and at their finish. -/
theorem witness_Turn : ∀ p ∈ [pk 0, pk wr, pk 4, pk 5, pk (6 + 5 * 2 ^ 192), pk 7, pk 8, pk 9, { pk 4 .begun with met := true }, { pk 5 .begun with met := true }, pk (6 + 5 * 2 ^ 192) .begun,
    { pk 0xFF with malformed := true }], Turn (tPk [p]) 0 0 p := by
  intro p hp
  exact ⟨by revert p; decide +kernel, by revert p; decide +kernel, by revert p; decide +kernel, by revert p; decide +kernel, by revert p; decide +kernel⟩
/-- Module unload and queue destroy at their finish stages: nothing is in the module; nothing but the packet is in the queue. -/
def tUnloaded : State := tPk [pk (7 + 5 * 2 ^ 64) .begun]
def tDestroyed : State := { tPk [pk 9 .begun] with bar0 := [(0x18, 1), (0x30008, 0x80000004), (0x30014, 3)] ++ tS.bar0 }
theorem witness_Turn_finish : Turn tUnloaded 0 0 (pk (7 + 5 * 2 ^ 64) .begun) ∧ Turn tDestroyed 0 0 (pk 9 .begun) :=
  ⟨⟨by decide +kernel, by decide +kernel, by decide +kernel, by decide +kernel, by decide +kernel⟩,
    ⟨by decide +kernel, by decide +kernel, by decide +kernel, by decide +kernel, by decide +kernel⟩⟩

/-! ### Placement -/

/-- The launch is next in the placement order, for core 0; nothing is resident. -/
def tOrdered (n : Nat := 0) : State :=
  { tUp (tS.updLaunch 0 fun l => { l with stage := .ordered, desc := l.desc + BitVec.ofNat 2048 (n + 2 ^ 1024) }) with
      groups := [], blocks := [], tiles := [], sel := none, mem := [(cellShared 0 5, 1), (cellShared 0 1029, 1)] }
theorem witness_LaunchEvents : (tOrdered.nextLaunch.map fun q => (q.1, (tOrdered.launchModule q.2).isSome)) = some (0, true) ∧ tOrdered.peerCounts = [] ∧
    ({ tOrdered with modules := [] } : State).nextLaunch.map (fun q => (q.1, (tOrdered.launch q.1 = some q.2 : Bool))) = some (0, true) ∧ tS.nextLaunch = none ∧
    (tS.launch 0).map (fun l => tS.mayEnd 0 l) = some false := by decide +kernel
/-- Two groups, one block: KINIT, flags, the first unit; shared memory is zero. -/
theorem test_place : let s := tOrdered (2 ^ 16 + 0x77 * 2 ^ 1536)
    ev s .launchPlace (fun t => t.blocks.map (fun q => (q.1, q.2.num, q.2.bars.map (·.na))) = [(2, 0, [2])] ∧ (t.launch 0).map (fun l => (l.stage, l.nblk)) = some (.placed, 1)) = true ∧
    ev s .launchPlace (fun t => t.groups.map (fun q => (q.1, q.2.g, q.2.kget 8)) = [(0, 0, 0x77), (64, 1, 0x77)] ∧ t.mem = [(cellShared 0 1029, 1)]) = true ∧
    ev s .launchPlace (fun t => t.groups.map (fun q => (q.2.flags, q.2.entries.map fun e => (e.2.pc, e.2.target))) = [(0x7FF, [(0, true)]), (0x7FF, [(0, true)])]) = true ∧
    ev { tOrdered with modules := [] } .launchPlace (fun t => (t.launch 0).map (·.code) = some 4) = true := by decide +kernel
/-- The launch's last block is gone; SIGADDR 0x300, SIGVAL 9. -/
def tEnding (code : Byte) : State :=
  { tPk [{ pk (1 + 0x300 * 2 ^ 128 + 9 * 2 ^ 192) .begun with launch := some 0 }] with groups := [], blocks := [], sel := none }.updLaunch 0 fun l =>
    { l with code := code, status := 2, work := 5, complete := [0] }
theorem test_launch_complete : ((tEnding 0).launch 0).map (fun l => (tEnding 0).mayEnd 0 l) = some true ∧ ((tEnding 0).context 0).saved = none ∧
    ev (tEnding 0) (.launchComplete 0) (fun t => t.launches = [] ∧ t.packets = [] ∧ Memory.readNat t.mem 0x300 8 = 9 ∧ Memory.readNat t.mem 0x308 8 = 2 ∧ Memory.readNat t.mem 0x310 8 = 5 ∧
      Memory.readNat t.mem 0x340 4 = 1) = true ∧
    ev (tEnding 4) (.launchComplete 0) (fun t => Memory.readNat t.mem 0x308 8 = 0x400 ∧ Memory.readNat t.mem 0x340 4 = 0) = true := by decide +kernel

/-- Launch packets: a tile launch enters the order; a task launch makes its queue with its record stamped. -/
theorem test_tile_launch : let s := { (tPk [{ pk 1 with launch := some 0 }]).updLaunch 0 (fun l => { l with stage := .accepted, desc := l.desc + BitVec.ofNat 2048 (2 ^ 1024) }) with bar0 := [(0x10, 1), (0x18, 1), (0x30008, 0x80000004), (0x30014, 1)] ++ tS.bar0 }
    s.waiting 0 = some { pk 1 with launch := some 0 } ∧ (s.launch 0).map (fun l => (s.launchModule l).isSome) = some true ∧
    ev s (.tileLaunch 0) (fun t => (t.launch 0).map (·.stage) = some .ordered ∧ t.packets.map (·.stage) = [.begun]) = true ∧
    ev { s with modules := [] } (.tileLaunch 0) (fun t => t.launches = [] ∧ t.packets = []) = true ∧
    -- one that ends as it begins is a producer of queue 7, completed (R45)
    (let u := ({ s with modules := [], taskQueues := [(7, { launch := 5, ctx := 0, cap := 4, free := 4, base := 0 })], launches := s.launches ++ s.launches.map fun q => (5, { q.2 with stage := .placed }) } : State).updLaunch 0
      fun l => { l with desc := l.desc + BitVec.ofNat 2048 (2 ^ 7 * 2 ^ 320) }
     ((u.launch 0).map fun l => l.prodq) = some 128 ∧
     ev u (.tileLaunch 0) (fun t => t.launches.map (fun q => (q.1, q.2.producers)) = [(5, 1)]) = true) ∧
    ev { tPk [{ pk (1 + 0x300 * 2 ^ 128 + 9 * 2 ^ 192) with code := 2 }] with launches := [] } (.tileLaunch 0) (fun t => Memory.readNat t.mem 0x308 8 = 0x200) = true := by decide +kernel
theorem test_task_launch : let s := { (tPk [{ pk 2 with launch := some 0 }] 0x400 [0, 0, 0, 0, 0, 0, 0, 0, 7]).updLaunch 0 (fun l =>
        { l with stage := .accepted, desc := l.desc + BitVec.ofNat 2048 (1 + 2 ^ 1024 + 0x400 * 2 ^ 512 + 7 * 2 ^ 576 + 2 * 2 ^ 584 + 2 ^ 608) }) with bar0 := [(0x10, 1), (0x18, 1), (0x30008, 0x80000004), (0x30014, 1)] ++ tS.bar0, age := 9 }
    s.waiting 0 = some { pk 2 with launch := some 0 } ∧ (s.launch 0).map (fun l => (l.isTask, l.tqBase, l.cap, l.ninit, s.vaOk 0 l.tqBase (32 * l.cap) true)) = some (true, 0x400, 4, 1, true) ∧
    ev s (.taskLaunch 0) (fun t => t.age = 10 ∧ (AMap.get? t.taskQueues 7).map (fun q => (q.free, q.recs.map fun r => (recAge r, r.extractLsb' 64 8))) = some (3, [(9, 7)])) = true := by decide +kernel

/-! ### Contexts and the debugger -/

theorem test_slice : ev { tS with clk := 50 } (.timeSliceExpiry 0) (fun t => (t.context 0).expired = true ∧ (t.context 0).expiredAt = 50) = true ∧
    ev tS (.timeSliceExpiry 1) (fun t => t = tS) = true := by decide +kernel
/-- A launch of context 1 waits for the core, and the resident one is of a later class. -/
def tPreempt : State :=
  let s := tUp (tS.updLaunch 0 fun l => { l with desc := l.desc + BitVec.ofNat 2048 (2 * 2 ^ 8) - BitVec.ofNat 2048 (16 * 2 ^ 56) })
  { (s.setReg 0x31030 0x80000000).setReg 0x31034 1 with sel := none, launches := s.launches ++ [(5, { queue := 1, ctx := 1, pkt := 0, desc := placeDesc + BitVec.ofNat 2048 (2 ^ 1024) - BitVec.ofNat 2048 (16 * 2 ^ 56), stage := .ordered, stamp := 0 })] }
theorem test_preempt : (∀ e, firstEntry tPreempt.orderEntries = some e → tPreempt.entryFits e (fun _ => true) = false ∧ tPreempt.victim e = some 0) ∧ (firstEntry tPreempt.orderEntries).isSome = true ∧
    ev tPreempt (.preemptContext 0) (fun t => t.reg 0x31014 = 2 ∧ (t.context 0).stop = some .preempt ∧ (t.context 0).acks.length = 15) = true := by
  refine ⟨?_, ?_, ?_⟩
  · intro e h
    have hd : ((firstEntry tPreempt.orderEntries).elim false fun e => !tPreempt.entryFits e (fun _ => true) && tPreempt.victim e = some 0) = true := by decide +kernel
    rw [h] at hd; simpa using hd
  · decide +kernel
  · decide +kernel
/-- The context is stopping, and e is all that has not acknowledged. -/
def tStop (es : List Engine) (silent : Option Engine := none) : State :=
  { (tUp tS).setCtxStat 0 2 with contexts := [(0, { acks := es, stop := some .preempt, silent := silent })], sel := none }
theorem test_stop_ack : ev (tStop [.matrix 0, .turntable]) (.stopAck 0 (.matrix 0)) (fun t => (t.context 0).acks = [.turntable] ∧ t.reg 0x31014 = 2) = true ∧
    (tStop []).mayAck 0 (.port 0 0) = true ∧ ({ tStop [] with parked := [(0, { core := 0, grp := 0, block := 1, dest := .reg 0 0 1 false, value := 0, opc := 0, sub := 0, ty := 0, mode := 0 })] } : State).mayAck 0 (.port 0 0) = false ∧
    -- a late acknowledgement: a launch has been accepted since, and the stop's own are still ending; no launch is left
    ev (tStop [.turntable] (some .turntable)) (.stopAck 0 .turntable) (fun t => t.reg 0x31014 = 1 ∧ (t.context 0).stop = none) = true ∧
    ev ((tStop [.turntable] (some .turntable)).updLaunch 0 fun l => { l with status := 32 }) (.stopAck 0 .turntable) (fun t => t.reg 0x31014 = 0) = true ∧
    ev { tStop [.turntable] with launches := [], groups := [], blocks := [] } (.stopAck 0 .turntable) (fun t => t.reg 0x31014 = 0 ∧ (t.context 0).saved = none) = true := by decide +kernel
/-- The last acknowledgement: the context's groups leave the cores; the context comes back as it was. -/
theorem test_saved : ev (tStop [.turntable]) (.stopAck 0 .turntable) (fun t => t.reg 0x31014 = 3 ∧ t.groups = [] ∧ t.blocks = [] ∧ ((t.context 0).saved.map fun v => (v.groups.map Prod.fst, v.tiles.length)) = some ([0], 32)) = true := by
  decide +kernel
theorem test_stop_timeout : ev (tStop [.copyEngine 9]) (.stopTimeout 0) (fun t => t.reg 0x33E0C = 0x80005009 ∧ t.ready 1 = false ∧ t.deadBits = [1] ∧ (t.context 0).silent = some (.copyEngine 9) ∧
    t.blocks = [] ∧ (t.launch 0).map (·.status) = some 33) = true := by decide +kernel
/-- A launch of the context that has placed no block completes at once; its SIGADDR is 0. -/
theorem test_stop_unplaced : let s := { tStop [.copyEngine 9] with launches := tS.launches.map fun q => (q.1, { q.2 with stage := .ordered }), groups := [], blocks := [] }
    ev s (.stopTimeout 0) (fun t => t.launches = [] ∧ t.reg 0x33E0C = 0x80005009) = true ∧ (s.launches.map Prod.fst).Nodup := by decide +kernel
/-- A context with blocks in its save area whose newer ones are saved too: what was saved before stays, and so does its time (R156). -/
theorem test_saved_again : let s := tStop [.turntable]
    let old : Saved := { groups := s.groups.map fun q => (70, q.2), blocks := [], tiles := [] }
    ev (s.setContext 0 { s.context 0 with saved := some old, stoppedAt := 7 }) (.stopAck 0 .turntable) (fun t =>
      ((t.context 0).saved.map fun v => v.groups.map Prod.fst) = some [0, 70] ∧ t.groups = []) = true := by decide +kernel
def tSaved : State :=
  let s := (tUp tS).setCtxStat 0 3
  { s with groups := [], blocks := [], tiles := [], sel := none, contexts := [(0, { stop := some .preempt, saved := some { groups := s.groups.map fun q => (q.1, { q.2 with nregs := 8 }), blocks := s.blocks, tiles := [] } })] }
/-- The save area of core 0, at physical address 0, holds SCOPE and NA of barrier 0, and k2. The context comes back with CTXSTAT 4, then 1. -/
theorem test_resume : let s := { tSaved with mem := [(0x1009, 1), (0x100A, 1), (0x2010, 5)], clk := 40 }
    let t := after s (.contextResume 0)
    (s.orderEntries.map fun e => (e.ctx, s.mayPlace e, s.entryFits e fun _ => true)) = [(some 0, true, true)] ∧ s.poisonedRecord 0 0 = false ∧ s.halted = false ∧
    (t.reg 0x31014 = 4 ∧ t.contexts = [] ∧ t.blocks = tS.blocks ∧ t.groups.map (fun q => (q.1, q.2.k, q.2.lastIssue)) = [(0, [(2, 5)], 40)]) ∧
    ev t (.contextResume 0) (fun u => u.reg 0x31014 = 1 ∧ u.groups = t.groups) = true := by decide +kernel
/-- The first split entry's PC and threads are those of the record, a count that arrived meanwhile is applied, and the clocks counted before the
stop stand (R162, R138, R53). -/
theorem test_resume_record : let s := (tSaved.setContext 0 { tSaved.context 0 with stoppedAt := 30, saved := (tSaved.context 0).saved.map fun v => { v with counts := [(1, 0, 12)] } })
    let t := after { s with mem := [(0x1009, 1), (0x100A, 1), (0x2240, 0x40), (0x2248, 5)], clk := 100 } (.contextResume 0)
    t.groups.map (fun q => (q.2.entries.map fun e => (e.2.pc, e.2.mask), q.2.lastIssue)) = [([(0x40, 5)], 70)] ∧ t.blocks.map (fun q => q.2.bars.map (·.landb)) = [[12]] := by decide +kernel

/-- A debugger is attached to context 0, in this state. -/
def tDbg (st : Word) : State := { ((tUp tS).setReg 0x34000 0x80000000).setReg 0x34004 st with sel := none }
theorem test_debug : ev tS (.debugHalt 0) (fun t => t = tS) = true ∧ ev (tDbg 0) (.debugHalt 0) (fun t => t.reg 0x34004 = 1 ∧ (t.context 0).heldCmd = none) = true ∧
    ev (tDbg 0) (.debugHaltDrain 0) (fun t => t.reg 0x34004 = 1 ∧ (t.context 0).toDrain = true) = true ∧ ev (tDbg 1) (.debugResume 0) (fun t => (t.context 0).heldCmd = some 3) = true ∧
    ev (tDbg 2) (.debugHaltDrain 0) (fun t => t.reg 0x34004 = 3 ∧ t.reg 0x31014 = 2) = true ∧ ev ((tDbg 10).updGroup 0 fun g => { g with bkpt := true }) (.debugResume 0) (fun t => t.reg 0x34004 = 0 ∧
      (t.group 0).map (·.bkpt) = some false) = true := by decide +kernel
/-- A drain of an idle context, which keeps CTXSTAT 0 and is over at once; of one whose engines hold something, not. -/
theorem test_drain_idle : let s := { (tDbg 2).setCtxStat 0 0 with launches := [], groups := [], blocks := [] }
    ev s (.debugHaltDrain 0) (fun t => t.reg 0x34004 = 3 ∧ t.reg 0x31014 = 0 ∧ ev t (.debugHaltDone 0) (fun u => u.reg 0x34004 = 4 ∧ u.reg 0x31014 = 0)) = true ∧
    (let u := { tLoad with bar0 := ((tDbg 3).setCtxStat 0 1).bar0, sel := none }
     (u.enginesOf 0).all (u.mayAck 0) = false ∧ ev u (.debugHaltDone 0) (fun t => t = u) = true) := by decide +kernel
/-- The halt report at 0x1000 of main memory: the clock, one group, its slot. -/
theorem test_halt_done : let s := { (tDbg 1).setReg 0x34008 0x1000 with clk := 77 }
    ev s (.debugHaltDone 0) (fun t => t.reg 0x34004 = 2 ∧ Memory.readNat t.mem 0x1000 8 = 77 ∧ Memory.readNat t.mem 0x1008 4 = 1 ∧ Memory.readNat t.mem 0x1048 8 = 8) = true ∧
    ev (tDbg 2) (.debugHaltDone 0) (fun t => t = tDbg 2) = true := by decide +kernel

/-! ### The update agent -/

/-- Out of order, the transfer fails and its bank is void. (Whether a component is good, and how large a bank is, are open.) -/
theorem test_firmware_data : ev { State.reset with transfer := some (1, [1, 2]) } (.requestFirmwareData 1 5 [3]) (fun t => t.transfer = none ∧ t.fwReport = [.transferFailed] ∧ t.microcode.bank1.verified = false ∧
      t.microcode.bank0.verified = true) = true ∧ ev State.reset (.requestFirmwareData 3 0 []) (fun t => t = State.reset) = true := by decide +kernel
theorem test_activate : let s := { State.reset with translator := { ready := true } }
    ev s .activateFirmware (fun t => t.translator.marked = some true ∧ t.firmware.marked = none ∧ t.fwReport = [.activationPending] ∧ t.reg 4 = 0x200) = true ∧
    ev (s.setReg 4 1) .activateFirmware (fun t => t.activating = true ∧ t.translator.marked = none) = true ∧
    -- a transfer in progress has stopped, and failed
    ev { s with transfer := some (1, [1, 2]) } .activateFirmware (fun t => t.transfer = none ∧ t.fwReport = [.activationPending, .transferFailed] ∧ t.microcode.bank1.verified = false) = true ∧
    ev { s with activating := true } .activateSemfwuTimeout (fun t => t.fwReport = [.invalidState] ∧ t.activating = false) = true ∧ ev s .activateSemfwuTimeout (fun t => t = s) = true := by decide +kernel
/-- Witness of the finish stage of a launch: its lane waits for it, and its last block is gone. -/
def pEnding : Packet := { pk (1 + 0x300 * 2 ^ 128 + 9 * 2 ^ 192) .begun with launch := some 0 }
theorem witness_launch_finish : Turn (tEnding 0) 0 0 pEnding ∧ pEnding.opc = 1 ∧ pEnding.stage ≠ .accepted ∧ (tEnding 0).blocks = [] ∧ ((tEnding 0).context 0).saved = none ∧
    (tEnding 0).peerHeld = [] ∧ ((tEnding 0).launch 0).map (fun l => (l.queue, l.pkt, l.stage, (tEnding 0).vaOk l.ctx 0x300 8 true)) = some (0, 0, .placed, true) :=
  ⟨⟨by decide +kernel, by decide +kernel, by decide +kernel, by decide +kernel, by decide +kernel⟩,
    by decide +kernel, by decide +kernel, by decide +kernel, by decide +kernel, by decide +kernel, by decide +kernel⟩
/-- A launch packet at its begin stage. -/
def pBegins : Packet := { pk 1 with launch := some 0 }
def tBegins : State :=
  { (tPk [pBegins]).updLaunch 0 (fun l => { l with stage := .accepted, desc := l.desc + BitVec.ofNat 2048 (2 ^ 1024) }) with
    bar0 := [(0x10, 1), (0x18, 1), (0x30008, 0x80000004), (0x30014, 1)] ++ tS.bar0 }
theorem witness_launch_begins : Turn tBegins 0 0 pBegins ∧
    (tBegins.launch 0).map (fun l => (l.code, l.status, l.isTask, (tBegins.launchModule l).isSome)) = some (0, 0, false, true) :=
  ⟨⟨by decide +kernel, by decide +kernel, by decide +kernel, by decide +kernel, by decide +kernel⟩, by decide +kernel⟩
/-- A held count meets its barrier at placement; the launch of another context is behind this one. -/
theorem test_place_counts : let s := { tOrdered with peerCounts := [{ ctx := 0, queue := 0, block := 0, bar := 0, bytes := 9 }] }
    ev s .launchPlace (fun t => t.peerCounts = [] ∧ t.blocks.map (fun q => (q.2.bars.map (·.landb), q.2.barNums)) = [([9], [0])]) = true := by decide +kernel
/-- The second step of a resumption, with a debugger that drained the context and without. -/
theorem test_resume_done : let s := (tUp tS).setCtxStat 0 4
    ev s (.contextResume 0) (fun t => t.reg 0x31014 = 1) = true ∧
    ev (((s.setReg 0x34000 0x80000000).setReg 0x34004 4).updGroup 0 fun g => { g with bkpt := true }) (.contextResume 0) (fun t => t.reg 0x31014 = 1 ∧ t.reg 0x34004 = 0 ∧
      (t.group 0).map (·.bkpt) = some false) = true ∧
    ev { s with halted := true } (.contextResume 0) (fun t => t.reg 0x31014 = 1) = true := by decide +kernel
/-- The launches that a queue destroy stops, one with a copy that has begun: the copy engine is silent (R399). -/
theorem test_destroy_timeout : let s := { tPut.updLaunch 0 (fun l => { l with status := 8 }) with groups := [], blocks := tPut.blocks.map (fun q => (q.1, { q.2 with dying := some ⟨none⟩ })), sel := none }
    s.stoppingLaunches 0 ≠ [] ∧ s.silentEngine 0 = some (.copyEngine 0) ∧ s.ctxStat 0 = 1 ∧
    ev s (.stopTimeout 0) (fun t => (t.launch 0).map (·.status) = some 0x29 ∧ t.ready 0 = false ∧ t.reg 0x33E0C = 0x80005000) = true := by decide +kernel
/-- A drain of a halted context, and a held command that acts once the halt is done. -/
theorem test_debug_held : let s := (tDbg 1).setContext 0 { heldCmd := some 3 }
    ev s (.debugHaltDone 0) (fun t => t.reg 0x34004 = 0 ∧ (t.context 0).heldCmd = none) = true ∧
    ev ((tDbg 1).setContext 0 { toDrain := true }) (.debugHaltDone 0) (fun t => t.reg 0x34004 = 3 ∧ (t.context 0).stop = some .drain ∧ (t.context 0).toDrain = false) = true ∧
    ev ((tDbg 4).setCtxStat 0 3) (.debugResume 0) (fun t => (t.context 0).stop = some .preempt) = true := by decide +kernel
/-- A transfer that another component's piece breaks off has failed, and is reported; a bank that is rewritten loses its mark (log 68). -/
theorem test_transfer_broken : ev { State.reset with transfer := some (1, [1, 2]), firmware := { marked := some true } } (.requestFirmwareData 0 5 [3]) (fun t =>
      t.fwReport = [.transferFailed, .transferFailed] ∧ t.microcode.bank1.verified = false ∧ t.firmware.marked = none ∧ t.transfer = none) = true := by decide +kernel

/-! ### Digests -/

/-- FIPS 180-4's published example, the digest of "abc" (first byte lowest, so the digits stand in reverse byte order). -/
theorem test_sha256_abc : sha256Bits [0x61#8, 0x62#8, 0x63#8] =
    0xAD1500F261FF10B49C7A1796A36103B02322AE5DDE404141EACF018FBF1678BA#256 := by decide +kernel
/-- DEVHASH of three digests of zeros is the SHA-256 of 96 zero bytes (R197, log 3). -/
theorem test_reset_device_hash : let s := State.reset.setHash 0x80 (sha256Bits (List.replicate 96 0#8))
    (List.range 8).all (fun i => s.reg (0x32080 + 4 * i) == State.reset.reg (0x32080 + 4 * i)) = true := by decide +kernel

/-! ## The invariants -/

theorem witness_CanonicalMemoryKept : Memory.wf tClaim.mem = true ∧ steps claim1 (fun t => Memory.wf t.mem) = true := by decide +kernel
theorem tSound : PageTableSound State.reset := by
  have h : ∀ n, SMap.get State.reset.pat n = 0 := fun n => rfl
  refine ⟨rfl, fun n => ?_, fun n m _ hn => ?_⟩
  · rw [h]; unfold PatEntrySound; decide
  · rw [h] at hn; exact absurd hn (by decide)
theorem witness_PageTableSoundKept : PageTableSound State.reset ∧ steps State.reset (fun t => t.pat = []) = true :=
  ⟨tSound, by decide +kernel⟩
theorem witness_ProgramsLeavePageTable : (Instr.exit P).isEvent = false ∧ goes tCopy (.exit P) (fun t => t.pat = tCopy.pat) = true := by decide +kernel
theorem witness_DecodeEncode : let i : Instr := .cpin P true .none .grp 3 4 5 6 (some 0x40)
    i.isEvent = false ∧ i.wellFormed = true ∧ decodeWords (encode i) = .ok i := by decide +kernel

end Sys2Proof.Tests
end

/-! PROOFS. The number formats of 03_number_formats.md: rounding to a format (R63, R64), the conversions of `cvt` (R65, R259), and the block
quantisation of `qblk` (R71 to R73, R261). -/

namespace Sys2Proof.Machine

/-! # Rounding a magnitude to a whole number (R63) -/

theorem roundAt_of_le {q e : Int} (h : q ≤ e) (mode : RMode) (neg : Bool) (m : Nat) :
    roundAt mode neg m e q = m * 2 ^ (e - q).toNat := if_pos h

/-- Between two multiples the lower one is taken, or the next where `roundsUp` says so. -/
theorem roundAt_of_lt {q e : Int} (h : e < q) (mode : RMode) (neg : Bool) (m : Nat) :
    roundAt mode neg m e q = m / 2 ^ (q - e).toNat +
      if roundsUp mode neg (m / 2 ^ (q - e).toNat % 2 = 1) (m % 2 ^ (q - e).toNat) (2 ^ ((q - e).toNat - 1)) then 1 else 0 := by
  simp only [roundAt, if_neg (Int.not_le.mpr h)]
  split <;> rfl

theorem roundsTo_exact (mode : RMode) (neg : Bool) (k : Nat) {d : Nat} (hd : 0 < d) : RoundsTo mode neg (k * d) d k := by
  have hdouble : 2 * k * d = 2 * (k * d) := Nat.mul_assoc 2 k d
  cases mode with
  | rne | rna => simp only [RoundsTo, hdouble]; omega
  | rtz => simp only [RoundsTo]; omega
  | rup | rdn => cases neg <;> simp only [RoundsTo, if_true, if_false, Bool.false_eq_true] <;> omega

/-- A whole number and a remainder below 1 round as Table 3.3 says when `roundsUp` decides between the two neighbours. -/
theorem roundsTo_roundsUp (mode : RMode) (neg : Bool) (k rest half : Nat) (h : rest < 2 * half) :
    RoundsTo mode neg (k * (2 * half) + rest) (2 * half) (k + if roundsUp mode neg (k % 2 = 1) rest half then 1 else 0) := by
  have hup : (k + 1) * (2 * half) = k * (2 * half) + 2 * half := Nat.succ_mul k (2 * half)
  have hdouble (j : Nat) : 2 * j * (2 * half) = 2 * (j * (2 * half)) := Nat.mul_assoc 2 j (2 * half)
  by_cases hr : rest = 0
  · subst hr
    exact roundsTo_exact mode neg k h
  · cases mode with
    | rne =>
      by_cases hc : half < rest ∨ rest = half ∧ k % 2 = 1
      · rw [show roundsUp .rne neg (k % 2 = 1) rest half = true by simpa [roundsUp, hr] using hc, if_pos rfl]
        simp only [RoundsTo, hdouble, hup]
        omega
      · rw [show roundsUp .rne neg (k % 2 = 1) rest half = false from Bool.eq_false_iff.mpr fun h => hc (by simpa [roundsUp, hr] using h),
          if_neg Bool.false_ne_true, Nat.add_zero]
        simp only [RoundsTo, hdouble]
        omega
    | rna =>
      by_cases hc : half ≤ rest
      · rw [show roundsUp .rna neg (k % 2 = 1) rest half = true by simpa [roundsUp, hr] using hc, if_pos rfl]
        simp only [RoundsTo, hdouble, hup]
        omega
      · rw [show roundsUp .rna neg (k % 2 = 1) rest half = false from Bool.eq_false_iff.mpr fun h => hc (by simpa [roundsUp, hr] using h),
          if_neg Bool.false_ne_true, Nat.add_zero]
        simp only [RoundsTo, hdouble]
        omega
    | rtz =>
      rw [show roundsUp .rtz neg (k % 2 = 1) rest half = false from if_neg hr, if_neg Bool.false_ne_true, Nat.add_zero]
      simp only [RoundsTo]
      omega
    | rup | rdn =>
      cases neg <;>
        simp only [RoundsTo, roundsUp, hr, hup, if_true, if_false, Bool.false_eq_true, Bool.not_true, Bool.not_false, Nat.add_zero] <;> omega

theorem roundsTo_roundAt (mode : RMode) (neg : Bool) (m : Nat) (e q : Int) :
    RoundsTo mode neg (m * 2 ^ (e - q).toNat) (2 ^ (q - e).toNat) (roundAt mode neg m e q) := by
  by_cases h : q ≤ e
  · rw [roundAt_of_le h, show (q - e).toNat = 0 by omega, Nat.pow_zero]
    have hexact := roundsTo_exact mode neg (m * 2 ^ (e - q).toNat) Nat.one_pos
    rwa [Nat.mul_one] at hexact
  · obtain ⟨d, hd⟩ : ∃ d, (q - e).toNat = d + 1 := ⟨(q - e).toNat - 1, by omega⟩
    rw [roundAt_of_lt (by omega), hd, show (e - q).toNat = 0 by omega, Nat.pow_zero, Nat.mul_one, Nat.add_sub_cancel, Nat.pow_succ']
    have hlt : m % (2 * 2 ^ d) < 2 * 2 ^ d := Nat.mod_lt _ (Nat.mul_pos Nat.two_pos (Nat.two_pow_pos d))
    have hr := roundsTo_roundsUp mode neg (m / (2 * 2 ^ d)) (m % (2 * 2 ^ d)) (2 ^ d) hlt
    rwa [Nat.div_add_mod'] at hr

/-- What a number rounds to lies less than 1 from it. -/
theorem RoundsTo.within {mode : RMode} {neg : Bool} {n d k : Nat} (h : RoundsTo mode neg n d k) (hd : 0 < d) :
    k * d < n + d ∧ n < k * d + d := by
  have hdouble : 2 * k * d = 2 * (k * d) := Nat.mul_assoc 2 k d
  cases mode with
  | rne | rna => simp only [RoundsTo, hdouble] at h; omega
  | rtz => simp only [RoundsTo] at h; omega
  | rup | rdn => cases neg <;> simp only [RoundsTo, if_true, if_false, Bool.false_eq_true] at h <;> omega

/-- A number below a whole number rounds to no more than that. -/
theorem RoundsTo.le_of_lt {mode : RMode} {neg : Bool} {n d k K : Nat} (h : RoundsTo mode neg n d k) (hd : 0 < d) (hn : n < K * d) :
    k ≤ K := by
  have hk := (h.within hd).1
  have : k * d < (K + 1) * d := by rw [Nat.succ_mul]; omega
  exact Nat.lt_succ_iff.mp (Nat.lt_of_mul_lt_mul_right this)

/-- A number that is no less than a whole number rounds to no less than that. -/
theorem RoundsTo.ge_of_ge {mode : RMode} {neg : Bool} {n d k K : Nat} (h : RoundsTo mode neg n d k) (hd : 0 < d) (hn : K * d ≤ n) :
    K ≤ k := by
  have hk := (h.within hd).2
  have : K * d < (k + 1) * d := by rw [Nat.succ_mul]; omega
  exact Nat.lt_succ_iff.mp (Nat.lt_of_mul_lt_mul_right this)

/-! # Magnitude codes (R56, R64) -/

/-- What the fields of every format of Table 3.1 keep to. -/
structure Fmt.Regular (f : Fmt) : Prop where
  ebits : 2 ≤ f.ebits
  mbits : 1 ≤ f.mbits

theorem float_cases {ty : Ty} (h : ty.isFloat = true) :
    ty = .f64 ∨ ty = .f32 ∨ ty = .f16 ∨ ty = .bf16 ∨ ty = .e4m3 ∨ ty = .e5m2 := by
  revert h
  cases ty <;> decide

theorem regular_fmtOf (ty : Ty) : (fmtOf ty).Regular := by
  cases ty <;> exact ⟨by decide, by decide⟩

/-- The number of smallest subnormals that a magnitude code stands for (R56), also above the largest finite value. -/
def Fmt.codeUnits (f : Fmt) (c : Nat) : Nat :=
  if c / 2 ^ f.mbits = 0 then c else (c % 2 ^ f.mbits + 2 ^ f.mbits) * 2 ^ (c / 2 ^ f.mbits - 1)

/-- Code of k on the grid of spacing 2^s, where k has the format's precision. -/
theorem codeUnits_grid (f : Fmt) {s k : Nat} (hk : k ≤ 2 * 2 ^ f.mbits) (hs : s = 0 ∨ 2 ^ f.mbits ≤ k) :
    f.codeUnits (s * 2 ^ f.mbits + k) = k * 2 ^ s := by
  have hpos : 0 < 2 ^ f.mbits := Nat.two_pow_pos _
  unfold Fmt.codeUnits
  generalize 2 ^ f.mbits = B at *
  rcases Nat.lt_or_ge k B with hlt | hge
  · obtain rfl : s = 0 := by omega
    rw [Nat.zero_mul, Nat.zero_add, Nat.div_eq_of_lt hlt, if_pos rfl, Nat.pow_zero, Nat.mul_one]
  · rcases Nat.lt_or_ge k (2 * B) with hlt | hge'
    · obtain ⟨r, rfl⟩ := Nat.exists_eq_add_of_le hge
      have hc : s * B + (B + r) = r + (s + 1) * B := by rw [Nat.succ_mul]; omega
      rw [hc, Nat.add_mul_div_right _ _ hpos, Nat.add_mul_mod_self_right, Nat.div_eq_of_lt (by omega), Nat.mod_eq_of_lt (by omega),
        if_neg (by omega), Nat.zero_add, Nat.add_sub_cancel, Nat.add_comm r]
    · obtain rfl : k = 2 * B := by omega
      have hc : s * B + 2 * B = 0 + (s + 2) * B := by rw [Nat.add_mul]; omega
      rw [hc, Nat.add_mul_div_right _ _ hpos, Nat.add_mul_mod_self_right, Nat.zero_div, Nat.zero_mod, if_neg (by omega),
        show 0 + (s + 2) - 1 = s + 1 by omega, Nat.zero_add, Nat.pow_succ', Nat.mul_left_comm, Nat.mul_assoc]

theorem codeUnits_zero (f : Fmt) : f.codeUnits 0 = 0 := by
  rw [Fmt.codeUnits, Nat.zero_div, if_pos rfl]

theorem codeUnits_lt_succ (f : Fmt) (c : Nat) : f.codeUnits c < f.codeUnits (c + 1) := by
  have hpos : 0 < 2 ^ f.mbits := Nat.two_pow_pos _
  obtain ⟨s, k, rfl, hk, hs⟩ : ∃ s k, c = s * 2 ^ f.mbits + k ∧ k < 2 * 2 ^ f.mbits ∧ (s = 0 ∨ 2 ^ f.mbits ≤ k) := by
    generalize 2 ^ f.mbits = B at *
    have hc := Nat.div_add_mod' c B
    have hr := Nat.mod_lt c hpos
    rcases Nat.eq_zero_or_pos (c / B) with h0 | h0
    · rw [h0, Nat.zero_mul] at hc
      exact ⟨0, c, by omega, by omega, .inl rfl⟩
    · obtain ⟨s, hs⟩ := Nat.exists_eq_add_of_le' h0
      refine ⟨s, c % B + B, ?_, by omega, .inr (by omega)⟩
      rw [hs, Nat.add_mul] at hc
      omega
  rw [Nat.add_assoc, codeUnits_grid f (Nat.le_of_lt hk) hs, codeUnits_grid f hk (by omega)]
  exact Nat.mul_lt_mul_of_pos_right (Nat.lt_succ_self k) (Nat.two_pow_pos s)

theorem codeUnits_lt (f : Fmt) {c c' : Nat} (h : c < c') : f.codeUnits c < f.codeUnits c' := by
  induction h with
  | refl => exact codeUnits_lt_succ f c
  | step _ ih => exact Nat.lt_trans ih (codeUnits_lt_succ f _)

/-- Codes rise with the numbers they stand for. -/
theorem codeUnits_le_iff (f : Fmt) {c c' : Nat} : f.codeUnits c ≤ f.codeUnits c' ↔ c ≤ c' := by
  constructor
  · intro h
    exact Nat.le_of_not_lt fun hlt => Nat.not_le_of_lt (codeUnits_lt f hlt) h
  · intro h
    rcases Nat.lt_or_eq_of_le h with hlt | rfl
    · exact Nat.le_of_lt (codeUnits_lt f hlt)
    · exact Nat.le_refl _

theorem Fmt.Regular.two_pow_ebits {f : Fmt} (hf : f.Regular) : 4 ≤ 2 ^ f.ebits :=
  Nat.pow_le_pow_right (show 0 < 2 by decide) hf.ebits
theorem Fmt.Regular.two_pow_mbits {f : Fmt} (hf : f.Regular) : 2 ≤ 2 ^ f.mbits :=
  Nat.pow_le_pow_right (show 0 < 2 by decide) hf.mbits

/-- The largest finite code stands for MaxFinite of Table 3.1. -/
theorem codeUnits_maxMag {f : Fmt} (hf : f.Regular) : f.codeUnits f.maxMag = maxUnits f := by
  obtain ⟨E, hE⟩ := Nat.exists_eq_add_of_le' hf.two_pow_ebits
  have hB := hf.two_pow_mbits
  have hsucc : 2 ^ (f.mbits + 1) = 2 * 2 ^ f.mbits := Nat.pow_succ'
  unfold Fmt.maxMag maxUnits Fmt.width
  split
  · have hc : (2 ^ f.ebits - 1) * 2 ^ f.mbits - 1 = (2 ^ f.ebits - 3) * 2 ^ f.mbits + (2 * 2 ^ f.mbits - 1) := by
      rw [hE, show E + 4 - 1 = E + 3 by omega, show E + 4 - 3 = E + 1 by omega, Nat.add_mul, Nat.add_mul]; omega
    rw [hc, hsucc, codeUnits_grid f (by omega) (by omega)]
  · have hc : 2 ^ (f.ebits + f.mbits) - 2 = (2 ^ f.ebits - 2) * 2 ^ f.mbits + (2 * 2 ^ f.mbits - 2) := by
      rw [Nat.pow_add, hE, show E + 4 - 2 = E + 2 by omega, Nat.add_mul, Nat.add_mul]; omega
    rw [hc, hsucc, codeUnits_grid f (by omega) (by omega)]

theorem maxMag_lt {f : Fmt} (hf : f.Regular) : f.maxMag < 2 ^ f.width := by
  obtain ⟨E, hE⟩ := Nat.exists_eq_add_of_le' hf.two_pow_ebits
  have hB := hf.two_pow_mbits
  unfold Fmt.maxMag Fmt.width
  rw [Nat.pow_add, hE, show E + 4 - 1 = E + 3 by omega, Nat.add_mul, Nat.add_mul]
  split <;> omega

theorem infMag_lt {f : Fmt} (hf : f.Regular) : f.infMag < 2 ^ f.width := by
  unfold Fmt.infMag Fmt.width
  rw [Nat.pow_add]
  exact Nat.mul_lt_mul_of_pos_right (by have := hf.two_pow_ebits; omega) (Nat.two_pow_pos _)

/-- What is left of bits without their sign. -/
theorem bits_mod (f : Fmt) (neg : Bool) {c : Nat} (hc : c < 2 ^ f.width) : f.bits neg c % 2 ^ f.width = c := by
  cases neg with
  | false => rw [Fmt.bits, if_neg Bool.false_ne_true, Nat.zero_add, Nat.mod_eq_of_lt hc]
  | true => rw [Fmt.bits, if_pos rfl, Nat.add_mod_left, Nat.mod_eq_of_lt hc]

theorem bits_sign (f : Fmt) (neg : Bool) {c : Nat} (hc : c < 2 ^ f.width) : decide (f.bits neg c / 2 ^ f.width % 2 = 1) = neg := by
  cases neg with
  | false => rw [Fmt.bits, if_neg Bool.false_ne_true, Nat.zero_add, Nat.div_eq_of_lt hc]; rfl
  | true => rw [Fmt.bits, if_pos rfl, Nat.add_div_left c (Nat.two_pow_pos _), Nat.div_eq_of_lt hc]; rfl

/-- Bits of a finite value. -/
theorem decodeF_bits {f : Fmt} (hf : f.Regular) (neg : Bool) {c : Nat} (hc : c ≤ f.maxMag) :
    decodeF f (f.bits neg c) = if c = 0 then .zero neg else if c / 2 ^ f.mbits = 0 then .fin neg (c % 2 ^ f.mbits) f.qmin
      else .fin neg (c % 2 ^ f.mbits + 2 ^ f.mbits) (f.qmin + (c / 2 ^ f.mbits : Nat) - 1) := by
  have hlt := Nat.lt_of_le_of_lt hc (maxMag_lt hf)
  simp only [decodeF, bits_mod f neg hlt, bits_sign f neg hlt, Nat.not_lt.mpr hc, if_false]

/-- The bits of a finite code decode to the number of units that it stands for, with their sign. -/
theorem units_decodeF_bits {f : Fmt} (hf : f.Regular) (neg : Bool) {c : Nat} (hc : c ≤ f.maxMag) :
    Units f.qmin (decodeF f (f.bits neg c)) ((if neg then -1 else 1) * (f.codeUnits c : Nat)) := by
  rw [decodeF_bits hf neg hc]
  split
  case isTrue h0 =>
    rw [h0, codeUnits_zero]
    exact Int.mul_zero _
  case isFalse h0 =>
    split
    case isTrue hsub =>
      have hlt : c < 2 ^ f.mbits := (Nat.div_eq_zero_iff_lt (Nat.two_pow_pos _)).mp hsub
      refine ⟨Int.le_refl _, ?_⟩
      rw [Fmt.codeUnits, if_pos hsub, Nat.mod_eq_of_lt hlt, Int.sub_self, Int.toNat_zero, Nat.pow_zero, Nat.mul_one]
    case isFalse hsub =>
      have hpos : 0 < c / 2 ^ f.mbits := Nat.pos_of_ne_zero hsub
      refine ⟨by omega, ?_⟩
      rw [Fmt.codeUnits, if_neg hsub, show (f.qmin + (c / 2 ^ f.mbits : Nat) - 1 - f.qmin).toNat = c / 2 ^ f.mbits - 1 by omega]

/-! # RoundToFormat (R64) -/

/-- The spacing at which R64 rounds m · 2^e: the format's precision, but no finer than its subnormals. -/
def Fmt.spacing (f : Fmt) (m : Nat) (e : Int) : Int := max (ilog m e - f.mbits) f.qmin

theorem roundMag_eq (f : Fmt) (mode : RMode) (neg : Bool) (m : Nat) (e : Int) :
    roundMag f mode neg m e = (f.spacing m e - f.qmin).toNat * 2 ^ f.mbits + roundAt mode neg m e (f.spacing m e) := rfl

/-- At that spacing the multiplier has at most the format's precision, up to the next power of two. -/
theorem roundAt_spacing_le (f : Fmt) (mode : RMode) (neg : Bool) (m : Nat) (e : Int) :
    roundAt mode neg m e (f.spacing m e) ≤ 2 * 2 ^ f.mbits := by
  refine (roundsTo_roundAt mode neg m e _).le_of_lt (Nat.two_pow_pos _) ?_
  have hm : m < 2 ^ (Nat.log2 m + 1) := Nat.lt_log2_self
  have hexp : Nat.log2 m + 1 + (e - f.spacing m e).toNat ≤ f.mbits + 1 + (f.spacing m e - e).toNat := by
    unfold Fmt.spacing ilog; omega
  calc m * 2 ^ (e - f.spacing m e).toNat
      < 2 ^ (Nat.log2 m + 1) * 2 ^ (e - f.spacing m e).toNat := Nat.mul_lt_mul_of_pos_right hm (Nat.two_pow_pos _)
    _ = 2 ^ (Nat.log2 m + 1 + (e - f.spacing m e).toNat) := (Nat.pow_add ..).symm
    _ ≤ 2 ^ (f.mbits + 1 + (f.spacing m e - e).toNat) := Nat.pow_le_pow_right (by decide) hexp
    _ = 2 * 2 ^ f.mbits * 2 ^ (f.spacing m e - e).toNat := by rw [Nat.pow_add, Nat.pow_succ']

/-- Above the subnormals the multiplier has all of the format's precision. -/
theorem le_roundAt_spacing (f : Fmt) (mode : RMode) (neg : Bool) {m : Nat} (hm : m ≠ 0) (e : Int) :
    (f.spacing m e - f.qmin).toNat = 0 ∨ 2 ^ f.mbits ≤ roundAt mode neg m e (f.spacing m e) := by
  rcases Nat.eq_zero_or_pos (f.spacing m e - f.qmin).toNat with h0 | h0
  · exact .inl h0
  · refine .inr ((roundsTo_roundAt mode neg m e _).ge_of_ge (Nat.two_pow_pos _) ?_)
    have hexp : f.mbits + (f.spacing m e - e).toNat = Nat.log2 m + (e - f.spacing m e).toNat := by
      unfold Fmt.spacing ilog at *; omega
    calc 2 ^ f.mbits * 2 ^ (f.spacing m e - e).toNat
        = 2 ^ (Nat.log2 m) * 2 ^ (e - f.spacing m e).toNat := by rw [← Nat.pow_add, hexp, Nat.pow_add]
      _ ≤ m * 2 ^ (e - f.spacing m e).toNat := Nat.mul_le_mul_right _ (Nat.log2_self_le hm)

/-- The magnitude code stands for the rounded multiplier times the spacing. -/
theorem codeUnits_roundMag (f : Fmt) (mode : RMode) (neg : Bool) {m : Nat} (hm : m ≠ 0) (e : Int) :
    f.codeUnits (roundMag f mode neg m e) = roundAt mode neg m e (f.spacing m e) * 2 ^ (f.spacing m e - f.qmin).toNat := by
  rw [roundMag_eq]
  exact codeUnits_grid f (roundAt_spacing_le f mode neg m e) (le_roundAt_spacing f mode neg hm e)

theorem codeUnits_eq_zero {f : Fmt} {c : Nat} (h : f.codeUnits c = 0) : c = 0 := by
  rw [← codeUnits_zero f] at h
  exact Nat.le_zero.mp ((codeUnits_le_iff f).mp (Nat.le_of_eq h))

/-- The infinities of R64: the largest finite value under .sat, else NaN in E4M3 alone. -/
theorem infBits_fmtOf {ty : Ty} (hty : ty.isFloat = true) (sat neg : Bool) :
    (fmtOf ty).infBits sat neg = if sat then (fmtOf ty).bits neg (fmtOf ty).maxMag
      else if ty = .e4m3 then (fmtOf ty).nan else (fmtOf ty).bits neg (fmtOf ty).infMag := by
  have hinfs : (fmtOf ty).infs = !decide (ty = .e4m3) := by
    rcases float_cases hty with rfl | rfl | rfl | rfl | rfl | rfl <;> rfl
  simp only [Fmt.infBits, hinfs, Bool.not_eq_true', decide_eq_false_iff_not, ite_not]

theorem roundTo_fin (f : Fmt) (mode : RMode) (sat neg : Bool) (m : Nat) (e : Int) :
    roundTo f mode sat (.fin neg m e) =
      if f.maxMag < roundMag f mode neg m e then
        match mode with
        | .rne | .rna => f.infBits sat neg
        | .rtz => f.bits neg f.maxMag
        | .rup => if neg then f.bits neg f.maxMag else f.infBits sat neg
        | .rdn => if neg then f.infBits sat neg else f.bits neg f.maxMag
      else f.bits neg (roundMag f mode neg m e) := rfl

/-- Settles O15: the rounded code is on the format's grid, on which codes rise with the numbers they stand for. -/
theorem roundingCorrect : Obligations.RoundingCorrect := by
  refine ⟨roundsTo_roundAt, fun ty mode sat neg m e hty _ hm => ⟨rfl, infBits_fmtOf hty sat neg, rfl, ?_⟩⟩
  have hf := regular_fmtOf ty
  generalize hq : max (ilog m e - (fmtOf ty).mbits) (fmtOf ty).qmin = q
  have hspacing : (fmtOf ty).spacing m e = q := hq
  refine ⟨roundAt mode neg m e q, roundsTo_roundAt mode neg m e q, ?_⟩
  have hunits := codeUnits_roundMag (fmtOf ty) mode neg hm e
  rw [hspacing] at hunits
  rw [← hunits, ← codeUnits_maxMag hf, roundTo_fin, infBits_fmtOf hty]
  split
  case isTrue hle =>
    have hc := (codeUnits_le_iff (fmtOf ty)).mp hle
    rw [if_neg (Nat.not_lt.mpr hc)]
    refine ⟨fun hk => ?_, units_decodeF_bits hf neg hc⟩
    have h0 : roundMag (fmtOf ty) mode neg m e = 0 := codeUnits_eq_zero (by rw [hunits, hk, Nat.zero_mul])
    rw [decodeF_bits hf neg hc, if_pos h0]
  case isFalse hgt =>
    exact if_pos (Nat.lt_of_not_le fun hc => hgt ((codeUnits_le_iff (fmtOf ty)).mpr hc))

/-! # Widths of results -/

theorem bits_lt (f : Fmt) (neg : Bool) {c : Nat} (hc : c < 2 ^ f.width) : f.bits neg c < 2 ^ (f.width + 1) := by
  rw [Nat.pow_succ]
  cases neg with
  | false => rw [Fmt.bits, if_neg Bool.false_ne_true]; omega
  | true => rw [Fmt.bits, if_pos rfl]; omega

theorem nan_lt {f : Fmt} (hf : f.Regular) : f.nan < 2 ^ f.width := by
  have hhalf : 2 * 2 ^ (f.mbits - 1) = 2 ^ f.mbits := by
    rw [← Nat.pow_succ', Nat.succ_eq_add_one, Nat.sub_add_cancel hf.mbits]
  have hpos : 0 < 2 ^ (f.mbits - 1) := Nat.two_pow_pos _
  obtain ⟨E, hE⟩ := Nat.exists_eq_add_of_le' hf.two_pow_ebits
  unfold Fmt.nan Fmt.width
  rw [Nat.pow_add, hE, show E + 4 - 1 = E + 3 by omega, Nat.add_mul, Nat.add_mul]
  split <;> omega

theorem infBits_lt {f : Fmt} (hf : f.Regular) (sat neg : Bool) : f.infBits sat neg < 2 ^ (f.width + 1) := by
  unfold Fmt.infBits
  split
  · exact bits_lt f neg (maxMag_lt hf)
  · split
    · exact bits_lt f neg (infMag_lt hf)
    · exact Nat.lt_trans (nan_lt hf) (Nat.pow_lt_pow_succ (by decide))

/-- A rounded result fits the format: a sign and a magnitude. -/
theorem roundTo_lt {f : Fmt} (hf : f.Regular) (mode : RMode) (sat : Bool) (x : FVal) : roundTo f mode sat x < 2 ^ (f.width + 1) := by
  have hmax (neg : Bool) := bits_lt f neg (maxMag_lt hf)
  have hinf := infBits_lt hf sat
  cases x with
  | nan => exact Nat.lt_trans (nan_lt hf) (Nat.pow_lt_pow_succ (by decide))
  | inf neg => exact hinf neg
  | zero neg => exact bits_lt f neg (Nat.two_pow_pos _)
  | fin neg m e =>
    rw [roundTo_fin]
    split
    case isTrue =>
      cases mode with
      | rne | rna => exact hinf neg
      | rtz => exact hmax neg
      | rup => cases neg with
        | false => exact hinf false
        | true => exact hmax true
      | rdn => cases neg with
        | false => exact hmax false
        | true => exact hinf true
    case isFalse hle => exact bits_lt f neg (Nat.lt_of_le_of_lt (Nat.le_of_not_lt hle) (maxMag_lt hf))

theorem width_fmtOf {ty : Ty} (h : ty.isFloat = true) : (fmtOf ty).width + 1 = 8 * ty.size := by
  rcases float_cases h with rfl | rfl | rfl | rfl | rfl | rfl <;> rfl

theorem roundTo_fmtOf_lt {ty : Ty} (h : ty.isFloat = true) (mode : RMode) (sat : Bool) (x : FVal) :
    roundTo (fmtOf ty) mode sat x < 2 ^ (8 * ty.size) :=
  width_fmtOf h ▸ roundTo_lt (regular_fmtOf ty) mode sat x

/-- Bits are a sign and a magnitude code. -/
theorem bits_of_lt {f : Fmt} {x : Nat} (hx : x < 2 ^ (f.width + 1)) :
    f.bits (decide (x / 2 ^ f.width % 2 = 1)) (x % 2 ^ f.width) = x := by
  have hhigh : x / 2 ^ f.width < 2 := Nat.div_lt_of_lt_mul hx
  have hsplit := Nat.div_add_mod' x (2 ^ f.width)
  unfold Fmt.bits
  rcases Nat.le_one_iff_eq_zero_or_eq_one.mp (Nat.lt_succ_iff.mp hhigh) with h | h
  · rw [h, Nat.zero_mul] at hsplit
    rw [h, if_neg (by decide)]
    exact hsplit
  · rw [h, Nat.one_mul] at hsplit
    rw [h, if_pos (by decide)]
    exact hsplit

/-- The one magnitude code that stands for infinity. -/
theorem eq_infMag {f : Fmt} (hi : f.infs = true) {c : Nat} (hc : c < 2 ^ f.width) (hgt : f.maxMag < c) (hm : c % 2 ^ f.mbits = 0) :
    c = f.infMag := by
  have hpos : 0 < 2 ^ f.mbits := Nat.two_pow_pos _
  rw [Fmt.maxMag, if_pos hi] at hgt
  rw [Fmt.width, Nat.pow_add] at hc
  unfold Fmt.infMag
  generalize 2 ^ f.mbits = B at *
  obtain ⟨q, rfl⟩ := Nat.dvd_of_mod_eq_zero hm
  rw [Nat.mul_comm B q] at hgt hc ⊢
  have h1 : q < 2 ^ f.ebits := Nat.lt_of_mul_lt_mul_right hc
  have h2 : 2 ^ f.ebits - 1 ≤ q := Nat.le_of_mul_le_mul_right (show (2 ^ f.ebits - 1) * B ≤ q * B by omega) hpos
  rw [show q = 2 ^ f.ebits - 1 by omega]

/-- Only the bits of an infinity decode to it. -/
theorem eq_bits_of_decodeF_inf {f : Fmt} {x : Nat} {neg : Bool} (hx : x < 2 ^ (f.width + 1)) (h : decodeF f x = .inf neg) :
    f.infs = true ∧ x = f.bits neg f.infMag := by
  simp only [decodeF] at h
  split at h
  case isFalse =>
    split at h
    · cases h
    · split at h <;> cases h
  case isTrue hgt =>
    split at h
    case isFalse => cases h
    case isTrue hinf =>
      obtain ⟨hi, hm⟩ : f.infs = true ∧ x % 2 ^ f.width % 2 ^ f.mbits = 0 := by simpa using hinf
      cases h
      rw [← eq_infMag hi (Nat.mod_lt x (Nat.two_pow_pos _)) hgt hm, bits_of_lt hx]
      exact ⟨hi, rfl⟩

/-! # Narrow words (R57) -/

theorem narrowWord_of_ne {ty : Ty} (h8 : ty ≠ .i8) (h16 : ty ≠ .i16) (x : Nat) :
    narrowWord ty x = BitVec.ofNat 64 (x % 2 ^ (8 * ty.size)) := by
  unfold narrowWord
  split
  · exact absurd rfl h8
  · exact absurd rfl h16
  · rfl

/-- Every type but i8 and i16 fills the upper bits with zeros. -/
theorem toNat_narrowWord {ty : Ty} (h8 : ty ≠ .i8) (h16 : ty ≠ .i16) (x : Nat) : (narrowWord ty x).toNat = x % 2 ^ (8 * ty.size) := by
  have hsize : 8 * ty.size ≤ 64 := by cases ty <;> decide
  have hlt : x % 2 ^ (8 * ty.size) < 2 ^ 64 := 
    Nat.lt_of_lt_of_le (Nat.mod_lt x (Nat.two_pow_pos _)) (Nat.pow_le_pow_right (by decide) hsize)
  rw [narrowWord_of_ne h8 h16, BitVec.toNat_ofNat, Nat.mod_eq_of_lt hlt]

theorem toNat_narrowWord_of_lt {ty : Ty} (h : ty.isFloat = true) {x : Nat} (hx : x < 2 ^ (8 * ty.size)) : (narrowWord ty x).toNat = x := by
  rw [toNat_narrowWord (by rintro rfl; cases h) (by rintro rfl; cases h), Nat.mod_eq_of_lt hx]

/-- The bits beyond the type do not matter. -/
theorem narrowWord_mod (ty : Ty) (x : Nat) : narrowWord ty (x % 2 ^ (8 * ty.size)) =
    if ty = .i8 then ((BitVec.ofNat 8 x).signExtend 32).setWidth 64
    else if ty = .i16 then ((BitVec.ofNat 16 x).signExtend 32).setWidth 64 else BitVec.ofNat 64 (x % 2 ^ (8 * ty.size)) := by
  have hmod (w : Nat) : BitVec.ofNat w (x % 2 ^ w) = BitVec.ofNat w x := by
    apply BitVec.eq_of_toNat_eq
    rw [BitVec.toNat_ofNat, BitVec.toNat_ofNat, Nat.mod_mod]
  split
  case isTrue h => subst h; exact congrArg (fun y : BitVec 8 => (y.signExtend 32).setWidth 64) (hmod 8)
  case isFalse h8 =>
    split
    case isTrue h => subst h; exact congrArg (fun y : BitVec 16 => (y.signExtend 32).setWidth 64) (hmod 16)
    case isFalse h16 => rw [narrowWord_of_ne h8 h16, Nat.mod_mod]

theorem ofNat_wrapNat (w : Nat) (x : Int) : BitVec.ofNat w (wrapNat w x) = BitVec.ofInt w x := by
  apply BitVec.eq_of_toNat_eq
  rw [BitVec.toNat_ofNat, Nat.mod_eq_of_lt (wrapNat_lt w x), BitVec.toNat_ofInt]
  rw [wrapNat, Int.natCast_pow]
  rfl

/-- A signed number in its narrow word, where it is extended from w bits to 32. -/
theorem toInt_signExtended {w : Nat} (hw : 0 < w) (hw32 : w ≤ 32) {x : Int} (h1 : -2 ^ (w - 1) ≤ x) (h2 : x < 2 ^ (w - 1)) :
    ((((BitVec.ofNat w (wrapNat w x)).signExtend 32).setWidth 64).extractLsb' 0 32).toInt = x ∧
      (((BitVec.ofNat w (wrapNat w x)).signExtend 32).setWidth 64).extractLsb' 32 32 = 0#32 := by
  rw [ofNat_wrapNat]
  have hlow (y : BitVec 32) : (y.setWidth 64).extractLsb' 0 32 = y := by
    apply BitVec.eq_of_toNat_eq
    have := y.isLt
    rw [BitVec.extractLsb'_toNat, BitVec.toNat_setWidth, Nat.shiftRight_zero]
    omega
  have hhigh (y : BitVec 32) : (y.setWidth 64).extractLsb' 32 32 = 0#32 := by
    apply BitVec.eq_of_toNat_eq
    have := y.isLt
    rw [BitVec.extractLsb'_toNat, BitVec.toNat_setWidth, Nat.shiftRight_eq_div_pow, BitVec.toNat_ofNat]
    omega
  rw [hlow, hhigh, BitVec.toInt_signExtend_of_le hw32, BitVec.toInt_ofInt_eq_self hw h1 h2]
  exact ⟨rfl, rfl⟩

/-- The integer types of a conversion. -/
def isConvInt (ty : Ty) : Bool := !ty.isBits && !ty.isFloat && ty != .q4o

theorem convInt_cases {ty : Ty} (h : isConvInt ty = true) :
    ty = .i8 ∨ ty = .i16 ∨ ty = .i32 ∨ ty = .i64 ∨ ty = .n8 ∨ ty = .n16 ∨ ty = .n32 ∨ ty = .n64 := by
  revert h
  cases ty <;> decide

/-- A number in the range of an integer type stands in its narrow word. -/
theorem holdsNarrow_wrapNat {ty : Ty} (hty : isConvInt ty = true) {x : Int} (h1 : intMin ty ≤ x) (h2 : x ≤ intMax ty) :
    HoldsNarrow ty x (narrowWord ty (wrapNat (8 * ty.size) x)) := by
  rcases convInt_cases hty with rfl | rfl | rfl | rfl | hn
  case inl => exact toInt_signExtended (w := 8) (by decide) (by decide) h1 (Int.lt_of_le_sub_one h2)
  case inr.inl => exact toInt_signExtended (w := 16) (by decide) (by decide) h1 (Int.lt_of_le_sub_one h2)
  case inr.inr.inl =>
    have h := toInt_signExtended (w := 32) (by decide) (by decide) h1 (Int.lt_of_le_sub_one h2)
    have hw : narrowWord .i32 (wrapNat 32 x) = ((BitVec.ofNat 32 (wrapNat 32 x)).signExtend 32).setWidth 64 := by
      apply BitVec.eq_of_toNat_eq
      rw [toNat_narrowWord (by decide) (by decide), BitVec.signExtend_eq, BitVec.toNat_setWidth, BitVec.toNat_ofNat,
        show 8 * Ty.size .i32 = 32 from rfl]
      omega
    rw [show 8 * Ty.size .i32 = 32 from rfl, hw]
    exact h
  case inr.inr.inr.inl =>
    have hw : narrowWord .i64 (wrapNat 64 x) = BitVec.ofInt 64 x := by
      rw [← ofNat_wrapNat]
      apply BitVec.eq_of_toNat_eq
      rw [toNat_narrowWord (by decide) (by decide), BitVec.toNat_ofNat]
      rfl
    show (narrowWord .i64 (wrapNat 64 x)).toInt = x
    rw [hw]
    exact BitVec.toInt_ofInt_eq_self (by decide) h1 (Int.lt_of_le_sub_one h2)
  case inr.inr.inr.inr =>
    have hword := toNat_narrowWord (ty := ty) (by rintro rfl; exact absurd hn (by decide)) (by rintro rfl; exact absurd hn (by decide))
      (wrapNat (8 * ty.size) x)
    have hholds : HoldsNarrow ty x (narrowWord ty (wrapNat (8 * ty.size) x)) ↔
        ((narrowWord ty (wrapNat (8 * ty.size) x)).toNat : Int) = x := by rcases hn with rfl | rfl | rfl | rfl <;> rfl
    have hrange : 0 ≤ x ∧ x < 2 ^ (8 * ty.size) := by
      rcases hn with rfl | rfl | rfl | rfl <;> exact ⟨h1, Int.lt_of_le_sub_one h2⟩
    rw [hholds, hword, Nat.mod_eq_of_lt (wrapNat_lt _ x), wrapNat_emod, Int.emod_eq_of_lt hrange.1 hrange.2]

/-! # Conversion (R65, R259) -/

theorem intMin_le_intMax (ty : Ty) : intMin ty ≤ intMax ty := by
  cases ty <;> decide

/-- A clamped number stands in its narrow word. -/
theorem holdsNarrow_clampInt {ty : Ty} (hty : isConvInt ty = true) (x : Int) :
    HoldsNarrow ty (max (intMin ty) (min (intMax ty) x)) (narrowWord ty (wrapNat (8 * ty.size) (clampInt (intMin ty) (intMax ty) x))) :=
  holdsNarrow_wrapNat hty (Int.le_max_left _ _) (Int.max_le.mpr ⟨intMin_le_intMax ty, Int.min_le_left _ _⟩)

theorem zero_in_range (ty : Ty) : intMin ty ≤ 0 ∧ 0 ≤ intMax ty := by
  cases ty <;> decide

/-- A float as an integer: rounded, then clamped; NaN and zeros give 0 (R65). -/
theorem holdsNarrow_toIntSat {ty : Ty} (hty : isConvInt ty = true) (rm : RMode) (v : FVal) :
    HoldsNarrow ty (match v with
      | .nan | .zero _ => 0
      | .inf n => if n then intMin ty else intMax ty
      | .fin n m e => max (intMin ty) (min (intMax ty) ((if n then -1 else 1) * (roundAt rm n m e 0 : Nat))))
      (narrowWord ty (wrapNat (8 * ty.size) (toIntSat ty rm v))) := by
  obtain ⟨h0, h0'⟩ := zero_in_range ty
  cases v with
  | nan | zero => exact holdsNarrow_wrapNat hty h0 h0'
  | inf n =>
    cases n
    · exact holdsNarrow_wrapNat hty (intMin_le_intMax ty) (Int.le_refl _)
    · exact holdsNarrow_wrapNat hty (Int.le_refl _) (intMin_le_intMax ty)
  | fin n m e => exact holdsNarrow_clampInt hty _

/-- An operand has the bits of its type. -/
theorem srcA_lt (c : Cur) (u : Bool) (ty : Ty) (t : Nat) (n : Reg) : (c.srcA u ty t n).toNat < 2 ^ (8 * ty.size) := by
  unfold Cur.srcA
  generalize (if u then c.g.kget n.toNat else c.g.vread ty.wide t n.toNat) = x
  have := x.isLt
  have hsize : ty.size = 8 ∨ ty.size = 4 ∨ ty.size = 2 ∨ ty.size = 1 := by cases ty <;> decide
  rcases hsize with h | h | h | h <;>
    simp only [lowBits, h, BitVec.toNat_setWidth, BitVec.extractLsb'_toNat, Nat.shiftRight_zero] <;> omega

section
variable {dt st : Ty} (rm : RMode) (sat : Bool) {x : Nat} (hx : x < 2 ^ (8 * st.size))
include hx

theorem convert_bits (h : (dt.isBits || st.isBits) = true) : convert dt st rm sat x = (x % 2 ^ (8 * dt.size), false) := by
  simp only [convert, Nat.mod_eq_of_lt hx, h, if_true]

variable (h : (dt.isBits || st.isBits) = false)
include h

theorem convert_format (hd : dt.isFloat = true) (hs : st.isFloat = true) (hne : dt ≠ st) :
    convert dt st rm sat x =
      (roundTo (fmtOf dt) rm sat (decodeF (fmtOf st) x), assistOf dt rm (decodeF (fmtOf st) x)) := by
  simp only [convert, Nat.mod_eq_of_lt hx, h, hd, hs, hne, if_false, Bool.false_eq_true]

theorem convert_toInt (hd : dt.isFloat = false) (hs : st.isFloat = true) :
    convert dt st rm sat x = (wrapNat (8 * dt.size) (toIntSat dt rm (decodeF (fmtOf st) x)), false) := by
  simp only [convert, Nat.mod_eq_of_lt hx, h, hd, hs, if_false, Bool.false_eq_true]

theorem convert_ofInt (hd : dt.isFloat = true) (hs : st.isFloat = false) :
    convert dt st rm sat x = (roundTo (fmtOf dt) rm sat (ofInt (intOf st x) 0), false) := by
  simp only [convert, Nat.mod_eq_of_lt hx, h, hd, hs, if_false, Bool.false_eq_true]

theorem convert_int (hd : dt.isFloat = false) (hs : st.isFloat = false) :
    convert dt st rm sat x = (wrapNat (8 * dt.size) (clampInt (intMin dt) (intMax dt) (intOf st x)), false) := by
  simp only [convert, Nat.mod_eq_of_lt hx, h, hd, hs, if_false, Bool.false_eq_true]

end

/-- A float in its own type stays, but for NaN and, under .sat, infinities. -/
theorem convert_same {ty : Ty} (hty : ty.isFloat = true) (rm : RMode) (sat : Bool) {x : Nat} (hx : x < 2 ^ (8 * ty.size)) :
    convert ty ty rm sat x = ((match decodeF (fmtOf ty) x with
      | .nan => (fmtOf ty).nan
      | .inf n => if sat then (fmtOf ty).bits n (fmtOf ty).maxMag else x
      | _ => x), false) := by
  have hbits : ty.isBits = false := by rcases float_cases hty with rfl | rfl | rfl | rfl | rfl | rfl <;> rfl
  simp only [convert, Nat.mod_eq_of_lt hx, hbits, hty, Bool.or_self, Bool.false_eq_true, if_false, if_true]
  cases hv : decodeF (fmtOf ty) x with
  | nan | zero | fin => rfl
  | inf n =>
    obtain ⟨hi, hinf⟩ := eq_bits_of_decodeF_inf (by rwa [width_fmtOf hty]) hv
    simp only [Fmt.infBits, hi, if_true, ← hinf]

/-- What stays of a float in its own type fits that type. -/
theorem convert_same_lt {ty : Ty} (hty : ty.isFloat = true) (rm : RMode) (sat : Bool) {x : Nat} (hx : x < 2 ^ (8 * ty.size)) :
    (convert ty ty rm sat x).1 < 2 ^ (8 * ty.size) := by
  have hf := regular_fmtOf ty
  rw [convert_same hty rm sat hx]
  cases decodeF (fmtOf ty) x with
  | nan => exact width_fmtOf hty ▸ Nat.lt_trans (nan_lt hf) (Nat.pow_lt_pow_succ (by decide))
  | zero | fin => exact hx
  | inf n =>
    cases sat
    · exact hx
    · exact width_fmtOf hty ▸ bits_lt (fmtOf ty) n (maxMag_lt hf)

theorem assistOf_iff (ty : Ty) (rm : RMode) (x : FVal) :
    assistOf ty rm x = true ↔ (ty = .f32 ∨ ty = .f64) ∧ tinyIn (fmtOf ty) rm x = true := by
  simp only [assistOf, Bool.and_eq_true, Bool.or_eq_true, decide_eq_true_eq]

/-- What the encoding admits of the destination of `cvt`. -/
theorem wellFormed_cvt {p : Pred} {dt st : Ty} {rm : RMode} {sat : Bool} {d a : Reg}
    (h : (Instr.cvt p dt st rm sat d a).wellFormed = true) : dt ≠ .q4o ∧ okV dt.wide d = true := by
  have h' : (dt != .q4o && st != .q4o && okV dt.wide d && okV st.wide a) = true := h
  simp only [Bool.and_eq_true, bne_iff_ne] at h'
  obtain ⟨⟨⟨hdq, -⟩, hd⟩, -⟩ := h'
  exact ⟨hdq, hd⟩

/-- Settles O18, by the kinds of the two types: bits, floating-point, integer. -/
theorem conversions : Obligations.Conversions := by
  intro s c p dt st rm sat d a hs
  obtain ⟨hdq, hd⟩ := wellFormed_cvt hs.wf
  refine completesFloat_of (h := { opc := 0x40#8, sub := BitVec.ofNat 8 (8 * st.code.toNat + (if sat then 1 else 0)), ty := dt, mode := rm })
    _ _ hs rfl hd fun th _ _ => ⟨rfl, ?_⟩
  dsimp only
  have hx := srcA_lt c false st th a
  generalize (c.srcA false st th a).toNat = x at hx ⊢
  cases hb : dt.isBits || st.isBits with
  | true =>
    simp only [convert_bits rm sat hx hb, if_true]
    exact ⟨trivial, narrowWord_mod dt x⟩
  | false =>
    cases hdf : dt.isFloat with
    | true =>
      cases hsf : st.isFloat with
      | true =>
        by_cases heq : dt = st
        · subst heq
          simp only [if_true, Bool.false_eq_true, if_false]
          have hsame := convert_same hdf rm sat hx
          exact ⟨congrArg Prod.snd hsame,
            (toNat_narrowWord_of_lt hdf (convert_same_lt hdf rm sat hx)).trans (congrArg Prod.fst hsame)⟩
        · simp only [convert_format rm sat hx hb hdf hsf heq, heq, if_true, Bool.false_eq_true, if_false]
          exact ⟨toNat_narrowWord_of_lt hdf (roundTo_fmtOf_lt hdf _ _ _), assistOf_iff dt rm _⟩
      | false =>
        simp only [convert_ofInt rm sat hx hb hdf hsf, if_true, Bool.false_eq_true, if_false]
        exact ⟨trivial, toNat_narrowWord_of_lt hdf (roundTo_fmtOf_lt hdf _ _ _)⟩
    | false =>
      have hint : isConvInt dt = true := by
        rw [Bool.or_eq_false_iff] at hb
        simp only [isConvInt, hb.1, hdf, Bool.not_false, Bool.true_and, bne_iff_ne]
        exact hdq
      cases hsf : st.isFloat with
      | true =>
        simp only [convert_toInt rm sat hx hb hdf hsf, if_true, Bool.false_eq_true, if_false]
        exact ⟨trivial, holdsNarrow_toIntSat hint rm _⟩
      | false =>
        simp only [convert_int rm sat hx hb hdf hsf, Bool.false_eq_true, if_false]
        exact ⟨trivial, holdsNarrow_clampInt hint _⟩

/-! # Values as whole numbers of a unit -/

/-- A value is a number, and a whole number of units of 2^lo. -/
def FVal.OnGrid (lo : Int) : FVal → Prop
  | .zero _ => True
  | .fin _ _ e => lo ≤ e
  | _ => False

/-- `scaled` counts the units of a number. -/
theorem units_scaled {lo : Int} {v : FVal} (hv : v.OnGrid lo) : Units lo v (v.scaled lo) := by
  cases v with
  | nan | inf => exact hv.elim
  | zero => rfl
  | fin => exact ⟨hv, rfl⟩

theorem onGrid_of_units {lo : Int} {v : FVal} {x : Int} (h : Units lo v x) : v.OnGrid lo ∧ x = v.scaled lo := by
  cases v with
  | nan | inf => exact h.elim
  | zero => exact ⟨trivial, h⟩
  | fin => exact h

theorem scaled_fin (m : Nat) (e lo : Int) : (FVal.fin false m e).scaled lo = (m * 2 ^ (e - lo).toNat : Nat) := Int.one_mul _

/-- A smaller unit has more of them in a number. -/
theorem scaled_finer {lo lo' : Int} (h : lo' ≤ lo) {v : FVal} (hv : v.OnGrid lo) : v.scaled lo' = v.scaled lo * 2 ^ (lo - lo').toNat := by
  cases v with
  | nan | inf => exact hv.elim
  | zero => exact (Int.zero_mul _).symm
  | fin n m e =>
    have hlo : lo ≤ e := hv
    simp only [FVal.scaled, show (e - lo').toNat = (e - lo).toNat + (lo - lo').toNat by omega, Nat.pow_add, ← Nat.mul_assoc]
    rw [Int.natCast_mul, Int.natCast_pow, Int.mul_assoc]
    rfl

theorem scaled_lt_finer {lo lo' : Int} (h : lo' ≤ lo) {a b : FVal} (ha : a.OnGrid lo) (hb : b.OnGrid lo) :
    a.scaled lo' < b.scaled lo' ↔ a.scaled lo < b.scaled lo := by
  have hpos : (0 : Int) < 2 ^ (lo - lo').toNat := Int.pow_pos (by decide)
  rw [scaled_finer h ha, scaled_finer h hb]
  exact ⟨fun hlt => Int.lt_of_mul_lt_mul_right hlt (Int.le_of_lt hpos), fun hlt => Int.mul_lt_mul_of_pos_right hlt hpos⟩

/-- The order of two numbers does not depend on the unit in which they are counted. -/
theorem scaled_lt_iff {lo lo' : Int} {a b : FVal} (ha : a.OnGrid lo) (hb : b.OnGrid lo) (ha' : a.OnGrid lo') (hb' : b.OnGrid lo') :
    a.scaled lo' < b.scaled lo' ↔ a.scaled lo < b.scaled lo := by
  rcases Int.le_total lo' lo with h | h
  · exact scaled_lt_finer h ha hb
  · exact (scaled_lt_finer h ha' hb').symm

theorem valueLess_iff {lo : Int} {a b : FVal} (ha : a.OnGrid lo) (hb : b.OnGrid lo) : ValueLess a b ↔ a.scaled lo < b.scaled lo := by
  have hless : ValueLess a b ↔ ∃ lo i j, Units lo a i ∧ Units lo b j ∧ i < j := by
    cases a with
    | nan | inf => exact ha.elim
    | zero | fin =>
      cases b with
      | nan | inf => exact hb.elim
      | zero | fin => exact Iff.rfl
  rw [hless]
  constructor
  · rintro ⟨lo', i, j, hi, hj, hij⟩
    obtain ⟨ha', rfl⟩ := onGrid_of_units hi
    obtain ⟨hb', rfl⟩ := onGrid_of_units hj
    exact (scaled_lt_iff ha hb ha' hb').mp hij
  · intro h
    exact ⟨lo, _, _, units_scaled ha, units_scaled hb, h⟩

/-- Two numbers are whole numbers of units of their least exponent. -/
theorem onGrid_lowExp {lo : Int} {a b : FVal} (ha : a.OnGrid lo) (hb : b.OnGrid lo) : a.OnGrid (lowExp [a, b]) ∧ b.OnGrid (lowExp [a, b]) := by
  cases a with
  | nan | inf => exact ha.elim
  | zero =>
    cases b with
    | nan | inf => exact hb.elim
    | zero => exact ⟨trivial, trivial⟩
    | fin n m e => exact ⟨trivial, Int.min_le_left e e⟩
  | fin n m e =>
    cases b with
    | nan | inf => exact hb.elim
    | zero => exact ⟨Int.min_le_left e e, trivial⟩
    | fin n' m' e' =>
      exact ⟨Int.le_trans (Int.min_le_left (min e e) e') (Int.min_le_left e e), Int.min_le_right (min e e) e'⟩

/-- `fCmp` compares two numbers in any unit. -/
theorem fCmp_cases {lo : Int} {a b : FVal} (ha : a.OnGrid lo) (hb : b.OnGrid lo) :
    (a.scaled lo < b.scaled lo ∧ fCmp a b = -1) ∨ (b.scaled lo < a.scaled lo ∧ fCmp a b = 1) ∨ (a.scaled lo = b.scaled lo ∧ fCmp a b = 0) := by
  obtain ⟨ha', hb'⟩ := onGrid_lowExp ha hb
  have hab := scaled_lt_iff ha hb ha' hb'
  have hba := scaled_lt_iff hb ha hb' ha'
  have heq : fCmp a b = if a.scaled (lowExp [a, b]) < b.scaled (lowExp [a, b]) then -1
      else if b.scaled (lowExp [a, b]) < a.scaled (lowExp [a, b]) then 1 else 0 := by
    cases a with
    | nan | inf => exact ha.elim
    | zero | fin =>
      cases b with
      | nan | inf => exact hb.elim
      | zero | fin => rfl
  rcases Int.lt_trichotomy (a.scaled lo) (b.scaled lo) with h | h | h
  · exact .inl ⟨h, by rw [heq, if_pos (hab.mpr h)]⟩
  · exact .inr (.inr ⟨h, by rw [heq, if_neg (by omega), if_neg (by omega)]⟩)
  · exact .inr (.inl ⟨h, by rw [heq, if_neg (by omega), if_pos (hba.mpr h)]⟩)

theorem fCmp_neg_iff {lo : Int} {a b : FVal} (ha : a.OnGrid lo) (hb : b.OnGrid lo) : fCmp a b < 0 ↔ a.scaled lo < b.scaled lo := by
  have := fCmp_cases ha hb
  omega

theorem fCmp_nonpos_iff {lo : Int} {a b : FVal} (ha : a.OnGrid lo) (hb : b.OnGrid lo) : fCmp a b ≤ 0 ↔ a.scaled lo ≤ b.scaled lo := by
  have := fCmp_cases ha hb
  omega

/-- `ilog` is the exponent of the leading bit. -/
theorem ilog_bounds {m : Nat} (hm : m ≠ 0) {e lo : Int} (hlo : lo ≤ e) :
    ((2 ^ (ilog m e - lo).toNat : Nat) : Int) ≤ (FVal.fin false m e).scaled lo ∧
      (FVal.fin false m e).scaled lo < (2 ^ (ilog m e + 1 - lo).toNat : Nat) := by
  have hle := Nat.mul_le_mul_right (2 ^ (e - lo).toNat) (Nat.log2_self_le hm)
  have hlt := Nat.mul_lt_mul_of_pos_right (Nat.lt_log2_self (n := m)) (Nat.two_pow_pos (e - lo).toNat)
  rw [← Nat.pow_add] at hle hlt
  rw [scaled_fin, show (ilog m e - lo).toNat = m.log2 + (e - lo).toNat by unfold ilog; omega,
    show (ilog m e + 1 - lo).toNat = m.log2 + 1 + (e - lo).toNat by unfold ilog; omega]
  exact ⟨Int.ofNat_le.mpr hle, Int.ofNat_lt.mpr hlt⟩

/-! # The block scale (R71) -/

theorem quantMax_ne_zero (dt : Ty) : (quantMax dt).1 ≠ 0 := by
  cases dt <;> decide

/-- fmax · 2^t as a value. -/
def quantBound (dt : Ty) (t : Int) : FVal := .fin false (quantMax dt).1 ((quantMax dt).2 + t)

theorem scaled_quantBound_nonneg (dt : Ty) (t lo : Int) : 0 ≤ (quantBound dt t).scaled lo := by
  rw [quantBound, scaled_fin]
  exact Int.natCast_nonneg _

theorem scaled_quantBound_mono (dt : Ty) {t t' : Int} (h : t ≤ t') (lo : Int) : (quantBound dt t).scaled lo ≤ (quantBound dt t').scaled lo := by
  rw [quantBound, quantBound, scaled_fin, scaled_fin]
  exact Int.ofNat_le.mpr (Nat.mul_le_mul_left _ (Nat.pow_le_pow_right Nat.two_pos (by omega)))

/-- fmax · 2^t lies between two powers of two. -/
theorem quantBound_bounds (dt : Ty) {t lo : Int} (hlo : lo ≤ (quantMax dt).2 + t) :
    ((2 ^ (ilog (quantMax dt).1 (quantMax dt).2 + t - lo).toNat : Nat) : Int) ≤ (quantBound dt t).scaled lo ∧
      (quantBound dt t).scaled lo < (2 ^ (ilog (quantMax dt).1 (quantMax dt).2 + t + 1 - lo).toNat : Nat) := by
  have h := ilog_bounds (quantMax_ne_zero dt) hlo
  rwa [show ilog (quantMax dt).1 ((quantMax dt).2 + t) = ilog (quantMax dt).1 (quantMax dt).2 + t from (Int.add_assoc ..).symm] at h

/-- Every finite element of a block, and fmax times every scale that it can have, is a whole number of units of 2^-160. -/
def blockGrid : Int := -160

/-- The finite values of f32 have a smallest and a largest exponent; f16 and bf16 have no others. -/
def FVal.IsSource : FVal → Prop
  | .fin _ m e => m ≠ 0 ∧ -149 ≤ e ∧ ilog m e ≤ 127
  | _ => True

theorem quantMax_exponents (dt : Ty) : 5 ≤ (quantMax dt).2 ∧ 6 ≤ ilog (quantMax dt).1 (quantMax dt).2 ∧
    ilog (quantMax dt).1 (quantMax dt).2 ≤ (quantMax dt).2 + 2 := by
  cases dt <;> decide

theorem le_ilog (m : Nat) (e : Int) : e ≤ ilog m e := by
  unfold ilog
  omega

/-- `scaleExp` is the least exponent t with m · 2^e ≤ fmax · 2^t. -/
theorem scaleExp_bounds (dt : Ty) {m : Nat} (hm : m ≠ 0) {e : Int} (he : -149 ≤ e) :
    (FVal.fin false m e).scaled blockGrid ≤ (quantBound dt (scaleExp dt m e)).scaled blockGrid ∧
      (quantBound dt (scaleExp dt m e - 1)).scaled blockGrid < (FVal.fin false m e).scaled blockGrid := by
  obtain ⟨hq5, hq6, hq2⟩ := quantMax_exponents dt
  have hlog := le_ilog m e
  have hgrid : blockGrid = -160 := rfl
  obtain ⟨hm1, hm2⟩ := ilog_bounds hm (lo := blockGrid) (e := e) (by omega)
  have hbound {t : Int} (ht : ilog m e - ilog (quantMax dt).1 (quantMax dt).2 - 1 ≤ t) := quantBound_bounds dt (t := t) (lo := blockGrid) (by omega)
  have hdef : scaleExp dt m e = if fCmp (.fin false m e) (quantBound dt (ilog m e - ilog (quantMax dt).1 (quantMax dt).2)) ≤ 0
      then ilog m e - ilog (quantMax dt).1 (quantMax dt).2 else ilog m e - ilog (quantMax dt).1 (quantMax dt).2 + 1 := rfl
  have hcmp := fCmp_nonpos_iff (lo := blockGrid) (a := .fin false m e)
    (b := quantBound dt (ilog m e - ilog (quantMax dt).1 (quantMax dt).2)) (show blockGrid ≤ e by omega)
    (show blockGrid ≤ (quantMax dt).2 + (ilog m e - ilog (quantMax dt).1 (quantMax dt).2) by omega)
  rw [hdef]
  generalize ilog (quantMax dt).1 (quantMax dt).2 = lq at *
  generalize ilog m e = lm at *
  split
  case isTrue h =>
    refine ⟨hcmp.mp h, Int.lt_of_lt_of_le (hbound (Int.le_refl _)).2 ?_⟩
    rwa [show lq + (lm - lq - 1) + 1 = lm by omega]
  case isFalse h =>
    refine ⟨Int.le_trans (Int.le_of_lt hm2) ?_, ?_⟩
    · have hle := (hbound (t := lm - lq + 1) (by omega)).1
      rwa [show lq + (lm - lq + 1) = lm + 1 by omega] at hle
    · rw [Int.add_sub_cancel]
      exact Int.not_le.mp fun h' => h (hcmp.mpr h')

theorem scaleExp_le (dt : Ty) {m : Nat} {e : Int} (h : ilog m e ≤ 127) : scaleExp dt m e ≤ 122 := by
  obtain ⟨-, hq6, -⟩ := quantMax_exponents dt
  simp only [scaleExp]
  split <;> omega

/-- The magnitude of a value. -/
def FVal.mag (x : FVal) : FVal := if x.neg then x.negate else x

theorem mag_zero (n : Bool) : (FVal.zero n).mag = .zero false := by cases n <;> rfl
theorem mag_fin (n : Bool) (m : Nat) (e : Int) : (FVal.fin n m e).mag = .fin false m e := by cases n <;> rfl

theorem onGrid_mag {lo : Int} {x : FVal} (h : x.OnGrid lo) : x.mag.OnGrid lo := by
  cases x with
  | nan | inf => exact h.elim
  | zero n => rw [mag_zero]; trivial
  | fin n m e => rw [mag_fin]; exact h

/-- The greater of a magnitude found so far and that of one more element. -/
def largerMag (a x : FVal) : FVal := if fCmp a x.mag < 0 then x.mag else a

theorem largerMag_spec {lo : Int} {a x : FVal} (ha : a.OnGrid lo) (hx : x.OnGrid lo) :
    (largerMag a x = a ∨ largerMag a x = x.mag) ∧ (largerMag a x).OnGrid lo ∧ a.scaled lo ≤ (largerMag a x).scaled lo ∧
      x.mag.scaled lo ≤ (largerMag a x).scaled lo := by
  have hcmp := fCmp_neg_iff ha (onGrid_mag hx)
  unfold largerMag
  split
  case isTrue h => exact ⟨.inr rfl, onGrid_mag hx, Int.le_of_lt (hcmp.mp h), Int.le_refl _⟩
  case isFalse h => exact ⟨.inl rfl, ha, Int.le_refl _, Int.not_lt.mp fun h' => h (hcmp.mpr h')⟩

/-- The largest magnitude of a block of numbers, from one found so far, is that or an element's, and no element's is larger. -/
theorem largestMag_spec {lo : Int} (xs : List FVal) (hxs : ∀ x ∈ xs, x.OnGrid lo) (a : FVal) (ha : a.OnGrid lo) :
    (xs.foldl largerMag a = a ∨ ∃ x ∈ xs, xs.foldl largerMag a = x.mag) ∧ a.scaled lo ≤ (xs.foldl largerMag a).scaled lo ∧
      ∀ x ∈ xs, x.mag.scaled lo ≤ (xs.foldl largerMag a).scaled lo := by
  induction xs generalizing a with
  | nil => exact ⟨.inl rfl, Int.le_refl _, fun _ hx => absurd hx List.not_mem_nil⟩
  | cons y ys ih =>
    obtain ⟨hor, hgrid, hal, hyl⟩ := largerMag_spec ha (hxs y List.mem_cons_self)
    obtain ⟨hor', hle, hall⟩ := ih (fun x hx => hxs x (List.mem_cons_of_mem y hx)) (largerMag a y) hgrid
    rw [List.foldl_cons]
    refine ⟨?_, Int.le_trans hal hle, fun x hx => ?_⟩
    · rcases hor' with h | ⟨x, hx, h⟩
      · rcases hor with h' | h'
        · exact .inl (h.trans h')
        · exact .inr ⟨y, List.mem_cons_self, h.trans h'⟩
      · exact .inr ⟨x, List.mem_cons_of_mem y hx, h⟩
    · rcases List.mem_cons.mp hx with rfl | hx
      · exact Int.le_trans hyl hle
      · exact hall x hx

/-- A value is no number. -/
def FVal.IsSpecial (x : FVal) : Prop := x = .nan ∨ x = .inf false ∨ x = .inf true

theorem isSpecial_iff (x : FVal) : (x.isNan || x.isInf.isSome) = true ↔ x.IsSpecial := by
  cases x with
  | nan => exact ⟨fun _ => .inl rfl, fun _ => rfl⟩
  | inf n => cases n with
    | false => exact ⟨fun _ => .inr (.inl rfl), fun _ => rfl⟩
    | true => exact ⟨fun _ => .inr (.inr rfl), fun _ => rfl⟩
  | zero | fin => exact ⟨fun h => (Bool.false_ne_true h).elim, by rintro (h | h | h) <;> cases h⟩

theorem onGrid_of_source {x : FVal} (hx : ¬x.IsSpecial) (hsrc : x.IsSource) : x.OnGrid blockGrid := by
  cases x with
  | nan => exact hx (.inl rfl)
  | inf n => cases n with
    | false => exact hx (.inr (.inl rfl))
    | true => exact hx (.inr (.inr rfl))
  | zero => trivial
  | fin n m e => exact Int.le_trans (by decide) hsrc.2.1

theorem any_special_iff (xs : List FVal) : (xs.any fun x => x.isNan || x.isInf.isSome) = true ↔ ∃ x ∈ xs, x.IsSpecial := by
  rw [List.any_eq_true]
  exact exists_congr fun x => and_congr_right fun _ => isSpecial_iff x

theorem blockScale_special {dt : Ty} {xs : List FVal} (h : ∃ x ∈ xs, x.IsSpecial) : blockScale dt xs = 255 := by
  rw [blockScale, if_pos ((any_special_iff xs).mpr h)]

/-- The scale of a block without NaN and infinities is that of its largest magnitude. -/
theorem blockScale_numbers {dt : Ty} {xs : List FVal} (h : ¬∃ x ∈ xs, x.IsSpecial) :
    (∀ n, xs.foldl largerMag (.zero false) = .zero n → blockScale dt xs = 0) ∧
      ∀ n m e, xs.foldl largerMag (.zero false) = .fin n m e → blockScale dt xs = (max (scaleExp dt m e) (-127) + 127).toNat := by
  unfold blockScale
  rw [if_neg fun h' => h ((any_special_iff xs).mp h')]
  have hfold : (xs.foldl (fun a x =>
      let y := if x.neg then x.negate else x
      if fCmp a y < 0 then y else a) (.zero false)) = xs.foldl largerMag (.zero false) := rfl
  rw [hfold]
  exact ⟨fun n hb => by rw [hb], fun n m e hb => by rw [hb]⟩

/-- No magnitude of a block is above fmax times a scale, and one is above fmax times half of it, where that is a scale. -/
def ScaleFits (dt : Ty) (xs : List FVal) (sb : Nat) : Prop :=
  (∀ x ∈ xs, x.mag.scaled blockGrid ≤ (quantBound dt ((sb : Int) - 127)).scaled blockGrid) ∧
    (sb ≠ 0 → ∃ x ∈ xs, (quantBound dt ((sb : Int) - 128)).scaled blockGrid < x.mag.scaled blockGrid)

/-- The scale of a block of numbers fits it. -/
theorem blockScale_bounds (dt : Ty) {xs : List FVal} (h : ¬∃ x ∈ xs, x.IsSpecial) (hsrc : ∀ x ∈ xs, x.IsSource) :
    blockScale dt xs ≤ 249 ∧ ScaleFits dt xs (blockScale dt xs) := by
  have hgrid (x : FVal) (hx : x ∈ xs) : x.OnGrid blockGrid := onGrid_of_source (fun hs => h ⟨x, hx, hs⟩) (hsrc x hx)
  obtain ⟨hor, -, hall⟩ := largestMag_spec xs hgrid (.zero false) trivial
  obtain ⟨hzero, hfin⟩ := blockScale_numbers (dt := dt) h
  have hnone {n : Bool} (hbig : xs.foldl largerMag (.zero false) = .zero n) :
      blockScale dt xs ≤ 249 ∧ ScaleFits dt xs (blockScale dt xs) := by
    have h0 := hzero n hbig
    rw [hbig] at hall
    exact ⟨by omega, fun y hy => Int.le_trans (hall y hy) (scaled_quantBound_nonneg dt _ _), fun hne => absurd h0 hne⟩
  rcases hor with hbig | ⟨x, hx, hbig⟩
  · exact hnone hbig
  · have hs := hsrc x hx
    have hg := hgrid x hx
    cases x with
    | nan | inf => exact hg.elim
    | zero n => exact hnone (hbig.trans (mag_zero n))
    | fin n m e =>
      obtain ⟨hm, he, hlog⟩ := hs
      obtain ⟨hle, hlt⟩ := scaleExp_bounds dt hm he
      have htop := scaleExp_le dt hlog
      have hsb := hfin false m e (hbig.trans (mag_fin n m e))
      rw [hbig, mag_fin] at hall
      generalize scaleExp dt m e = t at *
      generalize blockScale dt xs = sb at *
      have hmax : (sb : Int) = max t (-127) + 127 := by
        rw [hsb]
        exact Int.toNat_of_nonneg (by omega)
      refine ⟨by omega, fun y hy => Int.le_trans (hall y hy) (Int.le_trans hle (scaled_quantBound_mono dt (by omega) _)), fun hne => ?_⟩
      refine ⟨_, hx, ?_⟩
      rw [mag_fin, show (sb : Int) - 128 = t - 1 by omega]
      exact hlt

/-- R71 in the order of values. -/
theorem blockScale_spec (dt : Ty) {xs : List FVal} (hsrc : ∀ x ∈ xs, x.IsSource) :
    blockScale dt xs ≤ 255 ∧ (blockScale dt xs = 255 ↔ ∃ x ∈ xs, x.IsSpecial) ∧
      (blockScale dt xs ≠ 255 →
        (∀ x ∈ xs, ¬ValueLess (quantBound dt (blockScale dt xs - 127)) x.mag) ∧
          (blockScale dt xs ≠ 0 → ∃ x ∈ xs, ValueLess (quantBound dt (blockScale dt xs - 128)) x.mag)) := by
  by_cases h : ∃ x ∈ xs, x.IsSpecial
  · have hsb := blockScale_special (dt := dt) h
    exact ⟨Nat.le_of_eq hsb, ⟨fun _ => h, fun _ => hsb⟩, fun hne => absurd hsb hne⟩
  · obtain ⟨hle, hall, hex⟩ := blockScale_bounds dt h hsrc
    have hq5 := (quantMax_exponents dt).1
    have hless {t : Int} (ht : -128 ≤ t) {x : FVal} (hx : x ∈ xs) :
        ValueLess (quantBound dt t) x.mag ↔ (quantBound dt t).scaled blockGrid < x.mag.scaled blockGrid :=
      valueLess_iff (show -160 ≤ (quantMax dt).2 + t by omega) (onGrid_mag (onGrid_of_source (fun hs => h ⟨x, hx, hs⟩) (hsrc x hx)))
    refine ⟨by omega, ⟨fun h255 => by omega, fun h' => absurd h' h⟩, fun _ => ⟨fun x hx => ?_, fun h0 => ?_⟩⟩
    · rw [hless (by omega) hx]
      exact Int.not_lt.mpr (hall x hx)
    · obtain ⟨x, hx, hlt⟩ := hex h0
      exact ⟨x, hx, (hless (by omega) hx).mpr hlt⟩

/-- A finite value of a format with infinities has an exponent field below the top one. -/
theorem decodeF_fin_bounds {f : Fmt} (hf : f.Regular) (hi : f.infs = true) {x : Nat} {n : Bool} {m : Nat} {e : Int}
    (h : decodeF f x = .fin n m e) : m ≠ 0 ∧ f.qmin ≤ e ∧ ilog m e ≤ (2 ^ f.ebits : Nat) - 2 - f.bias := by
  have hB := hf.two_pow_mbits
  have hE := hf.two_pow_ebits
  simp only [decodeF] at h
  generalize x % 2 ^ f.width = c at h
  have hlog {k : Nat} (hk : k ≠ 0) (hlt : k < 2 ^ (f.mbits + 1)) : k.log2 ≤ f.mbits := Nat.lt_succ_iff.mp ((Nat.log2_lt hk).mpr hlt)
  rw [Nat.pow_succ] at hlog
  have hq : f.qmin = 1 - (f.bias : Int) - f.mbits := rfl
  have hr : c % 2 ^ f.mbits < 2 ^ f.mbits := Nat.mod_lt c (Nat.two_pow_pos _)
  split at h
  case isTrue => split at h <;> cases h
  rename_i hgt
  split at h
  case isTrue => cases h
  rename_i h0
  split at h
  case isTrue hsub =>
    have hlow : c % 2 ^ f.mbits = c := Nat.mod_eq_of_lt ((Nat.div_eq_zero_iff_lt (Nat.two_pow_pos _)).mp hsub)
    rw [hlow] at h hr
    cases h
    have := hlog h0 (by omega)
    exact ⟨h0, Int.le_refl _, by unfold ilog; omega⟩
  case isFalse hsub =>
    cases h
    have hfield : c / 2 ^ f.mbits < 2 ^ f.ebits - 1 := by
      rw [Fmt.maxMag, if_pos hi] at hgt
      refine Nat.div_lt_of_lt_mul ?_
      have : 0 < (2 ^ f.ebits - 1) * 2 ^ f.mbits := Nat.mul_pos (by omega) (by omega)
      rw [Nat.mul_comm]
      omega
    have := hlog (k := c % 2 ^ f.mbits + 2 ^ f.mbits) (by omega) (by omega)
    generalize c / 2 ^ f.mbits = field at *
    exact ⟨by omega, by omega, by unfold ilog; omega⟩

/-- The sources of `qblk` are f32, f16 and bf16. -/
theorem isSource_decodeF {st : Ty} (hst : st = .f32 ∨ st = .f16 ∨ st = .bf16) (x : Nat) : (decodeF (fmtOf st) x).IsSource := by
  have hi : (fmtOf st).infs = true := by rcases hst with rfl | rfl | rfl <;> rfl
  cases hv : decodeF (fmtOf st) x with
  | nan | inf | zero => trivial
  | fin n m e =>
    obtain ⟨hm, he, hlog⟩ := decodeF_fin_bounds (regular_fmtOf st) hi hv
    refine ⟨hm, Int.le_trans ?_ he, Int.le_trans hlog ?_⟩ <;> rcases hst with rfl | rfl | rfl <;> decide

/-! # Runs of lane registers -/

/-- Registers of a thread after a run is written. -/
theorem vget_vsetRun (ws : List Word) (g : Group) (t n : Nat) (hn : n + ws.length ≤ 256) (j x : Nat) (hx : x < 256) :
    (g.vsetRun t n ws).vget j x = if j = t ∧ n ≤ x ∧ x < n + ws.length then ws.getD (x - n) 0 else g.vget j x := by
  induction ws generalizing g n with
  | nil => rw [if_neg (by simp only [List.length_nil]; omega)]; rfl
  | cons w ws ih =>
    rw [List.length_cons] at hn ⊢
    rw [Group.vsetRun, ih _ _ (by omega), vget_vset _ _ _ _ _ _ hx (by omega)]
    by_cases hfirst : j = t ∧ x = n
    · obtain ⟨rfl, rfl⟩ := hfirst
      rw [if_neg (by omega), if_pos ⟨rfl, rfl⟩, if_pos (by omega), Nat.sub_self, List.getD_cons_zero]
    · rw [if_neg hfirst]
      by_cases hrest : j = t ∧ n + 1 ≤ x ∧ x < n + 1 + ws.length
      · rw [if_pos hrest, if_pos (by omega), show x - n = x - (n + 1) + 1 by omega, List.getD_cons_succ]
      · rw [if_neg hrest, if_neg (by omega)]

theorem vsetRun_rest (ws : List Word) (g : Group) (t n : Nat) : g.vsetRun t n ws = { g with v := (g.vsetRun t n ws).v } := by
  induction ws generalizing g n with
  | nil => rfl
  | cons w ws ih => rw [Group.vsetRun, ih]; rfl

/-- A fold of run writes over threads without repeats. -/
theorem runs_fold (l : List Nat) (hl : l.Nodup) (d len : Nat) (f : Nat → List Word) (hlen : ∀ t, (f t).length = len) (hd : d + len ≤ 256)
    (g : Group) :
    let g' := l.foldl (fun g t => g.vsetRun t d (f t)) g
    g' = { g with v := g'.v } ∧ ∀ t x, x < 256 → g'.vget t x = if t ∈ l ∧ d ≤ x ∧ x < d + len then (f t).getD (x - d) 0 else g.vget t x := by
  induction l generalizing g with
  | nil => exact ⟨rfl, fun t x _ => (if_neg fun h => List.not_mem_nil h.1).symm⟩
  | cons a r ih =>
    obtain ⟨ha, hr⟩ := List.nodup_cons.mp hl
    obtain ⟨hrest, hget⟩ := ih hr (g.vsetRun a d (f a))
    refine ⟨?_, fun t x hx => ?_⟩
    · simp only [List.foldl_cons]
      rw [hrest, vsetRun_rest (f a) g a d]
    · simp only [List.foldl_cons]
      rw [hget t x hx, vget_vsetRun _ _ _ _ (by rw [hlen]; exact hd) _ _ hx, hlen]
      by_cases hta : t = a
      · subst hta
        rw [if_neg fun h => ha h.1]
        by_cases hx : d ≤ x ∧ x < d + len
        · rw [if_pos ⟨rfl, hx⟩, if_pos ⟨List.mem_cons_self, hx⟩]
        · rw [if_neg fun h => hx h.2, if_neg fun h => hx h.2]
      · rw [if_neg (c := t = a ∧ _) fun h => hta h.1]
        simp only [List.mem_cons, hta, false_or]

/-- Writing each active thread's run. -/
theorem mapThreads_runWritten (c : Cur) (p : Pred) (d len : Nat) (f : Nat → List Word) (hlen : ∀ t, (f t).length = len) (hd : d + len ≤ 256) :
    RunWritten c.g (c.mapThreads p fun t g => g.vsetRun t d (f t)) (c.act p) len d fun t j => (f t).getD j 0 := by
  obtain ⟨hrest, hget⟩ := runs_fold (threads (c.act p)) (threads_nodup _) d len f hlen hd c.g
  refine ⟨hrest, fun t j ht ha hj => ?_, fun t x ht hx hno => ?_⟩
  · rw [Cur.mapThreads, hget t (d + j) (by omega), if_pos ⟨(mem_threads _ _).mpr ⟨ht, ha⟩, by omega, by omega⟩, Nat.add_sub_cancel_left]
  · rw [Cur.mapThreads, hget t x hx, if_neg]
    rintro ⟨hm, h⟩
    exact hno ⟨((mem_threads _ _).mp hm).2, h⟩

/-- An instruction that writes a run of registers of each active thread completes with it. -/
theorem completes_run {s : State} {c : Cur} {i : Instr} {p : Pred} {d len : Nat} (f : Nat → List Word) (ok : (Nat → Nat → Word) → Prop)
    (hc : s.cur = some c) (he : exec i s = .next (s.finish c (c.mapThreads p fun t g => g.vsetRun t d (f t))))
    (hlen : ∀ t, (f t).length = len) (hd : d + len ≤ 256) (hok : ok fun t j => (f t).getD j 0) :
    Completes s c i fun g => ∃ f, RunWritten c.g g (c.act p) len d f ∧ ok f := by
  have hrun := mapThreads_runWritten c p d len f hlen hd
  refine ⟨_, _, he, issued_finish ?_, _, hrun, hok⟩
  rw [hrun.rest]
  exact (cur_group hc).2

/-! # Digits -/

/-- Digits of w bits, the first lowest. -/
def packDigits (w : Nat) (d : Nat → Nat) (n : Nat) : Nat := (List.range n).foldl (fun x k => x + d k * 2 ^ (w * k)) 0

theorem packDigits_succ (w : Nat) (d : Nat → Nat) (n : Nat) : packDigits w d (n + 1) = packDigits w d n + d n * 2 ^ (w * n) := by
  rw [packDigits, List.range_succ, List.foldl_append]
  rfl

theorem packDigits_lt {w : Nat} {d : Nat → Nat} {n : Nat} (hd : ∀ k, k < n → d k < 2 ^ w) : packDigits w d n < 2 ^ (w * n) := by
  induction n with
  | zero => exact Nat.two_pow_pos _
  | succ n ih =>
    have hlow := ih fun k hk => hd k (by omega)
    have hmul : (d n + 1) * 2 ^ (w * n) ≤ 2 ^ w * 2 ^ (w * n) := Nat.mul_le_mul_right _ (hd n (by omega))
    rw [packDigits_succ, Nat.mul_succ, Nat.pow_add, Nat.mul_comm (2 ^ (w * n)) (2 ^ w)]
    rw [Nat.add_mul] at hmul
    omega

theorem packDigits_digit {w : Nat} {d : Nat → Nat} {n : Nat} (hd : ∀ k, k < n → d k < 2 ^ w) {i : Nat} (hi : i < n) :
    packDigits w d n / 2 ^ (w * i) % 2 ^ w = d i := by
  induction n with
  | zero => omega
  | succ n ih =>
    have hlow := packDigits_lt fun k (hk : k < n) => hd k (by omega)
    rw [packDigits_succ]
    rcases Nat.lt_succ_iff_lt_or_eq.mp hi with hlt | rfl
    · have hsplit : 2 ^ (w * n) = 2 ^ (w * (n - i - 1)) * 2 ^ w * 2 ^ (w * i) := by
        rw [← Nat.pow_add, ← Nat.pow_add]
        congr 1
        obtain ⟨k, rfl⟩ := Nat.exists_eq_add_of_lt hlt
        rw [show i + k + 1 - i - 1 = k by omega, Nat.mul_add, Nat.mul_add, Nat.mul_one]
        omega
      rw [hsplit, ← Nat.mul_assoc, Nat.add_mul_div_right _ _ (Nat.two_pow_pos _), ← Nat.mul_assoc, Nat.add_mul_mod_self_right]
      exact ih (fun k hk => hd k (by omega)) hlt
    · rw [Nat.add_mul_div_right _ _ (Nat.two_pow_pos _), Nat.div_eq_of_lt hlow, Nat.zero_add, Nat.mod_eq_of_lt (hd i (by omega))]

/-- A byte of a word of four. -/
theorem extractLsb'_packDigits {d : Nat → Nat} (hd : ∀ k, k < 4 → d k < 2 ^ 8) {i : Nat} (hi : i < 4) :
    ((BitVec.ofNat 32 (packDigits 8 d 4)).extractLsb' (8 * i) 8).toNat = d i := by
  rw [BitVec.extractLsb'_toNat, BitVec.toNat_ofNat, Nat.mod_eq_of_lt (packDigits_lt hd), Nat.shiftRight_eq_div_pow]
  exact packDigits_digit hd hi

/-- Digits of 16 whose pairs are digits of 256. -/
theorem packDigits_nibbles {lo hi : Nat → Nat} {n k : Nat} (hlo : ∀ k, k < n → lo k < 16) (hhi : ∀ k, k < n → hi k < 16) (hk : k < n) :
    packDigits 8 (fun k => lo k + 16 * hi k) n / 16 ^ (2 * k) % 16 = lo k ∧
      packDigits 8 (fun k => lo k + 16 * hi k) n / 16 ^ (2 * k + 1) % 16 = hi k := by
  have hbyte := packDigits_digit (w := 8) (d := fun k => lo k + 16 * hi k) (n := n)
    (fun k hk => by have := hlo k hk; have := hhi k hk; omega) hk
  have hpow : 2 ^ (8 * k) = 16 ^ (2 * k) := by rw [show (16 : Nat) = 2 ^ 4 by decide, ← Nat.pow_mul]; congr 1; omega
  rw [hpow] at hbyte
  rw [Nat.pow_succ, ← Nat.div_div_eq_div_mul]
  have := hlo k hk
  have := hhi k hk
  generalize packDigits 8 (fun k => lo k + 16 * hi k) n / 16 ^ (2 * k) = x at *
  omega

/-! # The elements of a Q4O block (R73) -/

/-- y in units of 2^-300 is exact for every element of a block and every scale below 255. -/
theorem units_quantY {sb : Nat} (hsb : sb ≤ 254) {x : FVal} (hx : x.OnGrid blockGrid) :
    Units ((sb : Int) - 127 - 300) x (quantY sb x) := by
  cases x with
  | nan | inf => exact hx.elim
  | zero => rfl
  | fin n m e =>
    have he : -160 ≤ e := hx
    refine ⟨by omega, ?_⟩
    rw [quantY, show e - ((sb : Int) - 127) + 300 = e - ((sb : Int) - 127 - 300) by omega]

theorem natCast_two_pow (n : Nat) : ((2 ^ n : Nat) : Int) = 2 ^ n := Int.natCast_pow 2 n

theorem quantUnit_pos : 0 < quantUnit := Int.pow_pos (by decide)

/-- The ordinary code value is y rounded half to even, then clamped. -/
theorem quantOrdinary_spec (y : Int) : ∃ r : Int, (2 * r - 1) * quantUnit ≤ 2 * y ∧ 2 * y ≤ (2 * r + 1) * quantUnit ∧
    (2 * y = (2 * r - 1) * quantUnit ∨ 2 * y = (2 * r + 1) * quantUnit → r % 2 = 0) ∧ quantOrdinary y = max (-7) (min r 7) := by
  have hround := roundsTo_roundAt .rne (decide (y < 0)) y.natAbs (-300) 0
  rw [show ((-300 : Int) - 0).toNat = 0 by decide, show ((0 : Int) - -300).toNat = 300 by decide, Nat.pow_zero, Nat.mul_one] at hround
  have hunit : ((2 ^ 300 : Nat) : Int) = quantUnit := natCast_two_pow 300
  have hclamp : quantOrdinary y = max (-7) (min ((if y < 0 then -1 else 1 : Int) * (roundAt .rne (decide (y < 0)) y.natAbs (-300) 0 : Nat)) 7) := by
    simp only [quantOrdinary, roundInt, clampInt, Int.min_comm 7, decide_eq_true_eq]
  rw [hclamp]
  generalize roundAt .rne (decide (y < 0)) y.natAbs (-300) 0 = k at hround ⊢
  generalize 2 ^ 300 = d at hround hunit
  obtain ⟨⟨hlo, hhi⟩, htie⟩ := hround
  rw [Nat.mul_assoc] at hlo hhi htie
  have hcast : ((k * d : Nat) : Int) = k * quantUnit := by rw [Int.natCast_mul, hunit]
  have hexpand (r : Int) : (2 * r - 1) * quantUnit = 2 * (r * quantUnit) - quantUnit ∧ (2 * r + 1) * quantUnit = 2 * (r * quantUnit) + quantUnit := by
    rw [Int.sub_mul, Int.add_mul, Int.one_mul, Int.mul_assoc]
    exact ⟨rfl, rfl⟩
  generalize quantUnit = unit at *
  refine ⟨_, ?_, ?_, ?_, rfl⟩ <;> simp only [hexpand] <;> split <;> simp only [Int.neg_mul, Int.one_mul] <;> omega

/-- How far |y| is from the outlier of bits b. -/
def outlierDist (y : Int) (b : Nat) : Nat := ((y.natAbs : Int) - ((2 + b % 2) * 2 ^ (b / 2 + 2) : Int) * 2 ^ 300).natAbs

theorem outlierDist_eq (y : Int) (b : Nat) : outlierDist y b = ((y.natAbs : Int) - outlierMag b * quantUnit).natAbs := by
  have hcast : (outlierMag b : Int) = (2 + b % 2) * 2 ^ (b / 2 + 2) := by unfold outlierMag; push_cast; rfl
  rw [hcast]
  rfl

theorem outlierMag_strictMono : ∀ b, b < 8 → ∀ n, n < b → outlierMag n < outlierMag b := by decide

/-- Of two outliers equally far from |y|, none that lies between is farther. -/
theorem outlierDist_between {y : Int} {a b c : Nat} (hab : a < b) (hbc : b < c) (hc : c < 8) (heq : outlierDist y a = outlierDist y c) :
    outlierDist y b < outlierDist y a := by
  have h1 := outlierMag_strictMono b (by omega) a hab
  have h2 := outlierMag_strictMono c hc b hbc
  have hpos := quantUnit_pos
  have h1' : (outlierMag a : Int) * quantUnit < outlierMag b * quantUnit := Int.mul_lt_mul_of_pos_right (by exact_mod_cast h1) hpos
  have h2' : (outlierMag b : Int) * quantUnit < outlierMag c * quantUnit := Int.mul_lt_mul_of_pos_right (by exact_mod_cast h2) hpos
  simp only [outlierDist_eq] at *
  generalize quantUnit = unit at *
  omega

/-- The nearer of the best outlier so far and one more; on a tie the one with mantissa bit 0. -/
def nearerOutlier (y : Int) (best b : Nat) : Nat :=
  if outlierDist y b < outlierDist y best || (outlierDist y b = outlierDist y best && b % 2 = 0 && best % 2 = 1) then b else best

theorem nearestOutlier_eq (y : Int) : nearestOutlier y = (List.range 8).foldl (nearerOutlier y) 0 := by
  unfold nearerOutlier
  simp only [outlierDist_eq]
  rfl

/-- The best of the first outliers is nearest among them, and alone where its mantissa bit is 1. -/
theorem nearestOf_spec (y : Int) (j : Nat) (hj : j < 8) :
    let best := (List.range (j + 1)).foldl (nearerOutlier y) 0
    best ≤ j ∧ ∀ n, n ≤ j → outlierDist y best ≤ outlierDist y n ∧ (outlierDist y best = outlierDist y n → best % 2 = 1 → n = best) := by
  induction j with
  | zero =>
    have hfirst : nearerOutlier y 0 0 = 0 := by rw [nearerOutlier, ite_self]
    rw [List.range_succ, List.range_zero, List.nil_append, List.foldl_cons, List.foldl_nil, hfirst]
    refine ⟨Nat.le_refl 0, fun n hn => ?_⟩
    obtain rfl := Nat.le_zero.mp hn
    exact ⟨Nat.le_refl _, fun _ _ => rfl⟩
  | succ j ih =>
    obtain ⟨hbest, hnear⟩ := ih (by omega)
    rw [List.range_succ, List.foldl_append, List.foldl_cons, List.foldl_nil]
    generalize List.foldl (nearerOutlier y) 0 (List.range (j + 1)) = best at hbest hnear
    have hlast (n : Nat) (hn : n ≤ j + 1) : n ≤ j ∨ n = j + 1 := by omega
    simp only [nearerOutlier]
    split
    case isTrue hcond =>
      simp only [Bool.or_eq_true, Bool.and_eq_true, decide_eq_true_eq] at hcond
      refine ⟨Nat.le_refl _, fun n hn => ?_⟩
      rcases hlast n hn with hn | rfl
      · have := (hnear n hn).1
        exact ⟨by omega, by omega⟩
      · exact ⟨Nat.le_refl _, fun _ _ => rfl⟩
    case isFalse hcond =>
      simp only [Bool.or_eq_true, Bool.and_eq_true, decide_eq_true_eq] at hcond
      refine ⟨by omega, fun n hn => ?_⟩
      rcases hlast n hn with hn | rfl
      · exact hnear n hn
      · refine ⟨by omega, fun heq hodd => ?_⟩
        have hbetween := outlierDist_between (b := best + 1) (by omega) (by omega) hj heq
        have := (hnear (best + 1) (by omega)).1
        omega

theorem nearestOutlier_spec (y : Int) : nearestOutlier y < 8 ∧ ∀ n, n < 8 →
    outlierDist y (nearestOutlier y) ≤ outlierDist y n ∧
      (outlierDist y (nearestOutlier y) = outlierDist y n → nearestOutlier y % 2 = 1 → n = nearestOutlier y) := by
  obtain ⟨hlt, hnear⟩ := nearestOf_spec y 7 (by decide)
  rw [nearestOutlier_eq]
  exact ⟨Nat.lt_succ_of_le hlt, fun n hn => hnear n (Nat.le_of_lt_succ hn)⟩

/-! # The order of the candidates -/

/-- Candidate a comes before candidate b: its magnitude is greater, or it is the same and its pair is lower. -/
def Ahead (a b : Nat × Nat) : Prop := b.1 < a.1 ∨ (b.1 = a.1 ∧ a.2 < b.2)

theorem insertCand_perm (c : Nat × Nat) (l : List (Nat × Nat)) : (insertCand c l).Perm (c :: l) := by
  induction l with
  | nil => exact .refl _
  | cons d r ih =>
    rw [insertCand]
    split
    · exact .refl _
    · exact (ih.cons d).trans (.swap c d r)

/-- A pair higher than all before is put behind those of its magnitude. -/
theorem insertCand_pairwise {c : Nat × Nat} {l : List (Nat × Nat)} (hl : l.Pairwise Ahead) (hc : ∀ d ∈ l, d.2 < c.2) :
    (insertCand c l).Pairwise Ahead := by
  induction l with
  | nil => exact List.pairwise_singleton _ _
  | cons d r ih =>
    obtain ⟨hd, hr⟩ := List.pairwise_cons.mp hl
    have hdc := hc d List.mem_cons_self
    rw [insertCand]
    split
    case isTrue hlt =>
      refine List.pairwise_cons.mpr ⟨fun e he => ?_, hl⟩
      rcases List.mem_cons.mp he with rfl | he
      · exact .inl hlt
      · have := hd e he
        unfold Ahead at *
        omega
    case isFalse hge =>
      refine List.pairwise_cons.mpr ⟨fun e he => ?_, ih hr fun e he => hc e (List.mem_cons_of_mem d he)⟩
      rcases List.mem_cons.mp ((insertCand_perm c r).mem_iff.mp he) with rfl | he
      · unfold Ahead
        omega
      · exact hd e he

/-- Pairs inserted in ascending order stand in the order of R73, each once. -/
theorem insertCands_spec (g : Nat → Nat) (ks : List Nat) (hks : ks.Pairwise (· < ·)) (l : List (Nat × Nat)) (hl : l.Pairwise Ahead)
    (hlt : ∀ d ∈ l, ∀ k ∈ ks, d.2 < k) :
    (ks.foldl (fun l k => insertCand (g k, k) l) l).Pairwise Ahead ∧
      ∀ c, c ∈ ks.foldl (fun l k => insertCand (g k, k) l) l ↔ c ∈ l ∨ (c.2 ∈ ks ∧ c.1 = g c.2) := by
  induction ks generalizing l with
  | nil => exact ⟨hl, fun c => ⟨.inl, fun h => h.elim id fun h => absurd h.1 List.not_mem_nil⟩⟩
  | cons k ks ih =>
    obtain ⟨hk, hks⟩ := List.pairwise_cons.mp hks
    have hmem (c : Nat × Nat) : c ∈ insertCand (g k, k) l ↔ c = (g k, k) ∨ c ∈ l := by
      rw [(insertCand_perm (g k, k) l).mem_iff, List.mem_cons]
    obtain ⟨hpair, hall⟩ := ih hks (insertCand (g k, k) l) (insertCand_pairwise hl fun d hd => hlt d hd k List.mem_cons_self) (by
      intro d hd j hj
      rcases (hmem d).mp hd with rfl | hd
      · exact hk j hj
      · exact hlt d hd j (List.mem_cons_of_mem k hj))
    refine ⟨hpair, fun c => ?_⟩
    rw [List.foldl_cons, hall, hmem, List.mem_cons]
    obtain ⟨c1, c2⟩ := c
    simp only [Prod.mk.injEq]
    constructor
    · rintro ((⟨rfl, rfl⟩ | h) | ⟨h1, h2⟩)
      · exact .inr ⟨.inl rfl, rfl⟩
      · exact .inl h
      · exact .inr ⟨.inr h1, h2⟩
    · rintro (h | ⟨rfl | h1, h2⟩)
      · exact .inl (.inr h)
      · exact .inl (.inl ⟨h2, rfl⟩)
      · exact .inr ⟨h1, h2⟩

/-- The first n entries of an ordered list are those that fewer than n entries come before. -/
theorem mem_take_iff_ahead {α : Type} {R : α → α → Prop} (hirr : ∀ a b, R a b → ¬R b a) {l : List α} (hl : l.Pairwise R) (n : Nat) (x : α) :
    x ∈ l.take n ↔ x ∈ l ∧ ∃ front : List α, front.Nodup ∧ front.length < n ∧ ∀ y, y ∈ front ↔ y ∈ l ∧ R y x := by
  have hself (a : α) : ¬R a a := fun h => hirr a a h h
  have hne {a b : α} (h : R a b) : a ≠ b := by rintro rfl; exact hself a h
  have hbefore {l1 l2 : List α} (heq : l = l1 ++ x :: l2) : l1.Nodup ∧ ∀ y, y ∈ l1 ↔ y ∈ l ∧ R y x := by
    subst heq
    obtain ⟨hl1, hl2, hcross⟩ := List.pairwise_append.mp hl
    have hl2' := (List.pairwise_cons.mp hl2).1
    refine ⟨hl1.imp hne, fun y => ⟨fun hy => ⟨List.mem_append_left _ hy, hcross y hy x List.mem_cons_self⟩, ?_⟩⟩
    rintro ⟨hy, hyx⟩
    rcases List.mem_append.mp hy with hy | hy
    · exact hy
    · rcases List.mem_cons.mp hy with rfl | hy
      · exact absurd hyx (hself y)
      · exact absurd hyx (hirr _ _ (hl2' y hy))
  constructor
  · intro hx
    refine ⟨List.mem_of_mem_take hx, ?_⟩
    obtain ⟨l1, l2, hsplit⟩ := List.append_of_mem hx
    have hlen : l1.length < n := by
      have := List.length_take_le n l
      rw [hsplit, List.length_append, List.length_cons] at this
      omega
    obtain ⟨hnodup, hmem⟩ := hbefore (l1 := l1) (l2 := l2 ++ l.drop n) (by
      rw [← List.cons_append, ← List.append_assoc, ← hsplit, List.take_append_drop])
    exact ⟨l1, hnodup, hlen, hmem⟩
  · rintro ⟨hx, front, -, hlen, hfront⟩
    obtain ⟨l1, l2, hsplit⟩ := List.append_of_mem hx
    obtain ⟨hnodup, hmem⟩ := hbefore hsplit
    have hle : l1.length ≤ front.length := hnodup.length_le_of_subset fun y hy => (hfront y).mpr ((hmem y).mp hy)
    rw [hsplit, List.take_append, List.mem_append]
    right
    obtain ⟨k, hk⟩ := Nat.exists_eq_add_of_lt (Nat.lt_of_le_of_lt hle hlen)
    rw [show n - l1.length = k + 1 by omega, List.take_succ_cons]
    exact List.mem_cons_self

/-! # The code entry of a Q4O block (R73) -/

/-- Making pair k an outlier pair lowers its error. -/
def IsCandidate (y : Nat → Int) (k : Nat) : Prop :=
  outlierDist (y (2 * k)) (nearestOutlier (y (2 * k))) + (y (2 * k + 1)).natAbs <
    (y (2 * k) - quantOrdinary (y (2 * k)) * 2 ^ 300).natAbs + (y (2 * k + 1) - quantOrdinary (y (2 * k + 1)) * 2 ^ 300).natAbs

/-- An outlier has the sign of its element, so it is as far from it as their magnitudes are apart. -/
theorem natAbs_sub_outlier (y : Int) (b : Nat) :
    (y - (if y < 0 then -1 else 1) * outlierMag b * quantUnit).natAbs = outlierDist y b := by
  rw [outlierDist_eq]
  split <;> simp only [Int.neg_mul, Int.one_mul] <;> omega

theorem quantPair_eq (ys : List Int) (k : Nat) :
    (quantPair ys k).1 = (ys.getD (2 * k) 0).natAbs ∧
      (quantPair ys k).2.1 = nearestOutlier (ys.getD (2 * k) 0) + (if ys.getD (2 * k) 0 < 0 then 8 else 0) ∧
      ((quantPair ys k).2.2 = true ↔ IsCandidate (ys.getD · 0) k) := by
  refine ⟨rfl, rfl, ?_⟩
  simp only [quantPair, natAbs_sub_outlier, decide_eq_true_eq]
  rfl

/-- The pairs of a block that become outlier pairs, in the order of R73. -/
def outlierPairs (ys : List Int) (limit : Nat) : List Nat :=
  ((((List.range 8).filter fun k => (quantPair ys k).2.2).foldl (fun l k => insertCand ((quantPair ys k).1, k) l) []).take limit).map Prod.snd

/-- A pair is an outlier pair where it is a candidate and fewer candidates than the limit come before it. -/
theorem mem_outlierPairs (ys : List Int) (limit : Nat) {k : Nat} (hk : k < 8) : k ∈ outlierPairs ys limit ↔
    IsCandidate (ys.getD · 0) k ∧ ∃ ahead : List Nat, ahead.Nodup ∧ ahead.length < limit ∧ ∀ j, j ∈ ahead ↔
      j < 8 ∧ IsCandidate (ys.getD · 0) j ∧ Ahead ((ys.getD (2 * j) 0).natAbs, j) ((ys.getD (2 * k) 0).natAbs, k) := by
  obtain ⟨hpair, hmem⟩ := insertCands_spec (fun k => (quantPair ys k).1) ((List.range 8).filter fun k => (quantPair ys k).2.2)
    (List.pairwise_lt_range.filter _) [] .nil fun d hd => absurd hd List.not_mem_nil
  rw [outlierPairs, List.map_take]
  generalize List.foldl (fun l k => insertCand ((quantPair ys k).1, k) l) [] ((List.range 8).filter fun k => (quantPair ys k).2.2) = cands
    at hpair hmem
  have hcand (c : Nat × Nat) : c ∈ cands ↔ (c.2 < 8 ∧ IsCandidate (ys.getD · 0) c.2) ∧ c.1 = (quantPair ys c.2).1 := by
    rw [hmem, List.mem_filter, List.mem_range, (quantPair_eq ys c.2).2.2]
    exact ⟨fun h => h.resolve_left List.not_mem_nil, .inr⟩
  have hkeys (j : Nat) : j ∈ cands.map Prod.snd ↔ j < 8 ∧ IsCandidate (ys.getD · 0) j := by
    rw [List.mem_map]
    constructor
    · rintro ⟨c, hc, rfl⟩
      exact ((hcand c).mp hc).1
    · intro h
      exact ⟨((quantPair ys j).1, j), (hcand _).mpr ⟨h, rfl⟩, rfl⟩
  have hordered : (cands.map Prod.snd).Pairwise fun j k => Ahead ((ys.getD (2 * j) 0).natAbs, j) ((ys.getD (2 * k) 0).natAbs, k) := by
    refine List.pairwise_map.mpr (hpair.imp_of_mem fun {a b} ha hb hab => ?_)
    obtain ⟨-, ha⟩ := (hcand a).mp ha
    obtain ⟨-, hb⟩ := (hcand b).mp hb
    rw [Ahead, ha, hb] at hab
    exact hab
  rw [mem_take_iff_ahead (by unfold Ahead; omega) hordered]
  simp only [hkeys, hk, true_and, and_assoc]

/-- The low and the high code of pair k. -/
def lowCode (ys : List Int) (limit k : Nat) : Nat :=
  if (outlierPairs ys limit).contains k then 8 else wrapNat 4 (quantOrdinary (ys.getD (2 * k) 0))
def highCode (ys : List Int) (limit k : Nat) : Nat :=
  if (outlierPairs ys limit).contains k then (quantPair ys k).2.1 else wrapNat 4 (quantOrdinary (ys.getD (2 * k + 1) 0))

theorem codes_of_mem {ys : List Int} {limit k : Nat} (h : k ∈ outlierPairs ys limit) : lowCode ys limit k = 8 ∧
    highCode ys limit k = nearestOutlier (ys.getD (2 * k) 0) + if ys.getD (2 * k) 0 < 0 then 8 else 0 := by
  have hc : (outlierPairs ys limit).contains k = true := List.contains_iff_mem.mpr h
  exact ⟨if_pos hc, (if_pos hc).trans (quantPair_eq ys k).2.1⟩

theorem codes_of_not_mem {ys : List Int} {limit k : Nat} (h : k ∉ outlierPairs ys limit) :
    lowCode ys limit k = wrapNat 4 (quantOrdinary (ys.getD (2 * k) 0)) ∧
      highCode ys limit k = wrapNat 4 (quantOrdinary (ys.getD (2 * k + 1) 0)) := by
  have hc : ¬(outlierPairs ys limit).contains k = true := fun hc => h (List.contains_iff_mem.mp hc)
  exact ⟨if_neg hc, if_neg hc⟩

theorem lowCode_lt (ys : List Int) (limit k : Nat) : lowCode ys limit k < 16 := by
  by_cases h : k ∈ outlierPairs ys limit
  · rw [(codes_of_mem h).1]
    decide
  · rw [(codes_of_not_mem h).1]
    exact wrapNat_lt 4 _

theorem highCode_lt (ys : List Int) (limit k : Nat) : highCode ys limit k < 16 := by
  by_cases h : k ∈ outlierPairs ys limit
  · have := (nearestOutlier_spec (ys.getD (2 * k) 0)).1
    rw [(codes_of_mem h).2]
    split <;> omega
  · rw [(codes_of_not_mem h).2]
    exact wrapNat_lt 4 _

theorem foldl_congr_of_mem {α β : Type} {f g : β → α → β} {l : List α} (h : ∀ b, ∀ a ∈ l, f b a = g b a) (b : β) :
    l.foldl f b = l.foldl g b := by
  induction l generalizing b with
  | nil => rfl
  | cons a l ih =>
    rw [List.foldl_cons, List.foldl_cons, h b a List.mem_cons_self]
    exact ih (fun b x hx => h b x (List.mem_cons_of_mem a hx)) _

/-- The code entry is the codes of its pairs, a byte each. -/
theorem quantQ4_eq (sb limit : Nat) (xs : List FVal) : quantQ4 sb limit xs =
    packDigits 8 (fun k => lowCode (xs.map (quantY sb)) limit k + 16 * highCode (xs.map (quantY sb)) limit k) 8 := by
  unfold quantQ4
  generalize xs.map (quantY sb) = ys
  have hget (k : Nat) (hk : k ∈ List.range 8) : ((List.range 8).map (quantPair ys)).getD k (0, 0, false) = quantPair ys k := by
    rw [List.mem_range] at hk
    rw [List.getD_eq_getElem?_getD, List.getElem?_map, List.getElem?_range hk]
    rfl
  dsimp only
  generalize (List.range 8).map (quantPair ys) = ps at hget ⊢
  have hfilter : ((List.range 8).filter fun k => (ps.getD k (0, 0, false)).2.2) = (List.range 8).filter fun k => (quantPair ys k).2.2 :=
    List.filter_congr fun k hk => by rw [hget k hk]
  have hcands : ((List.range 8).filter fun k => (quantPair ys k).2.2).foldl (fun l k => insertCand ((ps.getD k (0, 0, false)).1, k) l) [] =
      ((List.range 8).filter fun k => (quantPair ys k).2.2).foldl (fun l k => insertCand ((quantPair ys k).1, k) l) [] :=
    foldl_congr_of_mem (fun l k hk => by rw [hget k (List.mem_filter.mp hk).1]) _
  rw [hfilter, hcands]
  exact foldl_congr_of_mem (fun n k hk => by rw [hget k hk]; rfl) _

theorem quantQ4_lt (sb limit : Nat) (xs : List FVal) : quantQ4 sb limit xs < 2 ^ 64 := by
  rw [quantQ4_eq]
  refine packDigits_lt (w := 8) (n := 8) fun k _ => ?_
  have := lowCode_lt (xs.map (quantY sb)) limit k
  have := highCode_lt (xs.map (quantY sb)) limit k
  omega

/-- The codes of a block of numbers are those of R73. -/
theorem q4Codes_quantQ4 {sb : Nat} (hsb : sb ≤ 254) (limit : Nat) {xs : List FVal} (hlen : xs.length = 16)
    (hgrid : ∀ x ∈ xs, x.OnGrid blockGrid) : Q4Codes sb limit xs fun i => quantQ4 sb limit xs / 16 ^ i % 16 := by
  have hy (i : Nat) (hi : i < 16) : ∃ v, xs[i]? = some v ∧ Units ((sb : Int) - 127 - 300) v ((xs.map (quantY sb)).getD i 0) := by
    have hi' : i < xs.length := by omega
    refine ⟨xs[i], List.getElem?_eq_getElem hi', ?_⟩
    rw [List.getD_eq_getElem?_getD, List.getElem?_map, List.getElem?_eq_getElem hi']
    exact units_quantY hsb (hgrid _ (List.getElem_mem hi'))
  have hcodes {k : Nat} (hk : k < 8) := packDigits_nibbles (lo := lowCode (xs.map (quantY sb)) limit)
    (hi := highCode (xs.map (quantY sb)) limit) (fun k _ => lowCode_lt _ limit k) (fun k _ => highCode_lt _ limit k) hk
  rw [← quantQ4_eq] at hcodes
  generalize hys : xs.map (quantY sb) = ys at hy hcodes
  refine ⟨(ys.getD · 0), fun i => quantOrdinary (ys.getD i 0), fun k => nearestOutlier (ys.getD (2 * k) 0), hy,
    fun i _ => quantOrdinary_spec _, fun k _ => nearestOutlier_spec _, (· ∈ outlierPairs ys limit),
    fun k hk => mem_outlierPairs ys limit hk, fun k hk => ?_⟩
  dsimp only
  obtain ⟨hlo, hhi⟩ := hcodes hk
  rw [hlo, hhi]
  refine ⟨codes_of_mem, fun hno => ?_⟩
  rw [(codes_of_not_mem hno).1, (codes_of_not_mem hno).2]
  exact ⟨wrapNat_emod 4 _, wrapNat_emod 4 _⟩

/-! # The image that `qblk` writes (Table 13.7) -/

/-- x over the scale. -/
def overScale (sb : Nat) : FVal → FVal
  | .fin n m e => .fin n m (e - ((sb : Int) - 127))
  | y => y

/-- The code of an element of an E4M3 or E5M2 block (R72). -/
def elementCode (dt : Ty) (rm : RMode) (sb : Nat) (x : FVal) : Nat := if sb = 255 then 0 else roundTo (fmtOf dt) rm false (overScale sb x)

theorem quantBlock_float {dt : Ty} (hdt : dt ≠ .q4o) (rm : RMode) (limit : Nat) (xs : List FVal) :
    quantBlock dt rm limit xs =
      ((List.range 4).map fun j => BitVec.ofNat 32 (packDigits 8 (fun k => (xs.map (elementCode dt rm (blockScale dt xs))).getD (4 * j + k) 0) 4)) ++
        [BitVec.ofNat 32 (blockScale dt xs)] := by
  unfold quantBlock
  rw [if_neg hdt]
  rfl

theorem length_quantBlock (dt : Ty) (rm : RMode) (limit : Nat) (xs : List FVal) :
    (quantBlock dt rm limit xs).length = if dt = .q4o then 3 else 5 := by
  split
  case isTrue h => subst h; rfl
  case isFalse h => rw [quantBlock_float h]; rfl

/-- The last word of the image is the scale entry, with zero point 0. -/
theorem quantBlock_scale (dt : Ty) (rm : RMode) (limit : Nat) (xs : List FVal) :
    (quantBlock dt rm limit xs).getD (if dt = .q4o then 2 else 4) 0 = BitVec.ofNat 32 (blockScale dt xs) := by
  split
  case isTrue h => subst h; rfl
  case isFalse h => rw [quantBlock_float h]; rfl

/-- The first two words of a Q4O block hold its 64 bits of codes. -/
theorem quantBlock_codes (rm : RMode) (limit : Nat) (xs : List FVal) :
    ((quantBlock .q4o rm limit xs).getD 0 0).toNat + 2 ^ 32 * ((quantBlock .q4o rm limit xs).getD 1 0).toNat =
      if blockScale .q4o xs = 255 then 0 else quantQ4 (blockScale .q4o xs) limit xs := by
  have hlt : (if blockScale .q4o xs = 255 then 0 else quantQ4 (blockScale .q4o xs) limit xs) < 2 ^ 64 := by
    split
    · decide
    · exact quantQ4_lt _ _ _
  have hwords (c : Nat) (hc : c < 2 ^ 64) : (BitVec.ofNat 32 c).toNat + 2 ^ 32 * (BitVec.ofNat 32 (c / 2 ^ 32)).toNat = c := by
    simp only [BitVec.toNat_ofNat]
    omega
  exact hwords _ hlt

theorem elementCode_lt {dt : Ty} (hdt : dt = .e4m3 ∨ dt = .e5m2) (rm : RMode) (sb : Nat) (x : FVal) : elementCode dt rm sb x < 2 ^ 8 := by
  unfold elementCode
  split
  · decide
  · rcases hdt with rfl | rfl <;> exact roundTo_fmtOf_lt rfl rm false _

/-- Byte i of the code words is the code of element i. -/
theorem quantBlock_byte {dt : Ty} (hdt : dt = .e4m3 ∨ dt = .e5m2) (rm : RMode) (limit : Nat) {xs : List FVal} (hlen : xs.length = 16) {i : Nat}
    (hi : i < 16) : (((quantBlock dt rm limit xs).getD (i / 4) 0).extractLsb' (8 * (i % 4)) 8).toNat =
      elementCode dt rm (blockScale dt xs) (xs.getD i .nan) := by
  have hcode (j : Nat) : (xs.map (elementCode dt rm (blockScale dt xs))).getD j 0 < 2 ^ 8 := by
    rw [List.getD_eq_getElem?_getD, List.getElem?_map]
    cases xs[j]? with
    | none => exact Nat.two_pow_pos 8
    | some x => exact elementCode_lt hdt rm _ x
  rw [quantBlock_float (by rcases hdt with rfl | rfl <;> decide), List.getD_eq_getElem?_getD,
    List.getElem?_append_left (by rw [List.length_map, List.length_range]; omega), List.getElem?_map, List.getElem?_range (by omega),
    Option.map_some, Option.getD_some, extractLsb'_packDigits (fun k _ => hcode _) (by omega), Nat.div_add_mod,
    List.getD_eq_getElem?_getD, List.getD_eq_getElem?_getD, List.getElem?_map, List.getElem?_eq_getElem (by omega)]
  rfl

/-- Two elements of 16 bits share a register (Table 13.7). -/
theorem dotElem_half {st : Ty} (hst : st = .f16 ∨ st = .bf16) (c : Cur) (t : Nat) (a : Reg) (i : Nat) :
    c.dotElem st t a i = ((c.g.vget t (a.toNat + i / 2)).extractLsb' (16 * (i % 2)) 16).toNat := by
  rw [BitVec.extractLsb'_toNat, Nat.shiftRight_eq_div_pow]
  rcases hst with rfl | rfl <;> rfl

theorem outlierLimit_eq : ∀ lim : BitVec 2, (match lim.toNat with
    | 0 => 8 | 1 => 4 | 2 => 2 | _ => 0) = [8, 4, 2, 0].getD lim.toNat 0 := by decide

/-- `qblk` writes the image of each active thread's block. -/
theorem exec_qblk {s : State} {c : Cur} {p : Pred} {dt st : Ty} {rm : RMode} {lim : BitVec 2} {d a : Reg}
    (hs : Stands s c (.qblk p dt st rm lim d a)) :
    exec (.qblk p dt st rm lim d a) s = .next (s.finish c (c.mapThreads p fun t g =>
      g.vsetRun t d.toNat (quantBlock dt rm ([8, 4, 2, 0].getD lim.toNat 0) (c.quantSource st t a)))) := by
  rw [← outlierLimit_eq]
  exact issueI_of_stands hs p _

/-- What the encoding admits of `qblk`: its types, and a run that lies in the registers. -/
theorem wellFormed_qblk {p : Pred} {dt st : Ty} {rm : RMode} {lim : BitVec 2} {d a : Reg}
    (h : (Instr.qblk p dt st rm lim d a).wellFormed = true) :
    (st = .f32 ∨ st = .f16 ∨ st = .bf16) ∧ (dt = .q4o ∨ dt = .e4m3 ∨ dt = .e5m2) ∧ d.toNat + (if dt = .q4o then 3 else 5) ≤ 256 := by
  have h' : ((st = .f32 || st = .f16 || st = .bf16) && okRun false a (if st = .f32 then 16 else 8) &&
      (if dt = .q4o then rm = .rne && okRun false d 3 else (dt = .e4m3 || dt = .e5m2) && lim == 0 && okRun false d 5)) = true := h
  simp only [Bool.and_eq_true, Bool.or_eq_true, decide_eq_true_eq, or_assoc] at h'
  obtain ⟨⟨hst, -⟩, hdst⟩ := h'
  refine ⟨hst, ?_⟩
  by_cases hq : dt = .q4o
  · rw [if_pos hq] at hdst ⊢
    simp only [okRun, Bool.and_eq_true, decide_eq_true_eq] at hdst
    exact ⟨.inl hq, hdst.2.2⟩
  · rw [if_neg hq] at hdst ⊢
    simp only [okRun, Bool.and_eq_true, Bool.or_eq_true, decide_eq_true_eq] at hdst
    exact ⟨.inr hdst.1.1, hdst.2.2⟩

/-- Settles O22: the run that each active thread writes is the image of its block. -/
theorem blockQuantisation : Obligations.BlockQuantisation := by
  intro s c p dt st rm lim d a hs
  obtain ⟨hst, hdt, hd⟩ := wellFormed_qblk hs.wf
  refine completes_run _ _ hs.cur (exec_qblk hs) (fun t => length_quantBlock ..) hd fun th _ _ => ?_
  intro xs big mag
  have hxs : c.quantSource st th a = xs := by
    refine List.map_congr_left fun i _ => congrArg (decodeF (fmtOf st)) ?_
    rcases hst with rfl | rfl | rfl
    · rfl
    · exact dotElem_half (.inl rfl) c th a i
    · exact dotElem_half (.inr rfl) c th a i
  have hlen : xs.length = 16 := by rw [← hxs, Cur.quantSource, List.length_map, List.length_range]
  have hsrc : ∀ x ∈ xs, x.IsSource := by
    rw [← hxs]
    intro x hx
    obtain ⟨i, -, rfl⟩ := List.mem_map.mp hx
    exact isSource_decodeF hst _
  clear_value xs
  simp only [hxs]
  obtain ⟨hle, hspecial, hscale⟩ := blockScale_spec dt hsrc
  refine ⟨blockScale dt xs, hle, hspecial, fun hne => ?_, ?_⟩
  · have hbounds := hscale hne
    rcases hdt with rfl | rfl | rfl <;> exact hbounds
  have hentry := quantBlock_scale dt rm ([8, 4, 2, 0].getD lim.toNat 0) xs
  by_cases hq : dt = .q4o
  · subst hq
    have hcodes := quantBlock_codes rm ([8, 4, 2, 0].getD lim.toNat 0) xs
    rw [if_pos rfl]
    refine ⟨hentry, fun h255 => hcodes.trans (if_pos h255), fun hne => ?_⟩
    have hgrid (x : FVal) (hx : x ∈ xs) : x.OnGrid blockGrid :=
      onGrid_of_source (fun h => hne (hspecial.mpr ⟨x, hx, h⟩)) (hsrc x hx)
    rw [hcodes, if_neg hne]
    exact q4Codes_quantQ4 (by omega) _ hlen hgrid
  · rw [if_neg hq]
    rw [if_neg hq] at hentry
    exact ⟨hentry, fun i hi => quantBlock_byte (hdt.resolve_left hq) rm _ hlen hi⟩

end Sys2Proof.Machine

/-! PROOFS. The lane instructions of 13_lane_arithmetic_instructions.md that select, generate or move bits: `fmin` and `fmax` (R254), `rngk`
(R262), and the exchange between threads (R263, R264). -/

namespace Sys2Proof.Machine

/-! # The order of values (R254, R255) -/

theorem onGrid_coarser {lo lo' : Int} (h : lo' ≤ lo) {v : FVal} (hv : v.OnGrid lo) : v.OnGrid lo' := by
  cases v with
  | nan | inf => exact hv.elim
  | zero => trivial
  | fin => exact Int.le_trans h hv

/-- `fCmp` orders two numbers as `ValueLess` does. -/
theorem fCmp_valueLess_numbers {lo lo' : Int} {a b : FVal} (ha : a.OnGrid lo) (hb : b.OnGrid lo') :
    (fCmp a b < 0 ↔ ValueLess a b) ∧ (0 < fCmp a b ↔ ValueLess b a) := by
  have ha' := onGrid_coarser (Int.min_le_left lo lo') ha
  have hb' := onGrid_coarser (Int.min_le_right lo lo') hb
  have hcases := fCmp_cases ha' hb'
  rw [valueLess_iff ha' hb', valueLess_iff hb' ha']
  omega

/-- `fCmp` orders all values but NaN as `ValueLess` does: an infinity lies outside every number. -/
theorem fCmp_valueLess {a b : FVal} (ha : a ≠ .nan) (hb : b ≠ .nan) : (fCmp a b < 0 ↔ ValueLess a b) ∧ (0 < fCmp a b ↔ ValueLess b a) := by
  cases a with
  | nan => exact absurd rfl ha
  | inf n =>
    cases b with
    | nan => exact absurd rfl hb
    | inf k => revert n k; simp [fCmp, ValueLess]
    | zero | fin => cases n <;> simp [fCmp, ValueLess]
  | zero n =>
    cases b with
    | nan => exact absurd rfl hb
    | inf k => cases k <;> simp [fCmp, ValueLess]
    | zero => exact fCmp_valueLess_numbers (lo := 0) (lo' := 0) trivial trivial
    | fin k m e => exact fCmp_valueLess_numbers (lo := 0) (lo' := e) trivial (Int.le_refl e)
  | fin n m e =>
    cases b with
    | nan => exact absurd rfl hb
    | inf k => cases k <;> simp [fCmp, ValueLess]
    | zero => exact fCmp_valueLess_numbers (lo := e) (lo' := 0) (Int.le_refl e) trivial
    | fin k m' e' => exact fCmp_valueLess_numbers (lo := e) (lo' := e') (Int.le_refl e) (Int.le_refl e')

/-- What has an order is no NaN. -/
theorem ne_nan_of_valueLess {a b : FVal} (h : ValueLess a b) : a ≠ .nan ∧ b ≠ .nan := by
  constructor
  · rintro rfl
    exact h
  · rintro rfl
    cases a <;> exact h

theorem not_valueLess_zeros (m n : Bool) : ¬ValueLess (.zero m) (.zero n) := by
  have hm : (FVal.zero m).OnGrid 0 := trivial
  have hn : (FVal.zero n).OnGrid 0 := trivial
  exact fun h => Int.lt_irrefl 0 ((valueLess_iff hm hn).mp h)

/-! # Minimum and maximum (R254) -/

/-- Both values are zeros, of whatever signs. -/
def BothZeros (a b : FVal) : Prop := (∃ m, a = .zero m) ∧ ∃ n, b = .zero n

theorem isNan_iff (v : FVal) : v.isNan = true ↔ v = .nan := by
  cases v <;> simp [FVal.isNan]

theorem isFloat_of_isFloat4 {ty : Ty} (h : ty.isFloat4 = true) : ty.isFloat = true := by
  revert h
  cases ty <;> decide

/-- A format's bits fit the 64 bits of a lane result. -/
theorem toNat_ofNat_float {ty : Ty} (hty : ty.isFloat = true) {x : Nat} (hx : x < 2 ^ ((fmtOf ty).width + 1)) :
    (BitVec.ofNat 64 x).toNat = x := by
  have hwidth : (fmtOf ty).width + 1 ≤ 64 := by
    rcases float_cases hty with rfl | rfl | rfl | rfl | rfl | rfl <;> decide
  exact (BitVec.toNat_ofNat x 64).trans (Nat.mod_eq_of_lt (Nat.lt_of_lt_of_le hx (Nat.pow_le_pow_right (by decide) hwidth)))

theorem pickF_nan {ty : Ty} (hty : ty.isFloat = true) (max : Bool) {x y : Dword}
    (h : decodeF (fmtOf ty) x.toNat = .nan ∨ decodeF (fmtOf ty) y.toNat = .nan) : (pickF ty max x y).bits.toNat = (fmtOf ty).nan := by
  have hbits : (pickF ty max x y).bits = BitVec.ofNat 64 (fmtOf ty).nan := if_pos (by simpa only [Bool.or_eq_true, isNan_iff] using h)
  rw [hbits]
  exact toNat_ofNat_float hty (Nat.lt_trans (nan_lt (regular_fmtOf ty)) (Nat.pow_lt_pow_succ (by decide)))

theorem pickF_zeros {ty : Ty} (hty : ty.isFloat = true) (max : Bool) {x y : Dword} {m n : Bool} (hx : decodeF (fmtOf ty) x.toNat = .zero m)
    (hy : decodeF (fmtOf ty) y.toNat = .zero n) :
    (pickF ty max x y).bits.toNat = (fmtOf ty).bits (if max then m && n else m || n) 0 := by
  simp only [pickF, hx, hy]
  exact toNat_ofNat_float hty (bits_lt _ _ (Nat.two_pow_pos _))

/-- Beside NaN and two zeros an operand is selected by `fCmp`. -/
theorem pickF_select {ty : Ty} (max : Bool) {x y : Dword} (hx : decodeF (fmtOf ty) x.toNat ≠ .nan) (hy : decodeF (fmtOf ty) y.toNat ≠ .nan)
    (hz : ¬BothZeros (decodeF (fmtOf ty) x.toNat) (decodeF (fmtOf ty) y.toNat)) :
    (pickF ty max x y).bits = if (if max then decide (0 ≤ fCmp (decodeF (fmtOf ty) x.toNat) (decodeF (fmtOf ty) y.toNat))
      else decide (fCmp (decodeF (fmtOf ty) x.toNat) (decodeF (fmtOf ty) y.toNat) ≤ 0)) then x else y := by
  simp only [pickF, Bool.or_eq_true, isNan_iff, hx, hy, or_self, if_false]
  split
  next hm hn => exact absurd ⟨⟨_, hm⟩, _, hn⟩ hz
  next => rfl

/-- Beside NaN and two zeros the result has an operand's own bits. -/
theorem pickF_operand {ty : Ty} (max : Bool) {x y : Dword} (hx : decodeF (fmtOf ty) x.toNat ≠ .nan) (hy : decodeF (fmtOf ty) y.toNat ≠ .nan)
    (hz : ¬BothZeros (decodeF (fmtOf ty) x.toNat) (decodeF (fmtOf ty) y.toNat)) :
    (pickF ty max x y).bits = x ∨ (pickF ty max x y).bits = y := by
  rw [pickF_select max hx hy hz]
  exact if h : _ then .inl (if_pos h) else .inr (if_neg h)

/-- Of two operands in order the smaller, or the larger, is selected, whichever stands first. -/
theorem pickF_of_less {ty : Ty} (max : Bool) {x y : Dword} (h : ValueLess (decodeF (fmtOf ty) x.toNat) (decodeF (fmtOf ty) y.toNat)) :
    (pickF ty max x y).bits = (if max then y else x) ∧ (pickF ty max y x).bits = (if max then y else x) := by
  obtain ⟨hx, hy⟩ := ne_nan_of_valueLess h
  have hlt := (fCmp_valueLess hx hy).1.mpr h
  have hgt := (fCmp_valueLess hy hx).2.mpr h
  rw [pickF_select max hx hy, pickF_select max hy hx]
  · cases max
    · exact ⟨if_pos (decide_eq_true (by omega)), if_neg (by simpa using hgt)⟩
    · exact ⟨if_neg (by simpa using hlt), if_pos (decide_eq_true (by omega))⟩
  · rintro ⟨⟨m, hm⟩, n, hn⟩
    exact not_valueLess_zeros n m (hm ▸ hn ▸ h)
  · rintro ⟨⟨m, hm⟩, n, hn⟩
    exact not_valueLess_zeros m n (hm ▸ hn ▸ h)

/-- What the encoding admits of `fmin` and `fmax`: a floating-point type, and a pair as the destination of a wide one. -/
theorem wellFormed_fminmax {p : Pred} {ty : Ty} {d a : Reg} {b : OpB} {max : Bool}
    (h : (if max then Instr.fmax p ty d a b else .fmin p ty d a b).wellFormed = true) : ty.isFloat = true ∧ okV ty.wide d = true := by
  have h' : (ty.isFloat4 && okV ty.wide d && okV ty.wide a && okB false ty.wide b) = true := by cases max <;> exact h
  simp only [Bool.and_eq_true] at h'
  obtain ⟨⟨⟨hty, hd⟩, -⟩, -⟩ := h'
  exact ⟨isFloat_of_isFloat4 hty, hd⟩

/-- `fmin` and `fmax` are lane instructions that differ in their opcode and in what they select. -/
theorem exec_fminmax (p : Pred) (ty : Ty) (d a : Reg) (b : OpB) (max : Bool) (s : State) :
    exec (if max then .fmax p ty d a b else .fmin p ty d a b) s =
      execLaneF (if max then .fmax p ty d a b else .fmin p ty d a b) p
        { opc := if max then 0x28#8 else 0x27#8, sub := subOf 0 b 0, ty := ty } (assists ty) d
        (fun c t => pickF ty max (c.srcA false ty t a) (c.srcB ty t b)) s := by
  cases max <;> rfl

/-- Settles O19: the order of `fCmp`, by which an operand is selected, is that of the values. -/
theorem minimumMaximum : Obligations.MinimumMaximum := by
  intro s c p ty d a b max i hs
  obtain ⟨hty, hd⟩ := wellFormed_fminmax hs.wf
  refine completesFloat_of _ _ hs (exec_fminmax p ty d a b max s) hd fun th _ _ => ?_
  exact ⟨rfl, pickF_nan hty max, fun _ _ => pickF_zeros hty max, fun h => (pickF_of_less max h).1, fun h => (pickF_of_less max h).2,
    pickF_operand max⟩

/-! # The generator (R262) -/

/-- One round, as arithmetic on 32-bit numbers. -/
def rngRoundNat (x k : Nat) : Nat :=
  let y := (x ^^^ k) * 0x9E3779B1 % 2 ^ 32
  y ^^^ (y / 2 ^ 16)

theorem toNat_rngRound (x k : Word) : (rngRound x k).toNat = rngRoundNat x.toNat k.toNat := by
  have hfactor : (0x9E3779B1#32).toNat = 0x9E3779B1 := rfl
  rw [rngRound, rngRoundNat, BitVec.toNat_xor, BitVec.toNat_ushiftRight, Nat.shiftRight_eq_div_pow, BitVec.toNat_mul, BitVec.toNat_xor, hfactor]

theorem toNat_lowWord (x : Dword) : (x.setWidth 32).toNat = x.toNat % 2 ^ 32 := BitVec.toNat_setWidth 32 x

theorem toNat_highWord (x : Dword) : ((x >>> 32).setWidth 32).toNat = x.toNat / 2 ^ 32 := by
  rw [BitVec.toNat_setWidth, BitVec.toNat_ushiftRight, Nat.shiftRight_eq_div_pow]
  exact Nat.mod_eq_of_lt (by have := x.isLt; omega)

/-- The three rounds of R262. -/
theorem toNat_rngBits (k n : Dword) : (rngBits k n).toNat = rngRoundNat (rngRoundNat (rngRoundNat
    ((n.toNat % 2 ^ 32) ^^^ (k.toNat % 2 ^ 32)) (n.toNat / 2 ^ 32)) (k.toNat / 2 ^ 32)) 0x5851F42D := by
  have hconst : (0x5851F42D#32).toNat = 0x5851F42D := rfl
  rw [rngBits, toNat_rngRound, toNat_rngRound, toNat_rngRound, BitVec.toNat_xor, toNat_lowWord, toNat_lowWord, toNat_highWord, toNat_highWord,
    hconst]

/-- A multiple of 2^e that needs no more digits than the format has is at its own spacing. -/
theorem spacing_le (f : Fmt) {m : Nat} (hm : m ≠ 0) (hlt : m < 2 ^ (f.mbits + 1)) {e : Int} (he : f.qmin ≤ e) : f.spacing m e ≤ e := by
  have hlog := (Nat.log2_lt hm).mpr hlt
  unfold Fmt.spacing ilog
  omega

/-- A number that the format has is rounded to itself (R64). -/
theorem roundTo_exact {f : Fmt} (hf : f.Regular) (mode : RMode) (sat neg : Bool) {m : Nat} (hm : m ≠ 0) (hlt : m < 2 ^ (f.mbits + 1)) {e : Int}
    (he : f.qmin ≤ e) (hmax : m * 2 ^ (e - f.qmin).toNat ≤ maxUnits f) :
    ∃ k, k ≤ f.maxMag ∧ f.codeUnits k = m * 2 ^ (e - f.qmin).toNat ∧ roundTo f mode sat (.fin neg m e) = f.bits neg k := by
  have hspacing := spacing_le f hm hlt he
  have hmin : f.qmin ≤ f.spacing m e := Int.le_max_right ..
  have hunits : f.codeUnits (roundMag f mode neg m e) = m * 2 ^ (e - f.qmin).toNat := by
    rw [codeUnits_roundMag f mode neg hm, roundAt_of_le hspacing, Nat.mul_assoc, ← Nat.pow_add,
      show (e - f.spacing m e).toNat + (f.spacing m e - f.qmin).toNat = (e - f.qmin).toNat by omega]
  have hle : roundMag f mode neg m e ≤ f.maxMag := by
    rw [← codeUnits_le_iff f, hunits, codeUnits_maxMag hf]
    exact hmax
  exact ⟨_, hle, hunits, by rw [roundTo_fin, if_neg (Nat.not_lt.mpr hle)]⟩

/-- The f32 bits of k · 2^-24: they are exact, and their sign is 0. -/
theorem roundTo_unitFraction {k : Nat} (hk : k < 2 ^ 24) :
    roundTo (fmtOf .f32) .rne false (ofInt k (-24)) < 2 ^ 31 ∧
      Units (-149) (decodeF (fmtOf .f32) (roundTo (fmtOf .f32) .rne false (ofInt k (-24)))) (k * 2 ^ 125) := by
  by_cases h0 : k = 0
  · subst h0
    exact ⟨by decide, rfl⟩
  · have hf := regular_fmtOf .f32
    have hmax : k * 2 ^ (-24 - (fmtOf .f32).qmin).toNat ≤ maxUnits (fmtOf .f32) :=
      calc k * 2 ^ (-24 - (fmtOf .f32).qmin).toNat ≤ 2 ^ 24 * 2 ^ (-24 - (fmtOf .f32).qmin).toNat := Nat.mul_le_mul_right _ (Nat.le_of_lt hk)
        _ ≤ maxUnits (fmtOf .f32) := by decide
    obtain ⟨c, hc, hunits, hround⟩ := roundTo_exact hf .rne false false h0 hk (e := -24) (by decide) hmax
    have hfin : ofInt k (-24) = .fin false k (-24) := by simp [ofInt, h0]
    have hcode := units_decodeF_bits hf false hc
    rw [hfin, hround]
    rw [hunits] at hcode
    refine ⟨?_, ?_⟩
    · rw [Fmt.bits, if_neg Bool.false_ne_true, Nat.zero_add]
      exact Nat.lt_of_le_of_lt hc (maxMag_lt hf)
    · simpa [Fmt.qmin, fmtOf] using hcode

/-- The word that `rngk` writes for 32 bits of the generator. -/
def rngWord (ty : Ty) (x : Word) : Word :=
  match ty with
  | .f32 => BitVec.ofNat 32 (roundTo (fmtOf .f32) .rne false (ofInt ((x.toNat / 256 : Nat) : Int) (-24)))
  | _ => x

theorem vwrite_word (g : Group) (t n : Nat) (x : Word) : g.vwrite false t n (x.setWidth 64) = g.vset t n x := by
  rw [Group.vwrite, if_neg Bool.false_ne_true, BitVec.setWidth_setWidth_of_le x (by decide), BitVec.setWidth_eq]

theorem exec_rngk {s : State} {c : Cur} {p : Pred} {ty : Ty} {d a b : Reg} (hs : Stands s c (.rngk p ty d a b)) :
    exec (.rngk p ty d a b) s = .next (s.finish c (c.mapThreads p fun t g => g.vwrite false t d.toNat
      ((rngWord ty (rngBits (c.g.kget a.toNat) (c.g.v64get t b.toNat))).setWidth 64))) := by
  simp only [vwrite_word]
  exact issueI_of_stands hs p _

theorem toNat_rngWord_bits (x : Word) : ((rngWord .b32 x).setWidth 64).toNat = x.toNat :=
  BitVec.toNat_setWidth_of_le (by decide)

/-- Under f32 the word holds the fraction of the upper 24 bits. -/
theorem rngWord_fraction (x : Word) :
    ((rngWord .f32 x).setWidth 64).toNat < 2 ^ 31 ∧
      Units (-149) (decodeF (fmtOf .f32) ((rngWord .f32 x).setWidth 64).toNat) ((x.toNat / 2 ^ 8 : Nat) * 2 ^ 125) := by
  have hfraction := roundTo_unitFraction (k := x.toNat / 2 ^ 8) (by have := x.isLt; omega)
  have hbits : ((rngWord .f32 x).setWidth 64).toNat = roundTo (fmtOf .f32) .rne false (ofInt (x.toNat / 2 ^ 8 : Nat) (-24)) := by
    rw [BitVec.toNat_setWidth_of_le (by decide)]
    exact (BitVec.toNat_ofNat _ 32).trans (Nat.mod_eq_of_lt (Nat.lt_trans hfraction.1 (by decide)))
  rw [hbits]
  exact hfraction

theorem wellFormed_rngk {p : Pred} {ty : Ty} {d a b : Reg} (h : (Instr.rngk p ty d a b).wellFormed = true) : ty = .b32 ∨ ty = .f32 := by
  have h' : ((ty = .b32 || ty = .f32) && okK a && okV true b) = true := h
  simp only [Bool.and_eq_true, Bool.or_eq_true, decide_eq_true_eq] at h'
  obtain ⟨⟨hty, -⟩, -⟩ := h'
  exact hty

/-! # The exchange between threads (R263, R264) -/

theorem exec_xsel {s : State} {c : Cur} {p : Pred} {ty : Ty} {op : XselOp} {d a : Reg} {b : OpB} (hs : Stands s c (.xsel p ty op d a b)) :
    exec (.xsel p ty op d a b) s = .next (s.finish c (c.mapThreads p fun t g =>
      let j := xselFrom op t (c.srcB .b32 t b).toNat
      g.vwrite ty.wide t d.toNat (if 0 ≤ j && j ≤ 31 then c.g.vread ty.wide j.toNat a.toNat else 0))) :=
  issueI_of_stands hs p _

theorem exec_qswap {s : State} {c : Cur} {p : Pred} {ty : Ty} {dir : QDir} {d a : Reg} (hs : Stands s c (.qswap p ty dir d a)) :
    exec (.qswap p ty dir d a) s = .next (s.finish c (c.mapThreads p fun t g =>
      g.vwrite ty.wide t d.toNat (c.g.vread ty.wide (t / 4 * 4 + quadSlot dir (t % 4)) a.toNat))) :=
  issueI_of_stands hs p _

theorem exec_qbcast {s : State} {c : Cur} {p : Pred} {ty : Ty} {slot : BitVec 2} {d a : Reg} (hs : Stands s c (.qbcast p ty slot d a)) :
    exec (.qbcast p ty slot d a) s = .next (s.finish c (c.mapThreads p fun t g =>
      g.vwrite ty.wide t d.toNat (c.g.vread ty.wide (t / 4 * 4 + slot.toNat) a.toNat))) :=
  issueI_of_stands hs p _

theorem wellFormed_xsel {p : Pred} {ty : Ty} {op : XselOp} {d a : Reg} {b : OpB} (h : (Instr.xsel p ty op d a b).wellFormed = true) :
    okV ty.wide d = true := by
  have h' : (ty.isBits && okV ty.wide d && okV ty.wide a && okB false false b && !b.is128) = true := h
  simp only [Bool.and_eq_true] at h'
  obtain ⟨⟨⟨⟨-, hd⟩, -⟩, -⟩, -⟩ := h'
  exact hd

/-- What the encoding admits of the destination of an exchange in a quad. -/
theorem okV_of_quad {ty : Ty} {d a : Reg} (h : (ty.isBits && okV ty.wide d && okV ty.wide a) = true) : okV ty.wide d = true := by
  simp only [Bool.and_eq_true] at h
  exact h.1.2

/-- `qswap` changes only the low bits of the thread's number, and those as in slot 0. -/
theorem quadSlot_eq_xor (dir : QDir) {t : Nat} (ht : t < 32) : t / 4 * 4 + quadSlot dir (t % 4) = t ^^^ quadSlot dir 0 := by
  revert t
  cases dir <;> decide

/-- Settles O23: `rngk` by the arithmetic of its rounds, the exchanges by the thread that each names. -/
theorem counterAndExchange : Obligations.CounterAndExchange := by
  refine ⟨fun s c p ty d a b hs => ?_, fun s c p ty d a => ⟨fun op b hs => ?_, fun dir hs => ?_, fun slot hs => ?_⟩⟩
  · refine completesLane_of _ _ hs.cur (exec_rngk hs) rfl fun th _ _ => ?_
    intro k n round x
    have hx : (rngBits k n).toNat = x := toNat_rngBits k n
    rw [← hx]
    rcases wellFormed_rngk hs.wf with rfl | rfl
    · exact toNat_rngWord_bits _
    · exact rngWord_fraction _
  · refine completesLane_of _ _ hs.cur (exec_xsel hs) (wellFormed_xsel hs.wf) fun th _ _ => ?_
    simp only [Bool.and_eq_true, decide_eq_true_eq]
    cases op <;> rfl
  · refine completesLane_of _ _ hs.cur (exec_qswap hs) (okV_of_quad hs.wf) fun th hth _ => ?_
    rw [quadSlot_eq_xor dir hth]
    cases dir <;> rfl
  · refine completesLane_of _ _ hs.cur (exec_qbcast hs) (okV_of_quad hs.wf) fun th _ _ => ?_
    rw [show th / 4 * 4 = th - th % 4 by omega]

end Sys2Proof.Machine
